-- ==== Sys2Proof/Word.lean ====
section
/-! DEFINITION. The bit-vector widths the block's fields have (30_encoding.md R80, R93): bytes of the
streams, 16-bit divisors, 32-bit counts. Counts and lengths are `Nat` once read. -/

namespace Sys2Proof

/-- A byte of a descriptor, a buffer, a stream or a result. -/
abbrev Byte := BitVec 8

/-- A 16-bit field: a clock divisor, or a command's count-minus-one (R93, R97). -/
abbrev Half := BitVec 16

/-- A 32-bit field: `numBits`, `numBytes` or `count` (R93). -/
abbrev Word := BitVec 32

end Sys2Proof
end

