-- ==== Sys2Proof/Config.lean ====
section
/-! DEFINITION. What is fixed for an instance (00_scope.md R8), the types of the answers the outside
world gives, and the free values: constants without a body, of which nothing can be proved. -/

namespace Sys2Proof

/-- The chip variant, a per-instance constant (10_state.md R30). -/
inductive Variant where
  | standard
  | hiSpeedDual
  | hiSpeedQuad
  deriving DecidableEq, Repr, Inhabited

/-- Is the chip a high-speed one (60_exceptions.md R297). -/
def Variant.hiSpeed : Variant → Bool
  | .standard => false
  | .hiSpeedDual => true
  | .hiSpeedQuad => true

/-- The parameters of 00_scope.md R8 that are not fixed there, constant for an instance's life. -/
structure Params where
  /-- `VARIANT`. -/
  variant : Variant
  /-- `P_WRITE_CHUNK`, "any value ≥ 1". -/
  writeChunk : Nat
  writeChunk_pos : 0 < writeChunk
  /-- `P_RX_TIMEOUT_MS`. -/
  rxTimeoutMs : Nat
  /-- `P_SYNC_TIMEOUT_MS`. -/
  syncTimeoutMs : Nat
  /-- `P_HS_PULSE_MAX_FREE`. -/
  hsPulseMaxFree : Nat
  /-- `P_HS_PULSE_MAX_PINSTOP`. -/
  hsPulseMaxPinstop : Nat
  /-- `P_DIVISOR_MAX`; a parameter, because 95_test_vectors.md §7 sets it to 1000 (log 3). -/
  divisorMax : Nat
  /-- `P_SEND_IMMEDIATE_ON_READ`. -/
  sendImmediateOnRead : Bool
  deriving DecidableEq, Repr

namespace Config

/-- The defaults of R8 for a chip of the given variant. -/
def defaultParams (v : Variant) : Params where
  variant := v
  writeChunk := 4096
  writeChunk_pos := by decide
  rxTimeoutMs := 5000
  syncTimeoutMs := 5000
  hsPulseMaxFree := 250000000
  hsPulseMaxPinstop := 8
  divisorMax := 65535
  sendImmediateOnRead := true

/-- `P_CMD_BUF_MAX` (R8). -/
def cmdBufMax : Nat := 131072

/-- `N_MIN` (R8). -/
def nMin : Nat := 2

/-- `N_MAX` (R8). -/
def nMax : Nat := 524280

/-- `P_WRITE_BYTES_MAX` (R8). -/
def writeBytesMax : Nat := 65535

/-- `P_PULSE_MAX` (R8). -/
def pulseMax : Nat := 2000000000

/-- `P_STD_BASE_HZ` (R8). -/
def stdBaseHz : Nat := 12000000

/-- `P_HS_BASE_HZ` with the prescaler off (R8). -/
def hsBaseHz : Nat := 60000000

/-- `P_HS_BASE_HZ` with the ÷5 prescaler on (R8). -/
def hsDiv5BaseHz : Nat := 12000000

/-- The opcodes 30_encoding.md R100 names as MPSSE opcodes the block never emits (log 15). -/
def namedOtherOpcodes : List Byte :=
  [0x81#8, 0x82#8, 0x83#8, 0x84#8, 0x85#8, 0x8E#8, 0x94#8, 0x95#8]

end Config

/-- The sixteen states of the IEEE 1149.1 TAP controller (00_scope.md R13). -/
inductive TapState where
  | testLogicReset
  | runTestIdle
  | selectDRScan
  | captureDR
  | shiftDR
  | exit1DR
  | pauseDR
  | exit2DR
  | updateDR
  | selectIRScan
  | captureIR
  | shiftIR
  | exit1IR
  | pauseIR
  | exit2IR
  | updateIR
  deriving DecidableEq, Repr, Inhabited

/-- The transport's answer to one `TransportWrite` of n bytes (20_memory.md R58, R59). `delivered` is
how many bytes of the whole `Send` the downstream received when the send fails: any prefix (U2). -/
inductive WriteReply where
  /-- All n bytes were written. -/
  | full
  /-- `written` bytes were written, without a transport error. -/
  | wrote (written delivered : Nat)
  /-- A transport error. -/
  | failed (delivered : Nat)
  deriving DecidableEq, Repr, Inhabited

/-- One round of the polling loop of 20_memory.md R60 or 44_session_ops.md R260. -/
structure Poll where
  /-- Milliseconds of TIME since its last reading. -/
  dt : Nat
  /-- How many of the bytes the downstream has produced have arrived at the transport by now. -/
  visible : Nat
  /-- `TransportQueuedByteCount` fails. -/
  countFails : Bool
  /-- `TransportRead` fails. -/
  readFails : Bool
  deriving DecidableEq, Repr, Inhabited

/-- One wait for bytes from RSP: its polls, and, if it fails, what the downstream has done of the bytes
sent by then (70_reset_and_hazards.md R325 case 3, R331). A wait that succeeds has no use for the last
two (log 6). -/
structure Wait where
  /-- The rounds of the polling loop. -/
  polls : List Poll
  /-- How many of the commands waiting on CMD the downstream has executed when the wait fails. -/
  executed : Nat
  /-- How many of the last bytes the operation sent never reach the downstream when the wait fails. -/
  lost : Nat
  deriving DecidableEq, Repr, Inhabited

namespace Config

/-- FREE VALUE (log 8): the n-th result byte returned while `synced = 0` (R324, U1). -/
opaque freeResultByte : Nat → Byte

/-- FREE VALUE (log 4): the answer to a `TransportWrite` beyond the listed ones. -/
opaque freeWriteReply : Nat → WriteReply

/-- FREE VALUE (log 4): a wait beyond the listed ones. -/
opaque freeWait : Nat → Wait

/-- FREE VALUE (log 4): does an XPORT call beyond the listed ones succeed. -/
opaque freeCall : Nat → Bool

/-- FREE VALUE (logs 9, 10): a line level or a sampled bit the spec does not state. -/
opaque freeBit : Nat → Bool

/-- FREE VALUE (log 7): what the target captures beyond the listed captures. -/
opaque freeCapture : Nat → List Bool

/-- FREE VALUE (log 11): clocks before GPIOL1 stops a pulse, beyond the listed ones. -/
opaque freeStop : Nat → Nat

/-- FREE VALUE (log 12): the TAP state after bytes the downstream did not take as MPSSE commands. -/
opaque freeTap : Nat → TapState

/-- FREE VALUE (log 12): what the downstream returns for such bytes. -/
opaque freeBytes : Nat → List Byte

/-- FREE VALUE (log 12): a device register after such bytes. -/
opaque freeHalf : Nat → Half

end Config

end Sys2Proof
end

