-- ==== Sys2Proof/Syntax.lean ====
section
/-! DEFINITION. The instructions: one constructor per row of spec/opcode_table.json. The first sixteen
are the host operations the block accepts on OP (30_encoding.md R82); the last eighteen are the MPSSE
commands the block puts on CMD and the downstream executes (R97). Fields hold what decoding reads; the
ranges of R150, R230 and so on are checked by each operation, not here (R93). -/

namespace Sys2Proof

inductive Instr where
  /-- MOVE: `state` is a TAP state code (R86, R129). -/
  | move (state : Byte)
  /-- WRITE: `numBytes` is the payload's length (R87, R159). -/
  | write (ir : Bool) (exit : Byte) (numBits : Word) (data : List Byte)
  /-- READ (R88, R160). -/
  | read (ir : Bool) (exit : Byte) (numBits : Word)
  /-- WRITE_READ (R87, R161). -/
  | writeRead (ir : Bool) (exit : Byte) (numBits : Word) (data : List Byte)
  /-- SEQ_CLEAR (R85, R191). -/
  | seqClear
  /-- SEQ_EXECUTE (R85, R196). -/
  | seqExecute
  /-- SEQ_ADD_WRITE (R87, R193). -/
  | seqAddWrite (ir : Bool) (exit : Byte) (numBits : Word) (data : List Byte)
  /-- SEQ_ADD_READ (R88, R194). -/
  | seqAddRead (ir : Bool) (exit : Byte) (numBits : Word)
  /-- SEQ_ADD_WRITE_READ (R87, R195). -/
  | seqAddWriteRead (ir : Bool) (exit : Byte) (numBits : Word) (data : List Byte)
  /-- PULSE (R89, R230). -/
  | pulse (count : Word)
  /-- PULSE_HS (R90, R232). -/
  | pulseHs (pinstop stoplevel : Bool) (count : Word)
  /-- SET_CLOCK (R91, R234). -/
  | setClock (divisor : Half)
  /-- SET_DIV5 (R92, R235). -/
  | setDiv5 (on : Bool)
  /-- GET_FREQ (R91, R236). -/
  | getFreq (divisor : Half)
  /-- INIT (R91, R262). -/
  | init (divisor : Half)
  /-- SYNC (R85, R260). -/
  | sync
  /-- CLK_BYTES_OUT: `L` is the number of data bytes minus one. -/
  | clkBytesOut (data : List Byte)
  /-- CLK_BITS_OUT: clocks `n + 1` bits of `d`. -/
  | clkBitsOut (n : BitVec 3) (d : Byte)
  /-- CLK_BYTES_IN: reads `len + 1` bytes. -/
  | clkBytesIn (len : Half)
  /-- CLK_BITS_IN: reads `n + 1` bits. -/
  | clkBitsIn (n : BitVec 3)
  /-- CLK_BYTES_OUT_IN: `L` is the number of data bytes minus one. -/
  | clkBytesOutIn (data : List Byte)
  /-- CLK_BITS_OUT_IN: clocks `n + 1` bits of `d` out and in. -/
  | clkBitsOutIn (n : BitVec 3) (d : Byte)
  /-- TMS_OUT: `n + 1` TMS clocks of pattern `p` (R99). -/
  | tmsOut (n : BitVec 3) (p : Byte)
  /-- TMS_OUT_IN: the same, with one response byte. -/
  | tmsOutIn (n : BitVec 3) (p : Byte)
  /-- SET_PINS_LOW. -/
  | setPinsLow (val dir : Byte)
  /-- SET_TCK_DIVISOR. -/
  | setTckDivisor (div : Half)
  /-- SEND_IMMEDIATE. -/
  | sendImmediate
  /-- DIV5_OFF, high-speed chips only. -/
  | div5Off
  /-- DIV5_ON, high-speed chips only. -/
  | div5On
  /-- CLK_OCTETS: `len + 1` units of 8 clocks, high-speed chips only. -/
  | clkOctets (len : Half)
  /-- CLK_OCTETS_UNTIL_HIGH, high-speed chips only. -/
  | clkOctetsUntilHigh (len : Half)
  /-- CLK_OCTETS_UNTIL_LOW, high-speed chips only. -/
  | clkOctetsUntilLow (len : Half)
  /-- SYNC_PROBE_1, the deliberately invalid opcode 0xAA. -/
  | syncProbe1
  /-- SYNC_PROBE_2, the deliberately invalid opcode 0xAB. -/
  | syncProbe2
  deriving DecidableEq, Repr

end Sys2Proof
end

