-- ==== Sys2Proof/WellFormed.lean ====
section
/-! DEFINITION. Which instruction terms have an encoding (30_encoding.md R84, R87, R97, R98): the checks
are on the shape of a term only, so a host operation with an out-of-range operand is well formed (R93). -/

namespace Sys2Proof

/-- A payload's length fits the 32-bit `numBytes` field (R87). -/
def payloadFits (data : List Byte) : Bool := decide (data.length < 2 ^ 32)

/-- A byte-clocking command has 1 to 65536 data bytes (R98). -/
def byteCountFits (data : List Byte) : Bool :=
  decide (1 ≤ data.length) && decide (data.length ≤ 65536)

/-- A TMS command has 1 to 7 clocks, so `n ≤ 6` (R97, R98). -/
def tmsCountFits (n : BitVec 3) : Bool := decide (n ≠ 7#3)

/-- The instruction has an encoding. -/
def Instr.wf : Instr → Bool
  | .move _ => true
  | .write _ _ _ data => payloadFits data
  | .read _ _ _ => true
  | .writeRead _ _ _ data => payloadFits data
  | .seqClear => true
  | .seqExecute => true
  | .seqAddWrite _ _ _ data => payloadFits data
  | .seqAddRead _ _ _ => true
  | .seqAddWriteRead _ _ _ data => payloadFits data
  | .pulse _ => true
  | .pulseHs pinstop stoplevel _ => pinstop || !stoplevel
  | .setClock _ => true
  | .setDiv5 _ => true
  | .getFreq _ => true
  | .init _ => true
  | .sync => true
  | .clkBytesOut data => byteCountFits data
  | .clkBitsOut _ _ => true
  | .clkBytesIn _ => true
  | .clkBitsIn _ => true
  | .clkBytesOutIn data => byteCountFits data
  | .clkBitsOutIn _ _ => true
  | .tmsOut n _ => tmsCountFits n
  | .tmsOutIn n _ => tmsCountFits n
  | .setPinsLow _ _ => true
  | .setTckDivisor _ => true
  | .sendImmediate => true
  | .div5Off => true
  | .div5On => true
  | .clkOctets _ => true
  | .clkOctetsUntilHigh _ => true
  | .clkOctetsUntilLow _ => true
  | .syncProbe1 => true
  | .syncProbe2 => true

/-- Does the block accept the instruction on OP (R82), or is it a command the downstream executes (R97). -/
def Instr.isHostOp : Instr → Bool
  | .move _ => true
  | .write _ _ _ _ => true
  | .read _ _ _ => true
  | .writeRead _ _ _ _ => true
  | .seqClear => true
  | .seqExecute => true
  | .seqAddWrite _ _ _ _ => true
  | .seqAddRead _ _ _ => true
  | .seqAddWriteRead _ _ _ _ => true
  | .pulse _ => true
  | .pulseHs _ _ _ => true
  | .setClock _ => true
  | .setDiv5 _ => true
  | .getFreq _ => true
  | .init _ => true
  | .sync => true
  | .clkBytesOut _ => false
  | .clkBitsOut _ _ => false
  | .clkBytesIn _ => false
  | .clkBitsIn _ => false
  | .clkBytesOutIn _ => false
  | .clkBitsOutIn _ _ => false
  | .tmsOut _ _ => false
  | .tmsOutIn _ _ => false
  | .setPinsLow _ _ => false
  | .setTckDivisor _ => false
  | .sendImmediate => false
  | .div5Off => false
  | .div5On => false
  | .clkOctets _ => false
  | .clkOctetsUntilHigh _ => false
  | .clkOctetsUntilLow _ => false
  | .syncProbe1 => false
  | .syncProbe2 => false

end Sys2Proof
end

