-- ==== Sys2Proof/Decode.lean ====
section
/-! DEFINITION. Decoding and encoding. Two decoders, because the hardware has two: `decodeOp` reads one
whole descriptor frame on OP (30_encoding.md R80 to R95), `decodeCmd` reads the next command of the CMD
byte stream as the downstream does (R96 to R100). `encode` writes both. -/

namespace Sys2Proof

/-! ### Byte order (R10, R54, R55) -/

/-- `u16le(v)`. -/
def u16le (v : Nat) : List Byte := [BitVec.ofNat 8 v, BitVec.ofNat 8 (v / 256)]

/-- `u32le(v)`. -/
def u32le (v : Nat) : List Byte :=
  [BitVec.ofNat 8 v, BitVec.ofNat 8 (v / 256), BitVec.ofNat 8 (v / 65536),
    BitVec.ofNat 8 (v / 16777216)]

/-- The 16-bit value of two bytes, low byte first. -/
def ofU16le (b0 b1 : Byte) : Half := BitVec.ofNat 16 (b0.toNat + 256 * b1.toNat)

/-- The 32-bit value of four bytes, low byte first. -/
def ofU32le (b0 b1 b2 b3 : Byte) : Word :=
  BitVec.ofNat 32 (b0.toNat + 256 * b1.toNat + 65536 * b2.toNat + 16777216 * b3.toNat)

/-! ### Host descriptors -/

/-- Why a frame on OP is not a descriptor, in the order the block checks (R80). Each is reported as
InvalidOperation. -/
inductive OpReject where
  /-- The frame has no byte 0 (log 22). -/
  | noOperation
  /-- Byte 0 is not an operation code of R82. -/
  | unassigned
  /-- The frame's length is not the one its format gives (R95). -/
  | frameLength
  /-- A reserved flag bit is set (R84). -/
  | reservedFlag
  deriving DecidableEq, Repr

inductive OpDecode where
  | instr (i : Instr)
  | reject (r : OpReject)
  deriving DecidableEq, Repr

/-- Format F_NONE (R85). -/
def decodeNone (i : Instr) : List Byte → OpDecode
  | [] => .instr i
  | _ :: _ => .reject .frameLength

/-- Format F_STATE (R86). -/
def decodeState (mk : Byte → Instr) : List Byte → OpDecode
  | [state] => .instr (mk state)
  | _ => .reject .frameLength

/-- The `ir` bit of a shift form's flag byte; the other bits are reserved (R84). -/
def irFlag (flags : Byte) : Option Bool :=
  if flags.toNat < 2 then some (flags.getLsbD 0) else none

/-- Format F_SHIFT_W (R87): length first, then the reserved flag bits (R80). -/
def decodeShiftW (mk : Bool → Byte → Word → List Byte → Instr) : List Byte → OpDecode
  | flags :: exit :: n0 :: n1 :: n2 :: n3 :: m0 :: m1 :: m2 :: m3 :: data =>
    if data.length = (ofU32le m0 m1 m2 m3).toNat then
      match irFlag flags with
      | some ir => .instr (mk ir exit (ofU32le n0 n1 n2 n3) data)
      | none => .reject .reservedFlag
    else .reject .frameLength
  | _ => .reject .frameLength

/-- Format F_SHIFT_R (R88). -/
def decodeShiftR (mk : Bool → Byte → Word → Instr) : List Byte → OpDecode
  | [flags, exit, n0, n1, n2, n3] =>
    match irFlag flags with
    | some ir => .instr (mk ir exit (ofU32le n0 n1 n2 n3))
    | none => .reject .reservedFlag
  | _ => .reject .frameLength

/-- Format F_COUNT (R89). -/
def decodeCount (mk : Word → Instr) : List Byte → OpDecode
  | [c0, c1, c2, c3] => .instr (mk (ofU32le c0 c1 c2 c3))
  | _ => .reject .frameLength

/-- Format F_PULSE_HS (R90): flag bits 0 `pinstop` and 1 `stoplevel`, which must be 0 when `pinstop`
is 0 (R84). -/
def decodePulseHs : List Byte → OpDecode
  | [flags, c0, c1, c2, c3] =>
    if flags.toNat < 4 then
      if flags.getLsbD 0 || !flags.getLsbD 1 then
        .instr (.pulseHs (flags.getLsbD 0) (flags.getLsbD 1) (ofU32le c0 c1 c2 c3))
      else .reject .reservedFlag
    else .reject .reservedFlag
  | _ => .reject .frameLength

/-- Format F_U16 (R91). -/
def decodeU16 (mk : Half → Instr) : List Byte → OpDecode
  | [d0, d1] => .instr (mk (ofU16le d0 d1))
  | _ => .reject .frameLength

/-- Format F_FLAG (R92): flag bit 0 `on`, the others reserved (R84). -/
def decodeFlag (mk : Bool → Instr) : List Byte → OpDecode
  | [flags] =>
    if flags.toNat < 2 then .instr (mk (flags.getLsbD 0)) else .reject .reservedFlag
  | _ => .reject .frameLength

/-- Decode one frame on OP: the operation code (R82), the frame length (R95), the reserved bits (R84),
in that order (R80). -/
def decodeOp : List Byte → OpDecode
  | [] => .reject .noOperation
  | op :: args =>
    match op with
    | 0x01#8 => decodeState .move args
    | 0x02#8 => decodeShiftW .write args
    | 0x03#8 => decodeShiftR .read args
    | 0x04#8 => decodeShiftW .writeRead args
    | 0x10#8 => decodeNone .seqClear args
    | 0x11#8 => decodeNone .seqExecute args
    | 0x12#8 => decodeShiftW .seqAddWrite args
    | 0x13#8 => decodeShiftR .seqAddRead args
    | 0x14#8 => decodeShiftW .seqAddWriteRead args
    | 0x20#8 => decodeCount .pulse args
    | 0x21#8 => decodePulseHs args
    | 0x22#8 => decodeU16 .setClock args
    | 0x23#8 => decodeFlag .setDiv5 args
    | 0x24#8 => decodeU16 .getFreq args
    | 0x30#8 => decodeU16 .init args
    | 0x31#8 => decodeNone .sync args
    | _ => .reject .unassigned

/-! ### MPSSE commands -/

/-- What the downstream finds at the head of its unexecuted CMD bytes. -/
inductive CmdDecode where
  /-- Nothing, or the first bytes of a command whose rest has not arrived: they wait (log 34). -/
  | more
  /-- A whole command, and the bytes after it. -/
  | cmd (i : Instr) (rest : List Byte)
  /-- An opcode outside R97's table, and the bytes after it (R100, log 15). -/
  | unlisted (op : Byte) (rest : List Byte)
  /-- An opcode of the table with an operand R97 does not give it (log 14). -/
  | undescribed
  deriving DecidableEq, Repr

/-- Formats M_SINGLE: no parameter bytes. -/
def cmdSingle (i : Instr) (args : List Byte) : CmdDecode := .cmd i args

/-- Format M_LEN16_DATA: `L` and `L + 1` data bytes. While some of them have not arrived none is clocked,
and the bytes that come next complete the command, whatever operation sends them (log 34). -/
def cmdLen16Data (mk : List Byte → Instr) : List Byte → CmdDecode
  | l0 :: l1 :: rest =>
    let count := (ofU16le l0 l1).toNat + 1
    if count ≤ rest.length then .cmd (mk (rest.take count)) (rest.drop count) else .more
  | _ => .more

/-- Formats M_LEN16 and M_U16: one 16-bit field, low byte first. -/
def cmdLen16 (mk : Half → Instr) : List Byte → CmdDecode
  | l0 :: l1 :: rest => .cmd (mk (ofU16le l0 l1)) rest
  | _ => .more

/-- Format M_LEN3_DATA: the count in bits 2:0, whose upper bits are 0, and one data byte. -/
def cmdLen3Data (mk : BitVec 3 → Byte → Instr) : List Byte → CmdDecode
  | n :: d :: rest =>
    if n.toNat < 8 then .cmd (mk (n.setWidth 3) d) rest else .undescribed
  | _ => .more

/-- Format M_LEN3. -/
def cmdLen3 (mk : BitVec 3 → Instr) : List Byte → CmdDecode
  | n :: rest => if n.toNat < 8 then .cmd (mk (n.setWidth 3)) rest else .undescribed
  | _ => .more

/-- Format M_TMS: the count is at most 6, and one pattern byte (R99). -/
def cmdTms (mk : BitVec 3 → Byte → Instr) : List Byte → CmdDecode
  | n :: p :: rest =>
    if n.toNat < 7 then .cmd (mk (n.setWidth 3) p) rest else .undescribed
  | _ => .more

/-- Format M_PINS. -/
def cmdPins (mk : Byte → Byte → Instr) : List Byte → CmdDecode
  | v :: d :: rest => .cmd (mk v d) rest
  | _ => .more

/-- A command only a high-speed chip has; a Standard chip does not recognise its opcode (log 16). -/
def cmdHiSpeed (hs : Bool) (op : Byte) (args : List Byte) (r : CmdDecode) : CmdDecode :=
  if hs then r else .unlisted op args

/-- Decode the next command of the CMD stream, on a high-speed chip (`hs`) or a Standard one (R97). -/
def decodeCmd (hs : Bool) : List Byte → CmdDecode
  | [] => .more
  | op :: args =>
    match op with
    | 0x19#8 => cmdLen16Data .clkBytesOut args
    | 0x1B#8 => cmdLen3Data .clkBitsOut args
    | 0x28#8 => cmdLen16 .clkBytesIn args
    | 0x2A#8 => cmdLen3 .clkBitsIn args
    | 0x39#8 => cmdLen16Data .clkBytesOutIn args
    | 0x3B#8 => cmdLen3Data .clkBitsOutIn args
    | 0x4B#8 => cmdTms .tmsOut args
    | 0x6B#8 => cmdTms .tmsOutIn args
    | 0x80#8 => cmdPins .setPinsLow args
    | 0x86#8 => cmdLen16 .setTckDivisor args
    | 0x87#8 => cmdSingle .sendImmediate args
    | 0x8A#8 => cmdHiSpeed hs op args (cmdSingle .div5Off args)
    | 0x8B#8 => cmdHiSpeed hs op args (cmdSingle .div5On args)
    | 0x8F#8 => cmdHiSpeed hs op args (cmdLen16 .clkOctets args)
    | 0x9C#8 => cmdHiSpeed hs op args (cmdLen16 .clkOctetsUntilHigh args)
    | 0x9D#8 => cmdHiSpeed hs op args (cmdLen16 .clkOctetsUntilLow args)
    | 0xAA#8 => cmdSingle .syncProbe1 args
    | 0xAB#8 => cmdSingle .syncProbe2 args
    | _ => .unlisted op args

/-! ### Encoding -/

/-- A flag byte with one named bit (R84). -/
def flagByte (b : Bool) : Byte := if b then 0x01#8 else 0x00#8

/-- The flag byte of PULSE_HS (R84). -/
def pulseHsFlags (pinstop stoplevel : Bool) : Byte :=
  (if pinstop then 0x01#8 else 0x00#8) ||| (if stoplevel then 0x02#8 else 0x00#8)

/-- Format F_SHIFT_W (R87). -/
def encodeShiftW (op : Byte) (ir : Bool) (exit : Byte) (numBits : Word) (data : List Byte) :
    List Byte :=
  [op, flagByte ir, exit] ++ u32le numBits.toNat ++ u32le data.length ++ data

/-- Format F_SHIFT_R (R88). -/
def encodeShiftR (op : Byte) (ir : Bool) (exit : Byte) (numBits : Word) : List Byte :=
  [op, flagByte ir, exit] ++ u32le numBits.toNat

/-- A byte-clocking command with data (R97, R98): the field holds the count minus one. -/
def encodeLen16Data (op : Byte) (data : List Byte) : List Byte :=
  [op] ++ u16le (data.length - 1) ++ data

/-- The bytes of an instruction: a frame on OP (R85 to R92) or a command on CMD (R97). -/
def encode : Instr → List Byte
  | .move state => [0x01#8, state]
  | .write ir exit numBits data => encodeShiftW 0x02#8 ir exit numBits data
  | .read ir exit numBits => encodeShiftR 0x03#8 ir exit numBits
  | .writeRead ir exit numBits data => encodeShiftW 0x04#8 ir exit numBits data
  | .seqClear => [0x10#8]
  | .seqExecute => [0x11#8]
  | .seqAddWrite ir exit numBits data => encodeShiftW 0x12#8 ir exit numBits data
  | .seqAddRead ir exit numBits => encodeShiftR 0x13#8 ir exit numBits
  | .seqAddWriteRead ir exit numBits data => encodeShiftW 0x14#8 ir exit numBits data
  | .pulse count => 0x20#8 :: u32le count.toNat
  | .pulseHs pinstop stoplevel count =>
    [0x21#8, pulseHsFlags pinstop stoplevel] ++ u32le count.toNat
  | .setClock divisor => 0x22#8 :: u16le divisor.toNat
  | .setDiv5 on => [0x23#8, flagByte on]
  | .getFreq divisor => 0x24#8 :: u16le divisor.toNat
  | .init divisor => 0x30#8 :: u16le divisor.toNat
  | .sync => [0x31#8]
  | .clkBytesOut data => encodeLen16Data 0x19#8 data
  | .clkBitsOut n d => [0x1B#8, n.setWidth 8, d]
  | .clkBytesIn len => 0x28#8 :: u16le len.toNat
  | .clkBitsIn n => [0x2A#8, n.setWidth 8]
  | .clkBytesOutIn data => encodeLen16Data 0x39#8 data
  | .clkBitsOutIn n d => [0x3B#8, n.setWidth 8, d]
  | .tmsOut n p => [0x4B#8, n.setWidth 8, p]
  | .tmsOutIn n p => [0x6B#8, n.setWidth 8, p]
  | .setPinsLow val dir => [0x80#8, val, dir]
  | .setTckDivisor div => 0x86#8 :: u16le div.toNat
  | .sendImmediate => [0x87#8]
  | .div5Off => [0x8A#8]
  | .div5On => [0x8B#8]
  | .clkOctets len => 0x8F#8 :: u16le len.toNat
  | .clkOctetsUntilHigh len => 0x9C#8 :: u16le len.toNat
  | .clkOctetsUntilLow len => 0x9D#8 :: u16le len.toNat
  | .syncProbe1 => [0xAA#8]
  | .syncProbe2 => [0xAB#8]

/-! ### One number for an instruction's bits, as spec/opcode_table.json numbers them -/

/-- The first `n` bytes of a number, bits 7:0 first. -/
def wordBytes : Nat → Nat → List Byte
  | 0, _ => []
  | n + 1, w => BitVec.ofNat 8 w :: wordBytes n (w / 256)

/-- The length of an instruction from its first bytes (R95, R97); `none` for an opcode of neither set. -/
def tableLength (w : Nat) : Option Nat :=
  match BitVec.ofNat 8 w with
  | 0x01#8 => some 2
  | 0x02#8 => some (11 + w / 2 ^ 56 % 2 ^ 32)
  | 0x03#8 => some 7
  | 0x04#8 => some (11 + w / 2 ^ 56 % 2 ^ 32)
  | 0x10#8 => some 1
  | 0x11#8 => some 1
  | 0x12#8 => some (11 + w / 2 ^ 56 % 2 ^ 32)
  | 0x13#8 => some 7
  | 0x14#8 => some (11 + w / 2 ^ 56 % 2 ^ 32)
  | 0x20#8 => some 5
  | 0x21#8 => some 6
  | 0x22#8 => some 3
  | 0x23#8 => some 2
  | 0x24#8 => some 3
  | 0x30#8 => some 3
  | 0x31#8 => some 1
  | 0x19#8 => some (4 + w / 2 ^ 8 % 2 ^ 16)
  | 0x1B#8 => some 3
  | 0x28#8 => some 3
  | 0x2A#8 => some 2
  | 0x39#8 => some (4 + w / 2 ^ 8 % 2 ^ 16)
  | 0x3B#8 => some 3
  | 0x4B#8 => some 3
  | 0x6B#8 => some 3
  | 0x80#8 => some 3
  | 0x86#8 => some 3
  | 0x87#8 => some 1
  | 0x8A#8 => some 1
  | 0x8B#8 => some 1
  | 0x8F#8 => some 3
  | 0x9C#8 => some 3
  | 0x9D#8 => some 3
  | 0xAA#8 => some 1
  | 0xAB#8 => some 1
  | _ => none

/-- The bytes of the instruction whose bits are `w`, those above `nbits` being 0; one byte for an
opcode of neither set. -/
def tableBytes (nbits w : Nat) : List Byte :=
  let v := w % 2 ^ nbits
  wordBytes ((tableLength v).getD 1) v

/-- The instruction the decoders read from the bits `w`: the OP decoder for an operation code of R82,
else the CMD decoder of a high-speed chip, which has every command (log 21). -/
def decodeTableWord (nbits w : Nat) : Option Instr :=
  match decodeOp (tableBytes nbits w) with
  | .instr i => some i
  | .reject _ =>
    match decodeCmd true (tableBytes nbits w) with
    | .cmd i [] => some i
    | .cmd _ (_ :: _) => none
    | .more => none
    | .unlisted _ _ => none
    | .undescribed => none

/-! ### The textual syntax (R101) -/

/-- A byte in hex, as R101 writes payload bytes. -/
def asmByte (b : Byte) : String :=
  let digit (n : Nat) : String := String.singleton (Nat.digitChar n)
  "0x" ++ digit (b.toNat / 16) ++ digit (b.toNat % 16)

/-- `<bytes>` of R101. -/
def asmBytes (data : List Byte) : String := "[" ++ String.intercalate ", " (data.map asmByte) ++ "]"

/-- `<reg>` of R101. -/
def asmReg (ir : Bool) : String := if ir then "IR" else "DR"

/-- `<state>` of R101; a code that names no state is written as a number. -/
def asmState (code : Byte) : String :=
  match code with
  | 0x01#8 => "TLR"
  | 0x02#8 => "RTI"
  | 0x03#8 => "PDR"
  | 0x04#8 => "PIR"
  | 0x05#8 => "SDR"
  | 0x06#8 => "SIR"
  | _ => asmByte code

/-- A shift form's text (R101). -/
def asmShift (name : String) (ir : Bool) (exit : Byte) (numBits : Word) (payload : String) : String :=
  name ++ " " ++ asmReg ir ++ ", " ++ toString numBits.toNat ++ payload ++ ", " ++ asmState exit

/-- The text of a host operation (R101); the MPSSE commands have none. -/
def asm : Instr → Option String
  | .move state => some ("MOVE " ++ asmState state)
  | .write ir exit n data => some (asmShift "WRITE" ir exit n (", " ++ asmBytes data))
  | .read ir exit n => some (asmShift "READ" ir exit n "")
  | .writeRead ir exit n data => some (asmShift "WRITEREAD" ir exit n (", " ++ asmBytes data))
  | .seqClear => some "SEQ.CLEAR"
  | .seqExecute => some "SEQ.EXEC"
  | .seqAddWrite ir exit n data => some (asmShift "SEQ.WRITE" ir exit n (", " ++ asmBytes data))
  | .seqAddRead ir exit n => some (asmShift "SEQ.READ" ir exit n "")
  | .seqAddWriteRead ir exit n data =>
    some (asmShift "SEQ.WRITEREAD" ir exit n (", " ++ asmBytes data))
  | .pulse count => some ("PULSE " ++ toString count.toNat)
  | .pulseHs pinstop stoplevel count =>
    some ("PULSE.HS " ++ toString count.toNat ++
      (if pinstop then (if stoplevel then ", STOP=HIGH" else ", STOP=LOW") else ""))
  | .setClock divisor => some ("SETCLK " ++ toString divisor.toNat)
  | .setDiv5 on => some (if on then "DIV5 ON" else "DIV5 OFF")
  | .getFreq divisor => some ("FREQ " ++ toString divisor.toNat)
  | .init divisor => some ("INIT " ++ toString divisor.toNat)
  | .sync => some "SYNC"
  | .clkBytesOut _ => none
  | .clkBitsOut _ _ => none
  | .clkBytesIn _ => none
  | .clkBitsIn _ => none
  | .clkBytesOutIn _ => none
  | .clkBitsOutIn _ _ => none
  | .tmsOut _ _ => none
  | .tmsOutIn _ _ => none
  | .setPinsLow _ _ => none
  | .setTckDivisor _ => none
  | .sendImmediate => none
  | .div5Off => none
  | .div5On => none
  | .clkOctets _ => none
  | .clkOctetsUntilHigh _ => none
  | .clkOctetsUntilLow _ => none
  | .syncProbe1 => none
  | .syncProbe2 => none

end Sys2Proof
end

