-- ==== Sys2Proof/Machine/State.lean ====
section
/-! DEFINITION. The state: the block (10_state.md), its ports (00_scope.md R7), the transport's coming
answers, and the downstream (10_state.md R33, 60_exceptions.md R294). There is no addressed memory
(20_memory.md R50, log 1): the buffers and streams are byte lists. -/

namespace Sys2Proof.Machine

/-- The six defined TAP states of the transition table (40_tap_sequencer.md R120). -/
inductive DefState where
  | tlr
  | rti
  | pdr
  | pir
  | sdr
  | sir
  deriving DecidableEq, Repr, Inhabited

/-- The TAP state cursor (10_state.md R22): Undefined, or a defined state. -/
inductive Cursor where
  | undefined
  | known (s : DefState)
  deriving DecidableEq, Repr

/-- The statuses of 60_exceptions.md R280. -/
inductive Status where
  | success
  | invalidOperation
  | operationNotSupported
  | invalidNumberBits
  | invalidNumberBytes
  | invalidTapState
  | nullBuffer
  | invalidClockDivisor
  | invalidNumberClockPulses
  | commandSequenceBufferFull
  | ioError
  | commandTimeout
  | synchronizationFailed
  /-- Never raised by this block (R280, R284). -/
  | invalidHandle
  deriving DecidableEq, Repr

/-- A queued read descriptor (10_state.md R25). -/
structure ReadDesc where
  nbits : Nat
  tmsclk : Nat
  deriving DecidableEq, Repr

/-- The XPORT calls of INIT (44_session_ops.md R262, R263), opaque but for success or failure. -/
inductive XportCall where
  | resetAndPurge
  | setUsbBufferSizes
  | setSpecialChars
  | setTimeouts
  | setLatencyTimer
  | setBitModeReset
  | setBitModeMpsse
  deriving DecidableEq, Repr

/-- What the block puts on its ports (00_scope.md R7, R18). -/
inductive PortEvent where
  /-- One `TransportWrite` on CMD, with the bytes asked to be written. -/
  | write (bytes : List Byte)
  /-- One call on XPORT. -/
  | call (c : XportCall)
  /-- One result frame on RES: the status code, then the result (30_encoding.md R81). -/
  | frame (bytes : List Byte)
  deriving DecidableEq, Repr

/-- The downstream: the MPSSE command engine and the target's TAP (10_state.md R33, R294). -/
structure Downstream where
  /-- CMD is decoded as MPSSE commands (44_session_ops.md R263). -/
  mpsse : Bool
  /-- CMD bytes delivered and not yet executed, oldest first. -/
  inbox : List Byte
  /-- The response queue: bytes produced and not yet read by the block, oldest first. -/
  rsp : List Byte
  /-- The target's real TAP state. -/
  tap : TapState
  /-- The register in the target's scan path, low bit first; empty means TDI wired to TDO (log 7). -/
  reg : List Bool
  /-- The TMS line level. -/
  tms : Bool
  /-- The TDI line level. -/
  tdi : Bool
  /-- The low pin bank as last driven: levels. -/
  pinVal : Byte
  /-- The low pin bank as last driven: directions, 1 = output. -/
  pinDir : Byte
  /-- The device's TCK divisor. -/
  divisor : Half
  /-- The device's ÷5 prescaler is on. -/
  div5 : Bool
  /-- Opcodes outside R97's table that the device recognises (log 15). -/
  otherOpcodes : List Byte
  /-- INPUT: what the target loads at its coming Capture states (log 7). -/
  captures : List (List Bool)
  /-- INPUT: after how many clocks GPIOL1 stops the coming pin-stop pulses (log 11). -/
  stops : List Nat
  /-- The model's own counter of the downstream's free values. -/
  draws : Nat
  deriving DecidableEq, Repr

/-- The whole machine. -/
structure State where
  /-- The TAP state cursor (R22). -/
  cursor : Cursor
  /-- IMM (R23). -/
  imm : List Byte
  /-- SEQ (R24). -/
  seq : List Byte
  /-- DESC (R25). -/
  desc : List ReadDesc
  /-- The channel has been shown to be phase-aligned (R26). -/
  synced : Bool
  /-- `PINLO.val` (R27). -/
  pinVal : Byte
  /-- `PINLO.dir` (R27). -/
  pinDir : Byte
  /-- DIVISOR; `none` is the spec's "absent" (R28). -/
  divisor : Option Half
  /-- DIV5 (R29). -/
  div5 : Bool
  /-- VARIANT and the other parameters (R30, R8); no step changes them. -/
  params : Params
  /-- STATUS (R31). -/
  status : Status
  /-- The result bytes of the last frame (R52). -/
  result : List Byte
  /-- OP: the frames the host has put there, next first. -/
  op : List (List Byte)
  /-- RES, CMD and XPORT: everything the block has put there, oldest first. -/
  log : List PortEvent
  /-- TIME in milliseconds, as last read (R60). -/
  time : Nat
  /-- INPUT: answers of the coming `TransportWrite` calls (log 4). -/
  writes : List WriteReply
  /-- INPUT: the coming waits for bytes from RSP (logs 5, 35). -/
  waits : List Wait
  /-- INPUT: answers of the coming XPORT calls (log 4). -/
  calls : List Bool
  /-- The model's own counter of the block's free values. -/
  draws : Nat
  /-- The downstream. -/
  dn : Downstream
  deriving DecidableEq, Repr

/-- Nothing stops this machine (60_exceptions.md R290; 93_implementation_defined.md Part 1: "No item of
this block is undefined"): every error is a status in a result frame. So there is no fault. -/
inductive Fault where
  deriving DecidableEq, Repr

/-- Why an instruction has no meaning. -/
inductive Refusal where
  /-- An arm of exec without a meaning; no arm raises it. Safe. -/
  | notModelled (mnemonic : String)
  deriving DecidableEq, Repr

/-! ### Named updates, one per group of fields that an operation writes together -/

/-- `cursor <- c` (R12). -/
def State.setCursor (c : Cursor) (s : State) : State := { s with cursor := c }

/-- Write IMM (R23). -/
def State.setImm (bytes : List Byte) (s : State) : State := { s with imm := bytes }

/-- Write SEQ and DESC (R24, R25). -/
def State.setQueue (bytes : List Byte) (descs : List ReadDesc) (s : State) : State :=
  { s with seq := bytes, desc := descs }

/-- Write `synced` (R26). -/
def State.setSynced (b : Bool) (s : State) : State := { s with synced := b }

/-- Put an event on a port. -/
def State.note (e : PortEvent) (s : State) : State := { s with log := s.log ++ [e] }

/-- Replace the downstream. -/
def State.setDn (d : Downstream) (s : State) : State := { s with dn := d }

/-- Read TIME (R60). -/
def State.setTime (t : Nat) (s : State) : State := { s with time := t }

/-- The downstream after the reset event: the spec says its state is unknown (R321); these are the
model's values (log 19). -/
def Downstream.reset : Downstream where
  mpsse := false
  inbox := []
  rsp := []
  tap := .testLogicReset
  reg := []
  tms := false
  tdi := false
  pinVal := 0x00#8
  pinDir := 0x00#8
  divisor := 0x0000#16
  div5 := false
  otherOpcodes := Config.namedOtherOpcodes
  captures := []
  stops := []
  draws := 0

/-- An instance right after the reset event (70_reset_and_hazards.md R320, R321), for any parameters. -/
def State.resetWith (p : Params) : State where
  cursor := .undefined
  imm := []
  seq := []
  desc := []
  synced := false
  pinVal := 0x00#8
  pinDir := 0x00#8
  divisor := none
  div5 := false
  params := p
  status := .success
  result := []
  op := []
  log := []
  time := 0
  writes := []
  waits := []
  calls := []
  draws := 0
  dn := Downstream.reset

/-- The instance of the default parameters on a HiSpeedDual chip, the variant being the model's choice
(log 2). -/
def State.reset : State := State.resetWith (Config.defaultParams .hiSpeedDual)

end Sys2Proof.Machine
end

