-- ==== Sys2Proof/Machine/Operands.lean ====
section
/-! DEFINITION. Operands: TAP state codes (30_encoding.md R83), bit sequences over byte lists
(00_scope.md R10, R11), and the sizes of a shift (41_shift_ops.md R151, R156). -/

namespace Sys2Proof.Machine

/-! ### TAP state codes -/

/-- The code of a defined state (R83). -/
def DefState.code : DefState → Byte
  | .tlr => 0x01#8
  | .rti => 0x02#8
  | .pdr => 0x03#8
  | .pir => 0x04#8
  | .sdr => 0x05#8
  | .sir => 0x06#8

/-- The defined state a `state` or `exit` field names; 0 and 7 to 255 name none (R83). -/
def DefState.ofCode (code : Byte) : Option DefState :=
  match code with
  | 0x01#8 => some .tlr
  | 0x02#8 => some .rti
  | 0x03#8 => some .pdr
  | 0x04#8 => some .pir
  | 0x05#8 => some .sdr
  | 0x06#8 => some .sir
  | _ => none

/-- The cursor's 3-bit code (R22, R83). -/
def Cursor.code : Cursor → BitVec 3
  | .undefined => 0#3
  | .known s => s.code.setWidth 3

/-- The IEEE 1149.1 state a defined state is (R13). -/
def DefState.tap : DefState → TapState
  | .tlr => .testLogicReset
  | .rti => .runTestIdle
  | .pdr => .pauseDR
  | .pir => .pauseIR
  | .sdr => .shiftDR
  | .sir => .shiftIR

/-- The shift state of the register `ir` selects (R84). -/
def shiftState (ir : Bool) : DefState := if ir then .sir else .sdr

/-! ### Bit sequences -/

/-- `ceil8(n)` (R10). -/
def ceil8 (n : Nat) : Nat := (n + 7) / 8

/-- Bit `i` of a byte list: bit `i % 8` of byte `i / 8` (R11, R53). -/
def bitAt (s : List Byte) (i : Nat) : Bool := (s.getD (i / 8) 0#8).getLsbD (i % 8)

/-- `bits(s, N)` (R11). -/
def bitsOf (s : List Byte) (n : Nat) : List Bool := (List.range n).map (bitAt s)

/-- The low `n` bits of a byte, bit 0 first. -/
def byteBits (n : Nat) (b : Byte) : List Bool := (List.range n).map b.getLsbD

/-- The number a bit sequence writes, first bit lowest. -/
def natOfBits : List Bool → Nat
  | [] => 0
  | b :: bs => b.toNat + 2 * natOfBits bs

/-- The byte whose bits from bit 0 up are the sequence, the rest 0. -/
def byteOfBits (bs : List Bool) : Byte := BitVec.ofNat 8 (natOfBits bs)

/-- `pack(b0..bN-1)` (R11): `ceil8(N)` bytes, unused high bits 0. -/
def pack (bs : List Bool) : List Byte :=
  (List.range (ceil8 bs.length)).map fun i => byteOfBits ((bs.drop (8 * i)).take 8)

/-! ### The sizes of a shift -/

/-- `B = (N-1)/8`, the whole bytes (R151); a corner case of R159 says otherwise for the largest N (log
31). -/
def wholeBytes (n : Nat) : Nat := (n - 1) / 8

/-- `r = (N-1)%8`, the remaining bits (R151). -/
def restBits (n : Nat) : Nat := (n - 1) % 8

/-- `respLen(N)` (R156). -/
def respLen (n : Nat) : Nat := wholeBytes n + (if restBits n > 0 then 1 else 0) + 1

/-- The last bit of a payload of `n` bits (R153). -/
def lastBit (data : List Byte) (n : Nat) : Bool := bitAt data (n - 1)

/-! ### Groups of a count (R231, R233) -/

/-- A count split into groups of 65536 and a last smaller one, in order. -/
def groups (c : Nat) : List Nat :=
  List.replicate (c / 65536) 65536 ++ (if c % 65536 > 0 then [c % 65536] else [])

end Sys2Proof.Machine
end

