-- ==== Sys2Proof/Machine/Flags.lean ====
section
/-! DEFINITION. The one condition code, STATUS (10_state.md R31), and how an operation ends
(60_exceptions.md R286, R290): `raise` and `finish` are this hardware's taking of an exception, shared
by every operation. There is no other flag and no handler to return from (R289, R290). -/

namespace Sys2Proof.Machine

/-- The 8-bit codes of 60_exceptions.md R280. -/
def Status.code : Status → Byte
  | .success => 0x00#8
  | .invalidOperation => 0x01#8
  | .operationNotSupported => 0x02#8
  | .invalidNumberBits => 0x03#8
  | .invalidNumberBytes => 0x04#8
  | .invalidTapState => 0x05#8
  | .nullBuffer => 0x06#8
  | .invalidClockDivisor => 0x07#8
  | .invalidNumberClockPulses => 0x08#8
  | .commandSequenceBufferFull => 0x09#8
  | .ioError => 0x0A#8
  | .commandTimeout => 0x0B#8
  | .synchronizationFailed => 0x0C#8
  | .invalidHandle => 0x0D#8

/-- The five kinds of 60_exceptions.md R281. -/
inductive StatusKind where
  | none
  | parameter
  | deviceState
  | transport
  | timing
  | capacity
  deriving DecidableEq, Repr

/-- The kind of a status (R280, R281). -/
def Status.kind : Status → StatusKind
  | .success => .none
  | .invalidOperation => .parameter
  | .operationNotSupported => .parameter
  | .invalidNumberBits => .parameter
  | .invalidNumberBytes => .parameter
  | .invalidTapState => .parameter
  | .nullBuffer => .parameter
  | .invalidClockDivisor => .parameter
  | .invalidNumberClockPulses => .parameter
  | .commandSequenceBufferFull => .capacity
  | .ioError => .transport
  | .commandTimeout => .timing
  | .synchronizationFailed => .timing
  | .invalidHandle => .deviceState

/-- How far an operation has come: it goes on with a value, or it has raised a status (R12). -/
inductive Res (α : Type) where
  | ok (a : α) (s : State)
  | raise (e : Status) (s : State)

/-- The next part of an operation; a raised status ends it (R291). -/
def Res.bind {α β : Type} (r : Res α) (f : α → State → Res β) : Res β :=
  match r with
  | .ok a s => f a s
  | .raise e s => .raise e s

/-- The state of an unfinished operation. -/
def Res.state {α : Type} : Res α → State
  | .ok _ s => s
  | .raise _ s => s

/-- Adjust the state a raised status leaves. -/
def Res.onRaise {α : Type} (r : Res α) (f : State → State) : Res α :=
  match r with
  | .ok a s => .ok a s
  | .raise e s => .raise e (f s)

/-- The end of an operation: STATUS and the result are written and one result frame goes out on RES
(R31, R52, R81, R290). -/
def State.complete (e : Status) (result : List Byte) (s : State) : State :=
  { s with status := e, result := result, log := s.log ++ [.frame (e.code :: result)] }

/-- The state an operation leaves; the result is empty unless the status is Success (R52, R81). -/
def finish : Res (List Byte) → State
  | .ok result s => s.complete .success result
  | .raise e s => s.complete e []

/-- An IoError or CommandTimeout or SynchronizationFailed clears `synced` (R26, R286). -/
def raiseUnsynced {α : Type} (e : Status) (s : State) : Res α := .raise e (s.setSynced false)

end Sys2Proof.Machine
end

