-- ==== Sys2Proof/Machine/Target.lean ====
section
/-! DEFINITION. One TCK cycle at the target (60_exceptions.md R294 item 3) and the downstream's inputs
and free values. -/

namespace Sys2Proof.Machine

/-- The edge of the IEEE 1149.1 graph a TAP takes when it sees TMS on a rising edge (R294 item 3). Every
edge but the stays is a step of a path of 40_tap_sequencer.md R121; the stays are those of R126 and R128. -/
def tapNext (t : TapState) (tms : Bool) : TapState :=
  match t with
  | .testLogicReset => if tms then .testLogicReset else .runTestIdle
  | .runTestIdle => if tms then .selectDRScan else .runTestIdle
  | .selectDRScan => if tms then .selectIRScan else .captureDR
  | .captureDR => if tms then .exit1DR else .shiftDR
  | .shiftDR => if tms then .exit1DR else .shiftDR
  | .exit1DR => if tms then .updateDR else .pauseDR
  | .pauseDR => if tms then .exit2DR else .pauseDR
  | .exit2DR => if tms then .updateDR else .shiftDR
  | .updateDR => if tms then .selectDRScan else .runTestIdle
  | .selectIRScan => if tms then .testLogicReset else .captureIR
  | .captureIR => if tms then .exit1IR else .shiftIR
  | .shiftIR => if tms then .exit1IR else .shiftIR
  | .exit1IR => if tms then .updateIR else .pauseIR
  | .pauseIR => if tms then .exit2IR else .pauseIR
  | .exit2IR => if tms then .updateIR else .shiftIR
  | .updateIR => if tms then .selectDRScan else .runTestIdle

/-- The TAP after a path of TMS bits. -/
def tapAfter (t : TapState) (path : List Bool) : TapState := path.foldl tapNext t

/-- The two shift states of the TAP. -/
def isShift : TapState → Bool
  | .shiftDR => true
  | .shiftIR => true
  | .testLogicReset | .runTestIdle | .selectDRScan | .captureDR | .exit1DR | .pauseDR | .exit2DR
  | .updateDR | .selectIRScan | .captureIR | .exit1IR | .pauseIR | .exit2IR | .updateIR => false

/-- The two capture states of the TAP. -/
def isCapture : TapState → Bool
  | .captureDR => true
  | .captureIR => true
  | .testLogicReset | .runTestIdle | .selectDRScan | .shiftDR | .exit1DR | .pauseDR | .exit2DR
  | .updateDR | .selectIRScan | .shiftIR | .exit1IR | .pauseIR | .exit2IR | .updateIR => false

/-- A bit the spec does not state: a free value (logs 9, 10). -/
def freeBit (d : Downstream) : Bool × Downstream :=
  (Config.freeBit d.draws, { d with draws := d.draws + 1 })

/-- `n` such bits. -/
def freeBits (n : Nat) (d : Downstream) : List Bool × Downstream :=
  ((List.range n).map fun i => Config.freeBit (d.draws + i), { d with draws := d.draws + n })

/-- What the target loads into its register at a Capture state: the next listed capture, or a free
value (log 7). -/
def nextCapture (d : Downstream) : List Bool × Downstream :=
  match d.captures with
  | c :: cs => (c, { d with captures := cs })
  | [] => (Config.freeCapture d.draws, { d with draws := d.draws + 1 })

/-- After how many clocks GPIOL1 stops a pin-stop pulse (U9): the next listed number, or a free value
(log 11). -/
def nextStop (d : Downstream) : Nat × Downstream :=
  match d.stops with
  | n :: ns => (n, { d with stops := ns })
  | [] => (Config.freeStop d.draws, { d with draws := d.draws + 1 })

/-- Shift a register by one bit: its low bit goes out, `tdi` comes in at the high end (R294 item 3). An
empty register passes `tdi` through (log 7). -/
def shiftReg (reg : List Bool) (tdi : Bool) : Bool × List Bool :=
  match reg with
  | [] => (tdi, [])
  | b :: bs => (b, bs ++ [tdi])

/-- One TCK cycle with the given TMS and TDI: the TDO sample, and the downstream after it (R294 item
3). TDO outside the shift states is not stated: a free value. -/
def clock (tms tdi : Bool) (d : Downstream) : Bool × Downstream :=
  match d.tap with
  | .shiftDR | .shiftIR =>
    let (sample, reg) := shiftReg d.reg tdi
    (sample, { d with reg := reg, tap := tapNext d.tap tms })
  | .captureDR | .captureIR =>
    let (sample, d1) := freeBit d
    let (reg, d2) := nextCapture d1
    (sample, { d2 with reg := reg, tap := tapNext d.tap tms })
  | .testLogicReset | .runTestIdle | .selectDRScan | .exit1DR | .pauseDR | .exit2DR | .updateDR
  | .selectIRScan | .exit1IR | .pauseIR | .exit2IR | .updateIR =>
    let (sample, d1) := freeBit d
    (sample, { d1 with tap := tapNext d.tap tms })

/-- Successive TCK cycles, each a (TMS, TDI) pair: the TDO samples in time order. -/
def clockMany : List (Bool × Bool) → Downstream → List Bool × Downstream
  | [], d => ([], d)
  | c :: cs, d =>
    let (sample, d1) := clock c.1 c.2 d
    let (samples, d2) := clockMany cs d1
    (sample :: samples, d2)

/-- Clock TDI bits with TMS held at its line level. So a pulse with the cursor Undefined leaves the TAP
where the TAP and the TMS line held in State lead, where the spec allows any state (R237, U10; log 32). -/
def clockData (tdis : List Bool) (d : Downstream) : List Bool × Downstream :=
  clockMany (tdis.map fun b => (d.tms, b)) d

/-- Put response bytes on the queue (R294 item 2). -/
def respond (bytes : List Byte) (d : Downstream) : Downstream := { d with rsp := d.rsp ++ bytes }

/-- The response byte of a bit command or TMS read: after m samples, sample j is at bit `8 - m + j`, and
the bits below `8 - m` are not specified (R294 items 5, 6), so free. -/
def respondBits (samples : List Bool) (d : Downstream) : Downstream :=
  let (low, d1) := freeBits (8 - samples.length) d
  respond [byteOfBits (low ++ samples)] d1

/-- What is left of the downstream when bytes reach it that it does not take as MPSSE commands: all that
they could change is free (70_reset_and_hazards.md R323, U11; log 12). -/
def disturb (d : Downstream) : Downstream :=
  { d with
    inbox := []
    rsp := d.rsp ++ Config.freeBytes d.draws
    tap := Config.freeTap d.draws
    reg := Config.freeCapture d.draws
    tms := Config.freeBit d.draws
    tdi := Config.freeBit (d.draws + 1)
    pinVal := (Config.freeHalf d.draws).setWidth 8
    pinDir := (Config.freeHalf (d.draws + 1)).setWidth 8
    divisor := Config.freeHalf (d.draws + 2)
    div5 := Config.freeBit (d.draws + 2)
    draws := d.draws + 3 }

/-- CMD bytes reach the downstream: as commands to execute, or outside MPSSE mode as bytes of unknown
effect. -/
def deliver (bytes : List Byte) (d : Downstream) : Downstream :=
  if d.mpsse then { d with inbox := d.inbox ++ bytes }
  else if bytes = [] then d
  else disturb d

end Sys2Proof.Machine
end

