-- ==== Sys2Proof/Machine/Mpsse.lean ====
section
/-! DEFINITION. The eighteen MPSSE commands as the downstream executes them (60_exceptions.md R294,
30_encoding.md R97 to R100), and the execution of the CMD bytes in order. -/

namespace Sys2Proof.Machine

/-! ### Data commands (R294 items 4, 5) -/

/-- Clock TDI bits out; TDI keeps the last one. -/
def clockOut (bits : List Bool) (d : Downstream) : List Bool × Downstream :=
  let (samples, d1) := clockData bits d
  (samples, { d1 with tdi := bits.getLastD d.tdi })

/-- Clock `n` bits in; the TDI level of each clock is free (R154, U6). -/
def clockIn (n : Nat) (d : Downstream) : List Bool × Downstream :=
  let (tdis, d1) := freeBits n d
  clockData tdis d1

/-- The bits of a byte list, bit 0 of byte 0 first (R53). -/
def bitsOfBytes (data : List Byte) : List Bool := data.flatMap (byteBits 8)

def clkBytesOut (data : List Byte) (d : Downstream) : Downstream :=
  (clockOut (bitsOfBytes data) d).2

def clkBitsOut (n : BitVec 3) (b : Byte) (d : Downstream) : Downstream :=
  (clockOut (byteBits (n.toNat + 1) b) d).2

def clkBytesIn (len : Half) (d : Downstream) : Downstream :=
  let (samples, d1) := clockIn (8 * (len.toNat + 1)) d
  respond (pack samples) d1

def clkBitsIn (n : BitVec 3) (d : Downstream) : Downstream :=
  let (samples, d1) := clockIn (n.toNat + 1) d
  respondBits samples d1

def clkBytesOutIn (data : List Byte) (d : Downstream) : Downstream :=
  let (samples, d1) := clockOut (bitsOfBytes data) d
  respond (pack samples) d1

def clkBitsOutIn (n : BitVec 3) (b : Byte) (d : Downstream) : Downstream :=
  let (samples, d1) := clockOut (byteBits (n.toNat + 1) b) d
  respondBits samples d1

/-! ### TMS commands (R294 item 6, R99) -/

/-- Clock `n + 1` TMS bits of `p`, bit 0 first, TDI held at bit 7; TMS stays at the last bit clocked. -/
def clockTms (n : BitVec 3) (p : Byte) (d : Downstream) : List Bool × Downstream :=
  let (samples, d1) := clockMany ((byteBits (n.toNat + 1) p).map fun b => (b, p.getLsbD 7)) d
  (samples, { d1 with tms := p.getLsbD n.toNat, tdi := p.getLsbD 7 })

def tmsOut (n : BitVec 3) (p : Byte) (d : Downstream) : Downstream := (clockTms n p d).2

def tmsOutIn (n : BitVec 3) (p : Byte) (d : Downstream) : Downstream :=
  let (samples, d1) := clockTms n p d
  respondBits samples d1

/-! ### Pins, divisor, prescaler (R294 items 7, 8) -/

/-- Drive the low pin bank; bit 1 is TDI, bit 3 is TMS (10_state.md R27), and a pin that is an output
takes its level. No TCK cycle (R97, log 24). -/
def setPinsLow (val dir : Byte) (d : Downstream) : Downstream :=
  { d with
    pinVal := val
    pinDir := dir
    tms := if dir.getLsbD 3 then val.getLsbD 3 else d.tms
    tdi := if dir.getLsbD 1 then val.getLsbD 1 else d.tdi }

def setTckDivisor (div : Half) (d : Downstream) : Downstream := { d with divisor := div }

/-- Queued response bytes are returned at once; nothing else (R162, R294 item 7). When bytes arrive is an
input of each wait, so no state changes (log 25). -/
def sendImmediate (d : Downstream) : Downstream := d

/-- An opcode the downstream does not recognise returns `[0xFA, opcode]` (R100, R294 item 10). -/
def badCommand (op : Byte) (d : Downstream) : Downstream := respond [0xFA#8, op] d

/-- A command of high-speed chips; a Standard chip does not recognise it (log 16). -/
def onHiSpeed (hs : Bool) (op : Byte) (effect : Downstream → Downstream) (d : Downstream) : Downstream :=
  if hs then effect d else badCommand op d

def div5Off (hs : Bool) (d : Downstream) : Downstream :=
  onHiSpeed hs 0x8A#8 (fun d => { d with div5 := false }) d

def div5On (hs : Bool) (d : Downstream) : Downstream :=
  onHiSpeed hs 0x8B#8 (fun d => { d with div5 := true }) d

/-- The TCK frequency the device's registers select (R294 item 8, R333); no step takes time from it (log 28). -/
def Downstream.tckHz (hs : Bool) (d : Downstream) : Nat :=
  (if hs then (if d.div5 then Config.hsDiv5BaseHz else Config.hsBaseHz) else Config.stdBaseHz)
    / (2 * (1 + d.divisor.toNat))

/-! ### Clock pulses without data (R294 item 9) -/

/-- `n` TCK cycles with TMS and TDI at their line levels (R233). -/
def clockHeld (n : Nat) (d : Downstream) : Downstream :=
  (clockData (List.replicate n d.tdi) d).2

def clkOctets (hs : Bool) (len : Half) (d : Downstream) : Downstream :=
  onHiSpeed hs 0x8F#8 (clockHeld (8 * (len.toNat + 1))) d

/-- Pulses that GPIOL1 may stop early (U9). -/
def clockUntil (max : Nat) (d : Downstream) : Downstream :=
  let (n, d1) := nextStop d
  clockHeld (min n max) d1

def clkOctetsUntilHigh (hs : Bool) (len : Half) (d : Downstream) : Downstream :=
  onHiSpeed hs 0x9C#8 (clockUntil (8 * (len.toNat + 1))) d

def clkOctetsUntilLow (hs : Bool) (len : Half) (d : Downstream) : Downstream :=
  onHiSpeed hs 0x9D#8 (clockUntil (8 * (len.toNat + 1))) d

/-! ### The command stream -/

/-- The effect of one instruction on the downstream; a host operation is never on CMD. -/
def cmdEffect (hs : Bool) (i : Instr) (d : Downstream) : Downstream :=
  match i with
  | .clkBytesOut data => clkBytesOut data d
  | .clkBitsOut n b => clkBitsOut n b d
  | .clkBytesIn len => clkBytesIn len d
  | .clkBitsIn n => clkBitsIn n d
  | .clkBytesOutIn data => clkBytesOutIn data d
  | .clkBitsOutIn n b => clkBitsOutIn n b d
  | .tmsOut n p => tmsOut n p d
  | .tmsOutIn n p => tmsOutIn n p d
  | .setPinsLow val dir => setPinsLow val dir d
  | .setTckDivisor div => setTckDivisor div d
  | .sendImmediate => sendImmediate d
  | .div5Off => div5Off hs d
  | .div5On => div5On hs d
  | .clkOctets len => clkOctets hs len d
  | .clkOctetsUntilHigh len => clkOctetsUntilHigh hs len d
  | .clkOctetsUntilLow len => clkOctetsUntilLow hs len d
  | .syncProbe1 => badCommand 0xAA#8 d
  | .syncProbe2 => badCommand 0xAB#8 d
  | .move _ | .write _ _ _ _ | .read _ _ _ | .writeRead _ _ _ _ | .seqClear | .seqExecute
  | .seqAddWrite _ _ _ _ | .seqAddRead _ _ _ | .seqAddWriteRead _ _ _ _ | .pulse _
  | .pulseHs _ _ _ | .setClock _ | .setDiv5 _ | .getFreq _ | .init _ | .sync => d

/-- The downstream loses track of the command stream: it received an operand or opcode whose effect the
spec does not give (log 14, log 15). -/
def loseTrack (d : Downstream) : Downstream := { disturb d with mpsse := false }

/-- An opcode outside R97's table: echoed if the device does not recognise it (R100), else of an effect
the spec does not give (log 15). -/
def unlistedOpcode (op : Byte) (d : Downstream) : Downstream :=
  if d.otherOpcodes.contains op then loseTrack d else badCommand op d

/-- What the downstream finds next on CMD (R294 item 1). -/
def Downstream.fetch (hs : Bool) (d : Downstream) : CmdDecode :=
  if d.mpsse then decodeCmd hs d.inbox else .more

/-- Execute the next command, if a whole one is there. -/
def Downstream.advance (hs : Bool) (d : Downstream) : Option Downstream :=
  match d.fetch hs with
  | .more => none
  | .cmd i rest => some (cmdEffect hs i { d with inbox := rest })
  | .unlisted op rest => some (unlistedOpcode op { d with inbox := rest })
  | .undescribed => some (loseTrack d)

/-- Execute commands in order until none is whole, at most `fuel` of them. -/
def Downstream.runFor (hs : Bool) : Nat → Downstream → Downstream
  | 0, d => d
  | fuel + 1, d =>
    match d.advance hs with
    | none => d
    | some d1 => Downstream.runFor hs fuel d1

/-- Execute every whole command: each takes at least one byte of the inbox. -/
def Downstream.run (hs : Bool) (d : Downstream) : Downstream := Downstream.runFor hs d.inbox.length d

/-- Execute `k` commands in order, and after them as many as it takes until `c` response bytes wait, or
until no command is whole; at most `fuel` of them. -/
def Downstream.runUntil (hs : Bool) (c : Nat) : Nat → Nat → Downstream → Downstream
  | 0, _, d => d
  | fuel + 1, k, d =>
    if k = 0 ∧ c ≤ d.rsp.length then d
    else
      match d.advance hs with
      | none => d
      | some d1 => Downstream.runUntil hs c fuel (k - 1) d1

/-- The downstream after a wait that failed, having read `c` response bytes: it has executed some of the
commands that waited, and certainly those that gave the bytes read; of the operation's own `sent` bytes
the last ones may be lost, so that any of their prefixes has reached the TAP; the rest waits (R325 case
3, R331, 60_exceptions.md R286; log 35). -/
def Downstream.interrupted (hs : Bool) (sent : Nat) (w : Wait) (c : Nat) (d : Downstream) : Downstream :=
  let e := Downstream.runUntil hs c d.inbox.length w.executed d
  { e with rsp := e.rsp.drop c, inbox := e.inbox.take (e.inbox.length - min w.lost sent) }

/-- The machine's downstream executes everything delivered to it. -/
def State.runDownstream (s : State) : State := s.setDn (s.dn.run s.params.variant.hiSpeed)

/-! ### The meanings of the commands -/

/-- One command executed in the machine. -/
def runCommand (effect : Bool → Downstream → Downstream) (s : State) :
    Host.Outcome State Fault Refusal :=
  .next (s.setDn (effect s.params.variant.hiSpeed s.dn))

/-- CLK_BYTES_OUT (R152, R294 item 4). -/
def execClkBytesOut (data : List Byte) (s : State) : Host.Outcome State Fault Refusal :=
  runCommand (fun _ => clkBytesOut data) s

/-- CLK_BITS_OUT (R152, R294 item 5). -/
def execClkBitsOut (n : BitVec 3) (b : Byte) (s : State) : Host.Outcome State Fault Refusal :=
  runCommand (fun _ => clkBitsOut n b) s

/-- CLK_BYTES_IN (R154, R294 item 4). -/
def execClkBytesIn (len : Half) (s : State) : Host.Outcome State Fault Refusal :=
  runCommand (fun _ => clkBytesIn len) s

/-- CLK_BITS_IN (R154, R294 item 5). -/
def execClkBitsIn (n : BitVec 3) (s : State) : Host.Outcome State Fault Refusal :=
  runCommand (fun _ => clkBitsIn n) s

/-- CLK_BYTES_OUT_IN (R155, R294 item 4). -/
def execClkBytesOutIn (data : List Byte) (s : State) : Host.Outcome State Fault Refusal :=
  runCommand (fun _ => clkBytesOutIn data) s

/-- CLK_BITS_OUT_IN (R155, R294 item 5). -/
def execClkBitsOutIn (n : BitVec 3) (b : Byte) (s : State) : Host.Outcome State Fault Refusal :=
  runCommand (fun _ => clkBitsOutIn n b) s

/-- TMS_OUT (R99, R294 item 6). -/
def execTmsOut (n : BitVec 3) (p : Byte) (s : State) : Host.Outcome State Fault Refusal :=
  runCommand (fun _ => tmsOut n p) s

/-- TMS_OUT_IN (R99, R294 item 6). -/
def execTmsOutIn (n : BitVec 3) (p : Byte) (s : State) : Host.Outcome State Fault Refusal :=
  runCommand (fun _ => tmsOutIn n p) s

/-- SET_PINS_LOW (R264, R294 item 8). -/
def execSetPinsLow (val dir : Byte) (s : State) : Host.Outcome State Fault Refusal :=
  runCommand (fun _ => setPinsLow val dir) s

/-- SET_TCK_DIVISOR (R234, R294 item 8). -/
def execSetTckDivisor (div : Half) (s : State) : Host.Outcome State Fault Refusal :=
  runCommand (fun _ => setTckDivisor div) s

/-- SEND_IMMEDIATE (R162, R294 item 7). -/
def execSendImmediate (s : State) : Host.Outcome State Fault Refusal :=
  runCommand (fun _ => sendImmediate) s

/-- DIV5_OFF (R235, R294 item 8). -/
def execDiv5Off (s : State) : Host.Outcome State Fault Refusal := runCommand div5Off s

/-- DIV5_ON (R235, R294 item 8). -/
def execDiv5On (s : State) : Host.Outcome State Fault Refusal := runCommand div5On s

/-- CLK_OCTETS (R233, R294 item 9). -/
def execClkOctets (len : Half) (s : State) : Host.Outcome State Fault Refusal :=
  runCommand (fun hs => clkOctets hs len) s

/-- CLK_OCTETS_UNTIL_HIGH (R233, R294 item 9). -/
def execClkOctetsUntilHigh (len : Half) (s : State) : Host.Outcome State Fault Refusal :=
  runCommand (fun hs => clkOctetsUntilHigh hs len) s

/-- CLK_OCTETS_UNTIL_LOW (R233, R294 item 9). -/
def execClkOctetsUntilLow (len : Half) (s : State) : Host.Outcome State Fault Refusal :=
  runCommand (fun hs => clkOctetsUntilLow hs len) s

/-- SYNC_PROBE_1 (R260, R294 item 10). -/
def execSyncProbe1 (s : State) : Host.Outcome State Fault Refusal :=
  runCommand (fun _ => badCommand 0xAA#8) s

/-- SYNC_PROBE_2 (R260, R294 item 10). -/
def execSyncProbe2 (s : State) : Host.Outcome State Fault Refusal :=
  runCommand (fun _ => badCommand 0xAB#8) s

end Sys2Proof.Machine
end

