-- ==== Sys2Proof/Machine/Ops.lean ====
section
/-! DEFINITION. The operations every host operation shares: sending on CMD (20_memory.md R57 to R59),
receiving from RSP (R60), and the transport's answers to them. -/

namespace Sys2Proof.Machine

/-! ### The transport's answers -/

/-- The answer to the next `TransportWrite`: the next listed one, or a free value (log 4). -/
def nextWrite (s : State) : WriteReply × State :=
  match s.writes with
  | r :: rs => (r, { s with writes := rs })
  | [] => (Config.freeWriteReply s.draws, { s with draws := s.draws + 1 })

/-- The next wait: the next listed one, or a free value (log 4). -/
def nextWait (s : State) : Wait × State :=
  match s.waits with
  | w :: ws => (w, { s with waits := ws })
  | [] => (Config.freeWait s.draws, { s with draws := s.draws + 1 })

/-- Does the next XPORT call succeed: the next listed answer, or a free value (log 4). -/
def nextCall (s : State) : Bool × State :=
  match s.calls with
  | c :: cs => (c, { s with calls := cs })
  | [] => (Config.freeCall s.draws, { s with draws := s.draws + 1 })

/-! ### Sending (R57, R58) -/

/-- Split a byte list into pieces of `n` bytes and a last shorter one, at most `fuel` of them. -/
def chunksFor (n : Nat) : Nat → List Byte → List (List Byte)
  | 0, _ => []
  | _ + 1, [] => []
  | fuel + 1, b :: bs => (b :: bs).take n :: chunksFor n fuel ((b :: bs).drop n)

/-- The successive writes of `Send`, each at most `n` bytes (R58). -/
def chunksOf (n : Nat) (bytes : List Byte) : List (List Byte) := chunksFor n bytes.length bytes

/-- Is the whole write done: no error, and as many bytes written as asked (R58, R59). If not, how many
bytes of the `Send` the downstream received (U2). -/
def writeFailure (asked : Nat) : WriteReply → Option Nat
  | .full => none
  | .wrote written delivered => if written = asked then none else some delivered
  | .failed delivered => some delivered

/-- The loop of `Send`: write the pieces in order until one fails. -/
def writeAll : List (List Byte) → State → Option Nat × State
  | [], s => (none, s)
  | c :: cs, s =>
    let (reply, s1) := nextWrite s
    let s2 := s1.note (.write c)
    match writeFailure c.length reply with
    | none => writeAll cs s2
    | some delivered => (some delivered, s2)

/-- Bytes reach the downstream. -/
def State.deliver (bytes : List Byte) (s : State) : State :=
  s.setDn (Sys2Proof.Machine.deliver bytes s.dn)

/-- `Send(s)` (R58). On failure any prefix may have been delivered (R59), and `synced` is cleared (R286). -/
def send (bytes : List Byte) (s : State) : Res Unit :=
  match writeAll (chunksOf s.params.writeChunk bytes) s with
  | (none, s1) => .ok () (s1.deliver bytes)
  | (some delivered, s1) => raiseUnsynced .ioError (s1.deliver (bytes.take delivered))

/-- `flush()` (R57): IMM is empty after it, whether the send succeeds or not (R58). -/
def flush (s : State) : Res Unit :=
  if s.imm = [] then .ok () s else send s.imm (s.setImm [])

/-- `emit(IMM, bytes)`: flush first if IMM would overflow (R57). -/
def emit (bytes : List Byte) (s : State) : Res Unit :=
  if s.imm.length + bytes.length > Config.cmdBufMax then
    (flush s).bind fun _ s1 => .ok () (s1.setImm (s1.imm ++ bytes))
  else .ok () (s.setImm (s.imm ++ bytes))

/-- Emit commands in order. -/
def emitAll : List (List Byte) → State → Res Unit
  | [], s => .ok () s
  | c :: cs, s => (emit c s).bind fun _ s1 => emitAll cs s1

/-- The body of an immediate operation that only sends: emit its commands, then flush (R57). -/
def emitFlush (cmds : List (List Byte)) (s : State) : Res Unit :=
  (emitAll cmds s).bind fun _ s1 => flush s1

/-! ### Receiving (R60) -/

/-- A polling loop on RSP, in an operation that has sent `sent` bytes: the downstream executes what was
sent while the block polls (log 6). If the loop fails, some of what was sent may not have been executed,
or not have arrived: what it did is the wait's (R325 case 3, R331; log 35). -/
def awaiting {α : Type} (sent : Nat) (loop : List Poll → State → Res α) (s : State) : Res α :=
  let (w, s1) := nextWait s
  let s2 := s1.runDownstream
  (loop w.polls s2).onRaise fun t => t.setDn
    (s1.dn.interrupted s1.params.variant.hiSpeed sent w (s2.dn.rsp.length - t.dn.rsp.length))

/-- The polling loop of `RecvExact(n)`, with the deadline on TIME. The end of a schedule means that the
deadline came before another poll (log 5). Bytes beyond `n` stay queued. A read that fails takes no byte
from the queue (R285; log 33). -/
def recvLoop (n deadline : Nat) : List Poll → List Byte → State → Res (List Byte)
  | [], acc, s =>
    if n ≤ acc.length then .ok acc s
    else raiseUnsynced .commandTimeout (s.setTime (max s.time deadline))
  | p :: ps, acc, s =>
    if n ≤ acc.length then .ok acc s
    else
      let s1 := s.setTime (s.time + p.dt)
      if deadline ≤ s1.time then raiseUnsynced .commandTimeout s1
      else if p.countFails then raiseUnsynced .ioError s1
      else
        let queued := min p.visible s1.dn.rsp.length
        if queued = 0 then recvLoop n deadline ps acc s1
        else if p.readFails then raiseUnsynced .ioError s1
        else
          let count := min queued (n - acc.length)
          recvLoop n deadline ps (acc ++ s1.dn.rsp.take count)
            (s1.setDn { s1.dn with rsp := s1.dn.rsp.drop count })

/-- `RecvExact(n)` (R60) in an operation that has sent `sent` bytes: no transport call for 0 bytes. -/
def recvExact (n sent : Nat) (s : State) : Res (List Byte) :=
  if n = 0 then .ok [] s
  else awaiting sent (fun polls t => recvLoop n (t.time + t.params.rxTimeoutMs) polls [] t) s

/-- `n` unconstrained result bytes (R324): free values (log 8). -/
def freeResult (n : Nat) (s : State) : List Byte × State :=
  ((List.range n).map fun i => Config.freeResultByte (s.draws + i), { s with draws := s.draws + n })

/-- The result bytes of a read: the corrected response, or `n` unconstrained bytes while `synced = 0`
(R324). -/
def readResult (n : Nat) (corrected : List Byte) (s : State) : Res (List Byte) :=
  if s.synced then .ok corrected s
  else
    let (free, s1) := freeResult n s
    .ok free s1

/-- SEND_IMMEDIATE after reads, if the parameter asks for it (R162). -/
def immediateTail (p : Params) : List (List Byte) :=
  if p.sendImmediateOnRead then [encode .sendImmediate] else []

end Sys2Proof.Machine
end

