-- ==== Sys2Proof/Machine/Tap.lean ====
section
/-! DEFINITION. The transition table and the move primitive (40_tap_sequencer.md R121 to R127), and
MOVE (R129). -/

namespace Sys2Proof.Machine

/-- `TT[from][to] = (p, k)` (R121): the TMS pattern, bit 0 first, and the number of TMS clocks. -/
def tt (a b : DefState) : Byte × Nat :=
  match a, b with
  | .tlr, .tlr => (0x00#8, 0)
  | .tlr, .rti => (0x00#8, 1)
  | .tlr, .pdr => (0x0A#8, 5)
  | .tlr, .pir => (0x16#8, 6)
  | .tlr, .sdr => (0x02#8, 4)
  | .tlr, .sir => (0x06#8, 5)
  | .rti, .tlr => (0x07#8, 3)
  | .rti, .rti => (0x00#8, 0)
  | .rti, .pdr => (0x05#8, 4)
  | .rti, .pir => (0x0B#8, 5)
  | .rti, .sdr => (0x01#8, 3)
  | .rti, .sir => (0x03#8, 4)
  | .pdr, .tlr => (0x1F#8, 5)
  | .pdr, .rti => (0x03#8, 3)
  | .pdr, .pdr => (0x00#8, 0)
  | .pdr, .pir => (0x2F#8, 7)
  | .pdr, .sdr => (0x01#8, 2)
  | .pdr, .sir => (0x0F#8, 6)
  | .pir, .tlr => (0x1F#8, 5)
  | .pir, .rti => (0x03#8, 3)
  | .pir, .pdr => (0x17#8, 6)
  | .pir, .pir => (0x00#8, 0)
  | .pir, .sdr => (0x07#8, 5)
  | .pir, .sir => (0x01#8, 2)
  | .sdr, .tlr => (0x1F#8, 5)
  | .sdr, .rti => (0x03#8, 3)
  | .sdr, .pdr => (0x01#8, 2)
  | .sdr, .pir => (0x2F#8, 7)
  | .sdr, .sdr => (0x00#8, 0)
  | .sdr, .sir => (0x0F#8, 6)
  | .sir, .tlr => (0x1F#8, 5)
  | .sir, .rti => (0x03#8, 3)
  | .sir, .pdr => (0x17#8, 6)
  | .sir, .pir => (0x01#8, 2)
  | .sir, .sdr => (0x07#8, 5)
  | .sir, .sir => (0x00#8, 0)

/-- The 7-clock bootstrap command of a move from Undefined (R124). -/
def bootstrap : List Byte := [0x4B#8, 0x06#8, 0x7F#8]

/-- The state a move starts from: Undefined is first brought to TLR (R123, R124). -/
def Cursor.origin : Cursor → DefState
  | .undefined => .tlr
  | .known a => a

/-- The bootstrap command, if the cursor is Undefined (R124). -/
def Cursor.entry : Cursor → List (List Byte)
  | .undefined => [bootstrap]
  | .known _ => []

/-- The pattern and clocks of a move: the table's, but for a shift exit to the shift state itself one
clock with TMS = 0 (R126). -/
def movePath (a t : DefState) (exitbit : Option Bool) : Byte × Nat :=
  if exitbit.isSome && decide (t = a) then (0x00#8, 1) else tt a t

/-- The TMS command of a move: none for 0 clocks (R125); bit 7 is the last data bit of a shift exit,
else 0 (R127). -/
def moveCommand (a t : DefState) (exitbit : Option Bool) (echo : Bool) : List (List Byte) :=
  let path := movePath a t exitbit
  let tdi : Byte := if exitbit = some true then 0x80#8 else 0x00#8
  if path.2 > 0 then
    [[if echo then 0x6B#8 else 0x4B#8, BitVec.ofNat 8 (path.2 - 1), path.1 ||| tdi]]
  else []

/-- `move(buf, t, exitbit, echo)` (R123): the commands it emits. -/
def moveCommands (c : Cursor) (t : DefState) (exitbit : Option Bool) (echo : Bool) :
    List (List Byte) :=
  c.entry ++ moveCommand c.origin t exitbit echo

/-- The clock count `move` returns (R123, R130). -/
def moveClocks (c : Cursor) (t : DefState) (exitbit : Option Bool) : Nat :=
  (movePath c.origin t exitbit).2

/-- MOVE (R129): the cursor is written before the send, and keeps its value if that fails (R286). -/
def moveOp (state : Byte) (s : State) : Res (List Byte) :=
  match DefState.ofCode state with
  | none => .raise .invalidTapState s
  | some t =>
    (emitFlush (moveCommands s.cursor t none false) (s.setCursor (.known t))).bind fun _ s1 =>
      .ok [] s1

/-- MOVE. -/
def execMove (state : Byte) (s : State) : Host.Outcome State Fault Refusal :=
  .next (finish (moveOp state s))

end Sys2Proof.Machine
end

