-- ==== Sys2Proof/Machine/Shift.lean ====
section
/-! DEFINITION. The shift encoder, the response correction and the immediate shift operations
(41_shift_ops.md R150 to R162). -/

namespace Sys2Proof.Machine

/-- The kind of a shift (R151). -/
inductive ShiftKind where
  | w
  | r
  | wr
  deriving DecidableEq, Repr

/-- The checks of R150, in order. `numBytes` is absent for the forms without a payload. -/
def checkShift (numBits : Nat) (numBytes : Option Nat) (exit : Byte) : Except Status DefState :=
  if numBits < Config.nMin ∨ Config.nMax < numBits then .error .invalidNumberBits
  else if numBytes = some 0 then .error .nullBuffer
  else if numBytes.any fun m => decide (m < ceil8 numBits) || decide (Config.writeBytesMax < m) then
    .error .invalidNumberBytes
  else
    match DefState.ofCode exit with
    | none => .error .invalidTapState
    | some t => .ok t

/-- The byte command of a shift of `b` whole bytes (R151, R152, R154, R155). For the largest N the model
follows R151 where a corner case of R159 gives another count (log 31). -/
def byteCommand (kind : ShiftKind) (b : Nat) (data : List Byte) : List (List Byte) :=
  if b > 0 then
    match kind with
    | .w => [[0x19#8] ++ u16le (b - 1) ++ data.take b]
    | .r => [[0x28#8] ++ u16le (b - 1)]
    | .wr => [[0x39#8] ++ u16le (b - 1) ++ data.take b]
  else []

/-- The bit command of a shift's `r` remaining bits, in byte `b` of the payload (R151). -/
def bitCommand (kind : ShiftKind) (b r : Nat) (data : List Byte) : List (List Byte) :=
  if r > 0 then
    match kind with
    | .w => [[0x1B#8, BitVec.ofNat 8 (r - 1), data.getD b 0#8]]
    | .r => [[0x2A#8, BitVec.ofNat 8 (r - 1)]]
    | .wr => [[0x3B#8, BitVec.ofNat 8 (r - 1), data.getD b 0#8]]
  else []

/-- The last bit the exit clocks: 0 for a read (R151, R153, R127). -/
def exitBit (kind : ShiftKind) (data : List Byte) (n : Nat) : Bool :=
  match kind with
  | .w => lastBit data n
  | .r => false
  | .wr => lastBit data n

/-- Does the exit echo its samples (R151). -/
def echoes (kind : ShiftKind) : Bool :=
  match kind with
  | .w => false
  | .r => true
  | .wr => true

/-- One shift: its register, number of bits, payload and exit state. -/
structure ShiftSpec where
  kind : ShiftKind
  ir : Bool
  n : Nat
  data : List Byte
  exit : DefState
  deriving DecidableEq, Repr

/-- `shift(buf, …)` (R151): the commands it emits, from a cursor. -/
def shiftCommands (c : Cursor) (q : ShiftSpec) : List (List Byte) :=
  moveCommands c (shiftState q.ir) none false
    ++ byteCommand q.kind (wholeBytes q.n) q.data
    ++ bitCommand q.kind (wholeBytes q.n) (restBits q.n) q.data
    ++ moveCommand (shiftState q.ir) q.exit (some (exitBit q.kind q.data q.n)) (echoes q.kind)

/-- The clock count of the exit command `shift` returns (R151, R130). -/
def shiftClocks (q : ShiftSpec) : Nat :=
  (movePath (shiftState q.ir) q.exit (some (exitBit q.kind q.data q.n))).2

/-- `correct(resp, N, k)` (R157). -/
def correct (resp : List Byte) (n k : Nat) : List Byte :=
  let b := wholeBytes n
  let r := restBits n
  let t := resp.getD (b + (if r > 0 then 1 else 0)) 0#8
  let fin := (t <<< (k - 1)) &&& 0x80#8
  let part := if r > 0 then resp.getD b 0#8 >>> 1 else 0x00#8
  resp.take b ++ [(part ||| fin) >>> (7 - r)]

/-- A shift that is sent at once: write the cursor, emit, flush (R159 to R161). -/
def sendShift (q : ShiftSpec) (tail : List (List Byte)) (s : State) : Res Unit :=
  emitFlush (shiftCommands s.cursor q ++ tail) (s.setCursor (.known q.exit))

/-- Receive the response of a shift, of which `sent` bytes were sent, and correct it (R160, R161, R324). -/
def receiveShift (q : ShiftSpec) (sent : Nat) (s : State) : Res (List Byte) :=
  (recvExact (respLen q.n) sent s).bind fun resp s1 =>
    readResult (ceil8 q.n) (correct resp q.n (shiftClocks q)) s1

/-- A shift that reads: send it, with SEND_IMMEDIATE if asked for (R162), and receive its response. -/
def exchangeShift (q : ShiftSpec) (s : State) : Res (List Byte) :=
  (sendShift q (immediateTail s.params) s).bind fun _ s1 =>
    receiveShift q (shiftCommands s.cursor q ++ immediateTail s.params).flatten.length s1

/-- WRITE (R159). -/
def writeOp (ir : Bool) (exit : Byte) (numBits : Word) (data : List Byte) (s : State) :
    Res (List Byte) :=
  match checkShift numBits.toNat (some data.length) exit with
  | .error e => .raise e s
  | .ok t => (sendShift ⟨.w, ir, numBits.toNat, data, t⟩ [] s).bind fun _ s1 => .ok [] s1

/-- READ (R160). -/
def readOp (ir : Bool) (exit : Byte) (numBits : Word) (s : State) : Res (List Byte) :=
  match checkShift numBits.toNat none exit with
  | .error e => .raise e s
  | .ok t => exchangeShift ⟨.r, ir, numBits.toNat, [], t⟩ s

/-- WRITE_READ (R161). -/
def writeReadOp (ir : Bool) (exit : Byte) (numBits : Word) (data : List Byte) (s : State) :
    Res (List Byte) :=
  match checkShift numBits.toNat (some data.length) exit with
  | .error e => .raise e s
  | .ok t => exchangeShift ⟨.wr, ir, numBits.toNat, data, t⟩ s

/-- WRITE. -/
def execWrite (ir : Bool) (exit : Byte) (numBits : Word) (data : List Byte) (s : State) :
    Host.Outcome State Fault Refusal :=
  .next (finish (writeOp ir exit numBits data s))

/-- READ. -/
def execRead (ir : Bool) (exit : Byte) (numBits : Word) (s : State) :
    Host.Outcome State Fault Refusal :=
  .next (finish (readOp ir exit numBits s))

/-- WRITE_READ. -/
def execWriteRead (ir : Bool) (exit : Byte) (numBits : Word) (data : List Byte) (s : State) :
    Host.Outcome State Fault Refusal :=
  .next (finish (writeReadOp ir exit numBits data s))

end Sys2Proof.Machine
end

