-- ==== Sys2Proof/Machine/Sequence.lean ====
section
/-! DEFINITION. The deferred command sequence and the response demultiplexer (42_sequence.md R190 to
R199). -/

namespace Sys2Proof.Machine

/-- SEQ_CLEAR (R191): the cursor is not changed. -/
def seqClearOp (s : State) : Res (List Byte) := .ok [] (s.setQueue [] [])

/-- The descriptor an add queues: none for a write (R192). -/
def queuedDesc (q : ShiftSpec) : List ReadDesc :=
  match q.kind with
  | .w => []
  | .r => [⟨q.n, shiftClocks q⟩]
  | .wr => [⟨q.n, shiftClocks q⟩]

/-- The bytes an add queues, from a cursor (R192). -/
def queuedBytes (c : Cursor) (q : ShiftSpec) : List Byte := (shiftCommands c q).flatten

/-- `add(kind, …)` after its checks (R192): a full buffer leaves SEQ, DESC and the cursor unchanged. -/
def addShift (q : ShiftSpec) (s : State) : Res (List Byte) :=
  let bytes := queuedBytes s.cursor q
  if s.seq.length + bytes.length > Config.cmdBufMax then .raise .commandSequenceBufferFull s
  else .ok [] ((s.setCursor (.known q.exit)).setQueue (s.seq ++ bytes) (s.desc ++ queuedDesc q))

/-- SEQ_ADD_WRITE (R193). -/
def seqAddWriteOp (ir : Bool) (exit : Byte) (numBits : Word) (data : List Byte) (s : State) :
    Res (List Byte) :=
  match checkShift numBits.toNat (some data.length) exit with
  | .error e => .raise e s
  | .ok t => addShift ⟨.w, ir, numBits.toNat, data, t⟩ s

/-- SEQ_ADD_READ (R194). -/
def seqAddReadOp (ir : Bool) (exit : Byte) (numBits : Word) (s : State) : Res (List Byte) :=
  match checkShift numBits.toNat none exit with
  | .error e => .raise e s
  | .ok t => addShift ⟨.r, ir, numBits.toNat, [], t⟩ s

/-- SEQ_ADD_WRITE_READ (R195). -/
def seqAddWriteReadOp (ir : Bool) (exit : Byte) (numBits : Word) (data : List Byte) (s : State) :
    Res (List Byte) :=
  match checkShift numBits.toNat (some data.length) exit with
  | .error e => .raise e s
  | .ok t => addShift ⟨.wr, ir, numBits.toNat, data, t⟩ s

/-- The response bytes a descriptor list yields (R196). -/
def totalResponse (d : List ReadDesc) : Nat := (d.map fun e => respLen e.nbits).sum

/-- The result bytes a descriptor list yields (R81, R196). -/
def totalResult (d : List ReadDesc) : Nat := (d.map fun e => ceil8 e.nbits).sum

/-- `demux(resp, d)` (R197). -/
def demux : List Byte → List ReadDesc → List Byte
  | _, [] => []
  | resp, e :: d =>
    correct (resp.take (respLen e.nbits)) e.nbits e.tmsclk ++ demux (resp.drop (respLen e.nbits)) d

/-- The bytes SEQ_EXECUTE sends (R196, R162). -/
def sequenceBytes (s : State) : List Byte :=
  s.seq ++ (if s.desc ≠ [] ∧ s.params.sendImmediateOnRead then encode .sendImmediate else [])

/-- SEQ_EXECUTE (R196): SEQ and DESC are empty whatever the outcome (R198); an empty sequence does no
I/O (R199). -/
def seqExecuteOp (s : State) : Res (List Byte) :=
  if s.seq = [] ∧ s.desc = [] then .ok [] s
  else
    (send (sequenceBytes s) (s.setQueue [] [])).bind fun _ s1 =>
      if totalResponse s.desc = 0 then .ok [] s1
      else
        (recvExact (totalResponse s.desc) (sequenceBytes s).length s1).bind fun resp s2 =>
          readResult (totalResult s.desc) (demux resp s.desc) s2

/-- SEQ_CLEAR. -/
def execSeqClear (s : State) : Host.Outcome State Fault Refusal := .next (finish (seqClearOp s))

/-- SEQ_EXECUTE. -/
def execSeqExecute (s : State) : Host.Outcome State Fault Refusal :=
  .next (finish (seqExecuteOp s))

/-- SEQ_ADD_WRITE. -/
def execSeqAddWrite (ir : Bool) (exit : Byte) (numBits : Word) (data : List Byte) (s : State) :
    Host.Outcome State Fault Refusal :=
  .next (finish (seqAddWriteOp ir exit numBits data s))

/-- SEQ_ADD_READ. -/
def execSeqAddRead (ir : Bool) (exit : Byte) (numBits : Word) (s : State) :
    Host.Outcome State Fault Refusal :=
  .next (finish (seqAddReadOp ir exit numBits s))

/-- SEQ_ADD_WRITE_READ. -/
def execSeqAddWriteRead (ir : Bool) (exit : Byte) (numBits : Word) (data : List Byte) (s : State) :
    Host.Outcome State Fault Refusal :=
  .next (finish (seqAddWriteReadOp ir exit numBits data s))

end Sys2Proof.Machine
end

