-- ==== Sys2Proof/Machine/Clock.lean ====
section
/-! DEFINITION. Clock operations: PULSE, PULSE_HS, SET_CLOCK, SET_DIV5, GET_FREQ (43_clock_ops.md R230
to R236). -/

namespace Sys2Proof.Machine

/-- `pulses(buf, c)` (R231): zero-data byte commands, then the remaining bits. -/
def pulseCommands (c : Nat) : List (List Byte) :=
  (groups (c / 8)).map (fun g => [0x19#8] ++ u16le (g - 1) ++ List.replicate g 0x00#8)
    ++ (if c % 8 > 0 then [[0x1B#8, BitVec.ofNat 8 (c % 8 - 1), 0x00#8]] else [])

/-- PULSE (R230). -/
def pulseOp (count : Word) (s : State) : Res (List Byte) :=
  if count.toNat = 0 ∨ Config.pulseMax < count.toNat then .raise .invalidNumberClockPulses s
  else (emitFlush (pulseCommands count.toNat) s).bind fun _ s1 => .ok [] s1

/-- The opcode of a high-speed pulse command (R233). -/
def pulseHsOpcode (pinstop stoplevel : Bool) : Byte :=
  if pinstop then (if stoplevel then 0x9C#8 else 0x9D#8) else 0x8F#8

/-- `pulses_hs(buf, pinstop, stoplevel, c)` (R233). -/
def pulseHsCommands (pinstop stoplevel : Bool) (c : Nat) : List (List Byte) :=
  (groups c).map fun g => [pulseHsOpcode pinstop stoplevel] ++ u16le (g - 1)

/-- The largest count of a form of PULSE_HS (R232). -/
def pulseHsMax (p : Params) (pinstop : Bool) : Nat :=
  if pinstop then p.hsPulseMaxPinstop else p.hsPulseMaxFree

/-- PULSE_HS (R232, R297). -/
def pulseHsOp (pinstop stoplevel : Bool) (count : Word) (s : State) : Res (List Byte) :=
  if s.params.variant.hiSpeed = false then .raise .operationNotSupported s
  else if count.toNat = 0 ∨ pulseHsMax s.params pinstop < count.toNat then .raise .invalidNumberClockPulses s
  else
    (emitFlush (pulseHsCommands pinstop stoplevel count.toNat) s).bind fun _ s1 => .ok [] s1

/-- SET_CLOCK (R234): DIVISOR keeps the new value if the send fails. -/
def setClockOp (divisor : Half) (s : State) : Res (List Byte) :=
  if s.params.divisorMax < divisor.toNat then .raise .invalidClockDivisor s
  else
    (emitFlush [encode (.setTckDivisor divisor)] { s with divisor := some divisor }).bind
      fun _ s1 => .ok [] s1

/-- The prescaler command for a value of DIV5 (R235, R264). -/
def prescalerCommand (on : Bool) : List Byte := encode (if on then .div5On else .div5Off)

/-- SET_DIV5 (R235, R297). -/
def setDiv5Op (on : Bool) (s : State) : Res (List Byte) :=
  if s.params.variant.hiSpeed = false then .raise .operationNotSupported s
  else (emitFlush [prescalerCommand on] { s with div5 := on }).bind fun _ s1 => .ok [] s1

/-- The clock base (R236). -/
def clockBase (v : Variant) (div5 : Bool) : Nat :=
  if v.hiSpeed then (if div5 then Config.hsDiv5BaseHz else Config.hsBaseHz) else Config.stdBaseHz

/-- `freq(divisor)` in Hz (R236). -/
def freq (v : Variant) (div5 : Bool) (divisor : Nat) : Nat := clockBase v div5 / (2 * (1 + divisor))

/-- GET_FREQ (R236): no I/O. -/
def getFreqOp (divisor : Half) (s : State) : Res (List Byte) :=
  if s.params.divisorMax < divisor.toNat then .raise .invalidClockDivisor s
  else .ok (u32le (freq s.params.variant s.div5 divisor.toNat)) s

/-- PULSE. -/
def execPulse (count : Word) (s : State) : Host.Outcome State Fault Refusal :=
  .next (finish (pulseOp count s))

/-- PULSE_HS. -/
def execPulseHs (pinstop stoplevel : Bool) (count : Word) (s : State) :
    Host.Outcome State Fault Refusal :=
  .next (finish (pulseHsOp pinstop stoplevel count s))

/-- SET_CLOCK. -/
def execSetClock (divisor : Half) (s : State) : Host.Outcome State Fault Refusal :=
  .next (finish (setClockOp divisor s))

/-- SET_DIV5. -/
def execSetDiv5 (on : Bool) (s : State) : Host.Outcome State Fault Refusal :=
  .next (finish (setDiv5Op on s))

/-- GET_FREQ. -/
def execGetFreq (divisor : Half) (s : State) : Host.Outcome State Fault Refusal :=
  .next (finish (getFreqOp divisor s))

end Sys2Proof.Machine
end

