-- ==== Sys2Proof/Machine/Session.lean ====
section
/-! DEFINITION. Session operations: SYNC and INIT (44_session_ops.md R260 to R264). -/

namespace Sys2Proof.Machine

/-- `match(acc, probe)` (R261): the marker 0xFA followed at once by the probe, anywhere. -/
def echoFound (probe : Byte) : List Byte → Bool
  | [] => false
  | [_] => false
  | a :: b :: bs => (decide (a = 0xFA#8) && decide (b = probe)) || echoFound probe (b :: bs)

/-- The polling loop of SYNC (R260): it reads everything queued. The end of a schedule means that the
deadline came before another poll (log 5). A read that fails takes no byte from the queue (R285; log
33). -/
def syncLoop (probe : Byte) (deadline : Nat) : List Poll → List Byte → State → Res Unit
  | [], acc, s =>
    if echoFound probe acc then .ok () s
    else raiseUnsynced .synchronizationFailed (s.setTime (max s.time deadline))
  | p :: ps, acc, s =>
    if echoFound probe acc then .ok () s
    else
      let s1 := s.setTime (s.time + p.dt)
      if deadline ≤ s1.time then raiseUnsynced .synchronizationFailed s1
      else if p.countFails then raiseUnsynced .ioError s1
      else
        let queued := min p.visible s1.dn.rsp.length
        if queued = 0 then syncLoop probe deadline ps acc s1
        else if p.readFails then raiseUnsynced .ioError s1
        else
          syncLoop probe deadline ps (acc ++ s1.dn.rsp.take queued)
            (s1.setDn { s1.dn with rsp := s1.dn.rsp.drop queued })

/-- Send one probe and wait for its echo (R260). -/
def syncProbe (probe : Byte) (s : State) : Res Unit :=
  (emitFlush [[probe]] s).bind fun _ =>
    awaiting 1 fun polls t => syncLoop probe (t.time + t.params.syncTimeoutMs) polls [] t

/-- The handshake (R260): two different probes, then `synced`. -/
def handshake (s : State) : Res Unit :=
  (syncProbe 0xAA#8 (s.setSynced false)).bind fun _ s1 =>
    (syncProbe 0xAB#8 s1).bind fun _ s2 => .ok () (s2.setSynced true)

/-- SYNC. -/
def syncOp (s : State) : Res (List Byte) := (handshake s).bind fun _ s1 => .ok [] s1

/-- What a successful XPORT call does to the downstream: a purge empties the response queue (20_memory.md
R61); a device reset and a mode change drop unexecuted bytes (log 18); entering MPSSE mode makes it
decode CMD (R263). -/
def callEffect (c : XportCall) (d : Downstream) : Downstream :=
  match c with
  | .resetAndPurge => { d with inbox := [], rsp := [] }
  | .setUsbBufferSizes => d
  | .setSpecialChars => d
  | .setTimeouts => d
  | .setLatencyTimer => d
  | .setBitModeReset => { d with mpsse := false, inbox := [] }
  | .setBitModeMpsse => { d with mpsse := true, inbox := [], rsp := [] }

/-- One XPORT call: it succeeds, or INIT raises IoError at once (R263). -/
def xportCall (c : XportCall) (s : State) : Res Unit :=
  let (succeeds, s1) := nextCall s
  let s2 := s1.note (.call c)
  if succeeds then .ok () (s2.setDn (callEffect c s2.dn)) else raiseUnsynced .ioError s2

/-- XPORT calls in order. -/
def xportCalls : List XportCall → State → Res Unit
  | [], s => .ok () s
  | c :: cs, s => (xportCall c s).bind fun _ s1 => xportCalls cs s1

/-- INIT's XPORT calls in order (R262). -/
def initCalls : List XportCall :=
  [.resetAndPurge, .setUsbBufferSizes, .setSpecialChars, .setTimeouts, .setLatencyTimer,
    .setBitModeReset, .setBitModeMpsse]

/-- The engine's bits of PINLO, bits 7:4 kept (R27, R264): TMS high, TCK and TDI low. -/
def initPinVal (v : Byte) : Byte := (v &&& 0xF0#8) ||| 0x08#8

/-- The engine's directions, bits 7:4 kept (R27, R264): TCK, TDI and TMS outputs. -/
def initPinDir (d : Byte) : Byte := (d &&& 0xF0#8) ||| 0x0B#8

/-- The commands INIT sends after the handshake, in one flush (R264 items 2 to 5). -/
def initCommands (divisor : Half) (s : State) : List (List Byte) :=
  (if s.params.variant.hiSpeed then [prescalerCommand s.div5] else [])
    ++ [encode (.setTckDivisor divisor),
        encode (.setPinsLow (initPinVal s.pinVal) (initPinDir s.pinDir))]
    ++ moveCommands .undefined .rti none false

/-- INIT's configuration after the handshake (R262): DIVISOR, PINLO and the cursor are written, and the
commands go in one flush. -/
def initConfigure (divisor : Half) (s : State) : Res Unit :=
  emitFlush (initCommands divisor s)
    { s with
      divisor := some divisor
      pinVal := initPinVal s.pinVal
      pinDir := initPinDir s.pinDir
      cursor := .known .rti }

/-- INIT's first writes, before any XPORT call (R262). -/
def initBegin (s : State) : State :=
  ((s.setCursor .undefined).setQueue [] []).setSynced false

/-- INIT (R262): any failure after the divisor check leaves the cursor Undefined, also one of the last
flush (R286, log 17). -/
def initOp (divisor : Half) (s : State) : Res (List Byte) :=
  if s.params.divisorMax < divisor.toNat then .raise .invalidClockDivisor s
  else
    ((xportCalls initCalls (initBegin s)).bind fun _ s1 =>
      (handshake s1).bind fun _ s2 =>
        (initConfigure divisor s2).bind fun _ s3 => Res.ok [] s3).onRaise
      (State.setCursor .undefined)

/-- INIT. -/
def execInit (divisor : Half) (s : State) : Host.Outcome State Fault Refusal :=
  .next (finish (initOp divisor s))

/-- SYNC. -/
def execSync (s : State) : Host.Outcome State Fault Refusal := .next (finish (syncOp s))

end Sys2Proof.Machine
end

