-- ==== Sys2Proof/Machine/Dispatch.lean ====
section
/-! DEFINITION. One arm per instruction. -/

namespace Sys2Proof.Machine

def exec (i : Instr) (s : State) : Host.Outcome State Fault Refusal :=
  match i with
  | .move state => Sys2Proof.Machine.execMove state s
  | .write ir exit numBits data => Sys2Proof.Machine.execWrite ir exit numBits data s
  | .read ir exit numBits => Sys2Proof.Machine.execRead ir exit numBits s
  | .writeRead ir exit numBits data => Sys2Proof.Machine.execWriteRead ir exit numBits data s
  | .seqClear => Sys2Proof.Machine.execSeqClear s
  | .seqExecute => Sys2Proof.Machine.execSeqExecute s
  | .seqAddWrite ir exit numBits data => Sys2Proof.Machine.execSeqAddWrite ir exit numBits data s
  | .seqAddRead ir exit numBits => Sys2Proof.Machine.execSeqAddRead ir exit numBits s
  | .seqAddWriteRead ir exit numBits data => Sys2Proof.Machine.execSeqAddWriteRead ir exit numBits data s
  | .pulse count => Sys2Proof.Machine.execPulse count s
  | .pulseHs pinstop stoplevel count => Sys2Proof.Machine.execPulseHs pinstop stoplevel count s
  | .setClock divisor => Sys2Proof.Machine.execSetClock divisor s
  | .setDiv5 on => Sys2Proof.Machine.execSetDiv5 on s
  | .getFreq divisor => Sys2Proof.Machine.execGetFreq divisor s
  | .init divisor => Sys2Proof.Machine.execInit divisor s
  | .sync => Sys2Proof.Machine.execSync s
  | .clkBytesOut data => Sys2Proof.Machine.execClkBytesOut data s
  | .clkBitsOut n d => Sys2Proof.Machine.execClkBitsOut n d s
  | .clkBytesIn len => Sys2Proof.Machine.execClkBytesIn len s
  | .clkBitsIn n => Sys2Proof.Machine.execClkBitsIn n s
  | .clkBytesOutIn data => Sys2Proof.Machine.execClkBytesOutIn data s
  | .clkBitsOutIn n d => Sys2Proof.Machine.execClkBitsOutIn n d s
  | .tmsOut n p => Sys2Proof.Machine.execTmsOut n p s
  | .tmsOutIn n p => Sys2Proof.Machine.execTmsOutIn n p s
  | .setPinsLow val dir => Sys2Proof.Machine.execSetPinsLow val dir s
  | .setTckDivisor div => Sys2Proof.Machine.execSetTckDivisor div s
  | .sendImmediate => Sys2Proof.Machine.execSendImmediate s
  | .div5Off => Sys2Proof.Machine.execDiv5Off s
  | .div5On => Sys2Proof.Machine.execDiv5On s
  | .clkOctets len => Sys2Proof.Machine.execClkOctets len s
  | .clkOctetsUntilHigh len => Sys2Proof.Machine.execClkOctetsUntilHigh len s
  | .clkOctetsUntilLow len => Sys2Proof.Machine.execClkOctetsUntilLow len s
  | .syncProbe1 => Sys2Proof.Machine.execSyncProbe1 s
  | .syncProbe2 => Sys2Proof.Machine.execSyncProbe2 s

end Sys2Proof.Machine
end

