-- ==== Sys2Proof/Machine/Step.lean ====
section
/-! DEFINITION. One step: the downstream executes one delivered command if a whole one is there, else
the block accepts one descriptor, else the machine is idle (60_exceptions.md R296; log 6). -/

namespace Sys2Proof.Machine

/-- The block accepts the next frame on OP: it runs the operation the frame decodes to, or reports
InvalidOperation (30_encoding.md R80, R94). -/
def stepBlock (s : State) : Host.Outcome State Fault Refusal :=
  match s.op with
  | [] => .next s
  | frame :: frames =>
    match decodeOp frame with
    | .instr i => exec i { s with op := frames }
    | .reject _ => .next (finish (.raise .invalidOperation { s with op := frames }))

def step (s : State) : Host.Outcome State Fault Refusal :=
  match s.dn.fetch s.params.variant.hiSpeed with
  | .cmd i rest => exec i (s.setDn { s.dn with inbox := rest })
  | .unlisted op rest => .next (s.setDn (unlistedOpcode op { s.dn with inbox := rest }))
  | .undescribed => .next (s.setDn (loseTrack s.dn))
  | .more => stepBlock s

/-- Is the opcode a command's: its instruction is fetched from CMD, not from OP. -/
def isCommandWord (nbits w : Nat) : Bool :=
  match decodeTableWord nbits w with
  | some i => !i.isHostOp
  | none => false

/-- The state in which the next step fetches the instruction whose bits are `w`: a command at the head
of the CMD bytes of a downstream in MPSSE mode, or a descriptor at the head of OP with no command
waiting. It stands for the host's putting a frame on OP, the only way a program comes to run (log 20). -/
def State.withFetchWord (s : State) (nbits w : Nat) : State :=
  if isCommandWord nbits w then
    s.setDn { s.dn with mpsse := true, inbox := tableBytes nbits w ++ s.dn.inbox }
  else { s with op := tableBytes nbits w :: s.op, dn := { s.dn with inbox := [] } }

end Sys2Proof.Machine
end

