-- ==== Sys2Proof/Safety.lean ====
section
/-! DEFINITION. What claims call a good state: the invariant of the block's buffers and registers, and
when the cursor agrees with the target (70_reset_and_hazards.md R325). -/

namespace Sys2Proof.Machine

/-- A queued read descriptor is in range (10_state.md R25). -/
def ReadDesc.InRange (d : ReadDesc) : Prop :=
  Config.nMin ≤ d.nbits ∧ d.nbits ≤ Config.nMax ∧ 1 ≤ d.tmsclk ∧ d.tmsclk ≤ 7

/-- The engine's nibble of PINLO: untouched since reset, or as INIT sets it (10_state.md R27). -/
def State.PinsLegal (s : State) : Prop :=
  (s.pinVal &&& 0x0F#8 = 0x00#8 ∧ s.pinDir &&& 0x0F#8 = 0x00#8) ∨
    (s.pinVal &&& 0x0F#8 = 0x08#8 ∧ s.pinDir &&& 0x0F#8 = 0x0B#8)

/-- The last result frame on RES. -/
def lastFrame : List PortEvent → Option (List Byte)
  | [] => none
  | .frame f :: es => (lastFrame es).or (some f)
  | .write _ :: es => lastFrame es
  | .call _ :: es => lastFrame es

/-- What holds of the block between operations: IMM is empty (R23, R57); SEQ is within its cap (R24);
every descriptor is in range and its read took at least 5 bytes of SEQ (R25, R190); the engine's pin
bits are legal (R27); a divisor sent is within its bound (R28); no result goes with an error (R52); a
downstream outside MPSSE mode holds no commands. -/
structure State.Inv (s : State) : Prop where
  imm_empty : s.imm = []
  seq_capped : s.seq.length ≤ Config.cmdBufMax
  desc_inRange : ∀ d ∈ s.desc, d.InRange
  desc_bounded : 5 * s.desc.length ≤ s.seq.length
  pins_legal : s.PinsLegal
  divisor_bounded : ∀ d, s.divisor = some d → d.toNat ≤ s.params.divisorMax
  no_result_on_error : s.status ≠ .success → s.result = []
  inbox_only_mpsse : s.dn.mpsse = false → s.dn.inbox = []
  frame_is_status : lastFrame s.log = none ∨ lastFrame s.log = some (s.status.code :: s.result)

/-- The downstream has executed all it was sent, takes CMD as commands, and its TAP is where the cursor
says it is: the assumption every encoding makes (R325), with the TMS line at the level that holds the
state (40_tap_sequencer.md R128). -/
def State.InStep (s : State) : Prop :=
  s.dn.mpsse = true ∧ s.dn.inbox = [] ∧
    ∀ a, s.cursor = .known a → s.dn.tap = a.tap ∧ tapNext s.dn.tap s.dn.tms = s.dn.tap

/-- The writes of a send of these bytes are all answered in full, and `rest` are the answers after
them. -/
def State.WritesAccepted (bytes : List Byte) (rest : List WriteReply) (s : State) : Prop :=
  s.writes = List.replicate (chunksOf s.params.writeChunk bytes).length .full ++ rest

/-- The CMD writes a send of these bytes makes (20_memory.md R58). -/
def writeEvents (p : Params) (bytes : List Byte) : List PortEvent :=
  (chunksOf p.writeChunk bytes).map .write

/-- The bytes put on CMD, in order (00_scope.md R18, 20_memory.md R62). -/
def cmdBytes : List PortEvent → List Byte
  | [] => []
  | .write b :: es => b ++ cmdBytes es
  | .call _ :: es => cmdBytes es
  | .frame _ :: es => cmdBytes es

/-- The result frames on RES, in order. -/
def frames : List PortEvent → List (List Byte)
  | [] => []
  | .frame f :: es => f :: frames es
  | .write _ :: es => frames es
  | .call _ :: es => frames es

/-- Is the machine's chip a high-speed one. -/
abbrev State.hs (s : State) : Bool := s.params.variant.hiSpeed

/-- The state whose IMM holds nothing, whose writes of `bytes` are accepted, after they were sent. -/
def State.afterSend (bytes : List Byte) (rest : List WriteReply) (s : State) : State :=
  State.deliver bytes { s with writes := rest, log := s.log ++ writeEvents s.params bytes }

/-! ### A failing send (20_memory.md R58, R59) -/

/-- Of the writes of a send of these bytes the first `k` are answered in full and the next fails or is
short, the downstream having received `delivered` bytes of the send; `rest` are the answers after it. -/
def State.WriteFails (bytes : List Byte) (k delivered : Nat) (rest : List WriteReply) (s : State) :
    Prop :=
  ∃ r c, s.writes = List.replicate k .full ++ r :: rest ∧
    (chunksOf s.params.writeChunk bytes)[k]? = some c ∧
    (r = .failed delivered ∨ ∃ w, w ≠ c.length ∧ r = .wrote w delivered)

/-- The state after such a send: IoError's `synced` (60_exceptions.md R286), the writes made, and the
bytes delivered. -/
def State.afterFailedSend (bytes : List Byte) (k delivered : Nat) (rest : List WriteReply)
    (s : State) : State :=
  State.setSynced false (State.deliver (bytes.take delivered)
    { s with
      writes := rest
      log := s.log ++ ((chunksOf s.params.writeChunk bytes).take (k + 1)).map .write })

/-! ### Waits (20_memory.md R60, 44_session_ops.md R260) -/

/-- A poll without a transport error: its count succeeds, and its read too, if there are bytes. -/
def PollWorks (p : Poll) : Prop := p.countFails = false ∧ (p.visible = 0 ∨ p.readFails = false)

/-- The milliseconds the polls take. -/
def pollTime (ps : List Poll) : Nat := (ps.map Poll.dt).sum

/-- How many bytes the polls can read together. -/
def pollReach (ps : List Poll) : Nat := (ps.map Poll.visible).sum

/-- A wait with this deadline and schedule makes the polls `used` first: none of them fails, and the
deadline is not yet there. -/
def PollsPass (timeout : Nat) (used polls : List Poll) : Prop :=
  (∃ more, polls = used ++ more) ∧ (∀ p ∈ used, PollWorks p) ∧ (used = [] ∨ pollTime used < timeout)

/-- The polls `used`, and not fewer, read `n` bytes before the deadline, if they were produced. -/
def Arrives (timeout n : Nat) (used polls : List Poll) : Prop :=
  PollsPass timeout used polls ∧ pollReach used.dropLast < n ∧ n ≤ pollReach used

/-- After the polls `used` the wait ends with the status `e`, `elapsed` milliseconds after its start:
with `late` when the deadline has come at the next poll, or no poll comes before it; with IoError when
the next poll comes before the deadline and its count fails, or its read does with bytes there
(60_exceptions.md R285, R287). `produced` bytes are in the response queue at the start. -/
def WaitFails (late : Status) (timeout produced : Nat) (used polls : List Poll) (elapsed : Nat)
    (e : Status) : Prop :=
  PollsPass timeout used polls ∧
    ((e = late ∧ polls = used ∧ elapsed = timeout) ∨
      ∃ p more, polls = used ++ p :: more ∧ elapsed = pollTime used + p.dt ∧
        ((e = late ∧ timeout ≤ elapsed) ∨
          (e = .ioError ∧ elapsed < timeout ∧
            (p.countFails = true ∨
              (p.readFails = true ∧ 0 < p.visible ∧ pollReach used < produced)))))

/-- The marker 0xFA followed at once by the probe, anywhere in what was read (44_session_ops.md R261). -/
def HasEcho (probe : Byte) (acc : List Byte) : Prop :=
  ∃ i, acc[i]? = some 0xFA#8 ∧ acc[i + 1]? = some probe

/-- The response queue when a downstream in MPSSE mode has executed a probe (30_encoding.md R100). -/
def State.probeRsp (probe : Byte) (s : State) : List Byte := s.dn.rsp ++ [0xFA#8, probe]

/-- The polls `used`, and not fewer, read the echo of a probe sent now, before the deadline (R260). -/
def State.Echoed (probe : Byte) (used polls : List Poll) (s : State) : Prop :=
  PollsPass s.params.syncTimeoutMs used polls ∧
    HasEcho probe ((s.probeRsp probe).take (pollReach used)) ∧
    ¬ HasEcho probe ((s.probeRsp probe).take (pollReach used.dropLast))

/-- The wait for the echo of a probe sent now ends with the status `e` without having read it. -/
def State.EchoFails (probe : Byte) (used polls : List Poll) (elapsed : Nat) (e : Status)
    (s : State) : Prop :=
  WaitFails .synchronizationFailed s.params.syncTimeoutMs (s.probeRsp probe).length used polls
      elapsed e ∧
    ¬ HasEcho probe ((s.probeRsp probe).take (pollReach used))

/-- After a probe whose one write was accepted and whose wait took `elapsed` milliseconds and read up
to `reach` bytes: `writes` and `waits` are the transport's coming answers. -/
def State.afterProbe (probe : Byte) (elapsed reach : Nat) (writes : List WriteReply)
    (waits : List Wait) (s : State) : State :=
  { s with
    writes := writes
    waits := waits
    time := s.time + elapsed
    log := s.log ++ [.write [probe]]
    dn := { s.dn with rsp := (s.probeRsp probe).drop reach } }

/-- The same when the wait `w` fails (70_reset_and_hazards.md R325 case 3, R331; log 35): the downstream
has executed the probe, certainly so if bytes of its answer were read; or the probe still waits, or is
lost. -/
def State.afterFailedProbe (probe : Byte) (elapsed reach : Nat) (writes : List WriteReply) (w : Wait)
    (waits : List Wait) (s : State) : State :=
  { s with
    synced := false
    writes := writes
    waits := waits
    time := s.time + elapsed
    log := s.log ++ [.write [probe]]
    dn :=
      if 0 < w.executed ∨ s.dn.rsp.length < reach then
        { s.dn with rsp := (s.probeRsp probe).drop reach }
      else
        { s.dn with rsp := s.dn.rsp.drop reach, inbox := if w.lost = 0 then [probe] else [] } }

/-- INIT after its first `k` XPORT calls succeeded; `calls` are the coming answers (44_session_ops.md
R262; what a call does to the downstream: log 18). -/
def State.afterInitCalls (k : Nat) (calls : List Bool) (s : State) : State :=
  { s with
    cursor := .undefined
    seq := []
    desc := []
    synced := false
    calls := calls
    log := s.log ++ (initCalls.take k).map .call
    dn := (initCalls.take k).foldl (fun d c => callEffect c d) s.dn }

/-! ### Shifts -/

/-- A shift whose fields pass the checks of 41_shift_ops.md R150; a read has no payload. -/
def ShiftSpec.Legal (q : ShiftSpec) : Prop :=
  Config.nMin ≤ q.n ∧ q.n ≤ Config.nMax ∧
    (q.kind = .r → q.data = []) ∧
    (q.kind ≠ .r → ceil8 q.n ≤ q.data.length ∧ q.data.length ≤ Config.writeBytesMax)

/-- The immediate operation of a shift (30_encoding.md R82). -/
def ShiftSpec.immediate (q : ShiftSpec) : Instr :=
  match q.kind with
  | .w => .write q.ir q.exit.code (BitVec.ofNat 32 q.n) q.data
  | .r => .read q.ir q.exit.code (BitVec.ofNat 32 q.n)
  | .wr => .writeRead q.ir q.exit.code (BitVec.ofNat 32 q.n) q.data

/-- The deferred operation of a shift (R82). -/
def ShiftSpec.deferred (q : ShiftSpec) : Instr :=
  match q.kind with
  | .w => .seqAddWrite q.ir q.exit.code (BitVec.ofNat 32 q.n) q.data
  | .r => .seqAddRead q.ir q.exit.code (BitVec.ofNat 32 q.n)
  | .wr => .seqAddWriteRead q.ir q.exit.code (BitVec.ofNat 32 q.n) q.data

/-- The bytes of several shifts, each from the exit state of the one before. -/
def batchBytes : Cursor → List ShiftSpec → List Byte
  | _, [] => []
  | c, q :: qs => queuedBytes c q ++ batchBytes (.known q.exit) qs

/-- The same with SEND_IMMEDIATE after each read, if the parameter asks for it (R162, 42_sequence.md
R200). -/
def immediateBytes (p : Params) : Cursor → List ShiftSpec → List Byte
  | _, [] => []
  | c, q :: qs =>
    queuedBytes c q ++ (if q.kind = .w then [] else (immediateTail p).flatten)
      ++ immediateBytes p (.known q.exit) qs

/-- The cursor after several shifts. -/
def lastCursor : Cursor → List ShiftSpec → Cursor
  | c, [] => c
  | _, q :: qs => lastCursor (.known q.exit) qs

/-- Execute operations one after another, each of which must end with Success. -/
def runOps : List Instr → State → Option State
  | [], s => some s
  | i :: is, s =>
    match exec i s with
    | .next t => if t.status = .success then runOps is t else none
    | .fault _ => none
    | .refused _ => none

/-- The same, with the result of each. -/
def runResults : List Instr → State → Option (State × List (List Byte))
  | [], s => some (s, [])
  | i :: is, s =>
    match exec i s with
    | .next t =>
      if t.status = .success then (runResults is t).map fun x => (x.1, t.result :: x.2) else none
    | .fault _ => none
    | .refused _ => none

/-- A shift entered from this cursor goes on with the register as it stands: it is in the shift or the
pause state of the same register, so its entry path has no capture (40_tap_sequencer.md R121). -/
def entersWithoutCapture (c : Cursor) (ir : Bool) : Bool :=
  match c with
  | .undefined => false
  | .known .tlr => false
  | .known .rti => false
  | .known .pdr => !ir
  | .known .pir => ir
  | .known .sdr => !ir
  | .known .sir => ir

/-- The register a shift finds: the one that stands, or the target's next capture; a bootstrap does not
begin in a capture state, whose load would come before the shift's own. -/
def State.ScanRegister (s : State) (ir : Bool) (reg : List Bool) : Prop :=
  if entersWithoutCapture s.cursor ir then s.dn.reg = reg
  else (∃ cs, s.dn.captures = reg :: cs) ∧ (s.cursor = .undefined → isCapture s.dn.tap = false)

/-- An exit whose path goes on to the other register, and so captures there. -/
def exitsToOtherRegister (ir : Bool) (t : DefState) : Bool :=
  match t with
  | .tlr => false
  | .rti => false
  | .pdr => ir
  | .pir => !ir
  | .sdr => ir
  | .sir => !ir

/-- The machine is ready for a read with nothing left over: the channel is aligned, the downstream in
step, no response waiting. -/
def State.ReadyToRead (s : State) : Prop :=
  s.imm = [] ∧ s.synced = true ∧ s.InStep ∧ s.dn.rsp = []

end Sys2Proof.Machine
end

