-- ==== Sys2Proof/Certificates/Slice0/Obligations.lean ====
section
/-! DEFINITION. The statements for the provers. Each docstring names the rules it formalises. -/

open Sys2Proof Sys2Proof.Machine

/-! ### Encoding -/

/-- R80 to R95: every host operation's frame decodes to it, with every operand at every value. -/
def Obligations.DecodeOpInvertsEncode : Prop :=
  ∀ i : Instr, i.wf = true → i.isHostOp = true → decodeOp (encode i) = .instr i

/-- R97 to R99: every MPSSE command's bytes decode to it, whatever bytes follow. -/
def Obligations.DecodeCmdInvertsEncode : Prop :=
  ∀ (i : Instr) (rest : List Byte), i.wf = true → i.isHostOp = false →
    decodeCmd true (encode i ++ rest) = .cmd i rest

/-- R80, R84, R95: a frame that decodes is the encoding of a well-formed host operation, so no two
frames mean the same and no reserved bit is dropped. -/
def Obligations.DecodedFrameIsItsEncoding : Prop :=
  ∀ (frame : List Byte) (i : Instr), decodeOp frame = .instr i →
    i.wf = true ∧ i.isHostOp = true ∧ encode i = frame

/-- R97: command bytes that decode are the encoding of a well-formed command and the bytes after it. -/
def Obligations.DecodedCommandIsItsEncoding : Prop :=
  ∀ (hs : Bool) (bytes : List Byte) (i : Instr) (rest : List Byte),
    decodeCmd hs bytes = .cmd i rest →
      i.wf = true ∧ i.isHostOp = false ∧ encode i ++ rest = bytes

/-- Words of 95_test_vectors.md (M2, W1, R1, K19, K20, I1) and of R97, written out, decode to what
they stand for. -/
def Obligations.SpecWordsDecode : Prop :=
  decodeOp [0x01#8, 0x02#8] = .instr (.move 0x02#8) ∧
  decodeOp [0x02#8, 0x01#8, 0x02#8, 0x04#8, 0#8, 0#8, 0#8, 0x01#8, 0#8, 0#8, 0#8, 0x02#8] =
    .instr (.write true 0x02#8 4#32 [0x02#8]) ∧
  decodeOp [0x03#8, 0x00#8, 0x02#8, 0x20#8, 0#8, 0#8, 0#8] = .instr (.read false 0x02#8 32#32) ∧
  decodeOp [0x21#8, 0x03#8, 0x08#8, 0#8, 0#8, 0#8] = .instr (.pulseHs true true 8#32) ∧
  decodeOp [0x22#8, 0x05#8, 0x00#8] = .instr (.setClock 5#16) ∧
  decodeOp [0x30#8, 0x05#8, 0x00#8] = .instr (.init 5#16) ∧
  decodeCmd true [0x6B#8, 0x02#8, 0x83#8, 0x87#8] = .cmd (.tmsOutIn 2#3 0x83#8) [0x87#8] ∧
  decodeCmd true [0x39#8, 0x00#8, 0x00#8, 0x78#8] = .cmd (.clkBytesOutIn [0x78#8]) []

/-! ### The step -/

/-- R294 item 1: when the next CMD bytes of a downstream in MPSSE mode are a whole command, the step
executes that command, with the bytes after it left waiting. That a command is a step of its own is
the model's reading (log 6). -/
def Obligations.StepRunsFetchedCommand : Prop :=
  ∀ (s : State) (i : Instr) (rest : List Byte), s.dn.mpsse = true →
    decodeCmd s.hs s.dn.inbox = .cmd i rest →
    step s = exec i (s.setDn { s.dn with inbox := rest })

/-- R80, R64: when no command waits and the next frame on OP decodes, the step runs that operation,
with the frame taken from OP. That waiting commands go first, and that a command only partly delivered
does nothing meanwhile, is the model's reading (logs 6, 34). -/
def Obligations.StepRunsNextDescriptor : Prop :=
  ∀ (s : State) (frame : List Byte) (fs : List (List Byte)) (i : Instr),
    s.dn.fetch s.hs = .more → s.op = frame :: fs → decodeOp frame = .instr i →
    step s = exec i { s with op := fs }

/-- R94 (with R80, R84, R95, R282): a frame that does not decode is answered by InvalidOperation, and
nothing else happens; an unassigned operation code, a length that is not the one the code's format
gives, and, with the right length, a reserved flag bit are such frames. That the frame without bytes
is one, and that a command only partly delivered does nothing meanwhile, is the model's reading (logs
22, 34). -/
def Obligations.RejectedFrameOnlyReports : Prop :=
  (∀ (s : State) (frame : List Byte) (fs : List (List Byte)) (r : OpReject),
    s.dn.fetch s.hs = .more → s.op = frame :: fs → decodeOp frame = .reject r →
    step s = .next (State.complete .invalidOperation [] { s with op := fs })) ∧
  (∀ (op : Byte) (args : List Byte),
    op ∉ [0x01#8, 0x02#8, 0x03#8, 0x04#8, 0x10#8, 0x11#8, 0x12#8, 0x13#8, 0x14#8, 0x20#8, 0x21#8,
      0x22#8, 0x23#8, 0x24#8, 0x30#8, 0x31#8] →
    decodeOp (op :: args) = .reject .unassigned) ∧
  (∀ (op : Byte) (args : List Byte),
    (op ∈ [0x10#8, 0x11#8, 0x31#8] ∧ args.length + 1 ≠ 1) ∨
    (op ∈ [0x01#8, 0x23#8] ∧ args.length + 1 ≠ 2) ∨
    (op ∈ [0x22#8, 0x24#8, 0x30#8] ∧ args.length + 1 ≠ 3) ∨
    (op = 0x20#8 ∧ args.length + 1 ≠ 5) ∨
    (op = 0x21#8 ∧ args.length + 1 ≠ 6) ∨
    (op ∈ [0x03#8, 0x13#8] ∧ args.length + 1 ≠ 7) ∨
    (op ∈ [0x02#8, 0x04#8, 0x12#8, 0x14#8] ∧
      (args.length + 1 < 11 ∨ ∀ numBytes : Nat, numBytes < 2 ^ 32 →
        (args.drop 6).take 4 = u32le numBytes → args.length + 1 ≠ 11 + numBytes)) →
    decodeOp (op :: args) = .reject .frameLength) ∧
  (∀ op ∈ [0x03#8, 0x13#8], ∀ (flags exit n0 n1 n2 n3 : Byte), 2 ≤ flags.toNat →
    decodeOp [op, flags, exit, n0, n1, n2, n3] = .reject .reservedFlag) ∧
  (∀ op ∈ [0x02#8, 0x04#8, 0x12#8, 0x14#8], ∀ (flags exit : Byte) (n : Word) (data : List Byte),
    data.length < 2 ^ 32 → 2 ≤ flags.toNat →
    decodeOp ([op, flags, exit] ++ u32le n.toNat ++ u32le data.length ++ data) =
      .reject .reservedFlag) ∧
  (∀ (flags c0 c1 c2 c3 : Byte), 4 ≤ flags.toNat ∨ flags = 0x02#8 →
    decodeOp [0x21#8, flags, c0, c1, c2, c3] = .reject .reservedFlag) ∧
  (∀ flags : Byte, 2 ≤ flags.toNat → decodeOp [0x23#8, flags] = .reject .reservedFlag)

/-- R296: with no whole command waiting and nothing on OP the machine holds its state. That a command
only partly delivered does nothing meanwhile is the model's choice (log 34). -/
def Obligations.IdleMachineHoldsItsState : Prop :=
  ∀ s : State, s.dn.fetch s.hs = .more → s.op = [] → step s = .next s

/-- R294 item 10, R100: an opcode outside R97's table that the device does not recognise is answered
by 0xFA and the opcode, and does nothing else; on a Standard chip the five opcodes of high-speed
chips are such opcodes. Which opcodes a device recognises is the model's choice (log 15), and that a
Standard chip does not recognise those five is its reading (log 16). -/
def Obligations.UnrecognisedOpcodeIsEchoed : Prop :=
  ∀ (s : State) (op : Byte) (rest : List Byte), s.dn.mpsse = true → s.dn.inbox = op :: rest →
    op ∉ s.dn.otherOpcodes →
    op ∉ [0x19#8, 0x1B#8, 0x28#8, 0x2A#8, 0x39#8, 0x3B#8, 0x4B#8, 0x6B#8, 0x80#8, 0x86#8, 0x87#8,
      0x8A#8, 0x8B#8, 0x8F#8, 0x9C#8, 0x9D#8, 0xAA#8, 0xAB#8] ∨
      (s.params.variant = .standard ∧ op ∈ [0x8A#8, 0x8B#8, 0x8F#8, 0x9C#8, 0x9D#8]) →
    step s = .next (s.setDn { s.dn with inbox := rest, rsp := s.dn.rsp ++ [0xFA#8, op] })

/-! ### The whole machine -/

/-- R321: the state right after the reset event, for every configuration, and that the configuration
is constant for the instance's life. -/
def Obligations.ResetState : Prop :=
  (∀ p : Params,
    let s := State.resetWith p
    s.cursor = .undefined ∧ s.imm = [] ∧ s.seq = [] ∧ s.desc = [] ∧ s.synced = false ∧
      s.pinVal = 0x00#8 ∧ s.pinDir = 0x00#8 ∧ s.divisor = none ∧ s.div5 = false ∧
      s.status.code = 0x00#8 ∧ s.status = .success ∧ s.params = p ∧ s.result = []) ∧
  (∀ s t : State, step s = .next t → t.params = s.params)

/-- The invariant of Safety.lean holds at reset, for every configuration; its clause on the downstream
by the model's choice of what the downstream holds then (logs 12, 19). -/
def Obligations.ResetMeetsInvariant : Prop := ∀ p : Params, (State.resetWith p).Inv

/-- R23, R24, R25, R27, R28, R52, R190: every step keeps the invariant of Safety.lean. The clause on
a downstream outside MPSSE mode is about the model's own field `inbox` (log 12), and that it holds at
reset is the model's choice (log 19). -/
def Obligations.StepKeepsInvariant : Prop :=
  ∀ s t : State, s.Inv → step s = .next t → t.Inv

/-- 93_implementation_defined.md Part 1, R290: no step stops the machine. -/
def Obligations.EveryStepAnswers : Prop := ∀ s : State, ∃ t, step s = .next t

/-- R290, R81: a step that takes a descriptor puts exactly one result frame on RES, STATUS and then
the result, which is empty unless STATUS is Success. -/
def Obligations.EachDescriptorGetsOneFrame : Prop :=
  ∀ (s t : State) (frame : List Byte) (fs : List (List Byte)),
    s.dn.fetch s.hs = .more → s.op = frame :: fs → step s = .next t →
    t.op = fs ∧ frames t.log = frames s.log ++ [t.status.code :: t.result] ∧
      (t.status ≠ .success → t.result = [])

/-- R22: a step that is not INIT's never makes a defined cursor Undefined. -/
def Obligations.CursorStaysDefined : Prop :=
  ∀ (i : Instr) (s t : State), (∀ d, i ≠ .init d) → s.cursor ≠ .undefined →
    exec i s = .next t → t.cursor ≠ .undefined

/-- R282: an operation that ends with a parameter error, of decoding or its own, has changed nothing
but STATUS and the result, and put nothing on its ports but the result frame. -/
def Obligations.ParameterErrorChangesNothing : Prop :=
  (∀ (i : Instr) (s t : State), i.isHostOp = true → exec i s = .next t →
    t.status.kind = .parameter → t = s.complete t.status []) ∧
  (∀ (s t : State) (frame : List Byte) (fs : List (List Byte)), s.dn.fetch s.hs = .more →
    s.op = frame :: fs → step s = .next t → t.status.kind = .parameter →
    t = State.complete t.status [] { s with op := fs })

/-- R26, R286: whatever operation ends with IoError, CommandTimeout or SynchronizationFailed leaves
`synced` 0, IMM empty and the result empty. -/
def Obligations.ChannelErrorClearsSynced : Prop :=
  ∀ (i : Instr) (s t : State), i.isHostOp = true → s.imm = [] → exec i s = .next t →
    t.status = .ioError ∨ t.status = .commandTimeout ∨ t.status = .synchronizationFailed →
    t.synced = false ∧ t.imm = [] ∧ t.result = []

/-- R58, R59, R285, R286: a send makes its writes in order, each of `P_WRITE_CHUNK` bytes but the
last, none empty; if all are answered in full the downstream gets the bytes, and at the first that
fails or is short it stops with IoError and `synced` 0, the downstream having received a prefix of
the bytes. Which answers a write can get is the model's reading (logs 13, 23). -/
def Obligations.SendWritesChunksInOrder : Prop :=
  (∀ (p : Params) (bytes : List Byte),
    let cs := chunksOf p.writeChunk bytes
    cs.flatten = bytes ∧ (∀ c ∈ cs, c ≠ [] ∧ c.length ≤ p.writeChunk) ∧
      ∀ c ∈ cs.dropLast, c.length = p.writeChunk) ∧
  (∀ (s : State) (bytes : List Byte) (rest : List WriteReply), s.WritesAccepted bytes rest →
    send bytes s = .ok () (s.afterSend bytes rest)) ∧
  (∀ (s : State) (bytes c : List Byte) (k delivered : Nat) (r : WriteReply)
    (rest : List WriteReply), s.writes = List.replicate k .full ++ r :: rest →
    (chunksOf s.params.writeChunk bytes)[k]? = some c →
    r = .failed delivered ∨ (∃ w, w ≠ c.length ∧ r = .wrote w delivered) →
    send bytes s = .raise .ioError (State.setSynced false
      (State.deliver (bytes.take delivered)
        { s with
          writes := rest
          log := s.log ++
            ((chunksOf s.params.writeChunk bytes).take (k + 1)).map .write })))

/-! ### The TAP sequencer -/

/-- R121: the table's entries, and that each leads from its source to its target in the TAP graph,
in at most 7 clocks, with no pattern bit beyond them (R122), and is the only path so short. -/
def Obligations.TransitionPathsAreTheShortest : Prop :=
  (let states : List DefState := [.tlr, .rti, .pdr, .pir, .sdr, .sir]
   (states.map fun a => states.map (tt a)) =
    [[(0x00#8, 0), (0x00#8, 1), (0x0A#8, 5), (0x16#8, 6), (0x02#8, 4), (0x06#8, 5)],
     [(0x07#8, 3), (0x00#8, 0), (0x05#8, 4), (0x0B#8, 5), (0x01#8, 3), (0x03#8, 4)],
     [(0x1F#8, 5), (0x03#8, 3), (0x00#8, 0), (0x2F#8, 7), (0x01#8, 2), (0x0F#8, 6)],
     [(0x1F#8, 5), (0x03#8, 3), (0x17#8, 6), (0x00#8, 0), (0x07#8, 5), (0x01#8, 2)],
     [(0x1F#8, 5), (0x03#8, 3), (0x01#8, 2), (0x2F#8, 7), (0x00#8, 0), (0x0F#8, 6)],
     [(0x1F#8, 5), (0x03#8, 3), (0x17#8, 6), (0x01#8, 2), (0x07#8, 5), (0x00#8, 0)]]) ∧
  ∀ a b : DefState,
    tapAfter a.tap (byteBits (tt a b).2 (tt a b).1) = b.tap ∧
    (tt a b).2 ≤ 7 ∧ (tt a b).1.toNat < 2 ^ (tt a b).2 ∧
    ∀ path : List Bool, path.length ≤ (tt a b).2 → tapAfter a.tap path = b.tap →
      path = byteBits (tt a b).2 (tt a b).1

/-- R129, R123 to R125: MOVE to a defined state completes, sending the bootstrap if the cursor is
Undefined and then the table's command if it has clocks, and changes nothing but the cursor; if a
write of the send fails the status is IoError, `synced` is 0, a prefix of the bytes has reached the
downstream (R59) and the cursor has its new value all the same (R286); another code is
InvalidTapState and nothing else. Which answers a write can get is the model's reading (logs 13,
23). -/
def Obligations.MoveOperation : Prop :=
  (∀ (s : State) (code : Byte) (t : DefState),
    let a := match s.cursor with
      | .undefined => DefState.tlr
      | .known a => a
    let bytes : List Byte :=
      (if s.cursor = .undefined then [0x4B#8, 0x06#8, 0x7F#8] else []) ++
        (if (tt a t).2 > 0 then [0x4B#8, BitVec.ofNat 8 ((tt a t).2 - 1), (tt a t).1] else [])
    s.imm = [] → DefState.ofCode code = some t →
    (∀ rest : List WriteReply, s.WritesAccepted bytes rest →
      exec (.move code) s =
        .next (State.complete .success [] ((s.afterSend bytes rest).setCursor (.known t)))) ∧
    (∀ (k delivered : Nat) (rest : List WriteReply), s.WriteFails bytes k delivered rest →
      exec (.move code) s = .next (State.complete .ioError []
        ((s.afterFailedSend bytes k delivered rest).setCursor (.known t))))) ∧
  (∀ (s u : State) (code : Byte) (t : DefState), DefState.ofCode code = some t →
    exec (.move code) s = .next u →
    u.cursor = .known t ∧ u.result = [] ∧ (u.status = .success ∨ u.status = .ioError)) ∧
  (∀ (s : State) (code : Byte), code.toNat = 0 ∨ 7 ≤ code.toNat →
    exec (.move code) s = .next (s.complete .invalidTapState []))

/-- R124, R128, R22, R325: when the downstream has executed a successful MOVE, the target's TAP is
in the state the cursor says, and TMS holds it there; from an Undefined cursor, whatever state the
TAP was in. When the downstream runs is the model's reading (log 6). -/
def Obligations.MoveKeepsCursorAndTapInStep : Prop :=
  ∀ (s u : State) (code : Byte) (t : DefState), s.imm = [] → s.InStep →
    DefState.ofCode code = some t → exec (.move code) s = .next u → u.status = .success →
    u.cursor = .known t ∧ u.runDownstream.InStep

/-! ### Shifts -/

/-- R150: the checks of every shift operation, in order; a check that fails ends the operation with
its status and no other change. -/
def Obligations.ShiftChecksInOrder : Prop :=
  (∀ (s : State) (ir : Bool) (exit : Byte) (n : Word) (data : List Byte),
    ∀ i ∈ [Instr.write ir exit n data, .writeRead ir exit n data, .seqAddWrite ir exit n data,
      .seqAddWriteRead ir exit n data],
    (n.toNat < 2 ∨ 524280 < n.toNat → exec i s = .next (s.complete .invalidNumberBits [])) ∧
    (2 ≤ n.toNat → n.toNat ≤ 524280 →
      (data = [] → exec i s = .next (s.complete .nullBuffer [])) ∧
      (data ≠ [] →
        (data.length < (n.toNat + 7) / 8 ∨ 65535 < data.length →
          exec i s = .next (s.complete .invalidNumberBytes [])) ∧
        ((n.toNat + 7) / 8 ≤ data.length → data.length ≤ 65535 →
          exit.toNat = 0 ∨ 7 ≤ exit.toNat →
          exec i s = .next (s.complete .invalidTapState []))))) ∧
  (∀ (s : State) (ir : Bool) (exit : Byte) (n : Word),
    ∀ i ∈ [Instr.read ir exit n, .seqAddRead ir exit n],
    (n.toNat < 2 ∨ 524280 < n.toNat → exec i s = .next (s.complete .invalidNumberBits [])) ∧
    (2 ≤ n.toNat → n.toNat ≤ 524280 → exit.toNat = 0 ∨ 7 ≤ exit.toNat →
      exec i s = .next (s.complete .invalidTapState [])))

/-- R151 to R155: the bytes of a shift from any cursor: the entry move, the byte command if there
are whole bytes, the bit command if bits remain, and the exit command, whose bit 7 is the last
payload bit (R153) or 0 for a read, and which echoes for a read or write-read; and the clocks of the
exit. A corner case of R159 gives a WRITE of the largest N another count; that R151 is followed there
is the model's choice (log 31). -/
def Obligations.ShiftEncoding : Prop :=
  ∀ (c : Cursor) (ir : Bool) (n : Nat) (data : List Byte) (t : DefState) (kind : ShiftKind),
    let a := match c with
      | .undefined => DefState.tlr
      | .known a => a
    let b := (n - 1) / 8
    let r := (n - 1) % 8
    let sh := if ir then DefState.sir else .sdr
    let k := if t = sh then 1 else (tt sh t).2
    let p : Byte := if t = sh then 0x00#8 else (tt sh t).1
    let last : Byte :=
      if kind ≠ .r ∧ ((data.getD b 0#8).getLsbD r) = true then 0x80#8 else 0x00#8
    (shiftCommands c ⟨kind, ir, n, data, t⟩).flatten =
      (if c = .undefined then [0x4B#8, 0x06#8, 0x7F#8] else []) ++
      (if (tt a sh).2 > 0 then [0x4B#8, BitVec.ofNat 8 ((tt a sh).2 - 1), (tt a sh).1] else []) ++
      (if b > 0 then
        match kind with
        | .w => [0x19#8] ++ u16le (b - 1) ++ data.take b
        | .r => [0x28#8] ++ u16le (b - 1)
        | .wr => [0x39#8] ++ u16le (b - 1) ++ data.take b
      else []) ++
      (if r > 0 then
        match kind with
        | .w => [0x1B#8, BitVec.ofNat 8 (r - 1), data.getD b 0#8]
        | .r => [0x2A#8, BitVec.ofNat 8 (r - 1)]
        | .wr => [0x3B#8, BitVec.ofNat 8 (r - 1), data.getD b 0#8]
      else []) ++
      [if kind = .w then 0x4B#8 else 0x6B#8, BitVec.ofNat 8 (k - 1), p ||| last] ∧
    shiftClocks ⟨kind, ir, n, data, t⟩ = k

/-- R159: WRITE completes: it sends the shift's bytes, moves the cursor to the exit state, returns
nothing and changes nothing else; if a write of the send fails the status is IoError, `synced` is 0,
a prefix of the bytes has reached the downstream and the cursor has its new value all the same
(R59, R286). Which answers a write can get is the model's reading (logs 13, 23), and that R151 gives
the bytes for the largest N too its choice (log 31). -/
def Obligations.WriteCompletes : Prop :=
  ∀ (s : State) (ir : Bool) (exit : Byte) (n : Word) (data : List Byte) (t : DefState),
    let bytes := (shiftCommands s.cursor ⟨.w, ir, n.toNat, data, t⟩).flatten
    s.imm = [] → 2 ≤ n.toNat → n.toNat ≤ 524280 → (n.toNat + 7) / 8 ≤ data.length →
    data.length ≤ 65535 → DefState.ofCode exit = some t →
    (∀ rest : List WriteReply, s.WritesAccepted bytes rest →
      exec (.write ir exit n data) s =
        .next (State.complete .success [] ((s.afterSend bytes rest).setCursor (.known t)))) ∧
    (∀ (k delivered : Nat) (rest : List WriteReply), s.WriteFails bytes k delivered rest →
      exec (.write ir exit n data) s = .next (State.complete .ioError []
        ((s.afterFailedSend bytes k delivered rest).setCursor (.known t))))

/-- R160, R161, R162, R60, R324: READ and WRITE_READ complete when their response arrives in time,
over however many polls: the shift's bytes are sent, with SEND_IMMEDIATE if the parameter asks for
it, exactly respLen(N) bytes are taken from the response queue, and the result is the corrected
response, or ceil8(N) unconstrained bytes while the channel is not synced; the cursor moves to the
exit state and nothing else of the block changes. They end with CommandTimeout when the deadline
comes before the response is whole, with IoError when a poll or a write fails (R285, R287), `synced`
0 and the cursor's new value kept (R286); the downstream may then have executed only part of the
bytes (R331, R325 case 3). Which part is an input of the wait: the first commands, `pre`, as many as
it says and at least those whose response was read; the bytes `mid` behind them wait; the bytes `tail`,
of the operation's own at most, are lost. So every prefix of the bytes is possible. The polls, that
part and a write's answers are the model's inputs (logs 5, 6, 13, 23, 35); that a failing read takes
no byte from the queue is its choice (log 33). -/
def Obligations.ReadAndWriteReadComplete : Prop :=
  (∀ (s : State) (kind : ShiftKind) (ir : Bool) (exit : Byte) (n : Word) (data : List Byte)
    (t : DefState),
    let q : ShiftSpec := ⟨kind, ir, n.toNat, data, t⟩
    let i : Instr := if kind = .r then .read ir exit n else .writeRead ir exit n data
    let bytes := (shiftCommands s.cursor q).flatten ++
      (if s.params.sendImmediateOnRead then [0x87#8] else [])
    kind ≠ .w → q.Legal → s.imm = [] → DefState.ofCode exit = some t →
    (∀ (rest : List WriteReply) (w : Wait) (ws : List Wait),
      let u := (s.afterSend bytes rest).setCursor (.known t)
      let d := u.dn.run u.hs
      s.WritesAccepted bytes rest → s.waits = w :: ws →
      (∀ used : List Poll, Arrives s.params.rxTimeoutMs (respLen n.toNat) used w.polls →
        respLen n.toNat ≤ d.rsp.length →
        ∃ result : List Byte, result.length = (n.toNat + 7) / 8 ∧
          (s.synced = true →
            result = correct (d.rsp.take (respLen n.toNat)) n.toNat (shiftClocks q)) ∧
          exec i s = .next (State.complete .success result
            { u with
              waits := ws
              time := s.time + pollTime used
              draws := if s.synced then s.draws else s.draws + (n.toNat + 7) / 8
              dn := { d with rsp := d.rsp.drop (respLen n.toNat) } })) ∧
      (∀ (used : List Poll) (elapsed : Nat) (e : Status),
        WaitFails .commandTimeout s.params.rxTimeoutMs d.rsp.length used w.polls elapsed e →
        pollReach used < respLen n.toNat ∨ d.rsp.length < respLen n.toNat →
        exec i s = .next (State.complete e []
          { u with
            synced := false
            waits := ws
            time := s.time + elapsed
            dn := u.dn.interrupted u.hs bytes.length w (min (pollReach used) d.rsp.length) }))) ∧
    (∀ (k delivered : Nat) (rest : List WriteReply), s.WriteFails bytes k delivered rest →
      exec i s = .next (State.complete .ioError []
        ((s.afterFailedSend bytes k delivered rest).setCursor (.known t))))) ∧
  (∀ (hs : Bool) (d : Downstream) (sent c : Nat) (w : Wait) (pre : List Instr) (mid tail : List Byte),
    let response := fun is : List Instr => ((deliver (is.map encode).flatten d).run hs).rsp
    d.mpsse = true → d.inbox = [] →
    (∀ i ∈ pre, ∀ more, decodeCmd hs (encode i ++ more) = .cmd i more) →
    w.executed ≤ pre.length → c ≤ (response pre).length →
    (w.executed < pre.length → (response pre.dropLast).length < c) →
    tail.length = w.lost → w.lost ≤ sent →
    (deliver ((pre.map encode).flatten ++ mid ++ tail) d).interrupted hs sent w c =
      { (deliver (pre.map encode).flatten d).run hs with
        inbox := mid
        rsp := (response pre).drop c })

/-- R156: the downstream answers the commands of a read or write-read of N bits with exactly
respLen(N) bytes, and those of a write with none, from whatever state the target is in. Clock by
clock the target is the model's (log 7). -/
def Obligations.ResponseLengthIsExact : Prop :=
  ∀ (hs : Bool) (d : Downstream) (c : Cursor) (q : ShiftSpec), q.Legal → d.mpsse = true →
    d.inbox = [] →
    let d' := (deliver (shiftCommands c q).flatten d).run hs
    d'.inbox = [] ∧ ∃ r : List Byte, d'.rsp = d.rsp ++ r ∧
      r.length = if q.kind = .w then 0 else (q.n - 1) / 8 + (if (q.n - 1) % 8 > 0 then 1 else 0) + 1

/-- R157, R158, R294 items 4 to 6: from the response bytes of the samples s0 … sN-1, whatever the
bits are that the device does not specify and the other samples of the exit command, the correction
gives `pack(s0 … sN-1)`. -/
def Obligations.CorrectionGivesTheSamples : Prop :=
  ∀ (samples low lowT more : List Bool) (k : Nat),
    let n := samples.length
    let b := (n - 1) / 8
    let r := (n - 1) % 8
    2 ≤ n → n ≤ 524280 → 1 ≤ k → k ≤ 7 → low.length = 8 - r → lowT.length = 8 - k →
    more.length = k - 1 →
    correct (pack (samples.take (8 * b)) ++
        (if r > 0 then [byteOfBits (low ++ (samples.drop (8 * b)).take r)] else []) ++
        [byteOfBits (lowT ++ samples.drop (n - 1) ++ more)]) n k =
      pack samples

/-- R152, R153, R327: when the downstream has executed a successful WRITE of N bits in step, exactly
the N payload bits went into the register, bit 0 of byte 0 first, the last on the exit, and the
target is in the exit state; a longer path to the other register goes on to capture there, and is
left out. The target's one register is the model's reading (log 7). -/
def Obligations.WriteShiftsThePayloadIn : Prop :=
  ∀ (s u : State) (ir : Bool) (exit : Byte) (n : Word) (data : List Byte) (t : DefState)
    (reg : List Bool),
    s.imm = [] → s.InStep → s.ScanRegister ir reg → DefState.ofCode exit = some t →
    exec (.write ir exit n data) s = .next u → u.status = .success →
    u.runDownstream.InStep ∧ u.runDownstream.cursor = .known t ∧
      u.runDownstream.dn.rsp = s.dn.rsp ∧
      (exitsToOtherRegister ir t = false →
        u.runDownstream.dn.reg = (reg ++ bitsOf data n.toNat).drop n.toNat)

/-- R158, R155 and the source's round trip (95_test_vectors.md E2): a WRITE_READ of N bits that
succeeds in step returns the N bits that come out of the register followed by the payload; through a
loopback, where the register is empty, that is the payload itself. The target's one register is the
model's reading (log 7). -/
def Obligations.WriteReadExchangesBits : Prop :=
  ∀ (s u : State) (ir : Bool) (exit : Byte) (n : Word) (data : List Byte) (reg : List Bool),
    s.ReadyToRead → s.ScanRegister ir reg →
    exec (.writeRead ir exit n data) s = .next u → u.status = .success →
    u.result = pack ((reg ++ bitsOf data n.toNat).take n.toNat) ∧ u.dn.rsp = [] ∧
      (reg = [] → u.result = pack (bitsOf data n.toNat))

/-- R158, R154: a READ of N bits that succeeds in step, from a register of at least N bits, returns
the register's first N bits, low bit first. The target's one register is the model's reading (log
7). -/
def Obligations.ReadReturnsTheRegister : Prop :=
  ∀ (s u : State) (ir : Bool) (exit : Byte) (n : Word) (reg : List Bool),
    s.ReadyToRead → s.ScanRegister ir reg → n.toNat ≤ reg.length →
    exec (.read ir exit n) s = .next u → u.status = .success →
    u.result = pack (reg.take n.toNat) ∧ u.dn.rsp = []

/-! ### The deferred sequence -/

/-- R192 to R195: an add that fits completes: its bytes go to the end of SEQ, its descriptor, if it
reads, to the end of DESC, the cursor moves to its exit state, and nothing else changes; nothing is
sent. An add that would make SEQ longer than 131072 bytes is CommandSequenceBufferFull and leaves
SEQ, DESC and the cursor as they were. -/
def Obligations.AddsComplete : Prop :=
  (∀ (s : State) (q : ShiftSpec), q.Legal →
    s.seq.length + (shiftCommands s.cursor q).flatten.length ≤ 131072 →
    exec q.deferred s = .next (State.complete .success []
      { s with
        cursor := .known q.exit
        seq := s.seq ++ (shiftCommands s.cursor q).flatten
        desc := s.desc ++ (if q.kind = .w then [] else [⟨q.n, shiftClocks q⟩]) })) ∧
  (∀ (s : State) (q : ShiftSpec), q.Legal →
    131072 < s.seq.length + (shiftCommands s.cursor q).flatten.length →
    exec q.deferred s = .next (s.complete .commandSequenceBufferFull []))

/-- R191: SEQ_CLEAR empties SEQ and DESC, keeps the cursor and everything else, and succeeds. -/
def Obligations.SeqClearEmptiesTheQueue : Prop :=
  ∀ s : State, exec .seqClear s =
    .next (State.complete .success [] { s with seq := [], desc := [] })

/-- R198, R196: after SEQ_EXECUTE, whatever its outcome, SEQ and DESC are empty and the cursor is as
before. -/
def Obligations.SeqExecuteAlwaysEmptiesTheQueue : Prop :=
  ∀ s t : State, exec .seqExecute s = .next t →
    t.seq = [] ∧ t.desc = [] ∧ t.cursor = s.cursor ∧ t.imm = s.imm ∧ t.pinVal = s.pinVal ∧
      t.pinDir = s.pinDir ∧ t.divisor = s.divisor ∧ t.div5 = s.div5 ∧ t.op = s.op

/-- R199: an empty sequence succeeds with an empty result and no bytes on CMD or RSP. -/
def Obligations.EmptySequenceDoesNoIo : Prop :=
  ∀ s : State, s.seq = [] → s.desc = [] →
    exec .seqExecute s = .next (s.complete .success [])

/-- R196, R197, R60, R324: SEQ_EXECUTE completes: one send of SEQ, with SEND_IMMEDIATE if it has
reads and the parameter asks for it, one receive of the total if there is any, over however many
polls, and the demultiplexed response as result, or unconstrained bytes of the same length while the
channel is not synced. It ends with CommandTimeout when the deadline comes before the total is
there, with IoError when a poll or a write fails (R285, R287), with `synced` 0 and the queue empty
all the same (R286); the downstream may then have executed only part of the sequence (R331, R325
case 3). The polls, that part and a write's answers are the model's inputs (logs 5, 6, 13, 23, 35);
that a failing read takes no byte from the queue is its choice (log 33). -/
def Obligations.SeqExecuteCompletes : Prop :=
  ∀ s : State,
    let total := (s.desc.map fun e => respLen e.nbits).sum
    let bytes := s.seq ++
      (if s.desc ≠ [] ∧ s.params.sendImmediateOnRead = true then [0x87#8] else [])
    (∀ rest : List WriteReply,
      let u := (s.afterSend bytes rest).setQueue [] []
      let d := u.dn.run u.hs
      s.WritesAccepted bytes rest →
      (s.seq ≠ [] → s.desc = [] → exec .seqExecute s = .next (u.complete .success [])) ∧
      ∀ (w : Wait) (ws : List Wait), s.desc ≠ [] → s.waits = w :: ws →
        (∀ used : List Poll, Arrives s.params.rxTimeoutMs total used w.polls →
          total ≤ d.rsp.length →
          ∃ result : List Byte, ∃ m : Nat,
            (s.synced = true → m = s.draws ∧ result = demux (d.rsp.take total) s.desc) ∧
            (s.synced = false → result.length = (s.desc.map fun e => ceil8 e.nbits).sum) ∧
            exec .seqExecute s = .next (State.complete .success result
              { u with
                waits := ws
                time := s.time + pollTime used
                draws := m
                dn := { d with rsp := d.rsp.drop total } })) ∧
        (∀ (used : List Poll) (elapsed : Nat) (e : Status),
          WaitFails .commandTimeout s.params.rxTimeoutMs d.rsp.length used w.polls elapsed e →
          pollReach used < total ∨ d.rsp.length < total →
          exec .seqExecute s = .next (State.complete e []
            { u with
              synced := false
              waits := ws
              time := s.time + elapsed
              dn := u.dn.interrupted u.hs bytes.length w
                (min (pollReach used) d.rsp.length) }))) ∧
    (∀ (k delivered : Nat) (rest : List WriteReply), s.WriteFails bytes k delivered rest →
      exec .seqExecute s = .next (State.complete .ioError []
        ((s.afterFailedSend bytes k delivered rest).setQueue [] [])))

/-- R197: slice i of the result is the correction of slice i of the response alone, in the order the
descriptors were added, and has ceil8 of its bits as length. -/
def Obligations.DemuxSlicesIndependently : Prop :=
  ∀ slices : List (List Byte × ReadDesc),
    (∀ x ∈ slices, x.1.length = respLen x.2.nbits ∧ 2 ≤ x.2.nbits) →
    demux (slices.map Prod.fst).flatten (slices.map Prod.snd) =
        (slices.map fun x => correct x.1 x.2.nbits x.2.tmsclk).flatten ∧
      ∀ x ∈ slices, (correct x.1 x.2.nbits x.2.tmsclk).length = (x.2.nbits + 7) / 8

/-- R200: adding shifts and then executing the sequence sends the bytes the same shifts send as
immediate operations from the same cursor, but for the SEND_IMMEDIATE of each read and the one at
the batch's end, and ends with the same cursor; the adds send nothing, and queue one descriptor for
each read, in order. Given the same downstream, synced and with nothing left over, the result of a
SEQ_EXECUTE that succeeds is the concatenation of the immediate operations' results. -/
def Obligations.BatchSendsTheImmediateBytes : Prop :=
  (∀ (s : State) (qs : List ShiftSpec), (∀ q ∈ qs, q.Legal) →
    s.seq.length + (batchBytes s.cursor qs).length ≤ 131072 →
    ∃ t, runOps (qs.map ShiftSpec.deferred) s = some t ∧ cmdBytes t.log = cmdBytes s.log ∧
      t.seq = s.seq ++ batchBytes s.cursor qs ∧ t.desc = s.desc ++ qs.flatMap queuedDesc ∧
      t.cursor = lastCursor s.cursor qs) ∧
  (∀ (s u : State) (qs : List ShiftSpec), (∀ q ∈ qs, q.Legal) → s.imm = [] →
    runOps (qs.map ShiftSpec.immediate) s = some u →
    cmdBytes u.log = cmdBytes s.log ++ immediateBytes s.params s.cursor qs ∧
      u.cursor = lastCursor s.cursor qs) ∧
  (∀ (p : Params) (c : Cursor) (qs : List ShiftSpec), p.sendImmediateOnRead = false →
    immediateBytes p c qs = batchBytes c qs) ∧
  (∀ (s t u s' v : State) (qs : List ShiftSpec) (results : List (List Byte)),
    (∀ q ∈ qs, q.Legal) → s.seq = [] → s.desc = [] → s.synced = true → s'.imm = [] →
    s'.synced = true → s'.cursor = s.cursor → s'.params = s.params → s'.dn = s.dn →
    s.dn.mpsse = true → s.dn.inbox = [] → s.dn.rsp = [] →
    runOps (qs.map ShiftSpec.deferred) s = some t → exec .seqExecute t = .next u →
    u.status = .success → runResults (qs.map ShiftSpec.immediate) s' = some (v, results) →
    u.result = results.flatten ∧ u.cursor = v.cursor ∧
      cmdBytes u.log = cmdBytes s.log ++ batchBytes s.cursor qs ++
        (if qs.flatMap queuedDesc ≠ [] ∧ s.params.sendImmediateOnRead = true then [0x87#8]
          else []))

/-! ### Clock operations -/

/-- R230, R231, R57: PULSE with a legal count completes when the transport accepts its writes: CMD
gets the zero-data commands in order, the byte commands in groups of at most 65536 bytes and then
the bit command, over as many flushes as IMM needs, and the block changes nothing else. If a write
fails, or takes none of its bytes, before all are sent, the status is IoError, `synced` is 0, IMM is
empty, nothing else of the block changes, and the writes made carry the first bytes of the commands,
up to the failing write's (R285, R286). Which answers a write can get is the model's reading (logs 13, 23). -/
def Obligations.PulseCompletes : Prop :=
  ∀ (s : State) (count : Word),
    let whole := count.toNat / 8
    let bytes : List Byte :=
      (List.replicate (whole / 65536)
          ([0x19#8, 0xFF#8, 0xFF#8] ++ List.replicate 65536 0x00#8)).flatten ++
        (if whole % 65536 > 0 then
          [0x19#8] ++ u16le (whole % 65536 - 1) ++ List.replicate (whole % 65536) 0x00#8 else []) ++
        (if count.toNat % 8 > 0 then
          [0x1B#8, BitVec.ofNat 8 (count.toNat % 8 - 1), 0x00#8] else [])
    bytes = (pulseCommands count.toNat).flatten ∧
    (s.imm = [] → 1 ≤ count.toNat → count.toNat ≤ 2000000000 →
      (∀ (m : Nat) (rest : List WriteReply), s.writes = List.replicate m .full ++ rest →
        bytes.length ≤ m →
        ∃ t, exec (.pulse count) s = .next t ∧ t.status = .success ∧ t.result = [] ∧ t.imm = [] ∧
          cmdBytes t.log = cmdBytes s.log ++ bytes ∧ t.synced = s.synced ∧
          t.cursor = s.cursor ∧ t.seq = s.seq ∧ t.desc = s.desc ∧ t.pinVal = s.pinVal ∧
          t.pinDir = s.pinDir ∧ t.divisor = s.divisor ∧ t.div5 = s.div5 ∧ t.op = s.op ∧
          t.time = s.time ∧ t.waits = s.waits ∧ t.calls = s.calls) ∧
      (∀ (m delivered : Nat) (r : WriteReply) (rest : List WriteReply),
        s.writes = List.replicate m .full ++ r :: rest →
        r = .failed delivered ∨ r = .wrote 0 delivered → m * s.params.writeChunk < bytes.length →
        ∃ t asked, exec (.pulse count) s = .next t ∧ t.status = .ioError ∧ t.result = [] ∧
          t.imm = [] ∧ t.writes = rest ∧ cmdBytes t.log = cmdBytes s.log ++ bytes.take asked ∧
          t.synced = false ∧
          t.cursor = s.cursor ∧ t.seq = s.seq ∧ t.desc = s.desc ∧ t.pinVal = s.pinVal ∧
          t.pinDir = s.pinDir ∧ t.divisor = s.divisor ∧ t.div5 = s.div5 ∧ t.op = s.op ∧
          t.time = s.time ∧ t.waits = s.waits ∧ t.calls = s.calls))

/-- R231, R237, R328: the commands of PULSE clock exactly the counted TCK cycles with TDI 0: in a
shift state that many zeros are shifted in, and in a state TMS holds the TAP stays. The TAP and TMS
are those the downstream holds, also where the cursor is Undefined (log 32). -/
def Obligations.PulseClocksExactly : Prop :=
  ∀ (hs : Bool) (d : Downstream) (c : Nat), d.mpsse = true → d.inbox = [] → 1 ≤ c →
    let d' := (deliver (pulseCommands c).flatten d).run hs
    (isShift d.tap = true → d.tms = false →
      d' = { d with reg := (d.reg ++ List.replicate c false).drop c, tdi := false }) ∧
    (tapNext d.tap d.tms = d.tap → d'.tap = d.tap ∧ d'.rsp = d.rsp ∧ d'.inbox = [])

/-- R232, R233: PULSE_HS on a high-speed chip with a legal count completes: CMD gets the pulse
commands of its form, in groups of at most 65536 units, and the block changes nothing else. If a
write fails, or takes none of its bytes, before all are sent, the status is IoError, `synced` is 0,
IMM is empty, nothing else of the block changes, and the writes made carry the first bytes of the
commands (R285, R286). Which answers a write can get is the model's reading (logs 13, 23). -/
def Obligations.PulseHsCompletes : Prop :=
  ∀ (s : State) (pinstop stoplevel : Bool) (count : Word),
    let op : Byte := if pinstop then (if stoplevel then 0x9C#8 else 0x9D#8) else 0x8F#8
    let bytes : List Byte :=
      (List.replicate (count.toNat / 65536) [op, 0xFF#8, 0xFF#8]).flatten ++
        (if count.toNat % 65536 > 0 then [op] ++ u16le (count.toNat % 65536 - 1) else [])
    s.imm = [] → s.params.variant ≠ .standard → 1 ≤ count.toNat →
    count.toNat ≤ (if pinstop then s.params.hsPulseMaxPinstop else s.params.hsPulseMaxFree) →
    (∀ (m : Nat) (rest : List WriteReply), s.writes = List.replicate m .full ++ rest →
      bytes.length ≤ m →
      ∃ t, exec (.pulseHs pinstop stoplevel count) s = .next t ∧ t.status = .success ∧
        t.result = [] ∧ t.imm = [] ∧ cmdBytes t.log = cmdBytes s.log ++ bytes ∧
        t.synced = s.synced ∧
        t.cursor = s.cursor ∧ t.seq = s.seq ∧ t.desc = s.desc ∧ t.pinVal = s.pinVal ∧
        t.pinDir = s.pinDir ∧ t.divisor = s.divisor ∧ t.div5 = s.div5 ∧ t.op = s.op ∧
        t.time = s.time ∧ t.waits = s.waits ∧ t.calls = s.calls) ∧
    (∀ (m delivered : Nat) (r : WriteReply) (rest : List WriteReply),
      s.writes = List.replicate m .full ++ r :: rest →
      r = .failed delivered ∨ r = .wrote 0 delivered → m * s.params.writeChunk < bytes.length →
      ∃ t asked, exec (.pulseHs pinstop stoplevel count) s = .next t ∧ t.status = .ioError ∧
        t.result = [] ∧ t.imm = [] ∧ t.writes = rest ∧
        cmdBytes t.log = cmdBytes s.log ++ bytes.take asked ∧ t.synced = false ∧
        t.cursor = s.cursor ∧ t.seq = s.seq ∧ t.desc = s.desc ∧ t.pinVal = s.pinVal ∧
        t.pinDir = s.pinDir ∧ t.divisor = s.divisor ∧ t.div5 = s.div5 ∧ t.op = s.op ∧
        t.time = s.time ∧ t.waits = s.waits ∧ t.calls = s.calls)

/-- R230, R232: a count of 0 or above the form's maximum is InvalidNumberClockPulses, and nothing is
sent or changed. -/
def Obligations.PulseCountsAreBounded : Prop :=
  (∀ (s : State) (count : Word), count.toNat = 0 ∨ 2000000000 < count.toNat →
    exec (.pulse count) s = .next (s.complete .invalidNumberClockPulses [])) ∧
  (∀ (s : State) (pinstop stoplevel : Bool) (count : Word), s.params.variant ≠ .standard →
    count.toNat = 0 ∨
      (if pinstop then s.params.hsPulseMaxPinstop else s.params.hsPulseMaxFree) < count.toNat →
    exec (.pulseHs pinstop stoplevel count) s =
      .next (s.complete .invalidNumberClockPulses []))

/-- R297: PULSE_HS and SET_DIV5 on a Standard chip are OperationNotSupported, whatever their
operands, and nothing is sent or changed. -/
def Obligations.StandardChipRefusesHiSpeedOps : Prop :=
  ∀ s : State, s.params.variant = .standard →
    (∀ (pinstop stoplevel : Bool) (count : Word), exec (.pulseHs pinstop stoplevel count) s =
      .next (s.complete .operationNotSupported [])) ∧
    (∀ on : Bool, exec (.setDiv5 on) s = .next (s.complete .operationNotSupported []))

/-- R234, R235: SET_CLOCK sends `86` and the divisor, low byte first, and writes DIVISOR; SET_DIV5
on a high-speed chip sends `8B` or `8A` and writes DIV5; nothing else changes. If a write of the
send fails the status is IoError, `synced` is 0 and the register keeps its new value (R286). Which
answers a write can get is the model's reading (logs 13, 23). -/
def Obligations.ClockSettingsComplete : Prop :=
  (∀ (s : State) (divisor : Half),
    let bytes : List Byte := [0x86#8, divisor.setWidth 8, (divisor >>> 8).setWidth 8]
    s.imm = [] → divisor.toNat ≤ s.params.divisorMax →
    (∀ rest : List WriteReply, s.WritesAccepted bytes rest →
      exec (.setClock divisor) s = .next (State.complete .success []
        { s.afterSend bytes rest with divisor := some divisor })) ∧
    (∀ (k delivered : Nat) (rest : List WriteReply), s.WriteFails bytes k delivered rest →
      exec (.setClock divisor) s = .next (State.complete .ioError []
        { s.afterFailedSend bytes k delivered rest with divisor := some divisor }))) ∧
  (∀ (s : State) (on : Bool),
    let bytes : List Byte := [if on then 0x8B#8 else 0x8A#8]
    s.imm = [] → s.params.variant ≠ .standard →
    (∀ rest : List WriteReply, s.WritesAccepted bytes rest →
      exec (.setDiv5 on) s = .next (State.complete .success []
        { s.afterSend bytes rest with div5 := on })) ∧
    (∀ (k delivered : Nat) (rest : List WriteReply), s.WriteFails bytes k delivered rest →
      exec (.setDiv5 on) s = .next (State.complete .ioError []
        { s.afterFailedSend bytes k delivered rest with div5 := on })))

/-- R234, R262: a divisor above P_DIVISOR_MAX is InvalidClockDivisor for SET_CLOCK and INIT, and
nothing is sent or changed. -/
def Obligations.DivisorsAreBounded : Prop :=
  ∀ (s : State) (divisor : Half), s.params.divisorMax < divisor.toNat →
    ∀ i ∈ [Instr.setClock divisor, .init divisor],
      exec i s = .next (s.complete .invalidClockDivisor [])

/-- R236: GET_FREQ returns the TCK frequency as four bytes, low byte first, or ends with
InvalidClockDivisor, and changes nothing else. -/
def Obligations.GetFreqCompletes : Prop :=
  ∀ (s : State) (divisor : Half),
    let base := if s.params.variant = .standard then 12000000
      else if s.div5 then 12000000 else 60000000
    (divisor.toNat ≤ s.params.divisorMax →
      exec (.getFreq divisor) s =
        .next (s.complete .success (u32le (base / (2 * (1 + divisor.toNat)))))) ∧
    (s.params.divisorMax < divisor.toNat →
      exec (.getFreq divisor) s = .next (s.complete .invalidClockDivisor []))

/-! ### Session operations -/

/-- R260, R261: SYNC completes when each probe's echo arrives before its own deadline, over however
many polls and whatever stale bytes stand before it: both probes are sent, each wait reads until the
marker and its probe are found, every byte read is discarded, `synced` is set, and nothing else of
the block changes. The polls are the model's inputs (logs 5, 6). -/
def Obligations.SyncCompletes : Prop :=
  ∀ (s : State) (rest : List WriteReply) (w1 w2 : Wait) (used1 used2 : List Poll)
    (ws : List Wait),
    let rsp1 := s.dn.rsp ++ [0xFA#8, 0xAA#8]
    let rsp2 := rsp1.drop (pollReach used1) ++ [0xFA#8, 0xAB#8]
    s.imm = [] → s.dn.mpsse = true → s.dn.inbox = [] → s.writes = [.full, .full] ++ rest →
    s.waits = w1 :: w2 :: ws →
    PollsPass s.params.syncTimeoutMs used1 w1.polls →
    PollsPass s.params.syncTimeoutMs used2 w2.polls →
    HasEcho 0xAA#8 (rsp1.take (pollReach used1)) →
    ¬ HasEcho 0xAA#8 (rsp1.take (pollReach used1.dropLast)) →
    HasEcho 0xAB#8 (rsp2.take (pollReach used2)) →
    ¬ HasEcho 0xAB#8 (rsp2.take (pollReach used2.dropLast)) →
    exec .sync s = .next (State.complete .success []
      { s with
        synced := true
        writes := rest
        waits := ws
        time := s.time + pollTime used1 + pollTime used2
        log := s.log ++ [.write [0xAA#8], .write [0xAB#8]]
        dn := { s.dn with rsp := rsp2.drop (pollReach used2) } })

/-- R260: SYNC ends with Success and `synced` 1, or with SynchronizationFailed or IoError and
`synced` 0; the cursor, SEQ, DESC, DIVISOR, DIV5 and PINLO are not changed. It ends with
SynchronizationFailed when a probe's deadline comes before its echo, and with IoError when a poll
fails or a probe's write does (R285, R287), at the first or at the second probe, which then is the
last thing sent; when its wait fails the downstream may have executed it, or it waits, or it is lost
(R325 case 3, R331). The polls, which of these it is and a write's answers are the model's inputs
(logs 5, 6, 13, 23, 35); that a failing read takes no byte from the queue is its choice (log 33). -/
def Obligations.SyncOutcomes : Prop :=
  (∀ s t : State, exec .sync s = .next t →
    ((t.status = .success ∧ t.synced = true) ∨
      ((t.status = .synchronizationFailed ∨ t.status = .ioError) ∧ t.synced = false)) ∧
    t.result = [] ∧ t.cursor = s.cursor ∧ t.seq = s.seq ∧ t.desc = s.desc ∧
      t.divisor = s.divisor ∧ t.div5 = s.div5 ∧ t.pinVal = s.pinVal ∧ t.pinDir = s.pinDir ∧
      t.op = s.op) ∧
  (∀ s : State, s.imm = [] → s.dn.mpsse = true → s.dn.inbox = [] →
    (∀ (k delivered : Nat) (rest : List WriteReply), s.WriteFails [0xAA#8] k delivered rest →
      exec .sync s = .next (State.complete .ioError []
        (s.afterFailedSend [0xAA#8] k delivered rest))) ∧
    ∀ (writes : List WriteReply) (w1 : Wait) (ws1 : List Wait),
      s.writes = .full :: writes → s.waits = w1 :: ws1 →
      (∀ (used : List Poll) (elapsed : Nat) (e : Status),
        s.EchoFails 0xAA#8 used w1.polls elapsed e →
        exec .sync s = .next (State.complete e []
          (s.afterFailedProbe 0xAA#8 elapsed (pollReach used) writes w1 ws1))) ∧
      ∀ used1 : List Poll, s.Echoed 0xAA#8 used1 w1.polls →
        let s1 := s.afterProbe 0xAA#8 (pollTime used1) (pollReach used1) writes ws1
        (∀ (k delivered : Nat) (rest : List WriteReply),
          s1.WriteFails [0xAB#8] k delivered rest →
          exec .sync s = .next (State.complete .ioError []
            (s1.afterFailedSend [0xAB#8] k delivered rest))) ∧
        ∀ (rest : List WriteReply) (w2 : Wait) (used : List Poll) (ws : List Wait)
          (elapsed : Nat) (e : Status), writes = .full :: rest → ws1 = w2 :: ws →
          s1.EchoFails 0xAB#8 used w2.polls elapsed e →
          exec .sync s = .next (State.complete e []
            (s1.afterFailedProbe 0xAB#8 elapsed (pollReach used) rest w2 ws)))

/-- R262, R264: INIT completes when every XPORT call succeeds and both echoes arrive in time, over
however many polls: it makes the calls in order, sends the probes and then the prescaler (high-speed
only), divisor, pin, bootstrap and TLR→RTI commands in one flush, and leaves the block as R322 says,
with the high pin nibble and DIV5 kept. The polls and what a call does to the downstream are the
model's (logs 5, 6, 18). -/
def Obligations.InitCompletes : Prop :=
  ∀ (s : State) (divisor : Half) (rest : List WriteReply) (calls : List Bool)
    (w1 w2 : Wait) (used1 used2 : List Poll) (ws : List Wait),
    let v : Byte := (s.pinVal &&& 0xF0#8) ||| 0x08#8
    let d : Byte := (s.pinDir &&& 0xF0#8) ||| 0x0B#8
    let bytes : List Byte :=
      (if s.params.variant = .standard then [] else [if s.div5 then 0x8B#8 else 0x8A#8]) ++
        [0x86#8, divisor.setWidth 8, (divisor >>> 8).setWidth 8, 0x80#8, v, d,
          0x4B#8, 0x06#8, 0x7F#8, 0x4B#8, 0x00#8, 0x00#8]
    s.imm = [] → divisor.toNat ≤ s.params.divisorMax →
    s.calls = List.replicate 7 true ++ calls →
    s.writes = [.full, .full] ++
      List.replicate (chunksOf s.params.writeChunk bytes).length .full ++ rest →
    s.waits = w1 :: w2 :: ws →
    Arrives s.params.syncTimeoutMs 2 used1 w1.polls →
    Arrives s.params.syncTimeoutMs 2 used2 w2.polls →
    exec (.init divisor) s = .next (State.complete .success []
      { s with
        cursor := .known .rti
        seq := []
        desc := []
        synced := true
        divisor := some divisor
        pinVal := v
        pinDir := d
        writes := rest
        calls := calls
        waits := ws
        time := s.time + pollTime used1 + pollTime used2
        log := s.log ++
          [.call .resetAndPurge, .call .setUsbBufferSizes, .call .setSpecialChars,
            .call .setTimeouts, .call .setLatencyTimer, .call .setBitModeReset,
            .call .setBitModeMpsse, .write [0xAA#8], .write [0xAB#8]] ++
          writeEvents s.params bytes
        dn := { s.dn with mpsse := true, inbox := bytes, rsp := [] } })

/-- R322, R264: when the downstream has executed a successful INIT, the target is in Run-Test/Idle,
whatever state it was in, with TMS holding it there, and the device has the divisor, the pin levels
and (on a high-speed chip) the prescaler the block believes. What a call does to the downstream is
the model's reading (log 18). -/
def Obligations.InitBringsTheTargetToIdle : Prop :=
  ∀ (s u : State) (divisor : Half), s.imm = [] → exec (.init divisor) s = .next u →
    u.status = .success →
    u.cursor = .known .rti ∧ u.synced = true ∧ u.runDownstream.InStep ∧
      u.runDownstream.dn.tap = .runTestIdle ∧ u.runDownstream.dn.rsp = [] ∧
      u.divisor = some divisor ∧ u.runDownstream.dn.divisor = divisor ∧
      u.runDownstream.dn.pinVal = u.pinVal ∧ u.runDownstream.dn.pinDir = u.pinDir ∧
      (u.hs = true → u.runDownstream.dn.div5 = u.div5)

/-- R262, R263, R286: an INIT that fails after its divisor check leaves the cursor Undefined, SEQ and
DESC empty, `synced` 0 and IMM empty, and keeps DIV5, the parameters and the high nibble of PINLO.
It ends with IoError when an XPORT call fails, the calls after it not made and nothing sent; with
SynchronizationFailed when a probe's deadline comes before its echo, and with IoError when a poll or
a probe's write fails, no clock, pin or TAP command sent and DIVISOR and PINLO as before; and with
IoError when a write of the last flush fails, DIVISOR and PINLO written. That a failure of the last
flush leaves the cursor Undefined is the model's reading (log 17); the polls, a write's answers and
whether a probe whose wait fails was executed, waits or is lost are its inputs (logs 5, 6, 13, 23, 35);
what a call does to the downstream and what a failing read takes are its choices (logs 18, 33). -/
def Obligations.FailedInitLeavesUndefined : Prop :=
  (∀ (s t : State) (divisor : Half), s.imm = [] → divisor.toNat ≤ s.params.divisorMax →
    exec (.init divisor) s = .next t → t.status ≠ .success →
    (t.status = .ioError ∨ t.status = .synchronizationFailed) ∧ t.cursor = .undefined ∧
      t.seq = [] ∧ t.desc = [] ∧ t.synced = false ∧ t.imm = [] ∧ t.result = [] ∧
      t.div5 = s.div5 ∧ t.params = s.params ∧ t.pinVal &&& 0xF0#8 = s.pinVal &&& 0xF0#8 ∧
      t.pinDir &&& 0xF0#8 = s.pinDir &&& 0xF0#8) ∧
  (∀ (s : State) (divisor : Half), s.imm = [] → divisor.toNat ≤ s.params.divisorMax →
    (∀ (k : Nat) (calls : List Bool), k < 7 →
      s.calls = List.replicate k true ++ false :: calls →
      exec (.init divisor) s = .next (State.complete .ioError []
        { s.afterInitCalls k calls with
          log := s.log ++
            (([.resetAndPurge, .setUsbBufferSizes, .setSpecialChars, .setTimeouts,
              .setLatencyTimer, .setBitModeReset, .setBitModeMpsse] : List XportCall).take
              (k + 1)).map .call })) ∧
    ∀ calls : List Bool, s.calls = List.replicate 7 true ++ calls →
      let s0 := s.afterInitCalls 7 calls
      (∀ (k delivered : Nat) (rest : List WriteReply), s0.WriteFails [0xAA#8] k delivered rest →
        exec (.init divisor) s = .next (State.complete .ioError []
          (s0.afterFailedSend [0xAA#8] k delivered rest))) ∧
      ∀ (writes : List WriteReply) (w1 : Wait) (ws1 : List Wait),
        s.writes = .full :: writes → s.waits = w1 :: ws1 →
        (∀ (used : List Poll) (elapsed : Nat) (e : Status),
          s0.EchoFails 0xAA#8 used w1.polls elapsed e →
          exec (.init divisor) s = .next (State.complete e []
            (s0.afterFailedProbe 0xAA#8 elapsed (pollReach used) writes w1 ws1))) ∧
        ∀ used1 : List Poll, s0.Echoed 0xAA#8 used1 w1.polls →
          let s1 := s0.afterProbe 0xAA#8 (pollTime used1) (pollReach used1) writes ws1
          (∀ (k delivered : Nat) (rest : List WriteReply),
            s1.WriteFails [0xAB#8] k delivered rest →
            exec (.init divisor) s = .next (State.complete .ioError []
              (s1.afterFailedSend [0xAB#8] k delivered rest))) ∧
          ∀ (writes2 : List WriteReply) (w2 : Wait) (ws : List Wait),
            writes = .full :: writes2 → ws1 = w2 :: ws →
            (∀ (used : List Poll) (elapsed : Nat) (e : Status),
              s1.EchoFails 0xAB#8 used w2.polls elapsed e →
              exec (.init divisor) s = .next (State.complete e []
                (s1.afterFailedProbe 0xAB#8 elapsed (pollReach used) writes2 w2 ws))) ∧
            ∀ used2 : List Poll, s1.Echoed 0xAB#8 used2 w2.polls →
              let s2 := s1.afterProbe 0xAB#8 (pollTime used2) (pollReach used2) writes2 ws
              let v : Byte := (s.pinVal &&& 0xF0#8) ||| 0x08#8
              let d : Byte := (s.pinDir &&& 0xF0#8) ||| 0x0B#8
              let bytes : List Byte :=
                (if s.params.variant = .standard then []
                  else [if s.div5 then 0x8B#8 else 0x8A#8]) ++
                  [0x86#8, divisor.setWidth 8, (divisor >>> 8).setWidth 8, 0x80#8, v, d,
                    0x4B#8, 0x06#8, 0x7F#8, 0x4B#8, 0x00#8, 0x00#8]
              ∀ (k delivered : Nat) (rest : List WriteReply),
                s2.WriteFails bytes k delivered rest →
                exec (.init divisor) s = .next (State.complete .ioError []
                  { s2.afterFailedSend bytes k delivered rest with
                    divisor := some divisor
                    pinVal := v
                    pinDir := d }))

/-! ### Frames over every outcome -/

/-- R129, R159 to R161, R286: whatever their outcome, MOVE, WRITE, READ and WRITE_READ leave SEQ,
DESC, PINLO, DIVISOR, DIV5 and OP alone and IMM empty; the cursor becomes the target or, after a
parameter error, stays. -/
def Obligations.ImmediateTapOpsFrame : Prop :=
  ∀ (s t : State) (ir : Bool) (code : Byte) (n : Word) (data : List Byte), s.imm = [] →
    ∀ i ∈ [Instr.move code, .write ir code n data, .read ir code n, .writeRead ir code n data],
    exec i s = .next t →
    t.seq = s.seq ∧ t.desc = s.desc ∧ t.pinVal = s.pinVal ∧ t.pinDir = s.pinDir ∧
      t.divisor = s.divisor ∧ t.div5 = s.div5 ∧ t.op = s.op ∧ t.imm = [] ∧
      (t.status.kind = .parameter → t.cursor = s.cursor) ∧
      (t.status.kind ≠ .parameter → some t.cursor = (DefState.ofCode code).map .known)

/-- R191 to R195, R236, R63: SEQ_CLEAR, the adds and GET_FREQ put nothing on CMD or XPORT and leave
the downstream, TIME, `synced`, IMM, PINLO, DIVISOR, DIV5 and OP alone, whatever their outcome. -/
def Obligations.QueueOpsDoNoIo : Prop :=
  ∀ (s t : State) (ir : Bool) (code : Byte) (n : Word) (data : List Byte) (divisor : Half),
    ∀ i ∈ [Instr.seqClear, .seqAddWrite ir code n data, .seqAddRead ir code n,
      .seqAddWriteRead ir code n data, .getFreq divisor],
    exec i s = .next t →
    t.log = s.log ++ [.frame (t.status.code :: t.result)] ∧ t.dn = s.dn ∧ t.time = s.time ∧
      t.synced = s.synced ∧ t.imm = s.imm ∧ t.pinVal = s.pinVal ∧ t.pinDir = s.pinDir ∧
      t.divisor = s.divisor ∧ t.div5 = s.div5 ∧ t.op = s.op ∧ t.draws = s.draws

/-- R237, R230, R232, R234, R235: whatever their outcome, PULSE, PULSE_HS, SET_CLOCK and SET_DIV5
leave the cursor, SEQ, DESC, PINLO and OP alone and IMM empty; only SET_CLOCK writes DIVISOR and
only SET_DIV5 writes DIV5. -/
def Obligations.ClockOpsFrame : Prop :=
  ∀ (s t : State) (pinstop stoplevel on : Bool) (count : Word) (divisor : Half), s.imm = [] →
    ∀ i ∈ [Instr.pulse count, .pulseHs pinstop stoplevel count, .setClock divisor, .setDiv5 on],
    exec i s = .next t →
    t.cursor = s.cursor ∧ t.seq = s.seq ∧ t.desc = s.desc ∧ t.pinVal = s.pinVal ∧
      t.pinDir = s.pinDir ∧ t.op = s.op ∧ t.imm = [] ∧
      (i ≠ .setClock divisor → t.divisor = s.divisor) ∧ (i ≠ .setDiv5 on → t.div5 = s.div5)

/-! ### MPSSE commands -/

/-- R97, R294 item 2: every command completes, changes nothing but the downstream, keeps the
responses already there, and adds as many response bytes as R97's table gives it; on a Standard chip
each of the five high-speed commands is answered as an unrecognised opcode, by 0xFA and its opcode
and nothing else (R100; that a Standard chip does not recognise them is the model's reading, log
16). -/
def Obligations.CommandsCompleteWithTheirResponses : Prop :=
  (∀ (s : State) (i : Instr), i.isHostOp = false →
    ∃ d : Downstream, ∃ r : List Byte, exec i s = .next (s.setDn d) ∧ d.rsp = s.dn.rsp ++ r ∧
      d.inbox = s.dn.inbox ∧ d.mpsse = s.dn.mpsse ∧ d.otherOpcodes = s.dn.otherOpcodes ∧
      r.length = match i with
        | .clkBytesIn len => len.toNat + 1
        | .clkBitsIn _ => 1
        | .clkBytesOutIn data => data.length
        | .clkBitsOutIn _ _ => 1
        | .tmsOutIn _ _ => 1
        | .syncProbe1 => 2
        | .syncProbe2 => 2
        | .div5Off => if s.hs then 0 else 2
        | .div5On => if s.hs then 0 else 2
        | .clkOctets _ => if s.hs then 0 else 2
        | .clkOctetsUntilHigh _ => if s.hs then 0 else 2
        | .clkOctetsUntilLow _ => if s.hs then 0 else 2
        | _ => 0) ∧
  (∀ (s : State) (len : Half), s.params.variant = .standard →
    ∀ x ∈ [(Instr.div5Off, 0x8A#8), (.div5On, 0x8B#8), (.clkOctets len, 0x8F#8),
      (.clkOctetsUntilHigh len, 0x9C#8), (.clkOctetsUntilLow len, 0x9D#8)],
    exec x.1 s = .next (s.setDn { s.dn with rsp := s.dn.rsp ++ [0xFA#8, x.2] }))

/-- R294 items 3 to 5, R152, R155: in a shift state with TMS low, a data-out command shifts its bits
into the register, bit 0 first, and leaves TDI at the last one; the out-and-in forms also return the
bits that came out, one byte for 8 of them. The low response bits are free values (log 10). -/
def Obligations.DataOutCommandsShiftTheRegister : Prop :=
  ∀ (s : State), isShift s.dn.tap = true → s.dn.tms = false →
    (∀ data : List Byte, data ≠ [] →
      let bits := bitsOf data (8 * data.length)
      let out := s.dn.reg ++ bits
      let d := { s.dn with
        reg := out.drop bits.length, tdi := bitAt data (8 * data.length - 1) }
      exec (.clkBytesOut data) s = .next (s.setDn d) ∧
      exec (.clkBytesOutIn data) s =
        .next (s.setDn { d with rsp := s.dn.rsp ++ pack (out.take bits.length) })) ∧
    (∀ (n : BitVec 3) (b : Byte),
      let bits := byteBits (n.toNat + 1) b
      let out := s.dn.reg ++ bits
      let d := { s.dn with reg := out.drop bits.length, tdi := b.getLsbD n.toNat }
      exec (.clkBitsOut n b) s = .next (s.setDn d) ∧
      ∃ low : List Bool, low.length = 7 - n.toNat ∧
        exec (.clkBitsOutIn n b) s =
          .next (s.setDn { d with
            draws := s.dn.draws + low.length
            rsp := s.dn.rsp ++ [byteOfBits (low ++ out.take bits.length)] }))

/-- R294 items 3 to 5, R154: in a shift state with TMS low, a data-in command returns the register's
low bits, as many as it clocks, if the register is that long; TDI's line level is not changed. The
TDI bits and the low response bits are free values (logs 9, 10). -/
def Obligations.DataInCommandsReadTheRegister : Prop :=
  ∀ (s : State), isShift s.dn.tap = true → s.dn.tms = false →
    (∀ len : Half, 8 * (len.toNat + 1) ≤ s.dn.reg.length →
      ∃ reg : List Bool, reg.length = s.dn.reg.length ∧
        reg.take (s.dn.reg.length - 8 * (len.toNat + 1)) = s.dn.reg.drop (8 * (len.toNat + 1)) ∧
        exec (.clkBytesIn len) s = .next (s.setDn { s.dn with
          reg := reg
          draws := s.dn.draws + 8 * (len.toNat + 1)
          rsp := s.dn.rsp ++ pack (s.dn.reg.take (8 * (len.toNat + 1))) })) ∧
    (∀ n : BitVec 3, n.toNat + 1 ≤ s.dn.reg.length →
      ∃ reg low : List Bool, reg.length = s.dn.reg.length ∧ low.length = 7 - n.toNat ∧
        reg.take (s.dn.reg.length - (n.toNat + 1)) = s.dn.reg.drop (n.toNat + 1) ∧
        exec (.clkBitsIn n) s = .next (s.setDn { s.dn with
          reg := reg
          draws := s.dn.draws + 8
          rsp := s.dn.rsp ++ [byteOfBits (low ++ s.dn.reg.take (n.toNat + 1))] }))

/-- R99, R294 item 6: a TMS command walks the TAP along its `n + 1` pattern bits, bit 0 first, and
leaves TMS at the last bit clocked and TDI at bit 7; from a shift state the first sample of the
echoing form is the register's low bit, at bit `8 - (n + 1)` of the response byte. Samples outside
the shift states are free values (log 10). -/
def Obligations.TmsCommandsWalkTheTap : Prop :=
  ∀ (s : State) (n : BitVec 3) (p : Byte),
    (∃ d : Downstream, exec (.tmsOut n p) s = .next (s.setDn d) ∧ d.rsp = s.dn.rsp ∧
      d.tap = tapAfter s.dn.tap (byteBits (n.toNat + 1) p) ∧ d.tms = p.getLsbD n.toNat ∧
      d.tdi = p.getLsbD 7 ∧ d.divisor = s.dn.divisor ∧ d.div5 = s.dn.div5 ∧
      d.pinVal = s.dn.pinVal ∧ d.pinDir = s.dn.pinDir ∧ d.stops = s.dn.stops) ∧
    (∃ (d : Downstream) (t : Byte), exec (.tmsOutIn n p) s = .next (s.setDn d) ∧
      d.rsp = s.dn.rsp ++ [t] ∧
      d.tap = tapAfter s.dn.tap (byteBits (n.toNat + 1) p) ∧ d.tms = p.getLsbD n.toNat ∧
      d.tdi = p.getLsbD 7 ∧ d.divisor = s.dn.divisor ∧ d.div5 = s.dn.div5 ∧
      d.pinVal = s.dn.pinVal ∧ d.pinDir = s.dn.pinDir ∧ d.stops = s.dn.stops ∧
      (∀ (b : Bool) (bs : List Bool), isShift s.dn.tap = true → s.dn.reg = b :: bs →
        t.getLsbD (7 - n.toNat) = b))

/-- R294 items 7, 8, 10, R162, R100: what the commands that clock nothing do, and nothing else: the
pins (driving TMS and TDI where they are outputs, the model's reading, log 24), the divisor, the
prescaler on a high-speed chip, SEND_IMMEDIATE (which changes no state, the model's reading, log 25),
and the two probes. -/
def Obligations.ConfigurationCommandsComplete : Prop :=
  ∀ s : State,
    (∀ v d : Byte, exec (.setPinsLow v d) s = .next (s.setDn { s.dn with
      pinVal := v
      pinDir := d
      tms := if d.getLsbD 3 then v.getLsbD 3 else s.dn.tms
      tdi := if d.getLsbD 1 then v.getLsbD 1 else s.dn.tdi })) ∧
    (∀ div : Half, exec (.setTckDivisor div) s = .next (s.setDn { s.dn with divisor := div })) ∧
    exec .sendImmediate s = .next s ∧
    exec .syncProbe1 s = .next (s.setDn { s.dn with rsp := s.dn.rsp ++ [0xFA#8, 0xAA#8] }) ∧
    exec .syncProbe2 s = .next (s.setDn { s.dn with rsp := s.dn.rsp ++ [0xFA#8, 0xAB#8] }) ∧
    (s.params.variant ≠ .standard →
      exec .div5Off s = .next (s.setDn { s.dn with div5 := false }) ∧
      exec .div5On s = .next (s.setDn { s.dn with div5 := true }))

/-- R233, R237, R294 item 9, U9: on a high-speed chip in a shift state with TMS low, CLK_OCTETS
clocks exactly `8(L+1)` cycles and the pin-stop forms some number of cycles from 0 to that, each
shifting the held TDI level into the register; no response, no change of TMS or TDI. In another
state that TMS holds (Test-Logic-Reset, Run-Test/Idle, Pause-DR, Pause-IR) the TAP stays, the
register too, and nothing else changes; and over all the bytes of a PULSE_HS the TAP stays where TMS
holds it, with no response. The number of a pin-stop form is the model's input (log 11); the TAP and TMS are
those the downstream holds, also where the cursor is Undefined (log 32). -/
def Obligations.OctetCommandsShiftTheHeldLevel : Prop :=
  (∀ (s : State) (len : Half), s.params.variant ≠ .standard → isShift s.dn.tap = true →
    s.dn.tms = false →
    exec (.clkOctets len) s = .next (s.setDn { s.dn with
      reg := (s.dn.reg ++ List.replicate (8 * (len.toNat + 1)) s.dn.tdi).drop
        (8 * (len.toNat + 1)) }) ∧
    ∀ i ∈ [Instr.clkOctetsUntilHigh len, .clkOctetsUntilLow len],
      ∃ (n draws : Nat) (stops : List Nat), n ≤ 8 * (len.toNat + 1) ∧
        (∀ m ms, s.dn.stops = m :: ms →
          n = min m (8 * (len.toNat + 1)) ∧ stops = ms ∧ draws = s.dn.draws) ∧
        exec i s = .next (s.setDn { s.dn with
          reg := (s.dn.reg ++ List.replicate n s.dn.tdi).drop n
          stops := stops
          draws := draws })) ∧
  (∀ (s : State) (len : Half), s.params.variant ≠ .standard → isShift s.dn.tap = false →
    tapNext s.dn.tap s.dn.tms = s.dn.tap →
    ∀ i ∈ [Instr.clkOctets len, .clkOctetsUntilHigh len, .clkOctetsUntilLow len],
      ∃ (draws : Nat) (stops : List Nat), (i = .clkOctets len → stops = s.dn.stops) ∧
        exec i s = .next (s.setDn { s.dn with stops := stops, draws := draws })) ∧
  (∀ (d : Downstream) (pinstop stoplevel : Bool) (c : Nat), d.mpsse = true → d.inbox = [] →
    tapNext d.tap d.tms = d.tap →
    let d' := (deliver (pulseHsCommands pinstop stoplevel c).flatten d).run true
    d'.tap = d.tap ∧ d'.tms = d.tms ∧ d'.tdi = d.tdi ∧ d'.rsp = d.rsp ∧ d'.inbox = [])
end

