-- ==== Sys2Proof/Laws/Bits.lean ====
section
/-! SUPPORT. Bit sequences and bytes: what each bit of a packed byte or byte list is (00_scope.md R11). -/

namespace Sys2Proof.Machine

theorem natOfBits_testBit (bs : List Bool) (i : Nat) :
    (natOfBits bs).testBit i = bs.getD i false := by
  induction bs generalizing i with
  | nil => simp [natOfBits]
  | cons b bs ih =>
    cases i with
    | zero => cases b <;> simp [natOfBits, Nat.testBit_zero]
    | succ i =>
      have h : (b.toNat + 2 * natOfBits bs) / 2 = natOfBits bs := by cases b <;> (simp; try omega)
      simp only [natOfBits, Nat.testBit_succ, h, ih, List.getD_cons_succ]

/-- Bit `i` of a byte of bits is the `i`-th of the sequence. -/
theorem byteOfBits_getLsbD (bs : List Bool) (i : Nat) (hi : i < 8) :
    (byteOfBits bs).getLsbD i = bs.getD i false := by
  simp only [byteOfBits, BitVec.getLsbD_ofNat, hi, decide_true, Bool.true_and, natOfBits_testBit]

/-- Two bytes with the same bits are equal. -/
theorem byte_eq_of_bits {a b : Byte} (h : ∀ i, i < 8 → a.getLsbD i = b.getLsbD i) : a = b :=
  BitVec.eq_of_getLsbD_eq fun i hi => h i hi

@[simp] theorem byteBits_length (n : Nat) (b : Byte) : (byteBits n b).length = n := by
  simp [byteBits]

@[simp] theorem bitsOf_length (s : List Byte) (n : Nat) : (bitsOf s n).length = n := by
  simp [bitsOf]

@[simp] theorem pack_length (bs : List Bool) : (pack bs).length = ceil8 bs.length := by
  simp [pack]

theorem pack_getD (bs : List Bool) (i : Nat) (hi : i < ceil8 bs.length) :
    (pack bs).getD i 0#8 = byteOfBits ((bs.drop (8 * i)).take 8) := by
  simp [pack, List.getD_eq_getElem?_getD, hi]

theorem bitsOfBytes_length (data : List Byte) : (bitsOfBytes data).length = 8 * data.length := by
  induction data with
  | nil => rfl
  | cons b bs ih =>
    simp only [bitsOfBytes, List.flatMap_cons, List.length_append, byteBits_length,
      List.length_cons] at ih ⊢
    omega

/-- The bits of whole bytes, bit 0 of byte 0 first (20_memory.md R53). -/
theorem bitsOfBytes_eq (data : List Byte) : bitsOfBytes data = bitsOf data (8 * data.length) := by
  induction data with
  | nil => rfl
  | cons b bs ih =>
    have h8 : 8 * (b :: bs).length = 8 + 8 * bs.length := by
      simp only [List.length_cons]; omega
    rw [h8]
    unfold bitsOf at ih ⊢
    rw [List.range_add, List.map_append, List.map_map]
    show byteBits 8 b ++ bitsOfBytes bs = _
    rw [ih]
    congr 1
    apply List.map_congr_left
    intro i _
    simp only [Function.comp, bitAt]
    rw [show (8 + i) / 8 = i / 8 + 1 by omega, show (8 + i) % 8 = i % 8 by omega]
    simp

/-- The last bit of a sequence of bits of a byte list. -/
theorem bitsOf_getLastD (data : List Byte) (n : Nat) (h : 0 < n) (x : Bool) :
    (bitsOf data n).getLastD x = bitAt data (n - 1) := by
  unfold bitsOf
  cases n with
  | zero => omega
  | succ n => simp [List.range_succ]

/-- The bits of a prefix that is long enough are the bits of the list. -/
theorem bitsOf_take (data : List Byte) (n k : Nat) (h : n ≤ 8 * k) :
    bitsOf (data.take k) n = bitsOf data n := by
  apply List.map_congr_left
  intro i hi
  have : i / 8 < k := by
    have := List.mem_range.1 hi
    omega
  simp only [bitAt, List.getD_eq_getElem?_getD, List.getElem?_take, this, if_true]

/-- A longer sequence of bits is a shorter one and the bits after it. -/
theorem bitsOf_succ (data : List Byte) (n : Nat) :
    bitsOf data (n + 1) = bitsOf data n ++ [bitAt data n] := by
  simp [bitsOf, List.range_succ]

/-- The low bits of byte `k` are the bits from `8k` on. -/
theorem bitsOf_add (data : List Byte) (k r : Nat) (h : r ≤ 8) :
    bitsOf data (8 * k + r) = bitsOf data (8 * k) ++ byteBits r (data.getD k 0#8) := by
  unfold bitsOf byteBits
  rw [List.range_add, List.map_append, List.map_map]
  congr 1
  apply List.map_congr_left
  intro i hi
  have := List.mem_range.1 hi
  simp only [Function.comp, bitAt]
  rw [show (8 * k + i) / 8 = k by omega, show (8 * k + i) % 8 = i by omega]

end Sys2Proof.Machine
end

