-- ==== Sys2Proof/Laws/Encoding.lean ====
section
/-! SUPPORT. Byte order and flag bytes: reading what was written gives it back, and the lengths of the
encodings. -/

namespace Sys2Proof

@[simp] theorem u16le_length (v : Nat) : (u16le v).length = 2 := rfl

@[simp] theorem u32le_length (v : Nat) : (u32le v).length = 4 := rfl

theorem ofU16le_toNat (b0 b1 : Byte) : (ofU16le b0 b1).toNat = b0.toNat + 256 * b1.toNat := by
  have h0 := b0.isLt
  have h1 := b1.isLt
  simp only [ofU16le, BitVec.toNat_ofNat]
  omega

theorem ofU32le_toNat (b0 b1 b2 b3 : Byte) :
    (ofU32le b0 b1 b2 b3).toNat =
      b0.toNat + 256 * b1.toNat + 65536 * b2.toNat + 16777216 * b3.toNat := by
  have h0 := b0.isLt
  have h1 := b1.isLt
  have h2 := b2.isLt
  have h3 := b3.isLt
  simp only [ofU32le, BitVec.toNat_ofNat]
  omega

/-- Reading the two bytes of `u16le v` gives `v`, if it fits. -/
theorem ofU16le_u16le (v : Nat) (h : v < 65536) :
    (ofU16le (BitVec.ofNat 8 v) (BitVec.ofNat 8 (v / 256))).toNat = v := by
  rw [ofU16le_toNat]
  simp only [BitVec.toNat_ofNat]
  omega

/-- Reading the four bytes of `u32le v` gives `v`, if it fits. -/
theorem ofU32le_u32le (v : Nat) (h : v < 4294967296) :
    (ofU32le (BitVec.ofNat 8 v) (BitVec.ofNat 8 (v / 256)) (BitVec.ofNat 8 (v / 65536))
      (BitVec.ofNat 8 (v / 16777216))).toNat = v := by
  rw [ofU32le_toNat]
  simp only [BitVec.toNat_ofNat]
  omega

/-- The two bytes of a read 16-bit value are the bytes read. -/
theorem u16le_ofU16le (b0 b1 : Byte) : u16le (ofU16le b0 b1).toNat = [b0, b1] := by
  have h0 := b0.isLt
  have h1 := b1.isLt
  rw [ofU16le_toNat, u16le]
  congr 1
  · apply BitVec.eq_of_toNat_eq; simp only [BitVec.toNat_ofNat]; omega
  · congr 1; apply BitVec.eq_of_toNat_eq; simp only [BitVec.toNat_ofNat]; omega

/-- The four bytes of a read 32-bit value are the bytes read. -/
theorem u32le_ofU32le (b0 b1 b2 b3 : Byte) :
    u32le (ofU32le b0 b1 b2 b3).toNat = [b0, b1, b2, b3] := by
  have h0 := b0.isLt
  have h1 := b1.isLt
  have h2 := b2.isLt
  have h3 := b3.isLt
  rw [ofU32le_toNat, u32le]
  congr 1
  · apply BitVec.eq_of_toNat_eq; simp only [BitVec.toNat_ofNat]; omega
  congr 1
  · apply BitVec.eq_of_toNat_eq; simp only [BitVec.toNat_ofNat]; omega
  congr 1
  · apply BitVec.eq_of_toNat_eq; simp only [BitVec.toNat_ofNat]; omega
  · congr 1; apply BitVec.eq_of_toNat_eq; simp only [BitVec.toNat_ofNat]; omega

@[simp] theorem ofU16le_bytes (h : Half) :
    ofU16le (h.setWidth 8) (BitVec.ofNat 8 (h.toNat / 256)) = h := by
  rw [← BitVec.ofNat_toNat]
  exact BitVec.eq_of_toNat_eq (ofU16le_u16le _ h.isLt)

@[simp] theorem ofU32le_bytes (w : Word) :
    ofU32le (w.setWidth 8) (BitVec.ofNat 8 (w.toNat / 256))
      (BitVec.ofNat 8 (w.toNat / 65536)) (BitVec.ofNat 8 (w.toNat / 16777216)) = w := by
  rw [← BitVec.ofNat_toNat]
  exact BitVec.eq_of_toNat_eq (ofU32le_u32le _ w.isLt)

@[simp] theorem irFlag_flagByte (ir : Bool) : irFlag (flagByte ir) = some ir := by
  cases ir <;> decide

/-- A flag byte with no reserved bit set is the flag byte of its bit 0. -/
theorem flagByte_getLsbD_zero (b : Byte) (h : b.toNat < 2) : flagByte (b.getLsbD 0) = b := by
  have : b = 0#8 ∨ b = 1#8 := by
    rcases Nat.lt_or_ge b.toNat 1 with h0 | h0
    · exact .inl (BitVec.eq_of_toNat_eq (by simp; omega))
    · exact .inr (BitVec.eq_of_toNat_eq (by simp; omega))
  rcases this with rfl | rfl <;> decide

@[simp] theorem encodeShiftW_length (op : Byte) (ir : Bool) (exit : Byte) (n : Word)
    (data : List Byte) : (encodeShiftW op ir exit n data).length = 11 + data.length := by
  simp [encodeShiftW]; omega

@[simp] theorem encodeShiftR_length (op : Byte) (ir : Bool) (exit : Byte) (n : Word) :
    (encodeShiftR op ir exit n).length = 7 := by
  simp [encodeShiftR]

@[simp] theorem encodeLen16Data_length (op : Byte) (data : List Byte) :
    (encodeLen16Data op data).length = 3 + data.length := by
  simp [encodeLen16Data]; omega

/-- A 3-bit count survives its byte. -/
@[simp] theorem setWidth_three_eight (n : BitVec 3) : (n.setWidth 8).setWidth 3 = n := by
  apply BitVec.eq_of_toNat_eq
  have := n.isLt
  simp only [BitVec.toNat_setWidth]
  omega

theorem setWidth_eight_toNat (n : BitVec 3) : (n.setWidth 8).toNat = n.toNat := by
  have := n.isLt
  simp only [BitVec.toNat_setWidth]
  omega

/-- A count byte below 8 is the byte of its low 3 bits. -/
theorem setWidth_eight_three (b : Byte) (h : b.toNat < 8) : (b.setWidth 3).setWidth 8 = b := by
  apply BitVec.eq_of_toNat_eq
  simp only [BitVec.toNat_setWidth]
  omega

theorem encode_ne_nil (i : Instr) : encode i ≠ [] := by
  cases i <;> simp [encode, encodeShiftW, encodeShiftR, encodeLen16Data]

end Sys2Proof
end

