-- ==== Sys2Proof/Laws/State.lean ====
section
/-! SUPPORT. What each named update of the state does to each field. -/

namespace Sys2Proof.Machine

section
variable (c : Cursor) (s : State)
@[simp] theorem State.setCursor_cursor : (s.setCursor c).cursor = c := rfl
@[simp] theorem State.setCursor_imm : (s.setCursor c).imm = s.imm := rfl
@[simp] theorem State.setCursor_seq : (s.setCursor c).seq = s.seq := rfl
@[simp] theorem State.setCursor_desc : (s.setCursor c).desc = s.desc := rfl
@[simp] theorem State.setCursor_synced : (s.setCursor c).synced = s.synced := rfl
@[simp] theorem State.setCursor_pinVal : (s.setCursor c).pinVal = s.pinVal := rfl
@[simp] theorem State.setCursor_pinDir : (s.setCursor c).pinDir = s.pinDir := rfl
@[simp] theorem State.setCursor_divisor : (s.setCursor c).divisor = s.divisor := rfl
@[simp] theorem State.setCursor_div5 : (s.setCursor c).div5 = s.div5 := rfl
@[simp] theorem State.setCursor_params : (s.setCursor c).params = s.params := rfl
@[simp] theorem State.setCursor_status : (s.setCursor c).status = s.status := rfl
@[simp] theorem State.setCursor_result : (s.setCursor c).result = s.result := rfl
@[simp] theorem State.setCursor_op : (s.setCursor c).op = s.op := rfl
@[simp] theorem State.setCursor_log : (s.setCursor c).log = s.log := rfl
@[simp] theorem State.setCursor_time : (s.setCursor c).time = s.time := rfl
@[simp] theorem State.setCursor_writes : (s.setCursor c).writes = s.writes := rfl
@[simp] theorem State.setCursor_waits : (s.setCursor c).waits = s.waits := rfl
@[simp] theorem State.setCursor_calls : (s.setCursor c).calls = s.calls := rfl
@[simp] theorem State.setCursor_draws : (s.setCursor c).draws = s.draws := rfl
@[simp] theorem State.setCursor_dn : (s.setCursor c).dn = s.dn := rfl
end

section
variable (b : List Byte) (s : State)
@[simp] theorem State.setImm_cursor : (s.setImm b).cursor = s.cursor := rfl
@[simp] theorem State.setImm_imm : (s.setImm b).imm = b := rfl
@[simp] theorem State.setImm_seq : (s.setImm b).seq = s.seq := rfl
@[simp] theorem State.setImm_desc : (s.setImm b).desc = s.desc := rfl
@[simp] theorem State.setImm_synced : (s.setImm b).synced = s.synced := rfl
@[simp] theorem State.setImm_pinVal : (s.setImm b).pinVal = s.pinVal := rfl
@[simp] theorem State.setImm_pinDir : (s.setImm b).pinDir = s.pinDir := rfl
@[simp] theorem State.setImm_divisor : (s.setImm b).divisor = s.divisor := rfl
@[simp] theorem State.setImm_div5 : (s.setImm b).div5 = s.div5 := rfl
@[simp] theorem State.setImm_params : (s.setImm b).params = s.params := rfl
@[simp] theorem State.setImm_status : (s.setImm b).status = s.status := rfl
@[simp] theorem State.setImm_result : (s.setImm b).result = s.result := rfl
@[simp] theorem State.setImm_op : (s.setImm b).op = s.op := rfl
@[simp] theorem State.setImm_log : (s.setImm b).log = s.log := rfl
@[simp] theorem State.setImm_time : (s.setImm b).time = s.time := rfl
@[simp] theorem State.setImm_writes : (s.setImm b).writes = s.writes := rfl
@[simp] theorem State.setImm_waits : (s.setImm b).waits = s.waits := rfl
@[simp] theorem State.setImm_calls : (s.setImm b).calls = s.calls := rfl
@[simp] theorem State.setImm_draws : (s.setImm b).draws = s.draws := rfl
@[simp] theorem State.setImm_dn : (s.setImm b).dn = s.dn := rfl
end

section
variable (b : List Byte) (d : List ReadDesc) (s : State)
@[simp] theorem State.setQueue_cursor : (s.setQueue b d).cursor = s.cursor := rfl
@[simp] theorem State.setQueue_imm : (s.setQueue b d).imm = s.imm := rfl
@[simp] theorem State.setQueue_seq : (s.setQueue b d).seq = b := rfl
@[simp] theorem State.setQueue_desc : (s.setQueue b d).desc = d := rfl
@[simp] theorem State.setQueue_synced : (s.setQueue b d).synced = s.synced := rfl
@[simp] theorem State.setQueue_pinVal : (s.setQueue b d).pinVal = s.pinVal := rfl
@[simp] theorem State.setQueue_pinDir : (s.setQueue b d).pinDir = s.pinDir := rfl
@[simp] theorem State.setQueue_divisor : (s.setQueue b d).divisor = s.divisor := rfl
@[simp] theorem State.setQueue_div5 : (s.setQueue b d).div5 = s.div5 := rfl
@[simp] theorem State.setQueue_params : (s.setQueue b d).params = s.params := rfl
@[simp] theorem State.setQueue_status : (s.setQueue b d).status = s.status := rfl
@[simp] theorem State.setQueue_result : (s.setQueue b d).result = s.result := rfl
@[simp] theorem State.setQueue_op : (s.setQueue b d).op = s.op := rfl
@[simp] theorem State.setQueue_log : (s.setQueue b d).log = s.log := rfl
@[simp] theorem State.setQueue_time : (s.setQueue b d).time = s.time := rfl
@[simp] theorem State.setQueue_writes : (s.setQueue b d).writes = s.writes := rfl
@[simp] theorem State.setQueue_waits : (s.setQueue b d).waits = s.waits := rfl
@[simp] theorem State.setQueue_calls : (s.setQueue b d).calls = s.calls := rfl
@[simp] theorem State.setQueue_draws : (s.setQueue b d).draws = s.draws := rfl
@[simp] theorem State.setQueue_dn : (s.setQueue b d).dn = s.dn := rfl
end

section
variable (b : Bool) (s : State)
@[simp] theorem State.setSynced_cursor : (s.setSynced b).cursor = s.cursor := rfl
@[simp] theorem State.setSynced_imm : (s.setSynced b).imm = s.imm := rfl
@[simp] theorem State.setSynced_seq : (s.setSynced b).seq = s.seq := rfl
@[simp] theorem State.setSynced_desc : (s.setSynced b).desc = s.desc := rfl
@[simp] theorem State.setSynced_synced : (s.setSynced b).synced = b := rfl
@[simp] theorem State.setSynced_pinVal : (s.setSynced b).pinVal = s.pinVal := rfl
@[simp] theorem State.setSynced_pinDir : (s.setSynced b).pinDir = s.pinDir := rfl
@[simp] theorem State.setSynced_divisor : (s.setSynced b).divisor = s.divisor := rfl
@[simp] theorem State.setSynced_div5 : (s.setSynced b).div5 = s.div5 := rfl
@[simp] theorem State.setSynced_params : (s.setSynced b).params = s.params := rfl
@[simp] theorem State.setSynced_status : (s.setSynced b).status = s.status := rfl
@[simp] theorem State.setSynced_result : (s.setSynced b).result = s.result := rfl
@[simp] theorem State.setSynced_op : (s.setSynced b).op = s.op := rfl
@[simp] theorem State.setSynced_log : (s.setSynced b).log = s.log := rfl
@[simp] theorem State.setSynced_time : (s.setSynced b).time = s.time := rfl
@[simp] theorem State.setSynced_writes : (s.setSynced b).writes = s.writes := rfl
@[simp] theorem State.setSynced_waits : (s.setSynced b).waits = s.waits := rfl
@[simp] theorem State.setSynced_calls : (s.setSynced b).calls = s.calls := rfl
@[simp] theorem State.setSynced_draws : (s.setSynced b).draws = s.draws := rfl
@[simp] theorem State.setSynced_dn : (s.setSynced b).dn = s.dn := rfl
end

section
variable (d : Downstream) (s : State)
@[simp] theorem State.setDn_cursor : (s.setDn d).cursor = s.cursor := rfl
@[simp] theorem State.setDn_imm : (s.setDn d).imm = s.imm := rfl
@[simp] theorem State.setDn_seq : (s.setDn d).seq = s.seq := rfl
@[simp] theorem State.setDn_desc : (s.setDn d).desc = s.desc := rfl
@[simp] theorem State.setDn_synced : (s.setDn d).synced = s.synced := rfl
@[simp] theorem State.setDn_pinVal : (s.setDn d).pinVal = s.pinVal := rfl
@[simp] theorem State.setDn_pinDir : (s.setDn d).pinDir = s.pinDir := rfl
@[simp] theorem State.setDn_divisor : (s.setDn d).divisor = s.divisor := rfl
@[simp] theorem State.setDn_div5 : (s.setDn d).div5 = s.div5 := rfl
@[simp] theorem State.setDn_params : (s.setDn d).params = s.params := rfl
@[simp] theorem State.setDn_status : (s.setDn d).status = s.status := rfl
@[simp] theorem State.setDn_result : (s.setDn d).result = s.result := rfl
@[simp] theorem State.setDn_op : (s.setDn d).op = s.op := rfl
@[simp] theorem State.setDn_log : (s.setDn d).log = s.log := rfl
@[simp] theorem State.setDn_time : (s.setDn d).time = s.time := rfl
@[simp] theorem State.setDn_writes : (s.setDn d).writes = s.writes := rfl
@[simp] theorem State.setDn_waits : (s.setDn d).waits = s.waits := rfl
@[simp] theorem State.setDn_calls : (s.setDn d).calls = s.calls := rfl
@[simp] theorem State.setDn_draws : (s.setDn d).draws = s.draws := rfl
@[simp] theorem State.setDn_dn : (s.setDn d).dn = d := rfl
end

section
variable (t : Nat) (s : State)
@[simp] theorem State.setTime_cursor : (s.setTime t).cursor = s.cursor := rfl
@[simp] theorem State.setTime_imm : (s.setTime t).imm = s.imm := rfl
@[simp] theorem State.setTime_seq : (s.setTime t).seq = s.seq := rfl
@[simp] theorem State.setTime_desc : (s.setTime t).desc = s.desc := rfl
@[simp] theorem State.setTime_synced : (s.setTime t).synced = s.synced := rfl
@[simp] theorem State.setTime_pinVal : (s.setTime t).pinVal = s.pinVal := rfl
@[simp] theorem State.setTime_pinDir : (s.setTime t).pinDir = s.pinDir := rfl
@[simp] theorem State.setTime_divisor : (s.setTime t).divisor = s.divisor := rfl
@[simp] theorem State.setTime_div5 : (s.setTime t).div5 = s.div5 := rfl
@[simp] theorem State.setTime_params : (s.setTime t).params = s.params := rfl
@[simp] theorem State.setTime_status : (s.setTime t).status = s.status := rfl
@[simp] theorem State.setTime_result : (s.setTime t).result = s.result := rfl
@[simp] theorem State.setTime_op : (s.setTime t).op = s.op := rfl
@[simp] theorem State.setTime_log : (s.setTime t).log = s.log := rfl
@[simp] theorem State.setTime_time : (s.setTime t).time = t := rfl
@[simp] theorem State.setTime_writes : (s.setTime t).writes = s.writes := rfl
@[simp] theorem State.setTime_waits : (s.setTime t).waits = s.waits := rfl
@[simp] theorem State.setTime_calls : (s.setTime t).calls = s.calls := rfl
@[simp] theorem State.setTime_draws : (s.setTime t).draws = s.draws := rfl
@[simp] theorem State.setTime_dn : (s.setTime t).dn = s.dn := rfl
end

section
variable (e : PortEvent) (s : State)
@[simp] theorem State.note_cursor : (s.note e).cursor = s.cursor := rfl
@[simp] theorem State.note_imm : (s.note e).imm = s.imm := rfl
@[simp] theorem State.note_seq : (s.note e).seq = s.seq := rfl
@[simp] theorem State.note_desc : (s.note e).desc = s.desc := rfl
@[simp] theorem State.note_synced : (s.note e).synced = s.synced := rfl
@[simp] theorem State.note_pinVal : (s.note e).pinVal = s.pinVal := rfl
@[simp] theorem State.note_pinDir : (s.note e).pinDir = s.pinDir := rfl
@[simp] theorem State.note_divisor : (s.note e).divisor = s.divisor := rfl
@[simp] theorem State.note_div5 : (s.note e).div5 = s.div5 := rfl
@[simp] theorem State.note_params : (s.note e).params = s.params := rfl
@[simp] theorem State.note_status : (s.note e).status = s.status := rfl
@[simp] theorem State.note_result : (s.note e).result = s.result := rfl
@[simp] theorem State.note_op : (s.note e).op = s.op := rfl
@[simp] theorem State.note_log : (s.note e).log = s.log ++ [e] := rfl
@[simp] theorem State.note_time : (s.note e).time = s.time := rfl
@[simp] theorem State.note_writes : (s.note e).writes = s.writes := rfl
@[simp] theorem State.note_waits : (s.note e).waits = s.waits := rfl
@[simp] theorem State.note_calls : (s.note e).calls = s.calls := rfl
@[simp] theorem State.note_draws : (s.note e).draws = s.draws := rfl
@[simp] theorem State.note_dn : (s.note e).dn = s.dn := rfl
end

section
variable (e : Status) (r : List Byte) (s : State)
@[simp] theorem State.complete_cursor : (s.complete e r).cursor = s.cursor := rfl
@[simp] theorem State.complete_imm : (s.complete e r).imm = s.imm := rfl
@[simp] theorem State.complete_seq : (s.complete e r).seq = s.seq := rfl
@[simp] theorem State.complete_desc : (s.complete e r).desc = s.desc := rfl
@[simp] theorem State.complete_synced : (s.complete e r).synced = s.synced := rfl
@[simp] theorem State.complete_pinVal : (s.complete e r).pinVal = s.pinVal := rfl
@[simp] theorem State.complete_pinDir : (s.complete e r).pinDir = s.pinDir := rfl
@[simp] theorem State.complete_divisor : (s.complete e r).divisor = s.divisor := rfl
@[simp] theorem State.complete_div5 : (s.complete e r).div5 = s.div5 := rfl
@[simp] theorem State.complete_params : (s.complete e r).params = s.params := rfl
@[simp] theorem State.complete_status : (s.complete e r).status = e := rfl
@[simp] theorem State.complete_result : (s.complete e r).result = r := rfl
@[simp] theorem State.complete_op : (s.complete e r).op = s.op := rfl
@[simp] theorem State.complete_log : (s.complete e r).log = s.log ++ [.frame (e.code :: r)] := rfl
@[simp] theorem State.complete_time : (s.complete e r).time = s.time := rfl
@[simp] theorem State.complete_writes : (s.complete e r).writes = s.writes := rfl
@[simp] theorem State.complete_waits : (s.complete e r).waits = s.waits := rfl
@[simp] theorem State.complete_calls : (s.complete e r).calls = s.calls := rfl
@[simp] theorem State.complete_draws : (s.complete e r).draws = s.draws := rfl
@[simp] theorem State.complete_dn : (s.complete e r).dn = s.dn := rfl
end

/-! ### The end of a part of an operation -/

section
variable {α β : Type} (a : α) (e : Status) (s : State)
@[simp] theorem Res.state_ok : (Res.ok a s).state = s := rfl
@[simp] theorem Res.state_raise : (Res.raise (α := α) e s).state = s := rfl
@[simp] theorem Res.bind_ok (f : α → State → Res β) : (Res.ok a s).bind f = f a s := rfl
@[simp] theorem Res.bind_raise (f : α → State → Res β) : (Res.raise e s).bind f = .raise e s := rfl
@[simp] theorem Res.onRaise_ok (f : State → State) : (Res.ok a s).onRaise f = .ok a s := rfl
@[simp] theorem Res.onRaise_raise (f : State → State) :
    (Res.raise (α := α) e s).onRaise f = .raise e (f s) := rfl
@[simp] theorem finish_ok (b : List Byte) : finish (.ok b s) = s.complete .success b := rfl
@[simp] theorem finish_raise : finish (.raise e s) = s.complete e [] := rfl
end

end Sys2Proof.Machine
end

