-- ==== Sys2Proof/Laws/Target.lean ====
section
/-! SUPPORT. One lemma for each thing a TCK cycle, or a run of them, can do: what it leaves alone, where
the TAP goes, what is sampled and what becomes of the register in a shift state. -/

namespace Sys2Proof.Machine

@[simp] theorem freeBits_length (n : Nat) (d : Downstream) : (freeBits n d).1.length = n := by
  simp [freeBits]

@[simp] theorem respond_rsp (b : List Byte) (d : Downstream) : (respond b d).rsp = d.rsp ++ b := rfl

/-! ### What a TCK cycle leaves alone -/

@[simp] theorem nextCapture_mpsse (d : Downstream) : (nextCapture d).2.mpsse = d.mpsse := by
  unfold nextCapture; split <;> rfl

@[simp] theorem nextCapture_inbox (d : Downstream) : (nextCapture d).2.inbox = d.inbox := by
  unfold nextCapture; split <;> rfl

@[simp] theorem nextCapture_rsp (d : Downstream) : (nextCapture d).2.rsp = d.rsp := by
  unfold nextCapture; split <;> rfl

@[simp] theorem nextCapture_tms (d : Downstream) : (nextCapture d).2.tms = d.tms := by
  unfold nextCapture; split <;> rfl

@[simp] theorem nextCapture_tdi (d : Downstream) : (nextCapture d).2.tdi = d.tdi := by
  unfold nextCapture; split <;> rfl

@[simp] theorem nextCapture_pinVal (d : Downstream) : (nextCapture d).2.pinVal = d.pinVal := by
  unfold nextCapture; split <;> rfl

@[simp] theorem nextCapture_pinDir (d : Downstream) : (nextCapture d).2.pinDir = d.pinDir := by
  unfold nextCapture; split <;> rfl

@[simp] theorem nextCapture_divisor (d : Downstream) : (nextCapture d).2.divisor = d.divisor := by
  unfold nextCapture; split <;> rfl

@[simp] theorem nextCapture_div5 (d : Downstream) : (nextCapture d).2.div5 = d.div5 := by
  unfold nextCapture; split <;> rfl

@[simp] theorem nextCapture_otherOpcodes (d : Downstream) : (nextCapture d).2.otherOpcodes = d.otherOpcodes := by
  unfold nextCapture; split <;> rfl

@[simp] theorem nextCapture_stops (d : Downstream) : (nextCapture d).2.stops = d.stops := by
  unfold nextCapture; split <;> rfl

@[simp] theorem nextStop_mpsse (d : Downstream) : (nextStop d).2.mpsse = d.mpsse := by
  unfold nextStop; split <;> rfl

@[simp] theorem nextStop_inbox (d : Downstream) : (nextStop d).2.inbox = d.inbox := by
  unfold nextStop; split <;> rfl

@[simp] theorem nextStop_rsp (d : Downstream) : (nextStop d).2.rsp = d.rsp := by
  unfold nextStop; split <;> rfl

@[simp] theorem nextStop_tap (d : Downstream) : (nextStop d).2.tap = d.tap := by
  unfold nextStop; split <;> rfl

@[simp] theorem nextStop_reg (d : Downstream) : (nextStop d).2.reg = d.reg := by
  unfold nextStop; split <;> rfl

@[simp] theorem nextStop_tms (d : Downstream) : (nextStop d).2.tms = d.tms := by
  unfold nextStop; split <;> rfl

@[simp] theorem nextStop_tdi (d : Downstream) : (nextStop d).2.tdi = d.tdi := by
  unfold nextStop; split <;> rfl

@[simp] theorem nextStop_pinVal (d : Downstream) : (nextStop d).2.pinVal = d.pinVal := by
  unfold nextStop; split <;> rfl

@[simp] theorem nextStop_pinDir (d : Downstream) : (nextStop d).2.pinDir = d.pinDir := by
  unfold nextStop; split <;> rfl

@[simp] theorem nextStop_divisor (d : Downstream) : (nextStop d).2.divisor = d.divisor := by
  unfold nextStop; split <;> rfl

@[simp] theorem nextStop_div5 (d : Downstream) : (nextStop d).2.div5 = d.div5 := by
  unfold nextStop; split <;> rfl

@[simp] theorem nextStop_otherOpcodes (d : Downstream) : (nextStop d).2.otherOpcodes = d.otherOpcodes := by
  unfold nextStop; split <;> rfl

@[simp] theorem nextStop_captures (d : Downstream) : (nextStop d).2.captures = d.captures := by
  unfold nextStop; split <;> rfl

@[simp] theorem clock_mpsse (m t : Bool) (d : Downstream) : (clock m t d).2.mpsse = d.mpsse := by
  unfold clock; split <;> simp [freeBit]

@[simp] theorem clock_inbox (m t : Bool) (d : Downstream) : (clock m t d).2.inbox = d.inbox := by
  unfold clock; split <;> simp [freeBit]

@[simp] theorem clock_rsp (m t : Bool) (d : Downstream) : (clock m t d).2.rsp = d.rsp := by
  unfold clock; split <;> simp [freeBit]

@[simp] theorem clock_tms (m t : Bool) (d : Downstream) : (clock m t d).2.tms = d.tms := by
  unfold clock; split <;> simp [freeBit]

@[simp] theorem clock_tdi (m t : Bool) (d : Downstream) : (clock m t d).2.tdi = d.tdi := by
  unfold clock; split <;> simp [freeBit]

@[simp] theorem clock_pinVal (m t : Bool) (d : Downstream) : (clock m t d).2.pinVal = d.pinVal := by
  unfold clock; split <;> simp [freeBit]

@[simp] theorem clock_pinDir (m t : Bool) (d : Downstream) : (clock m t d).2.pinDir = d.pinDir := by
  unfold clock; split <;> simp [freeBit]

@[simp] theorem clock_divisor (m t : Bool) (d : Downstream) : (clock m t d).2.divisor = d.divisor := by
  unfold clock; split <;> simp [freeBit]

@[simp] theorem clock_div5 (m t : Bool) (d : Downstream) : (clock m t d).2.div5 = d.div5 := by
  unfold clock; split <;> simp [freeBit]

@[simp] theorem clock_otherOpcodes (m t : Bool) (d : Downstream) : (clock m t d).2.otherOpcodes = d.otherOpcodes := by
  unfold clock; split <;> simp [freeBit]

@[simp] theorem clock_stops (m t : Bool) (d : Downstream) : (clock m t d).2.stops = d.stops := by
  unfold clock; split <;> simp [freeBit]

@[simp] theorem clockMany_mpsse (cs : List (Bool × Bool)) (d : Downstream) :
    (clockMany cs d).2.mpsse = d.mpsse := by
  induction cs generalizing d with
  | nil => rfl
  | cons c cs ih => simp [clockMany, ih]

@[simp] theorem clockMany_inbox (cs : List (Bool × Bool)) (d : Downstream) :
    (clockMany cs d).2.inbox = d.inbox := by
  induction cs generalizing d with
  | nil => rfl
  | cons c cs ih => simp [clockMany, ih]

@[simp] theorem clockMany_rsp (cs : List (Bool × Bool)) (d : Downstream) :
    (clockMany cs d).2.rsp = d.rsp := by
  induction cs generalizing d with
  | nil => rfl
  | cons c cs ih => simp [clockMany, ih]

@[simp] theorem clockMany_tms (cs : List (Bool × Bool)) (d : Downstream) :
    (clockMany cs d).2.tms = d.tms := by
  induction cs generalizing d with
  | nil => rfl
  | cons c cs ih => simp [clockMany, ih]

@[simp] theorem clockMany_tdi (cs : List (Bool × Bool)) (d : Downstream) :
    (clockMany cs d).2.tdi = d.tdi := by
  induction cs generalizing d with
  | nil => rfl
  | cons c cs ih => simp [clockMany, ih]

@[simp] theorem clockMany_pinVal (cs : List (Bool × Bool)) (d : Downstream) :
    (clockMany cs d).2.pinVal = d.pinVal := by
  induction cs generalizing d with
  | nil => rfl
  | cons c cs ih => simp [clockMany, ih]

@[simp] theorem clockMany_pinDir (cs : List (Bool × Bool)) (d : Downstream) :
    (clockMany cs d).2.pinDir = d.pinDir := by
  induction cs generalizing d with
  | nil => rfl
  | cons c cs ih => simp [clockMany, ih]

@[simp] theorem clockMany_divisor (cs : List (Bool × Bool)) (d : Downstream) :
    (clockMany cs d).2.divisor = d.divisor := by
  induction cs generalizing d with
  | nil => rfl
  | cons c cs ih => simp [clockMany, ih]

@[simp] theorem clockMany_div5 (cs : List (Bool × Bool)) (d : Downstream) :
    (clockMany cs d).2.div5 = d.div5 := by
  induction cs generalizing d with
  | nil => rfl
  | cons c cs ih => simp [clockMany, ih]

@[simp] theorem clockMany_otherOpcodes (cs : List (Bool × Bool)) (d : Downstream) :
    (clockMany cs d).2.otherOpcodes = d.otherOpcodes := by
  induction cs generalizing d with
  | nil => rfl
  | cons c cs ih => simp [clockMany, ih]

@[simp] theorem clockMany_stops (cs : List (Bool × Bool)) (d : Downstream) :
    (clockMany cs d).2.stops = d.stops := by
  induction cs generalizing d with
  | nil => rfl
  | cons c cs ih => simp [clockMany, ih]

/-! ### Where the TAP goes and how many samples there are -/

@[simp] theorem clock_tap (m t : Bool) (d : Downstream) : (clock m t d).2.tap = tapNext d.tap m := by
  unfold clock; split <;> simp_all

@[simp] theorem clockMany_tap (cs : List (Bool × Bool)) (d : Downstream) :
    (clockMany cs d).2.tap = tapAfter d.tap (cs.map Prod.fst) := by
  induction cs generalizing d with
  | nil => rfl
  | cons c cs ih => simp [clockMany, ih, tapAfter]

@[simp] theorem clockMany_length (cs : List (Bool × Bool)) (d : Downstream) :
    (clockMany cs d).1.length = cs.length := by
  induction cs generalizing d with
  | nil => rfl
  | cons c cs ih => simp [clockMany, ih]

theorem clockMany_append (cs es : List (Bool × Bool)) (d : Downstream) :
    clockMany (cs ++ es) d =
      ((clockMany cs d).1 ++ (clockMany es (clockMany cs d).2).1,
        (clockMany es (clockMany cs d).2).2) := by
  induction cs generalizing d with
  | nil => rfl
  | cons c cs ih => simp [clockMany, ih]

/-! ### Shifting (60_exceptions.md R294 item 3) -/

theorem shiftReg_eq (reg : List Bool) (b : Bool) :
    shiftReg reg b = ((reg ++ [b]).head (by simp), (reg ++ [b]).tail) := by
  cases reg <;> rfl

/-- One cycle in a shift state: the register's low bit is sampled and TDI enters at the high end. -/
theorem clock_shift {d : Downstream} (h : isShift d.tap = true) (m t : Bool) :
    clock m t d =
      ((shiftReg d.reg t).1, { d with reg := (shiftReg d.reg t).2, tap := tapNext d.tap m }) := by
  unfold clock
  cases ht : d.tap <;> simp_all [isShift]

/-- A cycle outside the shift and capture states leaves the register alone. -/
theorem clock_reg {d : Downstream} (hs : isShift d.tap = false) (hc : isCapture d.tap = false)
    (m t : Bool) : (clock m t d).2.reg = d.reg := by
  unfold clock
  cases ht : d.tap <;> simp_all [isShift, isCapture, freeBit]

/-- A cycle in a capture state loads the register from the next capture. -/
theorem clock_capture {d : Downstream} (h : isCapture d.tap = true) {c : List Bool}
    {cs : List (List Bool)} (hc : d.captures = c :: cs) (m t : Bool) :
    (clock m t d).2.reg = c ∧ (clock m t d).2.captures = cs := by
  unfold clock
  cases ht : d.tap <;> simp_all [isCapture, freeBit, nextCapture]

/-- A cycle outside the capture states uses up no capture. -/
theorem clock_captures {d : Downstream} (h : isCapture d.tap = false) (m t : Bool) :
    (clock m t d).2.captures = d.captures := by
  unfold clock
  cases ht : d.tap <;> simp_all [isCapture, freeBit]

/-- Cycles that stay in a shift state: `n` bits out of the register, `n` bits in. -/
theorem clockMany_shift {d : Downstream} (h : isShift d.tap = true) (tdis : List Bool) :
    clockMany (tdis.map fun b => (false, b)) d =
      ((d.reg ++ tdis).take tdis.length,
        { d with reg := (d.reg ++ tdis).drop tdis.length }) := by
  induction tdis generalizing d with
  | nil => simp [clockMany]
  | cons b bs ih =>
    have hstay : tapNext d.tap false = d.tap := by
      cases ht : d.tap <;> simp_all [isShift, tapNext]
    have h1 : isShift (clock false b d).2.tap = true := by simp [hstay, h]
    simp only [List.map_cons, clockMany, ih h1]
    rw [clock_shift h]
    cases hr : d.reg with
    | nil => simp [shiftReg, hstay]
    | cons r rs => simp [shiftReg, hstay]

/-- Clocking TDI bits in a shift state with TMS low: as many bits out of the register as in. -/
theorem clockData_shift {d : Downstream} (h : isShift d.tap = true) (ht : d.tms = false)
    (tdis : List Bool) :
    clockData tdis d =
      ((d.reg ++ tdis).take tdis.length,
        { d with reg := (d.reg ++ tdis).drop tdis.length }) := by
  simp only [clockData, ht]
  rw [clockMany_shift h]
  simp [ht]

/-! ### Paths of the TAP -/

/-- A path of TMS bits none of whose clocks is in a shift or a capture state. -/
def quietPath : TapState → List Bool → Bool
  | _, [] => true
  | t, b :: bs => !isShift t && !isCapture t && quietPath (tapNext t b) bs

theorem tapAfter_append (t : TapState) (a b : List Bool) :
    tapAfter t (a ++ b) = tapAfter (tapAfter t a) b := by
  simp [tapAfter]

/-- Clocks along a quiet path leave the register and the coming captures alone. -/
theorem clockMany_quiet (cs : List (Bool × Bool)) (d : Downstream)
    (h : quietPath d.tap (cs.map Prod.fst) = true) :
    (clockMany cs d).2.reg = d.reg ∧ (clockMany cs d).2.captures = d.captures := by
  induction cs generalizing d with
  | nil => exact ⟨rfl, rfl⟩
  | cons c cs ih =>
    simp only [List.map_cons, quietPath, Bool.and_eq_true, Bool.not_eq_true'] at h
    have := ih (clock c.1 c.2 d).2 (by simpa using h.2)
    simp only [clockMany]
    rw [this.1, this.2]
    exact ⟨clock_reg h.1.1 h.1.2 _ _, clock_captures h.1.2 _ _⟩

/-- A path of TMS bits none of whose clocks is in a capture state. -/
def captureFree : TapState → List Bool → Bool
  | _, [] => true
  | t, b :: bs => !isCapture t && captureFree (tapNext t b) bs

/-- A path with exactly one clock in a capture state, and quiet after it. -/
def loadsOnce : TapState → List Bool → Bool
  | _, [] => false
  | t, b :: bs =>
    if isCapture t then quietPath (tapNext t b) bs else loadsOnce (tapNext t b) bs

/-- Clocks along a capture-free path use up no capture. -/
theorem clockMany_captureFree (cs : List (Bool × Bool)) (d : Downstream)
    (h : captureFree d.tap (cs.map Prod.fst) = true) :
    (clockMany cs d).2.captures = d.captures := by
  induction cs generalizing d with
  | nil => rfl
  | cons c cs ih =>
    simp only [List.map_cons, captureFree, Bool.and_eq_true, Bool.not_eq_true'] at h
    have := ih (clock c.1 c.2 d).2 (by simpa using h.2)
    simp only [clockMany]
    rw [this]
    exact clock_captures h.1 _ _

/-- Clocks along a path with one capture leave that capture in the register. -/
theorem clockMany_loadsOnce (cs : List (Bool × Bool)) (d : Downstream)
    (h : loadsOnce d.tap (cs.map Prod.fst) = true) {r : List Bool} {rs : List (List Bool)}
    (hr : d.captures = r :: rs) :
    (clockMany cs d).2.reg = r ∧ (clockMany cs d).2.captures = rs := by
  induction cs generalizing d with
  | nil => simp [loadsOnce] at h
  | cons c cs ih =>
    simp only [List.map_cons, loadsOnce] at h
    simp only [clockMany]
    split at h
    · next hc =>
      have h1 := clock_capture hc hr c.1 c.2
      have h2 := clockMany_quiet cs (clock c.1 c.2 d).2 (by simpa using h)
      exact ⟨h2.1.trans h1.1, h2.2.trans h1.2⟩
    · next hc =>
      refine ih (clock c.1 c.2 d).2 (by simpa using h) ?_
      rw [clock_captures (by simpa using hc), hr]

/-- The TMS bits of pairs with one TDI level. -/
theorem pairs_fst (bs : List Bool) (x : Bool) : (bs.map fun b => (b, x)).map Prod.fst = bs := by
  induction bs <;> simp_all

/-- A path whose first clock is in a shift state and whose other clocks are quiet: one bit out of the
register and one bit in. -/
theorem clockMany_shift_quiet (m t : Bool) (cs : List (Bool × Bool)) (d : Downstream)
    (hs : isShift d.tap = true) (h : quietPath (tapNext d.tap m) (cs.map Prod.fst) = true) :
    (clockMany ((m, t) :: cs) d).2.reg = (d.reg ++ [t]).drop 1 := by
  have := clockMany_quiet cs (clock m t d).2 (by simpa using h)
  simp only [clockMany, this.1]
  rw [clock_shift hs, shiftReg_eq]
  simp

/-- The first sample of a path that begins in a shift state is the bit that comes out. -/
theorem clockMany_shift_sample (m t : Bool) (cs : List (Bool × Bool)) (d : Downstream)
    (hs : isShift d.tap = true) :
    ∃ more, (clockMany ((m, t) :: cs) d).1 = (d.reg ++ [t]).take 1 ++ more ∧
      more.length = cs.length := by
  refine ⟨(clockMany cs (clock m t d).2).1, ?_, by simp⟩
  simp only [clockMany]
  rw [clock_shift hs]
  cases d.reg <;> simp [shiftReg]

/-! ### Waiting bytes do not matter to a TCK cycle -/

/-- The same downstream with other bytes waiting on CMD. -/
def Downstream.withInbox (x : List Byte) (d : Downstream) : Downstream := { d with inbox := x }

theorem clock_withInbox (m t : Bool) (x : List Byte) (d : Downstream) :
    clock m t (d.withInbox x) = ((clock m t d).1, (clock m t d).2.withInbox x) := by
  unfold clock Downstream.withInbox nextCapture freeBit
  cases d.tap <;> cases d.captures <;> rfl

theorem clockMany_withInbox (cs : List (Bool × Bool)) (x : List Byte) (d : Downstream) :
    clockMany cs (d.withInbox x) = ((clockMany cs d).1, (clockMany cs d).2.withInbox x) := by
  induction cs generalizing d with
  | nil => rfl
  | cons c cs ih => simp only [clockMany, clock_withInbox, ih]

theorem clockData_withInbox (bs : List Bool) (x : List Byte) (d : Downstream) :
    clockData bs (d.withInbox x) = ((clockData bs d).1, (clockData bs d).2.withInbox x) :=
  clockMany_withInbox _ x d

/-- Cycles in a state that TMS holds, outside the shift states, change only the count of free values. -/
theorem clockMany_stay {d : Downstream} {m : Bool} (hh : tapNext d.tap m = d.tap)
    (hs : isShift d.tap = false) (tdis : List Bool) :
    (clockMany (tdis.map fun b => (m, b)) d).2 = { d with draws := d.draws + tdis.length } := by
  have h1 : ∀ (d : Downstream) (b : Bool), tapNext d.tap m = d.tap → isShift d.tap = false →
      (clock m b d).2 = { d with draws := d.draws + 1 } := by
    intro d b hh hs
    unfold clock
    cases ht : d.tap <;> cases m <;>
      first
      | (simp [ht, tapNext] at hh; done)
      | (simp [ht, isShift] at hs; done)
      | simp [freeBit, tapNext, ht]
  induction tdis generalizing d with
  | nil => rfl
  | cons b bs ih =>
    simp only [List.map_cons, clockMany]
    rw [h1 d b hh hs, ih (by exact hh) (by exact hs)]
    simp only [List.length_cons]
    congr 1
    omega

/-- A path that TMS holds does not move the TAP. -/
theorem tapAfter_held {t : TapState} {m : Bool} (h : tapNext t m = t) (bits : List Bool) :
    tapAfter t (bits.map fun _ => m) = t := by
  induction bits with
  | nil => rfl
  | cons b bs ih =>
    simp only [List.map_cons, tapAfter, List.foldl] at ih ⊢
    rw [h]
    exact ih

/-- The same downstream with more responses before those it has. -/
def Downstream.behind (x : List Byte) (d : Downstream) : Downstream := { d with rsp := x ++ d.rsp }

theorem clock_behind (m t : Bool) (x : List Byte) (d : Downstream) :
    clock m t (d.behind x) = ((clock m t d).1, (clock m t d).2.behind x) := by
  unfold clock Downstream.behind nextCapture freeBit
  cases d.tap <;> cases d.captures <;> rfl

theorem clockMany_behind (cs : List (Bool × Bool)) (x : List Byte) (d : Downstream) :
    clockMany cs (d.behind x) = ((clockMany cs d).1, (clockMany cs d).2.behind x) := by
  induction cs generalizing d with
  | nil => rfl
  | cons c cs ih => simp only [clockMany, clock_behind, ih]

theorem clockData_behind (bs : List Bool) (x : List Byte) (d : Downstream) :
    clockData bs (d.behind x) = ((clockData bs d).1, (clockData bs d).2.behind x) :=
  clockMany_behind _ x d

theorem respond_behind (b x : List Byte) (d : Downstream) :
    respond b (d.behind x) = (respond b d).behind x := by
  simp [respond, Downstream.behind, List.append_assoc]

end Sys2Proof.Machine
end

