-- ==== Sys2Proof/Laws/Transport.lean ====
section
/-! SUPPORT. Sending and receiving: what each shared operation can do, said once, and what it does when
the transport accepts everything. -/

namespace Sys2Proof.Machine

/-! ### Pieces of a send (20_memory.md R58) -/

theorem chunksFor_flatten {n : Nat} (hn : 0 < n) (fuel : Nat) (b : List Byte)
    (h : b.length ≤ fuel) : (chunksFor n fuel b).flatten = b := by
  induction fuel generalizing b with
  | zero => cases b <;> simp_all [chunksFor]
  | succ f ih =>
    cases b with
    | nil => rfl
    | cons x xs =>
      have : ((x :: xs).drop n).length ≤ f := by simp at h ⊢; omega
      simp only [chunksFor, List.flatten_cons, ih _ this, List.take_append_drop]

/-- The pieces of a send, joined, are the bytes sent. -/
theorem chunksOf_flatten {n : Nat} (hn : 0 < n) (b : List Byte) : (chunksOf n b).flatten = b :=
  chunksFor_flatten hn _ b le_rfl

theorem chunksFor_length_le {n : Nat} (fuel : Nat) (b : List Byte) :
    ∀ c ∈ chunksFor n fuel b, c.length ≤ n := by
  induction fuel generalizing b with
  | zero => simp [chunksFor]
  | succ f ih =>
    cases b with
    | nil => simp [chunksFor]
    | cons x xs =>
      intro c hc
      simp only [chunksFor, List.mem_cons] at hc
      rcases hc with rfl | hc
      · simp
      · exact ih _ c hc

/-- No piece is longer than the write chunk. -/
theorem chunksOf_length_le (n : Nat) (b : List Byte) : ∀ c ∈ chunksOf n b, c.length ≤ n :=
  chunksFor_length_le _ b

/-- No piece is empty, and every piece but the last is a whole write chunk (R58). -/
theorem chunksFor_full (n : Nat) (hn : 0 < n) (fuel : Nat) (b : List Byte) (h : b.length ≤ fuel) :
    (∀ c ∈ chunksFor n fuel b, c ≠ []) ∧ ∀ c ∈ (chunksFor n fuel b).dropLast, c.length = n := by
  induction fuel generalizing b with
  | zero => simp [chunksFor]
  | succ f ih =>
    cases b with
    | nil => simp [chunksFor]
    | cons x xs =>
      have hl : (List.drop n (x :: xs)).length ≤ f := by simp at h ⊢; omega
      obtain ⟨i1, i2⟩ := ih _ hl
      simp only [chunksFor]
      refine ⟨?_, ?_⟩
      · intro c hc
        rcases List.mem_cons.1 hc with rfl | hc
        · cases n <;> simp at hn ⊢
        · exact i1 c hc
      · intro c hc
        cases hd : chunksFor n f (List.drop n (x :: xs)) with
        | nil => rw [hd] at hc; simp at hc
        | cons y ys =>
          rw [hd] at hc i2
          simp only [List.dropLast_cons_cons] at hc
          rcases List.mem_cons.1 hc with rfl | hc
          · have : List.drop n (x :: xs) ≠ [] := by
              intro he; rw [he] at hd; cases f <;> simp [chunksFor] at hd
            simp only [ne_eq, List.drop_eq_nil_iff, not_le] at this
            simp only [List.length_take]; omega
          · exact i2 c hc

@[simp] theorem chunksOf_nil (n : Nat) : chunksOf n [] = [] := rfl

/-- There are at most as many pieces as bytes. -/
theorem chunksOf_count_le {n : Nat} (hn : 0 < n) (b : List Byte) :
    (chunksOf n b).length ≤ b.length := by
  have aux : ∀ fuel (b : List Byte), (chunksFor n fuel b).length ≤ b.length := by
    intro fuel
    induction fuel with
    | zero => simp [chunksFor]
    | succ f ih =>
      intro b
      cases b with
      | nil => simp [chunksFor]
      | cons x xs =>
        have := ih ((x :: xs).drop n)
        simp only [chunksFor, List.length_cons, List.length_drop] at this ⊢
        omega
  exact aux _ b

theorem take_min_length {α : Type} (n : Nat) (l : List α) : l.take (min n l.length) = l.take n := by
  rw [List.take_eq_take_iff]; omega

/-! ### The logs -/

@[simp] theorem cmdBytes_append (a b : List PortEvent) :
    cmdBytes (a ++ b) = cmdBytes a ++ cmdBytes b := by
  induction a with
  | nil => rfl
  | cons e es ih => cases e <;> simp [cmdBytes, ih]

@[simp] theorem frames_append (a b : List PortEvent) : frames (a ++ b) = frames a ++ frames b := by
  induction a with
  | nil => rfl
  | cons e es ih => cases e <;> simp [frames, ih]

theorem lastFrame_append_frame (a : List PortEvent) (f : List Byte) :
    lastFrame (a ++ [.frame f]) = some f := by
  induction a with
  | nil => rfl
  | cons e es ih => cases e <;> simp [lastFrame, ih]

@[simp] theorem cmdBytes_map_write (cs : List (List Byte)) :
    cmdBytes (cs.map .write) = cs.flatten := by
  induction cs with
  | nil => rfl
  | cons c cs ih => simp [cmdBytes, ih]

@[simp] theorem frames_map_write (cs : List (List Byte)) : frames (cs.map .write) = [] := by
  induction cs with
  | nil => rfl
  | cons c cs ih => simp [frames, ih]

/-- The writes of a send carry its bytes. -/
theorem cmdBytes_writeEvents (p : Params) (b : List Byte) : cmdBytes (writeEvents p b) = b := by
  simp [writeEvents, chunksOf_flatten p.writeChunk_pos]

/-! ### What transport activity can change -/

/-- `t` differs from `s` by transport activity only: nothing of the block but IMM and `synced`, which
can only be cleared; on the ports only CMD writes and XPORT calls are added; and a downstream outside
MPSSE mode still holds no commands. -/
structure TransportOnly (s t : State) : Prop where
  cursor : t.cursor = s.cursor
  seq : t.seq = s.seq
  desc : t.desc = s.desc
  pinVal : t.pinVal = s.pinVal
  pinDir : t.pinDir = s.pinDir
  divisor : t.divisor = s.divisor
  div5 : t.div5 = s.div5
  params : t.params = s.params
  status : t.status = s.status
  result : t.result = s.result
  op : t.op = s.op
  synced : t.synced = true → s.synced = true
  frames : ∃ es, t.log = s.log ++ es ∧ frames es = []
  inbox : (s.dn.mpsse = false → s.dn.inbox = []) → t.dn.mpsse = false → t.dn.inbox = []

theorem TransportOnly.refl (s : State) : TransportOnly s s := by
  constructor <;> first | rfl | exact id | exact ⟨[], by simp [Machine.frames]⟩

theorem TransportOnly.trans {s t u : State} (h : TransportOnly s t) (k : TransportOnly t u) :
    TransportOnly s u where
  cursor := k.cursor.trans h.cursor
  seq := k.seq.trans h.seq
  desc := k.desc.trans h.desc
  pinVal := k.pinVal.trans h.pinVal
  pinDir := k.pinDir.trans h.pinDir
  divisor := k.divisor.trans h.divisor
  div5 := k.div5.trans h.div5
  params := k.params.trans h.params
  status := k.status.trans h.status
  result := k.result.trans h.result
  op := k.op.trans h.op
  synced := h.synced ∘ k.synced
  frames := by
    obtain ⟨a, ha, ha'⟩ := h.frames
    obtain ⟨b, hb, hb'⟩ := k.frames
    exact ⟨a ++ b, by simp [hb, ha], by simp [ha', hb']⟩
  inbox := k.inbox ∘ h.inbox

/-- An update of the downstream that keeps its command rule is transport activity. -/
theorem TransportOnly.setDn (s : State) (d : Downstream)
    (h : (s.dn.mpsse = false → s.dn.inbox = []) → d.mpsse = false → d.inbox = []) :
    TransportOnly s (s.setDn d) := by
  constructor <;> first | rfl | exact id | exact ⟨[], by simp [Machine.frames]⟩ | exact h

/-- Reading response bytes is transport activity. -/
theorem TransportOnly.takeRsp (s : State) (n : Nat) :
    TransportOnly s (s.setDn { s.dn with rsp := s.dn.rsp.drop n }) :=
  .setDn s _ id

/-- Transport activity that leaves another downstream. -/
theorem TransportOnly.replaceDn {s t : State} (h : TransportOnly s t) (d : Downstream)
    (hd : (s.dn.mpsse = false → s.dn.inbox = []) → d.mpsse = false → d.inbox = []) :
    TransportOnly s (t.setDn d) :=
  { h with inbox := hd }

theorem TransportOnly.setTime (s : State) (t : Nat) : TransportOnly s (s.setTime t) := by
  constructor <;> first | rfl | exact id | exact ⟨[], by simp [Machine.frames]⟩

theorem TransportOnly.setImm (s : State) (b : List Byte) : TransportOnly s (s.setImm b) := by
  constructor <;> first | rfl | exact id | exact ⟨[], by simp [Machine.frames]⟩

theorem TransportOnly.unsynced (s : State) : TransportOnly s (s.setSynced false) := by
  constructor <;> first | rfl | exact id | exact ⟨[], by simp [Machine.frames]⟩ | simp

theorem TransportOnly.note_write (s : State) (b : List Byte) :
    TransportOnly s (s.note (.write b)) := by
  constructor <;> first | rfl | exact id | exact ⟨[.write b], rfl, rfl⟩

theorem TransportOnly.note_call (s : State) (c : XportCall) :
    TransportOnly s (s.note (.call c)) := by
  constructor <;> first | rfl | exact id | exact ⟨[.call c], rfl, rfl⟩

theorem nextWrite_transportOnly (s : State) : TransportOnly s (nextWrite s).2 := by
  unfold nextWrite
  split <;> constructor <;> first | rfl | exact id | exact ⟨[], by simp [Machine.frames]⟩

theorem nextWait_transportOnly (s : State) : TransportOnly s (nextWait s).2 := by
  unfold nextWait
  split <;> constructor <;> first | rfl | exact id | exact ⟨[], by simp [Machine.frames]⟩

theorem nextCall_transportOnly (s : State) : TransportOnly s (nextCall s).2 := by
  unfold nextCall
  split <;> constructor <;> first | rfl | exact id | exact ⟨[], by simp [Machine.frames]⟩

@[simp] theorem nextWrite_imm (s : State) : (nextWrite s).2.imm = s.imm := by
  unfold nextWrite; split <;> rfl

@[simp] theorem nextWait_imm (s : State) : (nextWait s).2.imm = s.imm := by
  unfold nextWait; split <;> rfl

@[simp] theorem nextCall_imm (s : State) : (nextCall s).2.imm = s.imm := by
  unfold nextCall; split <;> rfl

/-- Delivery keeps the command rule. -/
theorem deliver_inbox (b : List Byte) (d : Downstream) (h : d.mpsse = false → d.inbox = []) :
    (deliver b d).mpsse = false → (deliver b d).inbox = [] := by
  unfold deliver
  split
  · simp_all
  · split
    · exact h
    · simp [disturb]

theorem State.deliver_transportOnly (b : List Byte) (s : State) :
    TransportOnly s (s.deliver b) :=
  .setDn _ _ (deliver_inbox b s.dn)

/-- A command's effect leaves the mode and the waiting bytes alone. -/
theorem cmdEffect_inbox (hs : Bool) (i : Instr) (d : Downstream) :
    (cmdEffect hs i d).mpsse = d.mpsse ∧ (cmdEffect hs i d).inbox = d.inbox := by
  cases i <;> simp [cmdEffect, clkBytesOut, clkBitsOut, clkBytesIn, clkBitsIn, clkBytesOutIn,
    clkBitsOutIn, tmsOut, tmsOutIn, setPinsLow, setTckDivisor, sendImmediate, div5Off, div5On,
    clkOctets, clkOctetsUntilHigh, clkOctetsUntilLow, badCommand, onHiSpeed, clockHeld, clockUntil,
    clockOut, clockIn, clockData, clockTms, respond, respondBits, freeBits, nextStop] <;>
    split <;> (try split) <;> simp

/-- Executing a command keeps the command rule. -/
theorem advance_inbox {hs : Bool} {d d' : Downstream} (h : d.advance hs = some d') :
    d'.mpsse = false → d'.inbox = [] := by
  unfold Downstream.advance Downstream.fetch at h
  by_cases hm : d.mpsse = true
  · simp only [hm, if_true] at h
    split at h
    · cases h
    · cases h
      intro h0
      rw [(cmdEffect_inbox ..).1] at h0
      simp at h0
    · cases h
      unfold unlistedOpcode
      split
      · simp [loseTrack, disturb]
      · simp [badCommand, respond]
    · cases h
      simp [loseTrack, disturb]
  · simp [hm] at h

theorem runFor_inbox (hs : Bool) (fuel : Nat) (d : Downstream)
    (h : d.mpsse = false → d.inbox = []) :
    (Downstream.runFor hs fuel d).mpsse = false → (Downstream.runFor hs fuel d).inbox = [] := by
  induction fuel generalizing d with
  | zero => exact h
  | succ f ih =>
    unfold Downstream.runFor
    split
    · exact h
    · next d1 h1 => exact ih d1 (advance_inbox h1)

theorem runUntil_inbox (hs : Bool) (c fuel k : Nat) (d : Downstream)
    (h : d.mpsse = false → d.inbox = []) :
    (Downstream.runUntil hs c fuel k d).mpsse = false →
      (Downstream.runUntil hs c fuel k d).inbox = [] := by
  induction fuel generalizing k d with
  | zero => exact h
  | succ f ih =>
    unfold Downstream.runUntil
    split
    · exact h
    · split
      · exact h
      · next d1 h1 => exact ih _ d1 (advance_inbox h1)

/-- A wait that fails keeps the command rule. -/
theorem interrupted_inbox (hs : Bool) (sent : Nat) (w : Wait) (c : Nat) (d : Downstream)
    (h : d.mpsse = false → d.inbox = []) :
    (d.interrupted hs sent w c).mpsse = false → (d.interrupted hs sent w c).inbox = [] := by
  intro hm
  simp only [Downstream.interrupted, runUntil_inbox hs c _ w.executed d h hm, List.take_nil]

theorem State.runDownstream_transportOnly (s : State) : TransportOnly s s.runDownstream :=
  .setDn _ _ (runFor_inbox _ _ s.dn)

/-- Send's loop: transport activity, IMM untouched. -/
theorem writeAll_transportOnly (cs : List (List Byte)) (s : State) :
    TransportOnly s (writeAll cs s).2 ∧ (writeAll cs s).2.imm = s.imm := by
  induction cs generalizing s with
  | nil => exact ⟨.refl s, rfl⟩
  | cons c cs ih =>
    have h1 := (nextWrite_transportOnly s).trans (.note_write _ c)
    simp only [writeAll]
    split
    · exact ⟨h1.trans (ih _).1, by rw [(ih _).2]; simp⟩
    · exact ⟨h1, by simp⟩

/-- What `Send` can do: transport activity, IMM untouched; the only status it raises is IoError, with
`synced` cleared (R286). -/
theorem send_transportOnly (b : List Byte) (s : State) :
    TransportOnly s (send b s).state ∧ (send b s).state.imm = s.imm := by
  have h := writeAll_transportOnly (chunksOf s.params.writeChunk b) s
  unfold send
  split
  · next s1 h1 =>
    rw [h1] at h
    exact ⟨h.1.trans (State.deliver_transportOnly b s1), h.2⟩
  · next k s1 h1 =>
    rw [h1] at h
    exact ⟨(h.1.trans (State.deliver_transportOnly _ s1)).trans (.unsynced _), h.2⟩

/-- A raised status of `Send` is IoError and leaves `synced` cleared. -/
theorem send_raise {b : List Byte} {s t : State} {e : Status} (h : send b s = .raise e t) :
    e = .ioError ∧ t.synced = false := by
  unfold send at h
  split at h
  · cases h
  · cases h; exact ⟨rfl, rfl⟩

/-- `flush` leaves IMM empty, whatever its outcome (R57, R58). -/
theorem flush_transportOnly (s : State) :
    TransportOnly s (flush s).state ∧ (flush s).state.imm = [] := by
  unfold flush
  split
  · next h => exact ⟨.refl s, h⟩
  · have := send_transportOnly s.imm (s.setImm [])
    exact ⟨(TransportOnly.setImm s []).trans this.1, this.2⟩

theorem flush_raise {s t : State} {e : Status} (h : flush s = .raise e t) :
    e = .ioError ∧ t.synced = false := by
  unfold flush at h
  split at h
  · cases h
  · exact send_raise h

/-- `emit`: transport activity; if it raises, the status is IoError, `synced` is cleared and IMM is
empty. -/
theorem emit_spec (c : List Byte) (s : State) :
    TransportOnly s (emit c s).state ∧
      ∀ e t, emit c s = .raise e t → e = .ioError ∧ t.synced = false ∧ t.imm = [] := by
  unfold emit
  split
  · have h := flush_transportOnly s
    cases hf : flush s with
    | ok a t =>
      rw [hf] at h
      exact ⟨h.1.trans (.setImm t _), fun e t h => by simp [Res.bind] at h⟩
    | raise e t =>
      rw [hf] at h
      refine ⟨h.1, fun e' t' h' => ?_⟩
      simp only [Res.bind, Res.raise.injEq] at h'
      obtain ⟨rfl, rfl⟩ := h'
      exact ⟨(flush_raise hf).1, (flush_raise hf).2, h.2⟩
  · exact ⟨.setImm s _, fun e t h => (by cases h)⟩

theorem emitAll_spec (cs : List (List Byte)) (s : State) :
    TransportOnly s (emitAll cs s).state ∧
      ∀ e t, emitAll cs s = .raise e t → e = .ioError ∧ t.synced = false ∧ t.imm = [] := by
  induction cs generalizing s with
  | nil => exact ⟨.refl s, fun e t h => (by cases h)⟩
  | cons c cs ih =>
    have h := emit_spec c s
    unfold emitAll
    cases he : emit c s with
    | ok a t =>
      rw [he] at h
      exact ⟨h.1.trans (ih t).1, (ih t).2⟩
    | raise e t =>
      rw [he] at h
      exact ⟨h.1, fun e' t' h' => by
        simp only [Res.bind, Res.raise.injEq] at h'
        obtain ⟨rfl, rfl⟩ := h'
        exact h.2 _ _ rfl⟩

/-- What the body of a sending operation can do: transport activity, and IMM is empty after it; the only
status it raises is IoError, with `synced` cleared. -/
theorem emitFlush_spec (cs : List (List Byte)) (s : State) :
    TransportOnly s (emitFlush cs s).state ∧ (emitFlush cs s).state.imm = [] ∧
      ∀ e t, emitFlush cs s = .raise e t → e = .ioError ∧ t.synced = false := by
  have h := emitAll_spec cs s
  unfold emitFlush
  cases he : emitAll cs s with
  | ok a t =>
    rw [he] at h
    have hf := flush_transportOnly t
    exact ⟨h.1.trans hf.1, hf.2, fun e u hu => flush_raise hu⟩
  | raise e t =>
    rw [he] at h
    have hr := h.2 _ _ rfl
    refine ⟨h.1, hr.2.2, fun e' t' h' => ?_⟩
    simp only [Res.bind, Res.raise.injEq] at h'
    obtain ⟨rfl, rfl⟩ := h'
    exact ⟨hr.1, hr.2.1⟩

/-! ### A send that ends well leaves `synced` alone -/

theorem writeAll_synced (cs : List (List Byte)) (s : State) :
    (writeAll cs s).2.synced = s.synced := by
  have hn : ∀ s : State, (nextWrite s).2.synced = s.synced := by
    intro s; unfold nextWrite; split <;> rfl
  induction cs generalizing s with
  | nil => rfl
  | cons c cs ih =>
    simp only [writeAll]
    split
    · rw [ih]; exact hn s
    · exact hn s

theorem send_ok_synced {b : List Byte} {s t : State} (h : send b s = .ok () t) :
    t.synced = s.synced := by
  have hw := writeAll_synced (chunksOf s.params.writeChunk b) s
  unfold send at h
  split at h
  · next s1 h1 => cases h; rw [h1] at hw; exact hw
  · cases h

theorem flush_ok_synced {s t : State} (h : flush s = .ok () t) : t.synced = s.synced := by
  unfold flush at h
  split at h
  · cases h; rfl
  · exact (send_ok_synced h).trans rfl

theorem emitAll_ok_synced {cs : List (List Byte)} {s t : State} (h : emitAll cs s = .ok () t) :
    t.synced = s.synced := by
  induction cs generalizing s with
  | nil => cases h; rfl
  | cons c cs ih =>
    simp only [emitAll, emit] at h
    split at h
    · cases hf : flush s with
      | ok a u => rw [hf] at h; exact (ih h).trans ((flush_ok_synced hf : u.synced = s.synced))
      | raise e u => rw [hf] at h; cases h
    · simp only [Res.bind_ok] at h; exact (ih h).trans rfl

theorem emitFlush_ok_synced {cs : List (List Byte)} {s t : State}
    (h : emitFlush cs s = .ok () t) : t.synced = s.synced := by
  unfold emitFlush at h
  cases he : emitAll cs s with
  | ok a u => rw [he] at h; exact (flush_ok_synced h).trans (emitAll_ok_synced he)
  | raise e u => rw [he] at h; cases h

/-! ### What a send that ends well has done, whatever the transport's answers -/

/-- `t` is `s` after CMD took exactly `bytes`: only the transport's answers, the log, IMM and the
downstream differ, and a downstream in MPSSE mode has the bytes waiting. -/
def SentOk (bytes : List Byte) (s t : State) : Prop :=
  ∃ (ws : List WriteReply) (n : Nat) (es : List PortEvent) (d : Downstream),
    cmdBytes es = bytes ∧ frames es = [] ∧
    (s.dn.mpsse = true → d = { s.dn with inbox := s.dn.inbox ++ bytes }) ∧
    t = { s with writes := ws, draws := n, log := s.log ++ es, dn := d, imm := t.imm }

theorem SentOk.refl (s : State) (b : List Byte) : SentOk [] s (s.setImm b) :=
  ⟨s.writes, s.draws, [], s.dn, rfl, rfl, fun _ => by simp, by simp [State.setImm]⟩

theorem SentOk.same (s : State) : SentOk [] s s :=
  ⟨s.writes, s.draws, [], s.dn, rfl, rfl, fun _ => by simp, by simp⟩

theorem SentOk.trans {b c : List Byte} {s t u : State} (h : SentOk b s t) (k : SentOk c t u) :
    SentOk (b ++ c) s u := by
  obtain ⟨w1, n1, e1, d1, h1, h2, h3, h4⟩ := h
  obtain ⟨w2, n2, e2, d2, k1, k2, k3, k4⟩ := k
  refine ⟨w2, n2, e1 ++ e2, d2, by simp [h1, k1], by simp [h2, k2], fun hm => ?_, ?_⟩
  · have hd : t.dn = { s.dn with inbox := s.dn.inbox ++ b } := by rw [h4]; exact h3 hm
    rw [k3 (by rw [hd]; exact hm), hd]
    simp
  · rw [k4, h4]
    simp

theorem SentOk.cmdBytes {b : List Byte} {s t : State} (h : SentOk b s t) :
    cmdBytes t.log = Machine.cmdBytes s.log ++ b := by
  obtain ⟨w, n, es, d, h1, h2, h3, h4⟩ := h
  rw [h4]
  simp [h1]

theorem SentOk.dn {b : List Byte} {s t : State} (h : SentOk b s t) (hm : s.dn.mpsse = true) :
    t.dn = { s.dn with inbox := s.dn.inbox ++ b } := by
  obtain ⟨w, n, es, d, h1, h2, h3, h4⟩ := h
  rw [h4]
  exact h3 hm

theorem writeAll_ok {cs : List (List Byte)} {s t : State} (h : writeAll cs s = (none, t)) :
    ∃ w n, t = { s with writes := w, draws := n, log := s.log ++ cs.map .write } := by
  induction cs generalizing s with
  | nil => cases h; exact ⟨t.writes, t.draws, by simp⟩
  | cons c cs ih =>
    have hn : ∃ w n, (nextWrite s).2 = { s with writes := w, draws := n } := by
      unfold nextWrite; split
      · exact ⟨_, s.draws, rfl⟩
      · exact ⟨s.writes, _, rfl⟩
    obtain ⟨w1, n1, h1⟩ := hn
    simp only [writeAll] at h
    split at h
    · obtain ⟨w, n, h2⟩ := ih h
      refine ⟨w, n, ?_⟩
      rw [h2, h1]
      simp [State.note]
    · cases h

theorem send_ok {b : List Byte} {s t : State} (h : send b s = .ok () t) :
    SentOk b s t ∧ t.imm = s.imm := by
  unfold send at h
  split at h
  · next s1 h1 =>
    cases h
    obtain ⟨w, n, h2⟩ := writeAll_ok h1
    subst h2
    refine ⟨⟨w, n, writeEvents s.params b, deliver b s.dn, cmdBytes_writeEvents _ _,
      by simp [writeEvents], fun hm => by simp [Machine.deliver, hm], rfl⟩, rfl⟩
  · cases h

theorem flush_ok {s t : State} (h : flush s = .ok () t) : SentOk s.imm s t ∧ t.imm = [] := by
  unfold flush at h
  split at h
  · next h0 =>
    cases h
    exact ⟨by rw [h0]; exact .same s, h0⟩
  · obtain ⟨h1, h2⟩ := send_ok h
    exact ⟨(SentOk.refl s []).trans h1, h2⟩

/-- What `emitAll` has sent and what it has left in IMM are what was there and what it emitted. -/
theorem emitAll_ok {cs : List (List Byte)} {s t : State} (h : emitAll cs s = .ok () t) :
    ∃ b, SentOk b s t ∧ b ++ t.imm = s.imm ++ cs.flatten := by
  induction cs generalizing s with
  | nil =>
    cases h
    exact ⟨[], .same _, by simp⟩
  | cons c cs ih =>
    simp only [emitAll, emit] at h
    split at h
    · cases hf : flush s with
      | raise e u => rw [hf] at h; cases h
      | ok a u =>
        obtain ⟨h1, h2⟩ := flush_ok hf
        rw [hf] at h
        simp only [Res.bind_ok] at h
        obtain ⟨b, h3, h4⟩ := ih h
        refine ⟨s.imm ++ b, h1.trans ((SentOk.refl u _).trans h3), ?_⟩
        rw [List.append_assoc, h4]
        simp [h2]
    · simp only [Res.bind_ok] at h
      obtain ⟨b, h3, h4⟩ := ih h
      refine ⟨b, (SentOk.refl s _).trans h3, ?_⟩
      rw [h4]
      simp

/-- A sending operation's body that ends well: CMD took what stood in IMM and all it emitted. -/
theorem emitFlush_ok {cs : List (List Byte)} {s t : State} (h : emitFlush cs s = .ok () t) :
    SentOk (s.imm ++ cs.flatten) s t ∧ t.imm = [] := by
  unfold emitFlush at h
  cases he : emitAll cs s with
  | raise e u => rw [he] at h; cases h
  | ok a u =>
    rw [he] at h
    obtain ⟨b, h1, h2⟩ := emitAll_ok he
    obtain ⟨h3, h4⟩ := flush_ok h
    rw [← h2]
    exact ⟨h1.trans h3, h4⟩

/-! ### When the transport accepts everything -/

theorem writeAll_accepted (cs : List (List Byte)) (rest : List WriteReply) (s : State)
    (h : s.writes = List.replicate cs.length .full ++ rest) :
    writeAll cs s = (none, { s with writes := rest, log := s.log ++ cs.map .write }) := by
  induction cs generalizing s with
  | nil => simp at h; subst h; simp [writeAll]
  | cons c cs ih =>
    simp only [List.length_cons, List.replicate_succ, List.cons_append] at h
    unfold writeAll
    simp only [nextWrite, h, writeFailure]
    rw [ih _ rfl]
    simp [State.note]

/-- The loop of `Send` stops at the first write that is not answered in full (R58, R59). -/
theorem writeAll_failed (cs : List (List Byte)) (s : State) (k d : Nat) (c) (r : WriteReply) (rest)
   (hw : s.writes = List.replicate k .full ++ r :: rest) (hc : cs[k]? = some c)
   (hr : writeFailure c.length r = some d) :
   writeAll cs s = (some d, { s with writes := rest, log := s.log ++ (cs.take (k+1)).map .write }) := by
  induction cs generalizing s k with
  | nil => simp at hc
  | cons x xs ih =>
    cases k with
    | zero =>
      simp at hc hw; subst hc
      simp [writeAll, nextWrite, hw, State.note, hr]
    | succ k =>
      simp only [List.replicate_succ, List.cons_append] at hw
      simp only [List.getElem?_cons_succ] at hc
      have := ih { s with writes := List.replicate k .full ++ r :: rest, log := s.log ++ [.write x] } k rfl hc
      simp [writeAll, nextWrite, hw, State.note, writeFailure, this]

/-- A send whose writes are all accepted delivers all its bytes (R58). -/
theorem send_accepted {b : List Byte} {rest : List WriteReply} {s : State}
    (h : s.WritesAccepted b rest) :
    send b s = .ok () (State.deliver b
      { s with writes := rest, log := s.log ++ writeEvents s.params b }) := by
  unfold send
  rw [writeAll_accepted _ rest s h]
  rfl

/-- Commands that fit IMM are only appended to it (R57). -/
theorem emitAll_fits (cs : List (List Byte)) (s : State)
    (h : s.imm.length + cs.flatten.length ≤ Config.cmdBufMax) :
    emitAll cs s = .ok () (s.setImm (s.imm ++ cs.flatten)) := by
  induction cs generalizing s with
  | nil => simp [emitAll, State.setImm]
  | cons c cs ih =>
    simp only [List.flatten_cons, List.length_append] at h
    have h1 : ¬ s.imm.length + c.length > Config.cmdBufMax := by omega
    simp only [emitAll, emit, h1, if_false, Res.bind]
    rw [ih _ (by simp only [State.setImm_imm, List.length_append]; omega)]
    simp [State.setImm, List.append_assoc]

/-- A sending operation whose commands fit IMM and are accepted. -/
theorem emitFlush_accepted {cs : List (List Byte)} {rest : List WriteReply} {s : State}
    (hi : s.imm = []) (hl : cs.flatten.length ≤ Config.cmdBufMax)
    (h : s.WritesAccepted cs.flatten rest) :
    emitFlush cs s = .ok () (State.deliver cs.flatten
      { s with writes := rest, log := s.log ++ writeEvents s.params cs.flatten }) := by
  unfold emitFlush
  rw [emitAll_fits cs s (by simpa [hi] using hl)]
  simp only [Res.bind, hi, List.nil_append]
  unfold flush
  split
  · next h0 =>
    simp only [State.setImm] at h0
    have hw : s.writes = rest := by simpa [State.WritesAccepted, h0] using h
    subst hw
    have : deliver [] s.dn = s.dn := by simp [deliver]
    simp [h0, State.setImm, State.deliver, State.setDn, this, writeEvents]
  · simp only [State.setImm]
    rw [send_accepted (rest := rest) (by simpa [State.WritesAccepted] using h), ← hi]

/-- `t` is `s` after CMD took exactly `bytes`, by writes that were all answered in full: only the
transport's answers, the log, IMM and the downstream differ. -/
def SentAll (bytes : List Byte) (m : Nat) (rest : List WriteReply) (s t : State) : Prop :=
  ∃ (n : Nat) (es : List PortEvent) (d : Downstream), m ≤ n + bytes.length ∧ n ≤ m ∧
    cmdBytes es = bytes ∧ frames es = [] ∧
    t = { s with writes := List.replicate n .full ++ rest, log := s.log ++ es, dn := d, imm := t.imm }

theorem send_sentAll {b : List Byte} {m : Nat} {rest : List WriteReply} {s : State}
    (h : s.writes = List.replicate m .full ++ rest) (hm : b.length ≤ m) :
    ∃ t, send b s = .ok () t ∧ SentAll b m rest s t ∧ t.imm = s.imm := by
  have hc := chunksOf_count_le s.params.writeChunk_pos b
  have hw : s.WritesAccepted b
      (List.replicate (m - (chunksOf s.params.writeChunk b).length) .full ++ rest) := by
    unfold State.WritesAccepted
    rw [h, ← List.append_assoc, List.replicate_append_replicate]
    congr 2
    omega
  refine ⟨_, send_accepted hw, ⟨m - (chunksOf s.params.writeChunk b).length, writeEvents s.params b,
    deliver b s.dn, by omega, by omega, cmdBytes_writeEvents _ _, by simp [writeEvents], rfl⟩, rfl⟩

theorem flush_sentAll {m : Nat} {rest : List WriteReply} {s : State}
    (h : s.writes = List.replicate m .full ++ rest) (hm : s.imm.length ≤ m) :
    ∃ t, flush s = .ok () t ∧ SentAll s.imm m rest s t ∧ t.imm = [] := by
  unfold flush
  by_cases h0 : s.imm = []
  · refine ⟨s, by simp [h0], ⟨m, [], s.dn, by omega, by omega, by simp [cmdBytes, h0], rfl, ?_⟩, h0⟩
    rw [← h]
    simp
  · obtain ⟨t, h1, ⟨n, es, d, ha, hb, hc, hd, he⟩, hi⟩ :=
      send_sentAll (b := s.imm) (s := s.setImm []) h hm
    exact ⟨t, by simp [h0, h1], ⟨n, es, d, ha, hb, hc, hd, by rw [he]; rfl⟩, hi⟩

theorem SentAll.trans {b c : List Byte} {m n : Nat} {rest : List WriteReply} {s t u : State}
    (h : SentAll b m rest s t)
    (hnm : m ≤ n + b.length) (hnm' : n ≤ m) (k : SentAll c n rest t u) :
    SentAll (b ++ c) m rest s u := by
  obtain ⟨n1, e1, d1, ha, hb, hc, hd, he⟩ := h
  obtain ⟨n2, e2, d2, ka, kb, kc, kd, ke⟩ := k
  refine ⟨n2, e1 ++ e2, d2, ?_, by omega, by simp [hc, kc], by simp [hd, kd], ?_⟩
  · simp only [List.length_append]; omega
  · rw [ke, he]; simp

theorem SentAll.writes {b : List Byte} {m : Nat} {rest : List WriteReply} {s t : State}
    (h : SentAll b m rest s t) :
    ∃ n, t.writes = List.replicate n .full ++ rest ∧ m ≤ n + b.length ∧ n ≤ m := by
  obtain ⟨n, es, d, ha, hb, hc, hd, he⟩ := h
  exact ⟨n, by rw [he], ha, hb⟩

/-- Emitting over as many flushes as IMM needs (R57): what is not yet sent stands in IMM. -/
theorem emitAll_sentAll (cs : List (List Byte)) {m : Nat} {rest : List WriteReply} {s : State}
    (h : s.writes = List.replicate m .full ++ rest)
    (hm : s.imm.length + cs.flatten.length ≤ m) :
    ∃ t b, emitAll cs s = .ok () t ∧ SentAll b m rest s t ∧ b ++ t.imm = s.imm ++ cs.flatten := by
  induction cs generalizing s m with
  | nil =>
    refine ⟨s, [], rfl, ⟨m, [], s.dn, by omega, by omega, rfl, rfl, ?_⟩, by simp⟩
    rw [← h]
    simp
  | cons c cs ih =>
    simp only [List.flatten_cons, List.length_append] at hm
    simp only [emitAll, emit]
    by_cases ho : s.imm.length + c.length > Config.cmdBufMax
    · obtain ⟨t, h1, hs, hi⟩ := flush_sentAll h (by omega)
      obtain ⟨n, hw, hn, hn'⟩ := hs.writes
      simp only [ho, if_true, h1, Res.bind_ok, hi, List.nil_append]
      obtain ⟨u, b, hu, hs2, hb⟩ := ih (s := t.setImm c) (m := n) hw (by simp only [State.setImm_imm]; omega)
      refine ⟨u, s.imm ++ b, hu, hs.trans hn hn' ?_, ?_⟩
      · obtain ⟨n2, e2, d2, ka, kb, kc, kd, ke⟩ := hs2
        exact ⟨n2, e2, d2, ka, kb, kc, kd, ke⟩
      · rw [List.append_assoc, hb]
        simp
    · simp only [ho, if_false, Res.bind_ok]
      obtain ⟨u, b, hu, hs2, hb⟩ := ih (s := s.setImm (s.imm ++ c)) (m := m) h
        (by simp only [State.setImm_imm, List.length_append]; omega)
      refine ⟨u, b, hu, ?_, ?_⟩
      · obtain ⟨n2, e2, d2, ka, kb, kc, kd, ke⟩ := hs2
        exact ⟨n2, e2, d2, ka, kb, kc, kd, ke⟩
      · rw [hb]
        simp

/-- The body of a sending operation when every write is answered in full: CMD takes exactly its bytes. -/
theorem emitFlush_sentAll (cs : List (List Byte)) {m : Nat} {rest : List WriteReply} {s : State}
    (hi : s.imm = []) (h : s.writes = List.replicate m .full ++ rest)
    (hm : cs.flatten.length ≤ m) :
    ∃ t, emitFlush cs s = .ok () t ∧ SentAll cs.flatten m rest s t ∧ t.imm = [] := by
  obtain ⟨t, b, h1, h2, h3⟩ := emitAll_sentAll cs h (by simpa [hi] using hm)
  rw [hi, List.nil_append] at h3
  obtain ⟨n, hw, hn, hn'⟩ := h2.writes
  have hl := congrArg List.length h3
  simp only [List.length_append] at hl
  obtain ⟨u, h4, h5, h6⟩ := flush_sentAll hw (by omega)
  refine ⟨u, by simp only [emitFlush, h1, Res.bind_ok, h4], ?_, h6⟩
  rw [← h3]
  exact h2.trans hn hn' h5

/-! ### Receiving (R60) -/

theorem recvLoop_spec (n deadline : Nat) (ps : List Poll) (acc : List Byte) (s : State) :
    TransportOnly s (recvLoop n deadline ps acc s).state ∧
      (recvLoop n deadline ps acc s).state.imm = s.imm ∧
      (∀ e t, recvLoop n deadline ps acc s = .raise e t →
        (e = .ioError ∨ e = .commandTimeout) ∧ t.synced = false) ∧
      (∀ b t, recvLoop n deadline ps acc s = .ok b t → acc.length ≤ n → b.length = n) ∧
      (∀ b t, recvLoop n deadline ps acc s = .ok b t → t.synced = s.synced) := by
  induction ps generalizing acc s with
  | nil =>
    unfold recvLoop
    split
    · next h =>
      refine ⟨.refl s, rfl, fun e t h => (by cases h), fun b t h' hl => ?_, fun b t h' => ?_⟩
      · cases h'; omega
      · cases h'; rfl
    · refine ⟨(TransportOnly.setTime s _).trans (.unsynced _), rfl, fun e t h => ?_,
        fun b t h' => (by cases h'), fun b t h' => (by cases h')⟩
      cases h; exact ⟨.inr rfl, rfl⟩
  | cons p ps ih =>
    have ht := TransportOnly.setTime s (s.time + p.dt)
    simp only [recvLoop]
    split
    · next h =>
      refine ⟨.refl s, rfl, fun e t h => (by cases h), fun b t h' hl => ?_, fun b t h' => ?_⟩
      · cases h'; omega
      · cases h'; rfl
    · next hn =>
      split
      · refine ⟨ht.trans (.unsynced _), rfl, fun e t h => ?_, fun b t h' => (by cases h'),
          fun b t h' => (by cases h')⟩
        cases h; exact ⟨.inr rfl, rfl⟩
      · split
        · refine ⟨ht.trans (.unsynced _), rfl, fun e t h => ?_, fun b t h' => (by cases h'),
            fun b t h' => (by cases h')⟩
          cases h; exact ⟨.inl rfl, rfl⟩
        · split
          · have := ih acc (s.setTime (s.time + p.dt))
            exact ⟨ht.trans this.1, this.2.1, this.2.2⟩
          · split
            · refine ⟨ht.trans (.unsynced _), rfl, fun e t h => ?_, fun b t h' => (by cases h'),
                fun b t h' => (by cases h')⟩
              cases h; exact ⟨.inl rfl, rfl⟩
            · have := ih (acc ++ s.dn.rsp.take (min (min p.visible s.dn.rsp.length)
                (n - acc.length))) ((s.setTime (s.time + p.dt)).setDn { s.dn with
                  rsp := s.dn.rsp.drop (min (min p.visible s.dn.rsp.length) (n - acc.length)) })
              refine ⟨(ht.trans (.takeRsp (s.setTime (s.time + p.dt)) _)).trans this.1, this.2.1, this.2.2.1,
                fun b t h' hl => this.2.2.2.1 b t h' ?_, this.2.2.2.2⟩
              simp only [List.length_append, List.length_take]
              omega

/-- What a wait can do: its loop runs over what the downstream made of all it was sent, and a success
is the loop's; when the loop raises, only the downstream is another one. -/
theorem awaiting_cases {α : Type} (sent : Nat) (loop : List Poll → State → Res α) (s : State) :
    ∃ w s1, nextWait s = (w, s1) ∧
      ((∃ a t, loop w.polls s1.runDownstream = .ok a t ∧ awaiting sent loop s = .ok a t) ∨
        ∃ e t, loop w.polls s1.runDownstream = .raise e t ∧
          awaiting sent loop s = .raise e (t.setDn (s.dn.interrupted s.params.variant.hiSpeed sent w
            (s1.runDownstream.dn.rsp.length - t.dn.rsp.length)))) := by
  have hd : (nextWait s).2.dn = s.dn ∧ (nextWait s).2.params = s.params := by
    unfold nextWait; split <;> exact ⟨rfl, rfl⟩
  unfold awaiting
  generalize nextWait s = x at hd ⊢
  refine ⟨x.1, x.2, rfl, ?_⟩
  cases h : loop x.1.polls x.2.runDownstream with
  | ok a t => exact .inl ⟨a, t, rfl, by simp only [h, Res.onRaise]⟩
  | raise e t => exact .inr ⟨e, t, rfl, by simp only [h, Res.onRaise, hd.1, hd.2]⟩

/-- A wait whose loop is transport activity with IMM untouched is that too, and raises what the loop
does, with `synced` cleared if the loop clears it. -/
theorem awaiting_transportOnly {α : Type} {loop : List Poll → State → Res α} {P : Status → Prop}
    (h : ∀ ps t, TransportOnly t (loop ps t).state ∧ (loop ps t).state.imm = t.imm ∧
      ∀ e u, loop ps t = .raise e u → P e ∧ u.synced = false) (sent : Nat) (s : State) :
    TransportOnly s (awaiting sent loop s).state ∧ (awaiting sent loop s).state.imm = s.imm ∧
      ∀ e u, awaiting sent loop s = .raise e u → P e ∧ u.synced = false := by
  obtain ⟨w, s1, hw, hc⟩ := awaiting_cases sent loop s
  have h1 := nextWait_transportOnly s
  have hi := nextWait_imm s
  rw [hw] at h1 hi
  have hl := h w.polls s1.runDownstream
  have ht := (h1.trans (State.runDownstream_transportOnly s1)).trans hl.1
  obtain ⟨a, t, he, ha⟩ | ⟨e, t, he, ha⟩ := hc <;> rw [he] at hl ht <;> rw [ha]
  · exact ⟨ht, hl.2.1.trans hi, fun e u hu => by cases hu⟩
  · refine ⟨ht.replaceDn _ (interrupted_inbox _ _ _ _ s.dn), hl.2.1.trans hi, fun e' u hu => ?_⟩
    cases hu
    exact hl.2.2 e t rfl

/-- What `RecvExact(n)` can do (R60): transport activity with IMM untouched; it raises only IoError or
CommandTimeout, with `synced` cleared; else it gives exactly `n` bytes and `synced` is as before. -/
theorem recvExact_spec (n sent : Nat) (s : State) :
    TransportOnly s (recvExact n sent s).state ∧ (recvExact n sent s).state.imm = s.imm ∧
      (∀ e t, recvExact n sent s = .raise e t →
        (e = .ioError ∨ e = .commandTimeout) ∧ t.synced = false) ∧
      (∀ b t, recvExact n sent s = .ok b t → b.length = n ∧ t.synced = s.synced) := by
  unfold recvExact
  split
  · next h =>
    refine ⟨.refl s, rfl, fun e t h => (by cases h), fun b t h' => ?_⟩
    cases h'; exact ⟨by simp [h], rfl⟩
  · have h := awaiting_transportOnly
      (loop := fun ps t => recvLoop n (t.time + t.params.rxTimeoutMs) ps [] t)
      (fun ps t => have h := recvLoop_spec n (t.time + t.params.rxTimeoutMs) ps [] t
        ⟨h.1, h.2.1, h.2.2.1⟩) sent s
    refine ⟨h.1, h.2.1, h.2.2, fun b t hb => ?_⟩
    obtain ⟨w, s1, hw, ⟨a, u, he, ha⟩ | ⟨e, u, he, ha⟩⟩ := awaiting_cases sent
      (fun ps t => recvLoop n (t.time + t.params.rxTimeoutMs) ps [] t) s <;> rw [ha] at hb <;> cases hb
    have hl := recvLoop_spec n (s1.runDownstream.time + s1.runDownstream.params.rxTimeoutMs) w.polls []
      s1.runDownstream
    have hs : s1.synced = s.synced := by
      rw [← show (nextWait s).2 = s1 by rw [hw]]; unfold nextWait; split <;> rfl
    exact ⟨hl.2.2.2.1 b t he (by simp), (hl.2.2.2.2 b t he).trans hs⟩

/-- Receiving puts nothing on a port and delivers nothing to the downstream. -/
theorem recvLoop_log (n deadline : Nat) (ps : List Poll) (acc : List Byte) (s : State) :
    (recvLoop n deadline ps acc s).state.log = s.log ∧
      ∃ r, (recvLoop n deadline ps acc s).state.dn = { s.dn with rsp := r } := by
  induction ps generalizing acc s with
  | nil => unfold recvLoop; split <;> exact ⟨rfl, s.dn.rsp, rfl⟩
  | cons p ps ih =>
    simp only [recvLoop]
    split
    · exact ⟨rfl, s.dn.rsp, rfl⟩
    · split
      · exact ⟨rfl, s.dn.rsp, rfl⟩
      · split
        · exact ⟨rfl, s.dn.rsp, rfl⟩
        · split
          · exact ih _ _
          · split
            · exact ⟨rfl, s.dn.rsp, rfl⟩
            · exact ih _ _

theorem recvExact_log (n sent : Nat) (s : State) : (recvExact n sent s).state.log = s.log := by
  unfold recvExact
  split
  · rfl
  · obtain ⟨w, s1, hw, hc⟩ := awaiting_cases sent
      (fun ps t => recvLoop n (t.time + t.params.rxTimeoutMs) ps [] t) s
    have hs : s1.log = s.log := by
      rw [← show (nextWait s).2 = s1 by rw [hw]]; unfold nextWait; split <;> rfl
    have hl := (recvLoop_log n (s1.runDownstream.time + s1.runDownstream.params.rxTimeoutMs) w.polls []
      s1.runDownstream).1
    obtain ⟨a, t, he, ha⟩ | ⟨e, t, he, ha⟩ := hc <;> rw [he] at hl <;> rw [ha] <;> exact hl.trans hs

/-- What the polling loop returns when it succeeds: the next bytes of the queue. -/
theorem recvLoop_ok (n deadline : Nat) (ps : List Poll) (acc b : List Byte) (s t : State)
    (ha : acc.length ≤ n) (h : recvLoop n deadline ps acc s = .ok b t) :
    n - acc.length ≤ s.dn.rsp.length ∧ b = acc ++ s.dn.rsp.take (n - acc.length) ∧
      t.dn = { s.dn with rsp := s.dn.rsp.drop (n - acc.length) } := by
  induction ps generalizing acc s with
  | nil =>
    unfold recvLoop at h
    split at h
    · next hn =>
      cases h
      have : n - b.length = 0 := by omega
      simp [this]
    · cases h
  | cons p ps ih =>
    simp only [recvLoop] at h
    split at h
    · next hn =>
      cases h
      have : n - b.length = 0 := by omega
      simp [this]
    · next hn =>
      split at h
      · cases h
      · split at h
        · cases h
        · split at h
          · have := ih acc _ ha h
            simpa using this
          · split at h
            · cases h
            · simp only [State.setTime_dn] at h
              generalize hc : min (min p.visible s.dn.rsp.length) (n - acc.length) = c at h
              have hlen : (acc ++ s.dn.rsp.take c).length = acc.length + c := by
                simp only [List.length_append, List.length_take]; omega
              have := ih _ _ (by omega) h
              simp only [hlen, State.setDn_dn, List.length_drop, List.drop_drop] at this
              obtain ⟨h1, h2, h3⟩ := this
              refine ⟨by omega, ?_, ?_⟩
              · rw [h2, List.append_assoc]
                congr 1
                rw [← List.take_add]
                congr 1; omega
              · rw [h3, show c + (n - (acc.length + c)) = n - acc.length by omega]

/-- What `RecvExact` returns when it succeeds: the next bytes of the queue after everything sent was
executed. -/
theorem recvExact_ok {n sent : Nat} {b : List Byte} {s t : State} (h : recvExact n sent s = .ok b t)
    (hn : n ≠ 0) :
    let d := s.dn.run s.params.variant.hiSpeed
    n ≤ d.rsp.length ∧ b = d.rsp.take n ∧ t.dn = { d with rsp := d.rsp.drop n } := by
  unfold recvExact at h
  rw [if_neg hn] at h
  obtain ⟨w, s1, hw, ⟨a, u, he, ha⟩ | ⟨e, u, he, ha⟩⟩ := awaiting_cases sent
    (fun ps t => recvLoop n (t.time + t.params.rxTimeoutMs) ps [] t) s <;> rw [ha] at h <;> cases h
  have hd : s1.runDownstream.dn = s.dn.run s.params.variant.hiSpeed := by
    rw [← show (nextWait s).2 = s1 by rw [hw]]; unfold nextWait; split <;> rfl
  have := recvLoop_ok n _ w.polls [] b s1.runDownstream t (by simp) he
  simpa only [List.length_nil, Nat.sub_zero, List.nil_append, hd] using this

end Sys2Proof.Machine
end

