-- ==== Sys2Proof/Laws/Mpsse.lean ====
section
/-! SUPPORT. The execution of the CMD bytes: each command takes bytes off the inbox, and executing
everything is executing the first command and then everything after it. -/

namespace Sys2Proof.Machine

/-! ### A decoded command takes at least its opcode -/

/-- What is left after the head of the CMD bytes was decoded, if anything was. -/
def CmdDecode.rest? : CmdDecode → Option (List Byte)
  | .more => none
  | .cmd _ rest => some rest
  | .unlisted _ rest => some rest
  | .undescribed => none

theorem decodeCmd_rest_length (hs : Bool) (bytes : List Byte) :
    ∀ rest, CmdDecode.rest? (decodeCmd hs bytes) = some rest → rest.length < bytes.length := by
  cases bytes with
  | nil => simp [decodeCmd, CmdDecode.rest?]
  | cons op args =>
    intro rest h
    have key : ∀ r : CmdDecode, CmdDecode.rest? r = some rest →
        (∀ x, CmdDecode.rest? r = some x → x.length ≤ args.length) →
        rest.length < (op :: args).length := by
      intro r hr hx
      have := hx _ hr
      simp only [List.length_cons]
      omega
    refine key _ h ?_
    unfold decodeCmd
    split <;> intro x hx <;>
      (try simp only [cmdSingle, cmdHiSpeed, cmdLen16Data, cmdLen16, cmdLen3Data, cmdLen3, cmdTms,
        cmdPins] at hx) <;>
      (repeat' split at hx) <;>
      simp_all [CmdDecode.rest?] <;> (try subst hx) <;> (try simp only [List.length_drop]) <;> omega

theorem decodeCmd_cmd_length {hs : Bool} {bytes rest : List Byte} {i : Instr}
    (h : decodeCmd hs bytes = .cmd i rest) : rest.length < bytes.length :=
  decodeCmd_rest_length hs bytes rest (by rw [h]; rfl)

/-! ### Executing everything -/

/-- Executing a command shortens the inbox. -/
theorem advance_shortens {hs : Bool} {d d' : Downstream} (h : d.advance hs = some d') :
    d'.inbox.length < d.inbox.length := by
  unfold Downstream.advance Downstream.fetch at h
  by_cases hm : d.mpsse = true
  · simp only [hm, if_true] at h
    have hr := decodeCmd_rest_length hs d.inbox
    split at h
    · cases h
    · next i rest hd =>
      cases h
      rw [(cmdEffect_inbox ..).2]
      exact hr rest (by rw [hd]; rfl)
    · next op rest hd =>
      cases h
      unfold unlistedOpcode
      have := hr rest (by rw [hd]; rfl)
      split
      · simp only [loseTrack, disturb, List.length_nil]; omega
      · simpa [badCommand, respond] using this
    · next hd =>
      cases h
      have : d.inbox ≠ [] := by intro h0; rw [h0] at hd; simp [decodeCmd] at hd
      simp only [loseTrack, disturb, List.length_nil]
      exact List.length_pos_iff.2 this
  · simp [hm] at h

/-- Fuel beyond the length of the inbox changes nothing. -/
theorem runFor_eq_run (hs : Bool) (fuel : Nat) (d : Downstream) (h : d.inbox.length ≤ fuel) :
    Downstream.runFor hs fuel d = d.run hs := by
  have aux : ∀ n (d : Downstream) f g, d.inbox.length ≤ n → d.inbox.length ≤ f →
      d.inbox.length ≤ g → Downstream.runFor hs f d = Downstream.runFor hs g d := by
    intro n
    induction n with
    | zero =>
      intro d f g hn _ _
      have h0 : d.advance hs = none := by
        cases ha : d.advance hs with
        | none => rfl
        | some d' => have := advance_shortens ha; omega
      cases f <;> cases g <;> simp [Downstream.runFor, h0]
    | succ n ih =>
      intro d f g hn hf hg
      cases ha : d.advance hs with
      | none => cases f <;> cases g <;> simp [Downstream.runFor, ha]
      | some d' =>
        have := advance_shortens ha
        cases f with
        | zero => omega
        | succ f =>
          cases g with
          | zero => omega
          | succ g =>
            simp only [Downstream.runFor, ha]
            exact ih d' f g (by omega) (by omega) (by omega)
  exact aux fuel d fuel _ h h le_rfl

/-- Executing everything is executing the next command and then everything. -/
theorem run_advance {hs : Bool} {d d' : Downstream} (h : d.advance hs = some d') :
    d.run hs = d'.run hs := by
  have hl := advance_shortens h
  rw [← runFor_eq_run hs (d.inbox.length) d' (by omega), ← runFor_eq_run hs (d.inbox.length + 1) d
    (by omega)]
  simp [Downstream.runFor, h]

/-- With no whole command nothing is executed. -/
theorem run_none {hs : Bool} {d : Downstream} (h : d.advance hs = none) : d.run hs = d := by
  unfold Downstream.run
  cases d.inbox.length <;> simp [Downstream.runFor, h]

@[simp] theorem run_empty {hs : Bool} {d : Downstream} (h : d.inbox = []) : d.run hs = d := by
  unfold Downstream.run
  rw [h]
  rfl

/-- A downstream in MPSSE mode whose bytes begin with a whole command executes it first. -/
theorem run_first {hs : Bool} {d : Downstream} {i : Instr} {rest : List Byte}
    (hm : d.mpsse = true) (hd : decodeCmd hs d.inbox = .cmd i rest) :
    d.run hs = (cmdEffect hs i { d with inbox := rest }).run hs :=
  run_advance (by simp [Downstream.advance, Downstream.fetch, hm, hd])

/-- Bytes delivered in MPSSE mode wait in the inbox. -/
theorem deliver_mpsse {d : Downstream} (h : d.mpsse = true) (b : List Byte) :
    deliver b d = { d with inbox := d.inbox ++ b } := by
  simp [deliver, h]

/-- Execute commands one after another. -/
def execCommands (hs : Bool) (is : List Instr) (d : Downstream) : Downstream :=
  is.foldl (fun d i => cmdEffect hs i d) d

theorem execCommands_append (hs : Bool) (is js : List Instr) (d : Downstream) :
    execCommands hs (is ++ js) d = execCommands hs js (execCommands hs is d) := by
  simp [execCommands]

theorem execCommands_mpsse (hs : Bool) (is : List Instr) (d : Downstream) :
    (execCommands hs is d).mpsse = d.mpsse ∧ (execCommands hs is d).inbox = d.inbox := by
  induction is generalizing d with
  | nil => exact ⟨rfl, rfl⟩
  | cons i is ih =>
    have h1 := cmdEffect_inbox hs i d
    have h2 := ih (cmdEffect hs i d)
    exact ⟨h2.1.trans h1.1, h2.2.trans h1.2⟩

/-- What a command does is not changed by the bytes that wait behind it. -/
theorem cmdEffect_withInbox (hs : Bool) (i : Instr) (x : List Byte) (d : Downstream) :
    cmdEffect hs i (d.withInbox x) = (cmdEffect hs i d).withInbox x := by
  have hf : ∀ n (d : Downstream), freeBits n (d.withInbox x) =
      ((freeBits n d).1, (freeBits n d).2.withInbox x) := fun _ _ => rfl
  have hs' : ∀ d : Downstream, nextStop (d.withInbox x) =
      ((nextStop d).1, (nextStop d).2.withInbox x) := by
    intro d; unfold nextStop Downstream.withInbox; cases d.stops <;> rfl
  have hr : ∀ s (d : Downstream), respondBits s (d.withInbox x) =
      (respondBits s d).withInbox x := fun _ _ => rfl
  cases i <;> simp only [cmdEffect] <;>
    (try simp only [clkBytesOut, clkBitsOut, clkBytesIn, clkBitsIn, clkBytesOutIn, clkBitsOutIn,
      clockOut, clockIn, tmsOut, tmsOutIn, clockTms, clkOctets, clkOctetsUntilHigh,
      clkOctetsUntilLow, clockUntil, clockHeld, div5Off, div5On, onHiSpeed]) <;>
    (try split) <;>
    first
    | rfl
    | (simp only [hf, hs', clockData_withInbox, clockMany_withInbox]
       rfl)

/-- What a command does is not changed by the responses that stand before its own. -/
theorem cmdEffect_behind (hs : Bool) (i : Instr) (x : List Byte) (d : Downstream) :
    cmdEffect hs i (d.behind x) = (cmdEffect hs i d).behind x := by
  have hf : ∀ n (d : Downstream), freeBits n (d.behind x) =
      ((freeBits n d).1, (freeBits n d).2.behind x) := fun _ _ => rfl
  have hs' : ∀ d : Downstream, nextStop (d.behind x) =
      ((nextStop d).1, (nextStop d).2.behind x) := by
    intro d; unfold nextStop Downstream.behind; cases d.stops <;> rfl
  have hr : ∀ s (d : Downstream), respondBits s (d.behind x) = (respondBits s d).behind x := by
    intro s d
    simp only [respondBits, hf, respond_behind]
  have ht : ∀ (d : Downstream) (b : Bool), { d.behind x with tdi := b } =
      ({ d with tdi := b } : Downstream).behind x := fun _ _ => rfl
  have hm : ∀ (d : Downstream) (a b : Bool), { d.behind x with tms := a, tdi := b } =
      ({ d with tms := a, tdi := b } : Downstream).behind x := fun _ _ _ => rfl
  have h2 : ∀ d : Downstream, (d.behind x).tdi = d.tdi := fun _ => rfl
  cases i <;> simp only [cmdEffect] <;>
    (try simp only [clkBytesOut, clkBitsOut, clkBytesIn, clkBitsIn, clkBytesOutIn, clkBitsOutIn,
      clockOut, clockIn, tmsOut, tmsOutIn, clockTms, clkOctets, clkOctetsUntilHigh,
      clkOctetsUntilLow, clockUntil, clockHeld, div5Off, div5On, onHiSpeed, badCommand]) <;>
    (try split) <;>
    first
    | rfl
    | simp only [hf, hs', clockData_behind, clockMany_behind, respond_behind, hr, ht, hm, h2]

/-- The octet clocks in a shift state with TMS low shift the held TDI level. -/
theorem clockHeld_shift {d : Downstream} (h : isShift d.tap = true) (ht : d.tms = false) (n : Nat) :
    clockHeld n d = { d with reg := (d.reg ++ List.replicate n d.tdi).drop n } := by
  simp only [clockHeld]
  rw [clockData_shift h ht]
  simp

/-- The octet clocks in another state that TMS holds change only the count of free values. -/
theorem clockHeld_stay {d : Downstream} (hs : isShift d.tap = false)
    (hh : tapNext d.tap d.tms = d.tap) (n : Nat) :
    clockHeld n d = { d with draws := d.draws + n } := by
  simp only [clockHeld, clockData]
  rw [clockMany_stay hh hs]
  simp

/-- The octet clocks in a state that TMS holds leave the TAP and the lines, and answer nothing. -/
theorem clockHeld_holds {d : Downstream} (h : tapNext d.tap d.tms = d.tap) (n : Nat) :
    (clockHeld n d).tap = d.tap ∧ (clockHeld n d).tms = d.tms ∧ (clockHeld n d).tdi = d.tdi ∧
      (clockHeld n d).rsp = d.rsp := by
  simp only [clockHeld, clockData, clockMany_tap, List.map_map, clockMany_tms, clockMany_tdi,
    clockMany_rsp, and_true]
  exact tapAfter_held h _

theorem execCommands_behind (hs : Bool) (is : List Instr) (x : List Byte) (d : Downstream) :
    execCommands hs is (d.behind x) = (execCommands hs is d).behind x := by
  induction is generalizing d with
  | nil => rfl
  | cons i is ih =>
    show execCommands hs is (cmdEffect hs i (d.behind x)) = _
    rw [cmdEffect_behind, ih]
    rfl

/-- Bytes that decode as the encodings of commands are executed as those commands. -/
theorem run_encoded {hs : Bool} {is : List Instr} {d : Downstream} (hm : d.mpsse = true)
    (hi : d.inbox = [])
    (h : ∀ i ∈ is, ∀ rest, decodeCmd hs (encode i ++ rest) = .cmd i rest) :
    (deliver (is.map encode).flatten d).run hs = execCommands hs is d := by
  rw [deliver_mpsse hm, hi, List.nil_append]
  show (d.withInbox (is.map encode).flatten).run hs = execCommands hs is d
  induction is generalizing d with
  | nil =>
    rw [run_empty rfl]
    cases d
    simp_all [Downstream.withInbox, execCommands]
  | cons i is ih =>
    have h1 := run_first (d := d.withInbox ((i :: is).map encode).flatten) (hs := hs) (i := i)
      (rest := (is.map encode).flatten) hm (h i List.mem_cons_self _)
    have hc := cmdEffect_inbox hs i d
    have h2 : ({ d.withInbox ((i :: is).map encode).flatten with
        inbox := (is.map encode).flatten } : Downstream) = d.withInbox (is.map encode).flatten := rfl
    rw [h1, h2, cmdEffect_withInbox]
    exact ih (d := cmdEffect hs i d) (hc.1.trans hm) (hc.2.trans hi)
      (fun j hj => h j (List.mem_cons_of_mem i hj))

/-! ### Executing a part -/

/-- Enough is executed when no command more is asked for and the response is there. -/
theorem runUntil_done {hs : Bool} {c fuel : Nat} {d : Downstream} (h : c ≤ d.rsp.length) :
    Downstream.runUntil hs c fuel 0 d = d := by
  cases fuel <;> simp [Downstream.runUntil, h]

/-- Commands only add to the responses. -/
theorem execCommands_rsp_length (hs : Bool) (is : List Instr) (d : Downstream) :
    d.rsp.length ≤ (execCommands hs is d).rsp.length := by
  have h := execCommands_behind hs is d.rsp { d with rsp := [] }
  have hd : ({ d with rsp := [] } : Downstream).behind d.rsp = d := by simp [Downstream.behind]
  rw [hd] at h
  rw [h]
  simp [Downstream.behind]

/-- A part of the commands is executed: as many as asked for, and no more than it takes for the
response. -/
theorem runUntil_encoded {hs : Bool} {c k fuel : Nat} {is : List Instr} {rest : List Byte}
    {d : Downstream} (hm : d.mpsse = true)
    (h : ∀ i ∈ is, ∀ rest, decodeCmd hs (encode i ++ rest) = .cmd i rest)
    (hf : ((is.map encode).flatten ++ rest).length ≤ fuel) (hk : k ≤ is.length)
    (hc : c ≤ (execCommands hs is d).rsp.length)
    (hl : k < is.length → (execCommands hs is.dropLast d).rsp.length < c) :
    Downstream.runUntil hs c fuel k (d.withInbox ((is.map encode).flatten ++ rest)) =
      (execCommands hs is d).withInbox rest := by
  induction is generalizing d k fuel with
  | nil =>
    obtain rfl : k = 0 := by simpa using hk
    exact runUntil_done hc
  | cons i is ih =>
    have hd := h i List.mem_cons_self ((is.map encode).flatten ++ rest)
    have hn := decodeCmd_cmd_length hd
    simp only [List.map_cons, List.flatten_cons, List.append_assoc] at hf ⊢
    obtain ⟨fuel, rfl⟩ : ∃ f, fuel = f + 1 := ⟨fuel - 1, by omega⟩
    have hgo : ¬ (k = 0 ∧ c ≤ d.rsp.length) := by
      rintro ⟨rfl, h0⟩
      have := hl (by simp)
      have := execCommands_rsp_length hs (i :: is).dropLast d
      omega
    have ha : (d.withInbox (encode i ++ ((is.map encode).flatten ++ rest))).advance hs =
        some ((cmdEffect hs i d).withInbox ((is.map encode).flatten ++ rest)) := by
      rw [← cmdEffect_withInbox]
      simp only [Downstream.advance, Downstream.fetch, Downstream.withInbox, hm, if_true, hd]
    unfold Downstream.runUntil
    rw [if_neg (by exact hgo), ha]
    refine ih ((cmdEffect_inbox hs i d).1.trans hm) (fun j hj => h j (List.mem_cons_of_mem i hj))
      (by omega) (by simp only [List.length_cons] at hk; omega) hc fun hk' => ?_
    have := hl (by simp only [List.length_cons]; omega)
    cases is with
    | nil => simp at hk'
    | cons j js => exact this

end Sys2Proof.Machine
end

