-- ==== Sys2Proof/Laws/Shift.lean ====
section
/-! SUPPORT. The commands of moves and shifts: how many, how long, and the numbers in them
(40_tap_sequencer.md R121 to R130, 41_shift_ops.md R151). -/

namespace Sys2Proof.Machine

theorem tt_clocks_le (a b : DefState) : (tt a b).2 ≤ 7 := by
  cases a <;> cases b <;> decide

/-- A shift's exit has 1 to 7 clocks (R130). -/
theorem shiftClocks_bounds (q : ShiftSpec) : 1 ≤ shiftClocks q ∧ shiftClocks q ≤ 7 := by
  unfold shiftClocks
  cases exitBit q.kind q.data q.n <;> cases q.ir <;> cases q.exit <;> decide

/-- A shift's exit is always one command (R126). -/
theorem exitCommand_eq (q : ShiftSpec) :
    moveCommand (shiftState q.ir) q.exit (some (exitBit q.kind q.data q.n)) (echoes q.kind) =
      [[if echoes q.kind then 0x6B#8 else 0x4B#8, BitVec.ofNat 8 (shiftClocks q - 1),
        (movePath (shiftState q.ir) q.exit (some (exitBit q.kind q.data q.n))).1 |||
          (if exitBit q.kind q.data q.n then 0x80#8 else 0x00#8)]] := by
  have h := (shiftClocks_bounds q).1
  unfold shiftClocks at h ⊢
  simp only [moveCommand]
  rw [if_pos (by omega)]
  simp

theorem moveCommand_length_le (a t : DefState) (e : Option Bool) (echo : Bool) :
    (moveCommand a t e echo).flatten.length ≤ 3 := by
  simp only [moveCommand]
  split <;> simp

theorem moveCommands_length_le (c : Cursor) (t : DefState) (e : Option Bool) (echo : Bool) :
    (moveCommands c t e echo).flatten.length ≤ 6 := by
  have := moveCommand_length_le c.origin t e echo
  cases c <;> simp [moveCommands, Cursor.entry, bootstrap, Cursor.origin] at this ⊢ <;> omega

/-- The bytes of a shift that passes its checks fit an empty IMM, with room to spare. -/
theorem shiftCommands_length_le (c : Cursor) (q : ShiftSpec) (h : q.n ≤ Config.nMax) :
    (shiftCommands c q).flatten.length ≤ 65549 := by
  have h1 := moveCommands_length_le c (shiftState q.ir) none false
  have h2 := moveCommand_length_le (shiftState q.ir) q.exit
    (some (exitBit q.kind q.data q.n)) (echoes q.kind)
  have h3 : (byteCommand q.kind (wholeBytes q.n) q.data).flatten.length ≤ 65537 := by
    have : wholeBytes q.n ≤ 65534 := by
      simp only [wholeBytes, Config.nMax] at h ⊢; omega
    unfold byteCommand
    split
    · cases q.kind <;> simp [u16le] <;> omega
    · simp
  have h4 : (bitCommand q.kind (wholeBytes q.n) (restBits q.n) q.data).flatten.length ≤ 3 := by
    unfold bitCommand
    split
    · cases q.kind <;> simp
    · simp
  simp only [shiftCommands, List.flatten_append, List.length_append]
  omega

/-- A queued read or write-read takes at least 5 bytes (42_sequence.md R190). -/
theorem queuedBytes_length_ge (c : Cursor) (q : ShiftSpec) (hn : Config.nMin ≤ q.n)
    (hk : q.kind ≠ .w) : 5 ≤ (queuedBytes c q).length := by
  have h : 2 ≤ (byteCommand q.kind (wholeBytes q.n) q.data).flatten.length +
      (bitCommand q.kind (wholeBytes q.n) (restBits q.n) q.data).flatten.length := by
    simp only [Config.nMin] at hn
    have : wholeBytes q.n > 0 ∨ restBits q.n > 0 := by
      simp only [wholeBytes, restBits]; omega
    unfold byteCommand bitCommand
    rcases this with h | h <;> simp only [h, if_true] <;> cases hq : q.kind <;>
      simp [u16le] at hk ⊢ <;> first | exact absurd hq hk | omega
  simp only [queuedBytes, shiftCommands, List.flatten_append, List.length_append,
    exitCommand_eq, List.flatten_cons, List.flatten_nil, List.length_cons, List.length_nil]
  omega

end Sys2Proof.Machine
end

