-- ==== Sys2Proof/Laws/Scan.lean ====
section
/-! SUPPORT. What the downstream does with the commands of a move, a shift and a pulse: they decode as
instructions, they walk the TAP to the exit state, and a shift exchanges its bits with the register and
answers with the samples (41_shift_ops.md R151 to R158, 60_exceptions.md R294). -/

namespace Sys2Proof.Machine

/-! ### The commands of a shift as instructions -/


/-- The instructions of a move between defined states. -/
def moveInstrs (a t : DefState) (exitbit : Option Bool) (echo : Bool) : List Instr :=
  let path := movePath a t exitbit
  let p := path.1 ||| (if exitbit = some true then 0x80#8 else 0x00#8)
  if path.2 > 0 then
    [if echo then .tmsOutIn (BitVec.ofNat 3 (path.2 - 1)) p
      else .tmsOut (BitVec.ofNat 3 (path.2 - 1)) p]
  else []

/-- The bootstrap, if the cursor is Undefined. -/
def entryInstrs : Cursor → List Instr
  | .undefined => [.tmsOut 6#3 0x7F#8]
  | .known _ => []

/-- The instruction of the whole bytes. -/
def byteInstrs (kind : ShiftKind) (b : Nat) (data : List Byte) : List Instr :=
  if b > 0 then
    match kind with
    | .w => [.clkBytesOut (data.take b)]
    | .r => [.clkBytesIn (BitVec.ofNat 16 (b - 1))]
    | .wr => [.clkBytesOutIn (data.take b)]
  else []

/-- The instruction of the remaining bits. -/
def bitInstrs (kind : ShiftKind) (b r : Nat) (data : List Byte) : List Instr :=
  if r > 0 then
    match kind with
    | .w => [.clkBitsOut (BitVec.ofNat 3 (r - 1)) (data.getD b 0#8)]
    | .r => [.clkBitsIn (BitVec.ofNat 3 (r - 1))]
    | .wr => [.clkBitsOutIn (BitVec.ofNat 3 (r - 1)) (data.getD b 0#8)]
  else []

/-- The instruction of the exit. -/
def exitInstrs (q : ShiftSpec) : List Instr :=
  moveInstrs (shiftState q.ir) q.exit (some (exitBit q.kind q.data q.n)) (echoes q.kind)

/-- The instructions of a shift. -/
def shiftInstrs (c : Cursor) (q : ShiftSpec) : List Instr :=
  entryInstrs c ++ moveInstrs c.origin (shiftState q.ir) none false ++
    byteInstrs q.kind (wholeBytes q.n) q.data ++
    bitInstrs q.kind (wholeBytes q.n) (restBits q.n) q.data ++ exitInstrs q

/-- Bytes that begin with the instruction's encoding decode to it, on either kind of chip. -/
def Decodes (i : Instr) : Prop := ∀ hs rest, decodeCmd hs (encode i ++ rest) = .cmd i rest

/-- TMS commands of at most 7 clocks decode. -/
theorem decodes_tms (n : BitVec 3) (p : Byte) (h : n.toNat < 7) :
    Decodes (.tmsOut n p) ∧ Decodes (.tmsOutIn n p) := by
  constructor <;> intro hs rest <;>
    simp [encode, decodeCmd, cmdTms] <;> omega

/-- Byte commands with data decode. -/
theorem decodes_bytes (data : List Byte) (h1 : 1 ≤ data.length) (h2 : data.length ≤ 65536) :
    Decodes (.clkBytesOut data) ∧ Decodes (.clkBytesOutIn data) := by
  have := ofU16le_u16le (data.length - 1) (by omega)
  have h2 : data.length - 1 + 1 = data.length := by omega
  constructor <;> intro hs rest <;>
    simp [encode, encodeLen16Data, decodeCmd, cmdLen16Data, u16le, this, h2]

/-- Bit commands decode. -/
theorem decodes_bits (n : BitVec 3) (d : Byte) :
    Decodes (.clkBitsOut n d) ∧ Decodes (.clkBitsOutIn n d) ∧ Decodes (.clkBitsIn n) := by
  have := n.isLt
  refine ⟨fun hs rest => ?_, fun hs rest => ?_, fun hs rest => ?_⟩ <;>
    simp [encode, decodeCmd, cmdLen3Data, cmdLen3] <;> omega

/-- Byte reads decode. -/
theorem decodes_bytesIn (l : Half) : Decodes (.clkBytesIn l) := by
  intro hs rest; simp [encode, decodeCmd, cmdLen16, u16le]

/-- A 3-bit count as a byte. -/
theorem setWidth_ofNat3 (k : Nat) (h : k < 8) : (BitVec.ofNat 3 k).setWidth 8 = BitVec.ofNat 8 k := by
  apply BitVec.eq_of_toNat_eq
  simp only [BitVec.toNat_setWidth, BitVec.toNat_ofNat]
  omega

/-- A move has at most 7 clocks. -/
theorem movePath_le (a t : DefState) (e : Option Bool) : (movePath a t e).2 ≤ 7 := by
  unfold movePath
  split
  · simp
  · exact tt_clocks_le a t

/-- The instructions of a move are its commands. -/
theorem moveInstrs_encode (a t : DefState) (e : Option Bool) (echo : Bool) :
    (moveInstrs a t e echo).map encode = moveCommand a t e echo ∧
      ∀ i ∈ moveInstrs a t e echo, Decodes i := by
  have h := movePath_le a t e
  simp only [moveInstrs, moveCommand]
  split
  · next hk =>
    have hd := decodes_tms (BitVec.ofNat 3 ((movePath a t e).2 - 1))
      ((movePath a t e).1 ||| (if e = some true then 0x80#8 else 0x00#8))
      (by simp only [BitVec.toNat_ofNat]; omega)
    have hw := setWidth_ofNat3 ((movePath a t e).2 - 1) (by omega)
    cases echo <;> simp [encode, hw, hd.1, hd.2]
  · simp

/-- The instructions of a legal shift are its commands, and each decodes. -/
theorem shiftInstrs_encode (c : Cursor) (q : ShiftSpec) (hq : q.Legal) :
    (shiftInstrs c q).map encode = shiftCommands c q ∧ ∀ i ∈ shiftInstrs c q, Decodes i := by
  obtain ⟨n1, n2, -, hp⟩ := hq
  have hb : wholeBytes q.n ≤ 65534 := by simp only [wholeBytes, Config.nMax] at n2 ⊢; omega
  have hr : restBits q.n < 8 := by simp only [restBits]; omega
  have h1 := moveInstrs_encode c.origin (shiftState q.ir) none false
  have h4 := moveInstrs_encode (shiftState q.ir) q.exit (some (exitBit q.kind q.data q.n))
    (echoes q.kind)
  have h0 : (entryInstrs c).map encode = c.entry ∧ ∀ i ∈ entryInstrs c, Decodes i := by
    cases c with
    | undefined => exact ⟨rfl, by simpa [entryInstrs] using (decodes_tms 6#3 0x7F#8 (by decide)).1⟩
    | known a => exact ⟨rfl, by simp [entryInstrs]⟩
  have h2 : (byteInstrs q.kind (wholeBytes q.n) q.data).map encode =
      byteCommand q.kind (wholeBytes q.n) q.data ∧
      ∀ i ∈ byteInstrs q.kind (wholeBytes q.n) q.data, Decodes i := by
    unfold byteInstrs byteCommand
    split
    · next hpos =>
      have hl : q.kind ≠ .r → (q.data.take (wholeBytes q.n)).length = wholeBytes q.n := by
        intro hk
        have := (hp hk).1
        simp only [List.length_take, ceil8, wholeBytes] at this ⊢
        omega
      have hu : (BitVec.ofNat 16 (wholeBytes q.n - 1)).toNat = wholeBytes q.n - 1 := by
        simp only [BitVec.toNat_ofNat]; omega
      cases hk : q.kind
      · have := hl (by simp [hk])
        have hd := decodes_bytes (q.data.take (wholeBytes q.n)) (by omega) (by omega)
        refine ⟨?_, by simpa only [List.forall_mem_singleton] using hd.1⟩
        simp only [List.map_cons, List.map_nil, encode, encodeLen16Data, this]
      · have hd := decodes_bytesIn (BitVec.ofNat 16 (wholeBytes q.n - 1))
        exact ⟨by simp only [List.map_cons, List.map_nil, encode, hu]; rfl, by simpa using hd⟩
      · have := hl (by simp [hk])
        have hd := decodes_bytes (q.data.take (wholeBytes q.n)) (by omega) (by omega)
        refine ⟨?_, by simpa only [List.forall_mem_singleton] using hd.2⟩
        simp only [List.map_cons, List.map_nil, encode, encodeLen16Data, this]
    · simp
  have h3 : (bitInstrs q.kind (wholeBytes q.n) (restBits q.n) q.data).map encode =
      bitCommand q.kind (wholeBytes q.n) (restBits q.n) q.data ∧
      ∀ i ∈ bitInstrs q.kind (wholeBytes q.n) (restBits q.n) q.data, Decodes i := by
    unfold bitInstrs bitCommand
    split
    · have hw := setWidth_ofNat3 (restBits q.n - 1) (by omega)
      have hd := decodes_bits (BitVec.ofNat 3 (restBits q.n - 1)) (q.data.getD (wholeBytes q.n) 0#8)
      cases q.kind <;>
        refine ⟨by simp only [List.map_cons, List.map_nil, encode, hw], ?_⟩ <;>
        simp only [List.forall_mem_singleton, hd]
    · simp
  constructor
  · simp only [shiftInstrs, shiftCommands, List.map_append, h0.1, h1.1, h2.1, h3.1, exitInstrs, h4.1,
      moveCommands]
  · intro i hi
    simp only [shiftInstrs, List.mem_append] at hi
    rcases hi with (((hi | hi) | hi) | hi) | hi
    · exact h0.2 i hi
    · exact h1.2 i hi
    · exact h2.2 i hi
    · exact h3.2 i hi
    · exact h4.2 i hi

/-! ### What a shift's commands do to a target in step -/

/-- Bits taken from, and left in, a register into which bits go in two parts. -/
theorem slice {α : Type} (x a b : List α) :
    (((x ++ a).drop a.length ++ b).take b.length = ((x ++ (a ++ b)).drop a.length).take b.length) ∧
    (((x ++ a).drop a.length ++ b).drop b.length = (x ++ (a ++ b)).drop (a ++ b).length) := by
  have h : (x ++ a).drop a.length ++ b = (x ++ (a ++ b)).drop a.length := by
    rw [← List.append_assoc x a b]
    exact (List.drop_append_of_le_length (by simp)).symm
  rw [h, List.drop_drop]
  simp

/-- In a shift state whose TMS line holds it there. -/
def Downstream.Shifting (d : Downstream) : Prop := isShift d.tap = true ∧ d.tms = false

/-- The commands of the whole bytes: which bits went in, what stands in the register and what was
answered. -/
theorem byteInstrs_run (hs : Bool) (kind : ShiftKind) (b : Nat) (data : List Byte) (d : Downstream)
    (h : d.Shifting) (hb : b ≤ 65534) (hd : kind ≠ .r → b ≤ data.length) :
    ∃ ins : List Bool, ins.length = 8 * b ∧ (kind ≠ .r → ins = bitsOf data (8 * b)) ∧
      let e := execCommands hs (byteInstrs kind b data) d
      e.tap = d.tap ∧ e.tms = d.tms ∧ e.reg = (d.reg ++ ins).drop ins.length ∧
        e.rsp = d.rsp ++ (if kind = .w then [] else pack ((d.reg ++ ins).take (8 * b))) := by
  unfold byteInstrs
  split
  · have hl : kind ≠ .r → (data.take b).length = b := fun hk => by
      have := hd hk
      simp only [List.length_take]; omega
    have hout := clockData_shift h.1 h.2 (bitsOfBytes (data.take b))
    have hlen : kind ≠ .r → (bitsOfBytes (data.take b)).length = 8 * b := fun hk => by
      rw [bitsOfBytes_length, hl hk]
    have hbits : kind ≠ .r → bitsOfBytes (data.take b) = bitsOf data (8 * b) := fun hk => by
      rw [bitsOfBytes_eq, hl hk, bitsOf_take _ _ _ (Nat.le_refl _)]
    cases kind with
    | w =>
      refine ⟨_, hlen (by simp), hbits, ?_⟩
      simp [execCommands, cmdEffect, clkBytesOut, clockOut, hout]
    | wr =>
      refine ⟨_, hlen (by simp), hbits, ?_⟩
      simp [execCommands, cmdEffect, clkBytesOutIn, clockOut, hout, respond,
        hlen]
    | r =>
      have hn : 8 * ((BitVec.ofNat 16 (b - 1)).toNat + 1) = 8 * b := by
        simp only [BitVec.toNat_ofNat]; omega
      have hin := clockData_shift (d := (freeBits (8 * b) d).2) h.1 h.2 (freeBits (8 * b) d).1
      refine ⟨(freeBits (8 * b) d).1, by simp, by simp, ?_⟩
      simp only [execCommands, List.foldl, cmdEffect, clkBytesIn, hn, clockIn, hin]
      simp [respond, freeBits]
  · next h0 =>
    have : b = 0 := by omega
    subst this
    exact ⟨[], by simp, by simp [bitsOf], by simp [execCommands, pack, ceil8]⟩

/-- The command of the remaining bits. -/
theorem bitInstrs_run (hs : Bool) (kind : ShiftKind) (b r : Nat) (data : List Byte) (d : Downstream)
    (h : d.Shifting) (hr : r < 8) :
    ∃ ins low : List Bool, ins.length = r ∧ low.length = 8 - r ∧
      (kind ≠ .r → ins = byteBits r (data.getD b 0#8)) ∧
      let e := execCommands hs (bitInstrs kind b r data) d
      e.tap = d.tap ∧ e.tms = d.tms ∧ e.reg = (d.reg ++ ins).drop ins.length ∧
        e.rsp = d.rsp ++ (if kind = .w then [] else
          if r > 0 then [byteOfBits (low ++ (d.reg ++ ins).take r)] else []) := by
  unfold bitInstrs
  split
  · have hn : (BitVec.ofNat 3 (r - 1)).toNat + 1 = r := by
      simp only [BitVec.toNat_ofNat]; omega
    have hout := clockData_shift h.1 h.2 (byteBits r (data.getD b 0#8))
    cases kind with
    | w =>
      refine ⟨_, List.replicate (8 - r) false, byteBits_length _ _, by simp, fun _ => rfl, ?_⟩
      simp only [execCommands, List.foldl, cmdEffect, clkBitsOut, hn, clockOut, hout]
      simp
    | wr =>
      simp only [byteBits_length] at hout
      have hm : ((d.reg ++ byteBits r (data.getD b 0#8)).take r).length = r := by simp
      refine ⟨_, (freeBits (8 - r) (clockOut (byteBits r (data.getD b 0#8)) d).2).1,
        byteBits_length _ _, by simp, fun _ => rfl, ?_⟩
      simp only [execCommands, List.foldl, cmdEffect, clkBitsOutIn, hn, clockOut, hout, respondBits, hm]
      simp [respond, freeBits]
    | r =>
      have hin := clockData_shift (d := (freeBits r d).2) h.1 h.2 (freeBits r d).1
      simp only [freeBits_length] at hin
      have hm : (((freeBits r d).2.reg ++ (freeBits r d).1).take r).length = r := by simp
      refine ⟨(freeBits r d).1, (freeBits (8 - r) (clockIn r d).2).1, by simp, by simp, by simp, ?_⟩
      simp only [execCommands, List.foldl, cmdEffect, clkBitsIn, hn, clockIn, hin, respondBits, hm]
      simp [respond, freeBits]
  · next h0 =>
    have : r = 0 := by omega
    subst this
    exact ⟨[], List.replicate 8 false, rfl, rfl, by simp [byteBits], by simp [execCommands]⟩

/-- The paths of the entry move: quiet, or with one capture. -/
theorem entry_path (a : DefState) (ir : Bool) :
    let k := tt a (shiftState ir)
    if entersWithoutCapture (.known a) ir then quietPath a.tap (byteBits k.2 k.1) = true
    else loadsOnce a.tap (byteBits k.2 k.1) = true := by
  cases a <;> cases ir <;> decide

/-- Where the entry path ends, and the levels it leaves on TMS and TDI. -/
theorem entry_end (a : DefState) (ir : Bool) :
    let k := tt a (shiftState ir)
    tapAfter a.tap (byteBits k.2 k.1) = (shiftState ir).tap ∧
      (k.2 > 0 → k.1.getLsbD (k.2 - 1) = false ∧ k.1.getLsbD 7 = false) ∧
      (k.2 = 0 → a = shiftState ir) := by
  cases a <;> cases ir <;> decide

/-- A move is one TMS command or none. -/
theorem moveInstrs_run (hs : Bool) (a t : DefState) (d : Downstream) :
    execCommands hs (moveInstrs a t none false) d =
      if (tt a t).2 > 0 then tmsOut (BitVec.ofNat 3 ((tt a t).2 - 1)) (tt a t).1 d else d := by
  simp only [moveInstrs, movePath]
  simp
  split <;> simp [execCommands, cmdEffect]

/-- The count field of a TMS command of `k` clocks. -/
theorem tms_toNat (k : Nat) (h : 0 < k) (h7 : k ≤ 7) : k - 1 + 1 = k ∧
    (BitVec.ofNat 3 (k - 1)).toNat = k - 1 := by
  simp only [BitVec.toNat_ofNat]; omega

/-- The entry of a shift from a defined state. -/
theorem entry_known (hs : Bool) (a : DefState) (ir : Bool) (d : Downstream) (reg : List Bool)
    (ht : d.tap = a.tap) (hm : tapNext d.tap d.tms = d.tap)
    (hr : if entersWithoutCapture (.known a) ir then d.reg = reg else ∃ cs, d.captures = reg :: cs) :
    let e := execCommands hs (moveInstrs a (shiftState ir) none false) d
    e.tap = (shiftState ir).tap ∧ e.Shifting ∧ e.reg = reg ∧ e.rsp = d.rsp := by
  have h1 := entry_path a ir
  have h2 := entry_end a ir
  have h7 := tt_clocks_le a (shiftState ir)
  have hsh : isShift (shiftState ir).tap = true := by cases ir <;> rfl
  rw [moveInstrs_run]
  by_cases hk : (tt a (shiftState ir)).2 > 0
  · obtain ⟨hn, hn'⟩ := tms_toNat _ hk h7
    rw [if_pos hk]
    simp only [tmsOut, clockTms, hn, hn', h2.2.1 hk, Downstream.Shifting, clockMany_tap, ht, pairs_fst,
      h2.1, hsh, clockMany_rsp]
    refine ⟨trivial, ⟨trivial, trivial⟩, ?_, trivial⟩
    by_cases hc : entersWithoutCapture (.known a) ir = true
    · rw [if_pos hc] at h1 hr
      exact (clockMany_quiet _ d (by rw [pairs_fst, ht]; exact h1)).1.trans hr
    · rw [if_neg hc] at h1 hr
      obtain ⟨cs, hcs⟩ := hr
      exact (clockMany_loadsOnce _ d (by rw [pairs_fst, ht]; exact h1) hcs).1
  · rw [if_neg hk]
    have ha := h2.2.2 (by omega)
    subst ha
    refine ⟨ht, ⟨by rw [ht]; exact hsh, ?_⟩, ?_, rfl⟩
    · rw [ht] at hm
      cases ir <;> cases hb : d.tms <;> simp_all [shiftState, DefState.tap, tapNext]
    · cases ir <;> exact hr

/-- The bootstrap reaches Test-Logic-Reset from every state (R124). -/
theorem bootstrap_path (t : TapState) :
    tapAfter t (byteBits 7 0x7F#8) = .testLogicReset ∧
      (isCapture t = false → captureFree t (byteBits 7 0x7F#8) = true) := by
  cases t <;> decide

/-- The captures a TMS command leaves. -/
theorem tmsOut_captures (n : BitVec 3) (p : Byte) (d : Downstream) : (tmsOut n p d).captures =
    (clockMany ((byteBits (n.toNat + 1) p).map fun b => (b, p.getLsbD 7)) d).2.captures := rfl

/-- The entry of a shift from any cursor: the target is in the shift state with the register in place. -/
theorem entry_run (hs : Bool) (c : Cursor) (ir : Bool) (d : Downstream) (reg : List Bool)
    (hst : ∀ a, c = .known a → d.tap = a.tap ∧ tapNext d.tap d.tms = d.tap)
    (hr : if entersWithoutCapture c ir then d.reg = reg
      else (∃ cs, d.captures = reg :: cs) ∧ (c = .undefined → isCapture d.tap = false)) :
    let e := execCommands hs (entryInstrs c ++ moveInstrs c.origin (shiftState ir) none false) d
    e.tap = (shiftState ir).tap ∧ e.Shifting ∧ e.reg = reg ∧ e.rsp = d.rsp := by
  cases c with
  | known a =>
    refine entry_known hs a ir d reg (hst a rfl).1 (hst a rfl).2 ?_
    split
    · next h => rw [if_pos h] at hr; exact hr
    · next h => rw [if_neg h] at hr; exact hr.1
  | undefined =>
    rw [if_neg (by simp [entersWithoutCapture])] at hr
    have hb := bootstrap_path d.tap
    rw [execCommands_append]
    have he : execCommands hs (entryInstrs .undefined) d = tmsOut 6#3 0x7F#8 d := rfl
    have h1 := entry_known hs .tlr ir (tmsOut 6#3 0x7F#8 d) reg
      (by simp only [tmsOut, clockTms, clockMany_tap, pairs_fst]; exact hb.1)
      (by simp only [tmsOut, clockTms, clockMany_tap, pairs_fst]
          have := hb.1
          rw [show byteBits ((6#3).toNat + 1) 0x7F#8 = byteBits 7 0x7F#8 from rfl, this]; rfl)
      (by
        rw [if_neg (by simp [entersWithoutCapture])]
        obtain ⟨⟨cs, hcs⟩, hc⟩ := hr
        refine ⟨cs, ?_⟩
        rw [← hcs]
        rw [tmsOut_captures]
        exact clockMany_captureFree _ d (by rw [pairs_fst]; exact hb.2 (hc rfl)))
    rw [he]
    refine ⟨h1.1, h1.2.1, h1.2.2.1, h1.2.2.2.trans ?_⟩
    simp [tmsOut, clockTms]

/-- The exit path of a shift: it ends in the exit state, which TMS holds, and only its first clock shifts. -/
theorem exit_path (ir : Bool) (t : DefState) (last : Bool) :
    let path := movePath (shiftState ir) t (some last)
    let p := path.1 ||| (if last then 0x80#8 else 0x00#8)
    ∃ m ms, byteBits path.2 p = m :: ms ∧ path.2 = ms.length + 1 ∧
      tapAfter (shiftState ir).tap (byteBits path.2 p) = t.tap ∧
      tapNext t.tap (p.getLsbD (path.2 - 1)) = t.tap ∧ p.getLsbD 7 = last ∧
      (exitsToOtherRegister ir t = false → quietPath (tapNext (shiftState ir).tap m) ms = true) := by
  cases ir <;> cases t <;> cases last <;>
    exact ⟨_, _, rfl, by decide, by decide, by decide, by decide, by decide⟩

/-- The exit of a shift: the last bit goes in and the last sample comes out. -/
theorem exitInstrs_run (hs : Bool) (q : ShiftSpec) (d : Downstream)
    (ht : d.tap = (shiftState q.ir).tap) (h : d.Shifting) :
    let last := exitBit q.kind q.data q.n
    ∃ lowT more : List Bool, lowT.length = 8 - shiftClocks q ∧ more.length = shiftClocks q - 1 ∧
      let e := execCommands hs (exitInstrs q) d
      e.tap = q.exit.tap ∧ tapNext e.tap e.tms = e.tap ∧
      (exitsToOtherRegister q.ir q.exit = false → e.reg = (d.reg ++ [last]).drop 1) ∧
      e.rsp = d.rsp ++ (if q.kind = .w then [] else
        [byteOfBits (lowT ++ ((d.reg ++ [last]).take 1 ++ more))]) := by
  intro last
  obtain ⟨m, ms, h1, h2, h3, h4, h5, h6⟩ := exit_path q.ir q.exit last
  have hk : shiftClocks q = (movePath (shiftState q.ir) q.exit (some last)).2 := rfl
  have hb := shiftClocks_bounds q
  rw [← hk] at h1 h2 h3 h4
  obtain ⟨hn, hn'⟩ := tms_toNat (shiftClocks q) hb.1 hb.2
  let p : Byte := (movePath (shiftState q.ir) q.exit (some last)).1 ||| (if last then 0x80#8 else 0x00#8)
  have he : exitInstrs q = [if echoes q.kind then .tmsOutIn (BitVec.ofNat 3 (shiftClocks q - 1)) p
      else .tmsOut (BitVec.ofNat 3 (shiftClocks q - 1)) p] := by
    simp only [exitInstrs, moveInstrs]
    rw [if_pos (by rw [← hk]; exact hb.1)]
    simp only [Option.some.injEq]
    rfl
  have hpairs : (byteBits (shiftClocks q) p).map (fun b => (b, last)) =
      (m, last) :: ms.map fun b => (b, last) := by
    rw [h1]; rfl
  obtain ⟨more, hmore, hml⟩ := clockMany_shift_sample m last (ms.map fun b => (b, last)) d h.1
  have htap : (clockMany ((m, last) :: ms.map fun b => (b, last)) d).2.tap = q.exit.tap := by
    rw [clockMany_tap, ht, ← hpairs, pairs_fst]; exact h3
  have hreg : exitsToOtherRegister q.ir q.exit = false →
      (clockMany ((m, last) :: ms.map fun b => (b, last)) d).2.reg = (d.reg ++ [last]).drop 1 := by
    intro hx
    refine clockMany_shift_quiet m last _ d h.1 ?_
    rw [pairs_fst, ht]
    exact h6 hx
  have hp7 : p.getLsbD 7 = last := h5
  rw [he]
  by_cases hw : q.kind = .w
  · refine ⟨List.replicate (8 - shiftClocks q) false, List.replicate (shiftClocks q - 1) false,
      by simp, by simp, ?_⟩
    simp only [hw, echoes, Bool.false_eq_true, if_false, execCommands, List.foldl, cmdEffect, tmsOut,
      clockTms, hn, hn', hp7, hpairs, htap, if_true, List.append_nil]
    exact ⟨trivial, h4, hreg, by simp⟩
  · have hec : echoes q.kind = true := by cases hq : q.kind <;> simp_all [echoes]
    have hlen : ((d.reg ++ [last]).take 1 ++ more).length = shiftClocks q := by
      rw [← hmore, clockMany_length]; simp; omega
    refine ⟨(freeBits (8 - shiftClocks q) (clockTms (BitVec.ofNat 3 (shiftClocks q - 1)) p d).2).1, more,
      by simp, by rw [hml]; simp; omega, ?_⟩
    simp only [hec, if_true, execCommands, List.foldl, cmdEffect, tmsOutIn,
      clockTms, hn, hn', hp7, hpairs, htap, respondBits, hmore, hlen, respond, freeBits, if_neg hw,
      clockMany_rsp]
    exact ⟨trivial, h4, hreg, trivial⟩

/-- The bits of a payload: whole bytes, remaining bits, last bit (R151). -/
theorem bitsOf_shift (data : List Byte) (n : Nat) (hn : 1 ≤ n) :
    bitsOf data n = bitsOf data (8 * wholeBytes n) ++
      (byteBits (restBits n) (data.getD (wholeBytes n) 0#8) ++ [lastBit data n]) := by
  have h : n = 8 * wholeBytes n + restBits n + 1 := by simp only [wholeBytes, restBits]; omega
  have h1 := bitsOf_add data (wholeBytes n) (restBits n) (by simp only [restBits]; omega)
  conv_lhs => rw [h]
  rw [bitsOf_succ, h1, List.append_assoc]
  unfold lastBit
  rw [show 8 * wholeBytes n + restBits n = n - 1 by omega]

/-- What the commands of a shift do to a target in step. -/
theorem shiftInstrs_run (hs : Bool) (c : Cursor) (q : ShiftSpec) (d : Downstream) (reg : List Bool)
    (hq : q.Legal)
    (hst : ∀ a, c = .known a → d.tap = a.tap ∧ tapNext d.tap d.tms = d.tap)
    (hr : if entersWithoutCapture c q.ir then d.reg = reg
      else (∃ cs, d.captures = reg :: cs) ∧ (c = .undefined → isCapture d.tap = false)) :
    ∃ ins low lowT more : List Bool, ins.length = q.n ∧ low.length = 8 - restBits q.n ∧
      lowT.length = 8 - shiftClocks q ∧ more.length = shiftClocks q - 1 ∧
      (q.kind ≠ .r → ins = bitsOf q.data q.n) ∧
      let e := execCommands hs (shiftInstrs c q) d
      let s := (reg ++ ins).take q.n
      e.tap = q.exit.tap ∧ tapNext e.tap e.tms = e.tap ∧
      (exitsToOtherRegister q.ir q.exit = false → e.reg = (reg ++ ins).drop q.n) ∧
      e.rsp = d.rsp ++ (if q.kind = .w then [] else
        pack (s.take (8 * wholeBytes q.n)) ++
        (if restBits q.n > 0 then
          [byteOfBits (low ++ (s.drop (8 * wholeBytes q.n)).take (restBits q.n))] else []) ++
        [byteOfBits (lowT ++ s.drop (q.n - 1) ++ more)]) := by
  obtain ⟨n1, n2, -, hp⟩ := hq
  simp only [Config.nMin, Config.nMax] at n1 n2
  have hn : q.n = 8 * wholeBytes q.n + restBits q.n + 1 := by simp only [wholeBytes, restBits]; omega
  have hB : wholeBytes q.n ≤ 65534 := by simp only [wholeBytes]; omega
  have hR : restBits q.n < 8 := by simp only [restBits]; omega
  have hdl : q.kind ≠ .r → wholeBytes q.n ≤ q.data.length := fun hk => by
    have := (hp hk).1; simp only [ceil8, wholeBytes] at this ⊢; omega
  obtain ⟨e1, e2, e3, e4⟩ := entry_run hs c q.ir d reg hst hr
  generalize hE : execCommands hs (entryInstrs c ++ moveInstrs c.origin (shiftState q.ir) none false) d = E
    at e1 e2 e3 e4
  obtain ⟨i1, l1, b1, r1, r2, r3, r4⟩ := byteInstrs_run hs q.kind (wholeBytes q.n) q.data E e2 hB hdl
  generalize hF : execCommands hs (byteInstrs q.kind (wholeBytes q.n) q.data) E = F at r1 r2 r3 r4
  have hFs : F.Shifting := by unfold Downstream.Shifting; rw [r1, r2]; exact e2
  obtain ⟨i2, low, l2, l2', b2, s1, s2, s3, s4⟩ :=
    bitInstrs_run hs q.kind (wholeBytes q.n) (restBits q.n) q.data F hFs hR
  generalize hG : execCommands hs (bitInstrs q.kind (wholeBytes q.n) (restBits q.n) q.data) F = G
    at s1 s2 s3 s4
  have hGs : G.Shifting := by unfold Downstream.Shifting; rw [s1, s2]; exact hFs
  obtain ⟨lowT, more, l3, l3', t1, t2, t3, t4⟩ :=
    exitInstrs_run hs q G (by rw [s1, r1, e1]) hGs
  let x := exitBit q.kind q.data q.n
  have hx : q.kind ≠ .r → x = lastBit q.data q.n := by
    intro hk
    show exitBit q.kind q.data q.n = _
    cases h : q.kind
    · rfl
    · exact absurd h hk
    · rfl
  have hG1 : G.reg = (reg ++ (i1 ++ i2)).drop (i1 ++ i2).length := by
    rw [s3, r3, e3]; exact (slice reg i1 i2).2
  have hrun : execCommands hs (shiftInstrs c q) d = execCommands hs (exitInstrs q) G := by
    simp only [shiftInstrs]
    rw [execCommands_append, execCommands_append, execCommands_append, hE, hF, hG]
  refine ⟨i1 ++ i2 ++ [x], low, lowT, more,
    by simp only [List.length_append, List.length_singleton]; omega, l2', l3, l3', fun hk => ?_, ?_⟩
  · rw [bitsOf_shift _ _ (by omega), b1 hk, b2 hk, hx hk, List.append_assoc]
  · have hl : (i1 ++ i2).length = q.n - 1 := by simp only [List.length_append]; omega
    have hl1 : (i1 ++ i2 ++ [x]).length = q.n := by simp only [List.length_append, List.length_singleton]; omega
    intro e s
    refine ⟨by rw [← t1, ← hrun], by rw [← hrun] at t2; exact t2, fun h => ?_, ?_⟩
    · show (execCommands hs (shiftInstrs c q) d).reg = _
      rw [hrun, t3 h, hG1]
      have := (slice reg (i1 ++ i2) [x]).2
      rw [hl1] at this
      exact this
    · show (execCommands hs (shiftInstrs c q) d).rsp = _
      rw [hrun, t4, s4, r4, e4]
      by_cases hw : q.kind = .w
      · simp [hw]
      · simp only [if_neg hw]
        have hs1 : s.take (8 * wholeBytes q.n) = (E.reg ++ i1).take (8 * wholeBytes q.n) := by
          rw [e3]
          simp only [s, List.take_take, List.append_assoc]
          rw [← List.append_assoc, Nat.min_eq_left (by omega), List.take_append_of_le_length (by simp; omega)]
        have hs2 : (s.drop (8 * wholeBytes q.n)).take (restBits q.n) = (F.reg ++ i2).take (restBits q.n) := by
          have := (slice reg i1 i2).1
          rw [l2, l1] at this
          rw [r3, e3, l1, this]
          simp only [s, List.drop_take, List.take_take]
          rw [Nat.min_eq_left (by omega)]
          rw [show reg ++ (i1 ++ i2 ++ [x]) = (reg ++ (i1 ++ i2)) ++ [x] by simp]
          rw [List.drop_append_of_le_length (by simp; omega), List.take_append_of_le_length (by simp; omega)]
        have hs3 : s.drop (q.n - 1) = (G.reg ++ [x]).take 1 := by
          have := (slice reg (i1 ++ i2) [x]).1
          rw [hl] at this
          rw [hG1, hl]
          refine Eq.trans ?_ this.symm
          simp only [s, List.drop_take, List.length_singleton]
          congr 1; omega
        rw [hs1, hs2, hs3]
        simp [x]

/-! ### Correcting a response (R157, R158) -/

/-- Packing whole bytes of a bit sequence. -/
theorem pack_take_whole (s : List Bool) (b : Nat) (h : 8 * b ≤ s.length) :
    pack (s.take (8 * b)) = (pack s).take b := by
  apply List.ext_getElem
  · simp only [pack_length, List.length_take, ceil8]; omega
  · intro i h1 h2
    simp only [pack_length, List.length_take, ceil8] at h1 h2
    simp only [pack, List.getElem_map, List.getElem_range, List.getElem_take]
    congr 1
    rw [List.drop_take, List.take_take]
    congr 1
    omega

/-- A packed sequence is its whole bytes and a last byte. -/
theorem pack_split (s : List Bool) (hs : 1 ≤ s.length) :
    pack s = (pack s).take (wholeBytes s.length) ++ [byteOfBits (s.drop (8 * wholeBytes s.length))] := by
  have hl : (pack s).length = wholeBytes s.length + 1 := by
    simp only [pack_length, ceil8, wholeBytes]; omega
  conv_lhs => rw [← List.take_append_drop (wholeBytes s.length) (pack s)]
  congr 1
  have : (pack s).drop (wholeBytes s.length) = [(pack s)[wholeBytes s.length]'(by omega)] := by
    rw [List.drop_eq_getElem_cons (by omega)]
    rw [List.drop_eq_nil_of_le (by omega)]
  rw [this]
  simp only [pack, List.getElem_map, List.getElem_range]
  rw [List.take_of_length_le]
  simp only [List.length_drop, wholeBytes]; omega

/-- The last byte of a corrected response. -/
theorem correct_last (low lowT part more : List Bool) (fin : Bool) (k : Nat) (hk : 1 ≤ k) (hk7 : k ≤ 7)
    (hp : part.length < 8) (hl : low.length = 8 - part.length) (hT : lowT.length = 8 - k) :
    (((if part.length > 0 then byteOfBits (low ++ part) >>> 1 else 0x00#8) |||
      ((byteOfBits (lowT ++ fin :: more) <<< (k - 1)) &&& 0x80#8)) >>> (7 - part.length)) =
      byteOfBits (part ++ [fin]) := by
  apply byte_eq_of_bits
  intro i hi
  rw [byteOfBits_getLsbD _ i hi, BitVec.getLsbD_ushiftRight, BitVec.getLsbD_or, BitVec.getLsbD_and,
    BitVec.getLsbD_shiftLeft]
  have h80 : ∀ j, (0x80#8).getLsbD j = decide (j = 7) := by
    intro j
    by_cases hj : j < 8
    · have : ∀ j : Fin 8, (0x80#8).getLsbD j.1 = decide (j.1 = 7) := by decide
      exact this ⟨j, hj⟩
    · rw [BitVec.getLsbD_of_ge _ _ (by omega)]
      simp; omega
  rw [h80]
  have hpart : (if part.length > 0 then byteOfBits (low ++ part) >>> 1 else 0x00#8).getLsbD
      (7 - part.length + i) = (decide (i < part.length) && part.getD i false) := by
    split
    · rw [BitVec.getLsbD_ushiftRight]
      by_cases h : i < part.length
      · rw [byteOfBits_getLsbD _ _ (by omega)]
        have e : 1 + (7 - part.length + i) = low.length + i := by omega
        simp [h, e]
      · rw [BitVec.getLsbD_of_ge _ _ (by omega)]
        simp [h]
    · have : part.length = 0 := by omega
      simp [this]
  rw [hpart]
  by_cases h1 : i < part.length
  · have h7 : ¬ 7 - part.length + i = 7 := by omega
    simp [h1, h7, List.getElem?_append_left h1]
  · by_cases h2 : i = part.length
    · subst h2
      have e7 : 7 - part.length + part.length = 7 := by omega
      have e : 7 - (k - 1) = lowT.length := by omega
      rw [e7]
      have hb : (byteOfBits (lowT ++ fin :: more)).getLsbD (7 - (k - 1)) = fin := by
        rw [byteOfBits_getLsbD _ _ (by omega), e]
        simp
      have hlt : ¬ 7 < k - 1 := by omega
      simp [hb, hlt]
    · have h7 : ¬ 7 - part.length + i = 7 := by omega
      have hge : part.length + 1 ≤ i := by omega
      simp [h1, h7, List.getElem?_eq_none (l := part ++ [fin]) (i := i) (by simp; omega)]

/-! ### Moves -/

/-- Where a path of the transition table ends, and that TMS holds the state. -/
theorem tt_end (a t : DefState) : let k := tt a t
    tapAfter a.tap (byteBits k.2 k.1) = t.tap ∧ (k.2 > 0 → tapNext t.tap (k.1.getLsbD (k.2 - 1)) = t.tap) ∧
    (k.2 = 0 → a = t) := by
  cases a <;> cases t <;> decide

/-- A move from any cursor brings the TAP to its target and answers nothing. -/
theorem move_run (hs : Bool) (c : Cursor) (t : DefState) (d : Downstream)
    (hst : ∀ a, c = .known a → d.tap = a.tap ∧ tapNext d.tap d.tms = d.tap) :
    let e := execCommands hs (entryInstrs c ++ moveInstrs c.origin t none false) d
    e.tap = t.tap ∧ tapNext e.tap e.tms = e.tap ∧ e.rsp = d.rsp := by
  have known : ∀ (a : DefState) (d : Downstream), d.tap = a.tap → tapNext d.tap d.tms = d.tap → 
    let e := execCommands hs (moveInstrs a t none false) d
    e.tap = t.tap ∧ tapNext e.tap e.tms = e.tap ∧ e.rsp = d.rsp := by
    intro a d h1 h2
    have h := tt_end a t
    have h7 := tt_clocks_le a t
    rw [moveInstrs_run]
    by_cases hk : (tt a t).2 > 0
    · obtain ⟨hn, hn'⟩ := tms_toNat _ hk h7
      rw [if_pos hk]
      simp only [tmsOut, clockTms, hn, hn', clockMany_tap, h1, pairs_fst, h.1, clockMany_rsp]
      exact ⟨trivial, h.2.1 hk, trivial⟩
    · rw [if_neg hk]
      have := h.2.2 (by omega)
      subst this
      exact ⟨h1, h2, rfl⟩
  cases c with
  | known a => exact known a d (hst a rfl).1 (hst a rfl).2
  | undefined =>
    have hb := bootstrap_path d.tap
    rw [execCommands_append]
    have he : execCommands hs (entryInstrs .undefined) d = tmsOut 6#3 0x7F#8 d := rfl
    have ht : (tmsOut 6#3 0x7F#8 d).tap = .testLogicReset := by
      simp only [tmsOut, clockTms, clockMany_tap, pairs_fst]; exact hb.1
    have := known .tlr (tmsOut 6#3 0x7F#8 d) ht (by rw [ht]; rfl)
    rw [he]
    refine ⟨this.1, this.2.1, this.2.2.trans ?_⟩
    simp [tmsOut, clockTms]

/-- The downstream executes what was sent while it had executed everything before. -/
theorem sent_exec {s v : State} {is : List Instr} (hm : s.dn.mpsse = true) (hin : s.dn.inbox = [])
    (hd : ∀ i ∈ is, ∀ rest, decodeCmd s.params.variant.hiSpeed (encode i ++ rest) = .cmd i rest)
    {b : List Byte} (hb : (is.map encode).flatten = b) {c : Cursor}
    (h : SentOk b { s with cursor := c, imm := [] } v) :
    v.dn.run v.params.variant.hiSpeed = execCommands s.params.variant.hiSpeed is s.dn ∧ v.cursor = c := by
  have := run_encoded (hs := s.params.variant.hiSpeed) hm hin hd
  rw [hb, deliver_mpsse hm] at this
  rw [h.dn hm]
  obtain ⟨w, n, es, d, -, -, -, h4⟩ := h
  rw [h4]
  exact ⟨this, rfl⟩

/-! ### Pulses (43_clock_ops.md R231) -/

/-- The instructions of a pulse. -/
def groupInstrs (c : Nat) : List Instr :=
  (groups (c / 8)).map (fun g => .clkBytesOut (List.replicate g 0x00#8)) ++
    (if c % 8 > 0 then [.clkBitsOut (BitVec.ofNat 3 (c % 8 - 1)) 0x00#8] else [])

/-- Each group of a count is 1 to 65536. -/
theorem groups_mem {c g : Nat} (h : g ∈ groups c) : 1 ≤ g ∧ g ≤ 65536 := by
  unfold groups at h
  rw [List.mem_append] at h
  rcases h with h | h
  · have := List.eq_of_mem_replicate h; omega
  · split at h <;> simp at h; omega

/-- The groups of a count add up to it. -/
theorem groups_sum (c : Nat) : (groups c).sum = c := by
  unfold groups
  rw [List.sum_append, List.sum_replicate]
  split <;> simp <;> omega

/-- The instructions of a pulse are its commands, and each decodes. -/
theorem pulse_encode (c : Nat) : (groupInstrs c).map encode = pulseCommands c ∧ ∀ i ∈ groupInstrs c, Decodes i := by
  unfold groupInstrs pulseCommands
  constructor
  · rw [List.map_append, List.map_map]
    congr 1
    · apply List.map_congr_left
      intro g hg
      simp [encode, encodeLen16Data]
    · split
      · have := setWidth_ofNat3 (c % 8 - 1) (by omega)
        simp [encode, this]
      · rfl
  · intro i hi
    rcases List.mem_append.1 hi with h | h
    · obtain ⟨g, hg, rfl⟩ := List.mem_map.1 h
      have := groups_mem hg
      exact (decodes_bytes _ (by simp; omega) (by simp; omega)).1
    · split at h <;> simp at h
      subst h
      exact (decodes_bits _ _).1

end Sys2Proof.Machine
end

