-- ==== Sys2Proof/Laws/Batch.lean ====
section
/-! SUPPORT. Several shifts one after another (42_sequence.md R200): their commands as instructions, what
a downstream is once it has executed the bytes that wait, and how the responses of a batch divide into
those of its shifts. -/

namespace Sys2Proof.Machine

/-- The SEND_IMMEDIATE after a read, as instructions; they change no downstream (log 25). -/
theorem immediateTail_instrs (p : Params) : ∃ is : List Instr, is.map encode = immediateTail p ∧
    (∀ i ∈ is, Decodes i) ∧ ∀ hs d, execCommands hs is d = d := by
  unfold immediateTail
  split
  · refine ⟨[.sendImmediate], rfl, fun i hi => ?_, fun _ _ => rfl⟩
    simp only [List.mem_singleton] at hi
    subst hi
    intro hs rest
    rfl
  · exact ⟨[], rfl, by simp, fun _ _ => rfl⟩

/-- The instructions of several shifts, each from the exit state of the one before. -/
def batchInstrs : Cursor → List ShiftSpec → List Instr
  | _, [] => []
  | c, q :: qs => shiftInstrs c q ++ batchInstrs (.known q.exit) qs

/-- They are the batch's bytes, and each decodes. -/
theorem batchInstrs_encode (c : Cursor) (qs : List ShiftSpec) (hq : ∀ q ∈ qs, q.Legal) :
    ((batchInstrs c qs).map encode).flatten = batchBytes c qs ∧
      ∀ i ∈ batchInstrs c qs, Decodes i := by
  induction qs generalizing c with
  | nil => exact ⟨rfl, by simp [batchInstrs]⟩
  | cons q qs ih =>
    obtain ⟨h1, h2⟩ := shiftInstrs_encode c q (hq q (by simp))
    obtain ⟨h3, h4⟩ := ih (.known q.exit) fun x hx => hq x (by simp [hx])
    refine ⟨by simp [batchInstrs, batchBytes, queuedBytes, ← h3, ← h1], fun i hi => ?_⟩
    exact (List.mem_append.1 hi).elim (h2 i) (h4 i)

/-! ### A downstream with commands waiting -/

/-- The downstream `d` has whole commands waiting, and is `e` once it has executed them. -/
def Settles (hs : Bool) (d e : Downstream) : Prop :=
  ∃ e0 is, d = deliver (is.map encode).flatten e0 ∧ e0.mpsse = true ∧ e0.inbox = [] ∧
    (∀ i ∈ is, Decodes i) ∧ execCommands hs is e0 = e

theorem Settles.of_empty {hs : Bool} {d : Downstream} (hm : d.mpsse = true) (hi : d.inbox = []) :
    Settles hs d d :=
  ⟨d, [], by simp [deliver_mpsse hm], hm, hi, by simp, rfl⟩

theorem Settles.run {hs : Bool} {d e : Downstream} (h : Settles hs d e) :
    d.run hs = e ∧ d.mpsse = true ∧ e.mpsse = true ∧ e.inbox = [] := by
  obtain ⟨e0, is, rfl, hm, hi, hd, rfl⟩ := h
  have hx := execCommands_mpsse hs is e0
  exact ⟨run_encoded hm hi fun i hi rest => hd i hi _ rest,
    by rw [deliver_mpsse hm]; exact hm, hx.1.trans hm, hx.2.trans hi⟩

/-- More commands after those that wait. -/
theorem Settles.more {hs : Bool} {d e : Downstream} (h : Settles hs d e) (js : List Instr)
    (hj : ∀ i ∈ js, Decodes i) :
    Settles hs { d with inbox := d.inbox ++ (js.map encode).flatten } (execCommands hs js e) := by
  obtain ⟨e0, is, rfl, hm, hi, hd, rfl⟩ := h
  exact ⟨e0, is ++ js, by simp [deliver_mpsse hm], hm, hi,
    fun i hi => (List.mem_append.1 hi).elim (hd i) (hj i), execCommands_append _ _ _ _⟩

/-! ### The responses of a batch -/

/-- The responses of each shift of a batch, where each is read before the next begins. -/
def batchSlices (hs : Bool) : Cursor → List ShiftSpec → Downstream → List (List Byte)
  | _, [], _ => []
  | c, q :: qs, e =>
    let e1 := execCommands hs (shiftInstrs c q) e
    e1.rsp :: batchSlices hs (.known q.exit) qs { e1 with rsp := [] }

/-- What a batch leaves in the response queue, if nothing is read, is the same responses in order. -/
theorem batchSlices_flatten (hs : Bool) (c : Cursor) (qs : List ShiftSpec) (e : Downstream)
    (hr : e.rsp = []) :
    (execCommands hs (batchInstrs c qs) e).rsp = (batchSlices hs c qs e).flatten := by
  induction qs generalizing c e with
  | nil => exact hr
  | cons q qs ih =>
    simp only [batchInstrs, batchSlices, execCommands_append, List.flatten_cons]
    generalize execCommands hs (shiftInstrs c q) e = e1
    have he : e1 = Downstream.behind e1.rsp { e1 with rsp := [] } := by simp [Downstream.behind]
    conv_lhs => rw [he]
    rw [execCommands_behind]
    show e1.rsp ++ _ = _
    rw [ih _ _ rfl]

end Sys2Proof.Machine
end

