-- ==== Sys2Proof/Laws/FailedSends.lean ====
section
/-! SUPPORT. What a sending operation does when a write fails (20_memory.md R58, R59, 60_exceptions.md
R286). -/

namespace Sys2Proof.Machine

/-! ### A send that fails (R58, R59) -/

/-- A send whose write fails: IoError, a prefix delivered, the writes after it not made. -/
theorem send_failed {bytes : List Byte} {k delivered : Nat} {rest : List WriteReply} {s : State}
    (h : s.WriteFails bytes k delivered rest) :
    send bytes s = .raise .ioError (s.afterFailedSend bytes k delivered rest) := by
  obtain ⟨r, c, hw, hc, hr⟩ := h
  have hf : writeFailure c.length r = some delivered := by
    rcases hr with rfl | ⟨w, hn, rfl⟩
    · rfl
    · simp [writeFailure, hn]
  unfold send
  rw [writeAll_failed _ s k delivered c r rest hw hc hf]
  rfl

/-- A sending operation whose commands fit IMM and whose write fails. -/
theorem emitFlush_failed {cs : List (List Byte)} {k delivered : Nat} {rest : List WriteReply}
    {s : State} (hi : s.imm = []) (hl : cs.flatten.length ≤ Config.cmdBufMax)
    (h : s.WriteFails cs.flatten k delivered rest) :
    emitFlush cs s = .raise .ioError (s.afterFailedSend cs.flatten k delivered rest) := by
  unfold emitFlush
  rw [emitAll_fits cs s (by simpa [hi] using hl)]
  simp only [Res.bind_ok, hi, List.nil_append]
  have h0 : ¬ cs.flatten = [] := by
    intro h0
    obtain ⟨r, c, hw, hc, hr⟩ := h
    rw [h0] at hc
    simp at hc
  have hs : State.setImm [] (State.setImm cs.flatten s) = s := by
    rw [← hi]; rfl
  simp only [flush, State.setImm_imm, h0, if_false, hs, send_failed h]

/-! ### A sending operation that is stopped by a failing write -/

/-- An answer that ends every send: a transport error, or nothing written (R59). -/
def EndsSend (r : WriteReply) : Prop := ∃ d, r = .failed d ∨ r = .wrote 0 d

/-- `t` is `s` after a send of `bytes` that a failing write stopped: the writes made carry the first of
the bytes, IMM is empty and `synced` cleared, and of the rest of the block only the transport's
answers are used. -/
def Stopped (bytes : List Byte) (rest : List WriteReply) (s t : State) : Prop :=
  ∃ (es : List PortEvent) (d : Downstream) (asked : Nat), cmdBytes es = bytes.take asked ∧
    frames es = [] ∧
    t = { s with synced := false, imm := [], writes := rest, log := s.log ++ es, dn := d }

/-- `t` is `s` after CMD took `bytes`, `m` writes being accepted before the failing one. -/
def SentBefore (bytes : List Byte) (m : Nat) (rest : List WriteReply) (s t : State) : Prop :=
  ∃ (n : Nat) (es : List PortEvent) (d : Downstream),
    n * s.params.writeChunk + bytes.length ≤ m * s.params.writeChunk ∧
    cmdBytes es = bytes ∧ frames es = [] ∧
    t = { s with writes := List.replicate n .full ++ rest, log := s.log ++ es, dn := d, imm := t.imm }

theorem flatten_take_eq {α : Type} (l : List (List α)) (k : Nat) :
    (l.take k).flatten = l.flatten.take (l.take k).flatten.length := by
  have := congrArg List.flatten (List.take_append_drop k l)
  rw [List.flatten_append] at this
  rw [← this, List.take_left']
  rfl

theorem chunksOf_length_mul (p : Params) (b : List Byte) :
    b.length ≤ (chunksOf p.writeChunk b).length * p.writeChunk := by
  have h := congrArg List.length (chunksOf_flatten p.writeChunk_pos b)
  have aux : ∀ l : List (List Byte), (∀ c ∈ l, c.length ≤ p.writeChunk) →
      l.flatten.length ≤ l.length * p.writeChunk := by
    intro l
    induction l with
    | nil => simp
    | cons c l ih =>
      intro hl
      have h1 := hl c (by simp)
      have h2 := ih fun x hx => hl x (by simp [hx])
      simp only [List.flatten_cons, List.length_append, List.length_cons, Nat.add_mul]
      omega
  have := aux _ (chunksOf_length_le p.writeChunk b)
  omega

/-- One send before or at the failing write. -/
theorem send_stops {b : List Byte} {m : Nat} {r : WriteReply} {rest : List WriteReply} {s : State}
    (hw : s.writes = List.replicate m .full ++ r :: rest) (hr : EndsSend r) (hi : s.imm = []) :
    (∃ t, send b s = .raise .ioError t ∧ Stopped b rest s t) ∨
      ∃ t, send b s = .ok () t ∧ SentBefore b m (r :: rest) s t ∧ t.imm = [] := by
  by_cases hc : (chunksOf s.params.writeChunk b).length ≤ m
  · right
    have ha : s.WritesAccepted b
        (List.replicate (m - (chunksOf s.params.writeChunk b).length) .full ++ r :: rest) := by
      unfold State.WritesAccepted
      rw [hw, ← List.append_assoc, List.replicate_append_replicate]
      congr 2
      omega
    have hl := chunksOf_length_mul s.params b
    refine ⟨_, send_accepted ha, ⟨m - (chunksOf s.params.writeChunk b).length,
      writeEvents s.params b, deliver b s.dn, ?_, cmdBytes_writeEvents _ _, by simp [writeEvents],
      rfl⟩, hi⟩
    rw [Nat.sub_mul]
    have := Nat.mul_le_mul_right s.params.writeChunk hc
    omega
  · left
    obtain ⟨d, hr⟩ := hr
    have hm : m < (chunksOf s.params.writeChunk b).length := by omega
    have hn : ((chunksOf s.params.writeChunk b)[m]) ≠ [] :=
      (chunksFor_full _ s.params.writeChunk_pos _ b le_rfl).1 _ (List.getElem_mem hm)
    have hf : s.WriteFails b m d rest := by
      refine ⟨r, (chunksOf s.params.writeChunk b)[m], hw, List.getElem?_eq_getElem hm,
        hr.imp_right fun h => ⟨0, ?_, h⟩⟩
      exact fun h => hn (List.length_eq_zero_iff.1 h.symm)
    refine ⟨_, send_failed hf, ((chunksOf s.params.writeChunk b).take (m + 1)).map .write,
      deliver (b.take d) s.dn, ((chunksOf s.params.writeChunk b).take (m + 1)).flatten.length,
      ?_, frames_map_write _, ?_⟩
    · have := flatten_take_eq (chunksOf s.params.writeChunk b) (m + 1)
      rw [chunksOf_flatten s.params.writeChunk_pos] at this
      rw [cmdBytes_map_write]
      exact this
    · rw [← hi]; rfl

theorem SentBefore.trans {b c : List Byte} {m n : Nat} {rest : List WriteReply} {s t u : State}
    (h : SentBefore b m rest s t)
    (hm : n * s.params.writeChunk + b.length ≤ m * s.params.writeChunk)
    (k : SentBefore c n rest t u) : SentBefore (b ++ c) m rest s u := by
  obtain ⟨n1, e1, d1, h1, h2, h3, h4⟩ := h
  obtain ⟨n2, e2, d2, k1, k2, k3, k4⟩ := k
  have hp : t.params = s.params := by rw [h4]
  rw [hp] at k1
  refine ⟨n2, e1 ++ e2, d2, by simp only [List.length_append]; omega, by simp [h2, k2],
    by simp [h3, k3], ?_⟩
  rw [k4, h4]
  simp

theorem SentBefore.writes {b : List Byte} {m : Nat} {rest : List WriteReply} {s t : State}
    (h : SentBefore b m rest s t) : ∃ n, t.writes = List.replicate n .full ++ rest ∧
      n * s.params.writeChunk + b.length ≤ m * s.params.writeChunk := by
  obtain ⟨n, e, d, h1, h2, h3, h4⟩ := h
  exact ⟨n, by rw [h4], h1⟩

/-- What was sent before the send that stopped counts too. -/
theorem Stopped.after {b c : List Byte} {m : Nat} {r : WriteReply} {rest : List WriteReply}
    {s t u : State} (h : SentBefore b m (r :: rest) s t) (k : Stopped c rest t u) :
    Stopped (b ++ c) rest s u := by
  obtain ⟨n1, e1, d1, h1, h2, h3, h4⟩ := h
  obtain ⟨e2, d2, a, k1, k2, k3⟩ := k
  refine ⟨e1 ++ e2, d2, b.length + a, ?_, by simp [h3, k2], ?_⟩
  · rw [cmdBytes_append, h2, k1, List.take_append]
    simp
  · rw [k3, h4]
    simp

theorem flush_stops {m : Nat} {r : WriteReply} {rest : List WriteReply} {s : State}
    (hw : s.writes = List.replicate m .full ++ r :: rest) (hr : EndsSend r) :
    (∃ t, flush s = .raise .ioError t ∧ Stopped s.imm rest s t) ∨
      ∃ t, flush s = .ok () t ∧ SentBefore s.imm m (r :: rest) s t ∧ t.imm = [] := by
  unfold flush
  by_cases h0 : s.imm = []
  · right
    refine ⟨s, by simp [h0], ⟨m, [], s.dn, by simp [h0], by simp [h0, cmdBytes], rfl, ?_⟩, h0⟩
    rw [← hw]
    simp
  · rcases send_stops (b := s.imm) (s := s.setImm []) hw hr rfl with
      ⟨t, h1, es, d, a, h2, h3, h4⟩ | ⟨t, h1, ⟨n, es, d, h2, h3, h4, h5⟩, h6⟩
    · exact .inl ⟨t, by simp [h0, h1], es, d, a, h2, h3, h4⟩
    · exact .inr ⟨t, by simp [h0, h1], ⟨n, es, d, h2, h3, h4, by rw [h5]; rfl⟩, h6⟩

/-- Emitting, before or at the failing write: what is not yet sent stands in IMM. -/
theorem emitAll_stops (cs : List (List Byte)) {m : Nat} {r : WriteReply} {rest : List WriteReply}
    {s : State} (hw : s.writes = List.replicate m .full ++ r :: rest) (hr : EndsSend r) :
    (∃ t, emitAll cs s = .raise .ioError t ∧ Stopped (s.imm ++ cs.flatten) rest s t) ∨
      ∃ t b, emitAll cs s = .ok () t ∧ SentBefore b m (r :: rest) s t ∧
        b ++ t.imm = s.imm ++ cs.flatten := by
  induction cs generalizing s m with
  | nil =>
    right
    refine ⟨s, [], rfl, ⟨m, [], s.dn, by simp, rfl, rfl, ?_⟩, by simp⟩
    rw [← hw]
    simp
  | cons c cs ih =>
    have more : ∀ {b b' : List Byte} {t : State}, Stopped b rest s t → Stopped (b ++ b') rest s t := by
      rintro b b' t ⟨es, d, a, h1, h2, h3⟩
      refine ⟨es, d, min a b.length, ?_, h2, h3⟩
      rw [h1, List.take_append_of_le_length (by omega), take_min_length]
    have same : ∀ {b : List Byte} {x : List Byte} {t : State},
        SentBefore b m (r :: rest) (s.setImm x) t → SentBefore b m (r :: rest) s t := by
      rintro b x t ⟨n, es, d, h1, h2, h3, h4⟩
      exact ⟨n, es, d, h1, h2, h3, by rw [h4]; rfl⟩
    have same' : ∀ {b : List Byte} {x : List Byte} {t : State},
        Stopped b rest (s.setImm x) t → Stopped b rest s t := by
      rintro b x t ⟨es, d, a, h1, h2, h3⟩
      exact ⟨es, d, a, h1, h2, h3⟩
    simp only [emitAll, emit]
    by_cases ho : s.imm.length + c.length > Config.cmdBufMax
    · rcases flush_stops hw hr with ⟨t, h1, h2⟩ | ⟨t, h1, h2, h3⟩
      · exact .inl ⟨t, by simp only [ho, if_true, h1, Res.bind], more h2⟩
      · obtain ⟨n, hn, hm⟩ := h2.writes
        have h2' : SentBefore s.imm m (r :: rest) s (t.setImm c) := by
          obtain ⟨n, es, d, k1, k2, k3, k4⟩ := h2
          exact ⟨n, es, d, k1, k2, k3, by rw [k4]; rfl⟩
        simp only [ho, if_true, h1, Res.bind_ok, h3, List.nil_append]
        rcases ih (s := t.setImm c) (m := n) hn with ⟨u, k1, k2⟩ | ⟨u, b, k1, k2, k3⟩
        · exact .inl ⟨u, k1, by simpa using Stopped.after h2' k2⟩
        · refine .inr ⟨u, s.imm ++ b, k1, h2'.trans hm k2, ?_⟩
          rw [List.append_assoc, k3]
          simp
    · simp only [ho, if_false, Res.bind_ok]
      rcases ih (s := s.setImm (s.imm ++ c)) (m := m) hw with ⟨u, k1, k2⟩ | ⟨u, b, k1, k2, k3⟩
      · exact .inl ⟨u, k1, by simpa using same' k2⟩
      · exact .inr ⟨u, b, k1, same k2, by rw [k3]; simp⟩

/-- The body of a sending operation whose bytes need more writes than are accepted. -/
theorem emitFlush_stops (cs : List (List Byte)) {m : Nat} {r : WriteReply}
    {rest : List WriteReply} {s : State} (hi : s.imm = [])
    (hw : s.writes = List.replicate m .full ++ r :: rest) (hr : EndsSend r)
    (hm : m * s.params.writeChunk < cs.flatten.length) :
    ∃ t, emitFlush cs s = .raise .ioError t ∧ Stopped cs.flatten rest s t := by
  rcases emitAll_stops cs hw hr with ⟨t, h1, h2⟩ | ⟨t, b, h1, h2, h3⟩
  · exact ⟨t, by simp only [emitFlush, h1, Res.bind], by simpa [hi] using h2⟩
  · obtain ⟨n, hn, hn'⟩ := h2.writes
    have hp : t.params = s.params := by obtain ⟨_, _, _, -, -, -, h⟩ := h2; rw [h]
    rw [hi, List.nil_append] at h3
    rcases flush_stops hn hr with ⟨u, k1, k2⟩ | ⟨u, k1, k2, k3⟩
    · exact ⟨u, by simp only [emitFlush, h1, Res.bind_ok, k1], h3 ▸ Stopped.after h2 k2⟩
    · exfalso
      obtain ⟨n2, k4, k5⟩ := k2.writes
      rw [hp] at k5
      have := congrArg List.length h3
      simp only [List.length_append] at this
      have : 0 ≤ n2 * s.params.writeChunk := Nat.zero_le _
      omega

end Sys2Proof.Machine
end

