-- ==== Sys2Proof/Laws/Waits.lean ====
section
/-! SUPPORT. What a wait of `RecvExact` does over its polls: when the response arrives, and how the wait
ends when it does not (20_memory.md R60, 60_exceptions.md R285, R287). -/

namespace Sys2Proof.Machine

/-! ### Polls (20_memory.md R60, 44_session_ops.md R260) -/

@[simp] theorem pollTime_nil : pollTime [] = 0 := rfl

@[simp] theorem pollReach_nil : pollReach [] = 0 := rfl

@[simp] theorem pollTime_cons (p : Poll) (ps : List Poll) :
    pollTime (p :: ps) = p.dt + pollTime ps := by
  simp [pollTime]

@[simp] theorem pollReach_cons (p : Poll) (ps : List Poll) :
    pollReach (p :: ps) = p.visible + pollReach ps := by
  simp [pollReach]

@[simp] theorem pollTime_append (a b : List Poll) : pollTime (a ++ b) = pollTime a + pollTime b := by
  simp [pollTime]

@[simp] theorem pollReach_append (a b : List Poll) :
    pollReach (a ++ b) = pollReach a + pollReach b := by
  simp [pollReach]

/-- The state after `dt` milliseconds of a wait, which read the next `n` bytes, or all there are. -/
def State.polled (dt n : Nat) (s : State) : State :=
  { s with time := s.time + dt, dn := { s.dn with rsp := s.dn.rsp.drop n } }

@[simp] theorem State.polled_time (dt n : Nat) (s : State) :
    (s.polled dt n).time = s.time + dt := rfl

@[simp] theorem State.polled_rsp (dt n : Nat) (s : State) :
    (s.polled dt n).dn.rsp = s.dn.rsp.drop n := rfl

@[simp] theorem State.polled_zero (s : State) : s.polled 0 0 = s := rfl

@[simp] theorem State.polled_polled (dt n dt' n' : Nat) (s : State) :
    (s.polled dt n).polled dt' n' = s.polled (dt + dt') (n + n') := by
  simp [State.polled, Nat.add_assoc]

/-- Reading more than there is reads all there is. -/
theorem State.polled_min (dt n : Nat) (s : State) :
    s.polled dt (min n s.dn.rsp.length) = s.polled dt n := by
  by_cases h : n ≤ s.dn.rsp.length
  · rw [Nat.min_eq_left h]
  · simp only [State.polled]
    rw [List.drop_eq_nil_of_le, List.drop_eq_nil_of_le] <;> omega

/-- One poll of `RecvExact` that works, while bytes are missing. -/
theorem recvLoop_poll {n deadline : Nat} {p : Poll} {ps : List Poll} {acc : List Byte} {s : State}
    (hp : PollWorks p) (ht : s.time + p.dt < deadline) (hn : acc.length < n) :
    recvLoop n deadline (p :: ps) acc s =
      recvLoop n deadline ps (acc ++ s.dn.rsp.take (min p.visible (n - acc.length)))
        (s.polled p.dt (min p.visible (n - acc.length))) := by
  have h1 : ¬ n ≤ acc.length := by omega
  have h2 : ¬ deadline ≤ s.time + p.dt := by omega
  have hc : min (min p.visible s.dn.rsp.length) (n - acc.length) =
      min (min p.visible (n - acc.length)) s.dn.rsp.length := by omega
  simp only [recvLoop, h1, if_false, State.setTime, h2, hp.1, Bool.false_eq_true, hc]
  rw [← take_min_length (min p.visible (n - acc.length)), ← State.polled_min]
  by_cases h3 : min p.visible s.dn.rsp.length = 0
  · have h4 : min (min p.visible (n - acc.length)) s.dn.rsp.length = 0 := by omega
    simp only [h3, h4, if_true, List.take_zero, List.append_nil]
    rfl
  · have h4 : p.readFails = false := hp.2.resolve_left (by omega)
    simp only [h3, h4, if_false, Bool.false_eq_true]
    rfl

/-- Polls of `RecvExact` that work and do not complete the response. -/
theorem recvLoop_pass {n deadline : Nat} (used more : List Poll) {acc : List Byte} {s : State}
    (hw : ∀ p ∈ used, PollWorks p) (ht : used = [] ∨ s.time + pollTime used < deadline)
    (hn : acc.length + min (pollReach used) s.dn.rsp.length < n) :
    recvLoop n deadline (used ++ more) acc s =
      recvLoop n deadline more (acc ++ s.dn.rsp.take (pollReach used))
        (s.polled (pollTime used) (pollReach used)) := by
  induction used generalizing acc s with
  | nil => simp
  | cons p ps ih =>
    simp only [pollTime_cons, pollReach_cons, reduceCtorEq, false_or] at ht hn
    rw [List.cons_append, recvLoop_poll (hw p (by simp)) (by omega) (by omega)]
    have hm : min (min p.visible (n - acc.length)) s.dn.rsp.length =
        min p.visible s.dn.rsp.length := by omega
    rw [← take_min_length (min p.visible (n - acc.length)), ← State.polled_min, hm,
      take_min_length, State.polled_min,
      ih (fun q hq => hw q (by simp [hq])) (by right; simp only [State.polled_time]; omega)]
    · simp only [State.polled_rsp, State.polled_polled, pollTime_cons, pollReach_cons,
        List.append_assoc, ← List.take_add]
    · simp only [State.polled_rsp, List.length_append, List.length_take, List.length_drop]
      omega

/-- A wait whose polls read the whole response before the deadline (R60). -/
theorem recvLoop_arrives {n timeout : Nat} {used polls : List Poll} {s : State}
    (h : Arrives timeout n used polls) (hq : n ≤ s.dn.rsp.length) :
    recvLoop n (s.time + timeout) polls [] s =
      .ok (s.dn.rsp.take n) (s.polled (pollTime used) n) := by
  obtain ⟨⟨⟨more, rfl⟩, hw, ht⟩, h1, h2⟩ := h
  rcases List.eq_nil_or_concat used with rfl | ⟨init, p, rfl⟩
  · simp at h1 h2; omega
  · simp only [List.concat_eq_append, List.dropLast_concat, pollReach_append, pollReach_cons,
      pollReach_nil, pollTime_append, pollTime_cons, pollTime_nil, List.append_eq_nil_iff,
      reduceCtorEq, and_false, false_or, Nat.add_zero] at h1 h2 ht hw ⊢
    rw [List.append_assoc, recvLoop_pass init _ (fun q hq => hw q (by simp [hq]))
      (by right; omega) (by simp only [List.length_nil]; omega)]
    have hl : ([] ++ s.dn.rsp.take (pollReach init)).length = pollReach init := by
      simp only [List.nil_append, List.length_take]; omega
    rw [List.singleton_append, recvLoop_poll (hw p (by simp))
      (by simp only [State.polled_time]; omega) (by omega), hl]
    have hm : min p.visible (n - pollReach init) = n - pollReach init := by omega
    have he : pollReach init + (n - pollReach init) = n := by omega
    have hn : n ≤ (s.dn.rsp.take n).length := by simp only [List.length_take]; omega
    simp only [hm, List.nil_append, State.polled_rsp, ← List.take_add, State.polled_polled, he]
    unfold recvLoop
    split <;> simp only [hn, if_true]

/-- A wait that ends without the whole response (R60, R285, R287). -/
theorem recvLoop_fails {n timeout elapsed : Nat} {used polls : List Poll} {s : State} {e : Status}
    (h : WaitFails .commandTimeout timeout s.dn.rsp.length used polls elapsed e)
    (hq : pollReach used < n ∨ s.dn.rsp.length < n) :
    recvLoop n (s.time + timeout) polls [] s =
      raiseUnsynced e (s.polled elapsed (pollReach used)) := by
  obtain ⟨⟨-, hw, ht⟩, hend⟩ := h
  have hlt : min (pollReach used) s.dn.rsp.length < n := by clear hend; omega
  have hpass := fun more => recvLoop_pass (n := n) (deadline := s.time + timeout) used more
    (acc := []) (s := s) hw (ht.imp_right fun h => by clear hend; omega)
    (by simpa using hlt)
  have hl : ¬ n ≤ ([] ++ s.dn.rsp.take (pollReach used)).length := by
    simp only [List.nil_append, List.length_take]; clear hend; omega
  rcases hend with ⟨rfl, rfl, rfl⟩ | ⟨p, more, rfl, rfl, h⟩
  · have := hpass []
    rw [List.append_nil] at this
    rw [this]
    have hm : max (s.time + pollTime polls) (s.time + elapsed) = s.time + elapsed := by
      rcases ht with rfl | ht
      · simp only [pollTime_nil]; omega
      · omega
    simp only [recvLoop, hl, if_false, State.setTime, State.polled_time, hm]
    rfl
  · rw [hpass]
    simp only [recvLoop, hl, if_false, State.setTime, State.polled_time, State.polled_rsp]
    rcases h with ⟨rfl, h⟩ | ⟨rfl, h, h'⟩
    · have h1 : s.time + timeout ≤ s.time + (pollTime used + p.dt) := by omega
      simp only [h1, if_true, Nat.add_assoc]
      rfl
    · have h1 : ¬ s.time + timeout ≤ s.time + (pollTime used + p.dt) := by omega
      by_cases hc : p.countFails = true
      · simp only [h1, hc, if_true, if_false, Nat.add_assoc]
        rfl
      · obtain ⟨h2, h3, h4⟩ := h'.resolve_left hc
        have h5 : ¬ min p.visible (s.dn.rsp.drop (pollReach used)).length = 0 := by
          simp only [List.length_drop]; omega
        simp only [h1, hc, h5, h2, if_true, if_false, Nat.add_assoc]
        rfl

/-- `RecvExact` when its response arrives: the bytes are the next of what the downstream, having
executed all it was sent, has in its response queue. -/
theorem recvExact_arrives {n sent : Nat} {s : State} {used : List Poll} {w : Wait} {ws : List Wait}
    (hn : 0 < n) (hw : s.waits = w :: ws) (h : Arrives s.params.rxTimeoutMs n used w.polls)
    (hq : n ≤ (s.dn.run s.params.variant.hiSpeed).rsp.length) :
    recvExact n sent s = .ok ((s.dn.run s.params.variant.hiSpeed).rsp.take n)
      { s with
        waits := ws
        time := s.time + pollTime used
        dn := { s.dn.run s.params.variant.hiSpeed with
          rsp := (s.dn.run s.params.variant.hiSpeed).rsp.drop n } } := by
  have := recvLoop_arrives (s := { s with waits := ws, dn := s.dn.run s.params.variant.hiSpeed }) h hq
  simp only [recvExact, show ¬ n = 0 by omega, if_false, awaiting, nextWait, State.runDownstream,
    State.setDn, hw, this]
  rfl

/-- `RecvExact` when it ends without its response: what it read is lost, and the downstream is as the
wait says. -/
theorem recvExact_fails {n sent elapsed : Nat} {s : State} {used : List Poll} {w : Wait}
    {ws : List Wait} {e : Status} (hn : 0 < n) (hw : s.waits = w :: ws)
    (h : WaitFails .commandTimeout s.params.rxTimeoutMs
      (s.dn.run s.params.variant.hiSpeed).rsp.length used w.polls elapsed e)
    (hq : pollReach used < n ∨ (s.dn.run s.params.variant.hiSpeed).rsp.length < n) :
    recvExact n sent s = .raise e
      { s with
        synced := false
        waits := ws
        time := s.time + elapsed
        dn := s.dn.interrupted s.params.variant.hiSpeed sent w
          (min (pollReach used) (s.dn.run s.params.variant.hiSpeed).rsp.length) } := by
  have := recvLoop_fails (s := { s with waits := ws, dn := s.dn.run s.params.variant.hiSpeed }) h hq
  have hl : (s.dn.run s.params.variant.hiSpeed).rsp.length -
      ((s.dn.run s.params.variant.hiSpeed).rsp.drop (pollReach used)).length =
        min (pollReach used) (s.dn.run s.params.variant.hiSpeed).rsp.length := by
    rw [List.length_drop]; omega
  simp only [recvExact, show ¬ n = 0 by omega, if_false, awaiting, nextWait, State.runDownstream,
    State.setDn, hw, this, raiseUnsynced, State.setSynced, State.polled, Res.onRaise, hl]

end Sys2Proof.Machine
end

