-- ==== Sys2Proof/Laws/Session.lean ====
section
/-! SUPPORT. What the handshake and the XPORT calls can do, said once (44_session_ops.md R260 to R263). -/

namespace Sys2Proof.Machine

/-! ### The handshake -/

theorem syncLoop_spec (probe : Byte) (deadline : Nat) (ps : List Poll) (acc : List Byte)
    (s : State) :
    TransportOnly s (syncLoop probe deadline ps acc s).state ∧
      (syncLoop probe deadline ps acc s).state.imm = s.imm ∧
      ∀ e t, syncLoop probe deadline ps acc s = .raise e t →
        (e = .ioError ∨ e = .synchronizationFailed) ∧ t.synced = false := by
  induction ps generalizing acc s with
  | nil =>
    unfold syncLoop
    split
    · exact ⟨.refl s, rfl, fun e t h => (by cases h)⟩
    · refine ⟨(TransportOnly.setTime s _).trans (.unsynced _), rfl, fun e t h => ?_⟩
      cases h; exact ⟨.inr rfl, rfl⟩
  | cons p ps ih =>
    have ht := TransportOnly.setTime s (s.time + p.dt)
    simp only [syncLoop]
    split
    · exact ⟨.refl s, rfl, fun e t h => (by cases h)⟩
    · split
      · refine ⟨ht.trans (.unsynced _), rfl, fun e t h => ?_⟩
        cases h; exact ⟨.inr rfl, rfl⟩
      · split
        · refine ⟨ht.trans (.unsynced _), rfl, fun e t h => ?_⟩
          cases h; exact ⟨.inl rfl, rfl⟩
        · split
          · have := ih acc (s.setTime (s.time + p.dt))
            exact ⟨ht.trans this.1, this.2⟩
          · split
            · refine ⟨ht.trans (.unsynced _), rfl, fun e t h => ?_⟩
              cases h; exact ⟨.inl rfl, rfl⟩
            · have := ih (acc ++ s.dn.rsp.take (min p.visible s.dn.rsp.length))
                ((s.setTime (s.time + p.dt)).setDn { s.dn with
                  rsp := s.dn.rsp.drop (min p.visible s.dn.rsp.length) })
              exact ⟨(ht.trans (.takeRsp (s.setTime (s.time + p.dt)) _)).trans this.1, this.2⟩

/-- What one probe can do: transport activity, IMM empty after it; it raises only IoError or
SynchronizationFailed, with `synced` cleared. -/
theorem syncProbe_spec (probe : Byte) (s : State) :
    TransportOnly s (syncProbe probe s).state ∧ (syncProbe probe s).state.imm = [] ∧
      ∀ e t, syncProbe probe s = .raise e t →
        (e = .ioError ∨ e = .synchronizationFailed) ∧ t.synced = false := by
  have h := emitFlush_spec [[probe]] s
  unfold syncProbe
  cases he : emitFlush [[probe]] s with
  | ok a t =>
    rw [he] at h
    have h2 := awaiting_transportOnly
      (fun ps t => syncLoop_spec probe (t.time + t.params.syncTimeoutMs) ps [] t) 1 t
    exact ⟨h.1.trans h2.1, h2.2.1.trans h.2.1, h2.2.2⟩
  | raise e t =>
    rw [he] at h
    have hr := h.2.2 _ _ rfl
    refine ⟨h.1, h.2.1, fun e' t' h' => ?_⟩
    simp only [Res.bind, Res.raise.injEq] at h'
    obtain ⟨rfl, rfl⟩ := h'
    exact ⟨.inl hr.1, hr.2⟩

/-- `t` differs from `s` by transport activity and the value of `synced`. -/
def HandshakeOnly (s t : State) : Prop := TransportOnly (s.setSynced true) t

/-- What the handshake can do: transport activity; IMM is empty after it; it sets `synced`, or it raises
IoError or SynchronizationFailed with `synced` cleared. -/
theorem handshake_spec (s : State) :
    HandshakeOnly s (handshake s).state ∧ (handshake s).state.imm = [] ∧
      (∀ e t, handshake s = .raise e t →
        (e = .ioError ∨ e = .synchronizationFailed) ∧ t.synced = false) ∧
      ∀ t, handshake s = .ok () t → t.synced = true := by
  have h0 : TransportOnly (s.setSynced true) (s.setSynced false) :=
    TransportOnly.unsynced (s.setSynced true)
  have h1 := syncProbe_spec 0xAA#8 (s.setSynced false)
  unfold handshake HandshakeOnly
  cases hp : syncProbe 0xAA#8 (s.setSynced false) with
  | raise e t =>
    rw [hp] at h1
    refine ⟨h0.trans h1.1, h1.2.1, fun e' t' h' => ?_, fun t' h' => by simp [Res.bind] at h'⟩
    simp only [Res.bind, Res.raise.injEq] at h'
    obtain ⟨rfl, rfl⟩ := h'
    exact h1.2.2 _ _ rfl
  | ok a t =>
    rw [hp] at h1
    have h2 := syncProbe_spec 0xAB#8 t
    cases hq : syncProbe 0xAB#8 t with
    | raise e u =>
      rw [hq] at h2
      simp only [Res.bind, hq]
      refine ⟨(h0.trans h1.1).trans h2.1, h2.2.1, fun e' t' h' => ?_, fun t' h' => (by cases h')⟩
      cases h'
      exact h2.2.2 _ _ rfl
    | ok b u =>
      rw [hq] at h2
      simp only [Res.bind, hq]
      have h3 := (h0.trans h1.1).trans h2.1
      refine ⟨{ h3 with synced := fun _ => rfl }, h2.2.1, fun e' t' h' => (by cases h'),
        fun t' h' => ?_⟩
      cases h'; rfl

/-! ### The XPORT calls -/

theorem xportCall_spec (c : XportCall) (s : State) :
    TransportOnly s (xportCall c s).state ∧ (xportCall c s).state.imm = s.imm ∧
      ∀ e t, xportCall c s = .raise e t → e = .ioError ∧ t.synced = false := by
  have h1 := (nextCall_transportOnly s).trans (.note_call _ c)
  simp only [xportCall]
  split
  · refine ⟨h1.trans (.setDn _ _ ?_), by simp [Res.state], fun e t h => (by cases h)⟩
    cases c <;> simp [callEffect]
  · refine ⟨h1.trans (.unsynced _), by simp [raiseUnsynced, Res.state], fun e t h => ?_⟩
    cases h; exact ⟨rfl, rfl⟩

theorem xportCalls_spec (cs : List XportCall) (s : State) :
    TransportOnly s (xportCalls cs s).state ∧ (xportCalls cs s).state.imm = s.imm ∧
      ∀ e t, xportCalls cs s = .raise e t → e = .ioError ∧ t.synced = false := by
  induction cs generalizing s with
  | nil => exact ⟨.refl s, rfl, fun e t h => (by cases h)⟩
  | cons c cs ih =>
    have h := xportCall_spec c s
    simp only [xportCalls]
    cases he : xportCall c s with
    | ok a t =>
      rw [he] at h
      have := ih t
      exact ⟨h.1.trans this.1, this.2.1.trans h.2.1, this.2.2⟩
    | raise e t =>
      rw [he] at h
      refine ⟨h.1, h.2.1, fun e' t' h' => ?_⟩
      simp only [Res.bind, Res.raise.injEq] at h'
      obtain ⟨rfl, rfl⟩ := h'
      exact h.2.2 _ _ rfl

/-- Calls that all succeed are logged in order, and each has its effect on the downstream. -/
theorem xportCalls_succeed (cs : List XportCall) (rest : List Bool) (s : State)
    (h : s.calls = List.replicate cs.length true ++ rest) :
    xportCalls cs s = .ok () { s with
      calls := rest
      log := s.log ++ cs.map .call
      dn := cs.foldl (fun d c => callEffect c d) s.dn } := by
  induction cs generalizing s with
  | nil => simp at h; subst h; simp [xportCalls]
  | cons c cs ih =>
    simp only [List.length_cons, List.replicate_succ, List.cons_append] at h
    simp only [xportCalls, xportCall, nextCall, h, if_true, Res.bind]
    rw [ih _ rfl]
    simp [State.note, State.setDn]

/-- Calls of which the first `k` succeed and the next fails (R263): the calls after it are not made. -/
theorem xportCalls_fail (cs : List XportCall) (k : Nat) (rest : List Bool) (s : State)
    (hk : k < cs.length) (h : s.calls = List.replicate k true ++ false :: rest) :
    xportCalls cs s = raiseUnsynced .ioError { s with
      calls := rest
      log := s.log ++ (cs.take (k + 1)).map .call
      dn := (cs.take k).foldl (fun d c => callEffect c d) s.dn } := by
  induction cs generalizing s k with
  | nil => simp at hk
  | cons c cs ih =>
    cases k with
    | zero =>
      simp only [List.replicate_zero, List.nil_append] at h
      simp [xportCalls, xportCall, nextCall, h, Res.bind, raiseUnsynced, State.note]
    | succ k =>
      simp only [List.replicate_succ, List.cons_append] at h
      simp only [xportCalls, xportCall, nextCall, h, if_true, Res.bind]
      rw [ih k _ (by simpa using hk) rfl]
      simp [State.note, State.setDn]

/-! ### The wait for an echo -/

/-- `match` of R261 finds a pair exactly where there is one. -/
theorem echoFound_iff (probe : Byte) (acc : List Byte) :
    echoFound probe acc = true ↔ HasEcho probe acc := by
  induction acc with
  | nil => simp [echoFound, HasEcho]
  | cons a l ih =>
    cases l with
    | nil => simp [echoFound, HasEcho]
    | cons b bs =>
      simp only [echoFound, Bool.or_eq_true, Bool.and_eq_true, decide_eq_true_eq, ih]
      constructor
      · rintro (⟨rfl, rfl⟩ | ⟨i, h1, h2⟩)
        · exact ⟨0, by simp⟩
        · exact ⟨i + 1, by simpa using h1, by simpa using h2⟩
      · rintro ⟨i, h1, h2⟩
        cases i with
        | zero => left; simpa using And.intro h1 h2
        | succ i => right; exact ⟨i, by simpa using h1, by simpa using h2⟩

/-- More bytes at the end keep an echo. -/
theorem HasEcho.append {probe : Byte} {acc more : List Byte} (h : HasEcho probe acc) :
    HasEcho probe (acc ++ more) := by
  obtain ⟨i, h1, h2⟩ := h
  have := (List.getElem?_eq_some_iff.1 h2).1
  exact ⟨i, by rw [List.getElem?_append_left (by omega), h1],
    by rw [List.getElem?_append_left this, h2]⟩

theorem HasEcho.take_mono {probe : Byte} {l : List Byte} {m n : Nat} (hmn : m ≤ n)
    (h : HasEcho probe (l.take m)) : HasEcho probe (l.take n) := by
  have : l.take n = l.take m ++ (l.drop m).take (n - m) := by
    rw [← List.take_add]; congr 1; omega
  rw [this]
  exact h.append

/-- One poll of SYNC that works, while the echo is missing. -/
theorem syncLoop_poll {probe : Byte} {deadline : Nat} {p : Poll} {ps : List Poll}
    {acc : List Byte} {s : State} (hp : PollWorks p) (ht : s.time + p.dt < deadline)
    (he : ¬ HasEcho probe acc) :
    syncLoop probe deadline (p :: ps) acc s =
      syncLoop probe deadline ps (acc ++ s.dn.rsp.take p.visible)
        (s.polled p.dt p.visible) := by
  have h1 : ¬ echoFound probe acc = true := fun h => he ((echoFound_iff _ _).1 h)
  have h2 : ¬ deadline ≤ s.time + p.dt := by omega
  simp only [syncLoop, h1, if_false, State.setTime, h2, hp.1, Bool.false_eq_true]
  rw [← take_min_length p.visible, ← State.polled_min]
  by_cases h3 : min p.visible s.dn.rsp.length = 0
  · simp only [h3, if_true, List.take_zero, List.append_nil]
    rfl
  · have h4 : p.readFails = false := hp.2.resolve_left (by omega)
    simp only [h3, h4, if_false, Bool.false_eq_true]
    rfl

/-- Polls of SYNC that work and do not complete the echo. -/
theorem syncLoop_pass {probe : Byte} {deadline : Nat} (used more : List Poll) {acc : List Byte}
    {s : State} (hw : ∀ p ∈ used, PollWorks p)
    (ht : used = [] ∨ s.time + pollTime used < deadline)
    (he : used = [] ∨ ¬ HasEcho probe (acc ++ s.dn.rsp.take (pollReach used.dropLast))) :
    syncLoop probe deadline (used ++ more) acc s =
      syncLoop probe deadline more (acc ++ s.dn.rsp.take (pollReach used))
        (s.polled (pollTime used) (pollReach used)) := by
  induction used generalizing acc s with
  | nil => simp
  | cons p ps ih =>
    simp only [pollTime_cons, reduceCtorEq, false_or] at ht he
    rw [List.cons_append, syncLoop_poll (hw p (by simp)) (by omega)
      (fun h => he (h.append)),
      ih (fun q hq => hw q (by simp [hq])) (by right; simp only [State.polled_time]; omega)]
    · simp only [State.polled_rsp, State.polled_polled, pollTime_cons, pollReach_cons,
        List.append_assoc, ← List.take_add]
    · cases ps with
      | nil => exact .inl rfl
      | cons q qs =>
        right
        simpa only [State.polled_rsp, List.append_assoc, ← List.take_add, List.dropLast_cons_cons,
          pollReach_cons] using he

/-- A wait whose polls read the echo before the deadline (R260): every byte read is discarded. -/
theorem syncLoop_echoed {probe : Byte} {timeout : Nat} {used polls : List Poll} {s : State}
    (h : PollsPass timeout used polls) (he : HasEcho probe (s.dn.rsp.take (pollReach used)))
    (hn : ¬ HasEcho probe (s.dn.rsp.take (pollReach used.dropLast))) :
    syncLoop probe (s.time + timeout) polls [] s =
      .ok () (s.polled (pollTime used) (pollReach used)) := by
  obtain ⟨⟨more, rfl⟩, hw, ht⟩ := h
  rw [syncLoop_pass used more hw (ht.imp_right fun h => by omega) (.inr (by simpa using hn)),
    List.nil_append]
  have := (echoFound_iff _ _).2 he
  unfold syncLoop
  split <;> simp only [this, if_true]

/-- A wait that ends without the echo (R260, R285, R287). -/
theorem syncLoop_fails {probe : Byte} {timeout elapsed : Nat} {used polls : List Poll} {s : State}
    {e : Status}
    (h : WaitFails .synchronizationFailed timeout s.dn.rsp.length used polls elapsed e)
    (hn : ¬ HasEcho probe (s.dn.rsp.take (pollReach used))) :
    syncLoop probe (s.time + timeout) polls [] s =
      raiseUnsynced e (s.polled elapsed (pollReach used)) := by
  obtain ⟨⟨-, hw, ht⟩, hend⟩ := h
  have hr : pollReach used.dropLast ≤ pollReach used := by
    rcases List.eq_nil_or_concat used with rfl | ⟨init, p, rfl⟩ <;> simp
  have hpass := fun more => syncLoop_pass (probe := probe) (deadline := s.time + timeout) used more
    (acc := []) (s := s) hw (ht.imp_right fun h => by clear hend; omega)
    (.inr fun h => hn (HasEcho.take_mono hr (by simpa using h)))
  have hl : ¬ echoFound probe ([] ++ s.dn.rsp.take (pollReach used)) = true := fun h =>
    hn ((echoFound_iff _ _).1 (by simpa using h))
  rcases hend with ⟨rfl, rfl, rfl⟩ | ⟨p, more, rfl, rfl, h⟩
  · have := hpass []
    rw [List.append_nil] at this
    rw [this]
    have hm : max (s.time + pollTime polls) (s.time + elapsed) = s.time + elapsed := by
      rcases ht with rfl | ht
      · simp only [pollTime_nil]; omega
      · omega
    simp only [syncLoop, hl, if_false, State.setTime, State.polled_time, hm, Bool.false_eq_true]
    rfl
  · rw [hpass]
    simp only [syncLoop, hl, if_false, State.setTime, State.polled_time, State.polled_rsp,
      Bool.false_eq_true]
    rcases h with ⟨rfl, h⟩ | ⟨rfl, h, h'⟩
    · have h1 : s.time + timeout ≤ s.time + (pollTime used + p.dt) := by omega
      simp only [h1, if_true, Nat.add_assoc]
      rfl
    · have h1 : ¬ s.time + timeout ≤ s.time + (pollTime used + p.dt) := by omega
      by_cases hc : p.countFails = true
      · simp only [h1, hc, if_true, if_false, Nat.add_assoc]
        rfl
      · obtain ⟨h2, h3, h4⟩ := h'.resolve_left hc
        have h5 : ¬ min p.visible (s.dn.rsp.drop (pollReach used)).length = 0 := by
          simp only [List.length_drop]; omega
        simp only [h1, hc, h5, h2, if_true, if_false, Nat.add_assoc]
        rfl

/-! ### A probe -/

/-- The downstream answers the first probe (30_encoding.md R100). -/
theorem run_probe1 (hs : Bool) (d : Downstream) (hm : d.mpsse = true) (hi : d.inbox = []) :
    (deliver [0xAA#8] d).run hs = { d with rsp := d.rsp ++ [0xFA#8, 0xAA#8] } := by
  rw [deliver_mpsse hm, run_first (i := .syncProbe1) (rest := []) (by exact hm)
    (by simp [hi, decodeCmd, cmdSingle])]
  simp [cmdEffect, badCommand, respond, hi]

/-- The downstream answers the second probe. -/
theorem run_probe2 (hs : Bool) (d : Downstream) (hm : d.mpsse = true) (hi : d.inbox = []) :
    (deliver [0xAB#8] d).run hs = { d with rsp := d.rsp ++ [0xFA#8, 0xAB#8] } := by
  rw [deliver_mpsse hm, run_first (i := .syncProbe2) (rest := []) (by exact hm)
    (by simp [hi, decodeCmd, cmdSingle])]
  simp [cmdEffect, badCommand, respond, hi]

theorem chunksOf_singleton (p : Params) (b : Byte) : chunksOf p.writeChunk [b] = [[b]] := by
  have := p.writeChunk_pos
  simp only [chunksOf, chunksFor, List.length_singleton]
  congr 1
  cases h : p.writeChunk with
  | zero => omega
  | succ n => simp

/-- The downstream's answer to a probe (30_encoding.md R100). -/
theorem run_probe {probe : Byte} (hp : probe = 0xAA#8 ∨ probe = 0xAB#8) {s : State}
    (hm : s.dn.mpsse = true) (hi : s.dn.inbox = []) :
    (deliver [probe] s.dn).run s.params.variant.hiSpeed =
      { s.dn with rsp := s.probeRsp probe } := by
  rcases hp with rfl | rfl
  · exact run_probe1 _ _ hm hi
  · exact run_probe2 _ _ hm hi

/-- A probe of which a wait fails that has read up to `reach` bytes. -/
theorem interrupted_probe {probe : Byte} (hp : probe = 0xAA#8 ∨ probe = 0xAB#8) {s : State}
    (hm : s.dn.mpsse = true) (hb : s.dn.inbox = []) (w : Wait) (reach : Nat) :
    (deliver [probe] s.dn).interrupted s.params.variant.hiSpeed 1 w
        (min reach (s.probeRsp probe).length) =
      if 0 < w.executed ∨ s.dn.rsp.length < reach then
        { s.dn with rsp := (s.probeRsp probe).drop reach }
      else
        { s.dn with rsp := s.dn.rsp.drop reach, inbox := if w.lost = 0 then [probe] else [] } := by
  have hl : (s.probeRsp probe).length = s.dn.rsp.length + 2 := by simp [State.probeRsp]
  have hr := run_probe hp hm hb
  rw [deliver_mpsse hm, hb, List.nil_append] at hr ⊢
  simp only [Downstream.run, List.length_singleton, Downstream.runFor] at hr
  simp only [Downstream.interrupted, List.length_singleton, hl]
  by_cases hc : 0 < w.executed ∨ s.dn.rsp.length < reach
  · have h1 : ¬ (w.executed = 0 ∧ min reach (s.dn.rsp.length + 2) ≤ s.dn.rsp.length) := by omega
    have h2 : (s.probeRsp probe).drop (min reach (s.dn.rsp.length + 2)) =
        (s.probeRsp probe).drop reach := by
      rw [← hl]; exact congrArg (fun s : State => s.dn.rsp)
        (State.polled_min 0 reach { s with dn := { s.dn with rsp := s.probeRsp probe } })
    simp only [Downstream.runUntil, h1, if_false, hc, if_true, hr, hb, List.take_nil, h2]
  · have h1 : w.executed = 0 := by omega
    have h2 : min reach (s.dn.rsp.length + 2) = reach := by omega
    rw [h1, h2, runUntil_done (by show reach ≤ s.dn.rsp.length; omega)]
    simp only [Nat.lt_irrefl, false_or, show ¬ s.dn.rsp.length < reach by omega, if_false,
      List.length_singleton]
    rcases Nat.eq_zero_or_pos w.lost with h | h
    · simp [h]
    · simp [show ¬ w.lost = 0 by omega, show min w.lost 1 = 1 by omega]

/-- A probe whose write is accepted: its wait is over the responses it makes, and if it fails, the
downstream is as the wait says. -/
theorem syncProbe_accepted {probe : Byte} (hp : probe = 0xAA#8 ∨ probe = 0xAB#8) {s : State}
    {rest : List WriteReply} {w : Wait} {ws : List Wait} (hm : s.dn.mpsse = true)
    (hb : s.dn.inbox = []) (hi : s.imm = []) (hw : s.writes = .full :: rest)
    (hws : s.waits = w :: ws) :
    syncProbe probe s = (syncLoop probe (s.time + s.params.syncTimeoutMs) w.polls []
      { s with
        writes := rest
        waits := ws
        log := s.log ++ [.write [probe]]
        dn := { s.dn with rsp := s.probeRsp probe } }).onRaise fun t =>
      t.setDn ((deliver [probe] s.dn).interrupted s.params.variant.hiSpeed 1 w
        ((s.probeRsp probe).length - t.dn.rsp.length)) := by
  unfold syncProbe
  rw [emitFlush_accepted (rest := rest) hi (by simp [Config.cmdBufMax])
    (by simp [State.WritesAccepted, chunksOf_singleton, hw])]
  simp only [Res.bind_ok, List.flatten_cons, List.flatten_nil, List.append_nil, State.deliver, awaiting,
    State.setDn, State.runDownstream, writeEvents, chunksOf_singleton, List.map_cons, List.map_nil,
    run_probe hp hm hb, nextWait, hws]

/-- A probe that is sent and answered before its deadline. -/
theorem syncProbe_echoed {probe : Byte} (hp : probe = 0xAA#8 ∨ probe = 0xAB#8) {s : State}
    {rest : List WriteReply} {used : List Poll} {w : Wait} {ws : List Wait}
    (hm : s.dn.mpsse = true) (hb : s.dn.inbox = []) (hi : s.imm = [])
    (hw : s.writes = .full :: rest) (hws : s.waits = w :: ws)
    (h : s.Echoed probe used w.polls) :
    syncProbe probe s =
      .ok () (s.afterProbe probe (pollTime used) (pollReach used) rest ws) := by
  rw [syncProbe_accepted hp hm hb hi hw hws, syncLoop_echoed (s := { s with
    writes := rest
    waits := ws
    log := s.log ++ [.write [probe]]
    dn := { s.dn with rsp := s.probeRsp probe } }) h.1 h.2.1 h.2.2]
  rfl

/-- A probe that is sent and not answered in time, or whose wait fails. -/
theorem syncProbe_fails {probe : Byte} (hp : probe = 0xAA#8 ∨ probe = 0xAB#8) {s : State}
    {rest : List WriteReply} {used : List Poll} {w : Wait} {ws : List Wait} {elapsed : Nat}
    {e : Status} (hm : s.dn.mpsse = true) (hb : s.dn.inbox = []) (hi : s.imm = [])
    (hw : s.writes = .full :: rest) (hws : s.waits = w :: ws)
    (h : s.EchoFails probe used w.polls elapsed e) :
    syncProbe probe s = .raise e (s.afterFailedProbe probe elapsed (pollReach used) rest w ws) := by
  have hl : (s.probeRsp probe).length - ((s.probeRsp probe).drop (pollReach used)).length =
      min (pollReach used) (s.probeRsp probe).length := by
    rw [List.length_drop]; omega
  rw [syncProbe_accepted hp hm hb hi hw hws, syncLoop_fails (s := { s with
    writes := rest
    waits := ws
    log := s.log ++ [.write [probe]]
    dn := { s.dn with rsp := s.probeRsp probe } }) h.1 h.2]
  simp only [raiseUnsynced, Res.onRaise, State.setSynced_dn, State.polled_rsp, hl,
    interrupted_probe hp hm hb]
  rfl

/-- A probe whose write fails. -/
theorem syncProbe_writeFails {probe : Byte} {s : State} {k delivered : Nat}
    {rest : List WriteReply} (hi : s.imm = []) (h : s.WriteFails [probe] k delivered rest) :
    syncProbe probe s = .raise .ioError (s.afterFailedSend [probe] k delivered rest) := by
  unfold syncProbe
  rw [emitFlush_failed (k := k) (delivered := delivered) (rest := rest) hi
    (by simp [Config.cmdBufMax]) (by simpa using h)]
  simp [Res.bind]

/-- With no response left over, the echo of a probe is the marker and the probe. -/
theorem arrives_echoed {probe : Byte} {s : State} {used polls : List Poll}
    (hr : s.dn.rsp = []) (h : Arrives s.params.syncTimeoutMs 2 used polls) :
    s.Echoed probe used polls := by
  obtain ⟨h1, h2, h3⟩ := h
  simp only [State.Echoed, State.probeRsp, hr, List.nil_append]
  refine ⟨h1, ?_, ?_⟩
  · rw [List.take_of_length_le (by simpa using h3)]
    exact ⟨0, rfl, rfl⟩
  · rintro ⟨i, -, h5⟩
    have := (List.getElem?_eq_some_iff.1 h5).1
    simp only [List.length_take] at this
    omega

end Sys2Proof.Machine
end

