-- ==== Sys2Proof/Laws/Operations.lean ====
section
/-! SUPPORT. What each host operation can do, said once: which fields it writes before its transport
activity, which statuses it can raise and what state each leaves (60_exceptions.md R282, R286). -/

namespace Sys2Proof.Machine

/-- What an operation that started in `s`, wrote its own fields to get `s1` and then only used the
transport can end as: the statuses of `E`, each clearing `synced`, or Success. -/
structure Sends (s1 : State) (E : List Status) (r : Res (List Byte)) : Prop where
  only : TransportOnly s1 r.state
  imm : r.state.imm = []
  raised : ∀ e t, r = .raise e t → e ∈ E ∧ t.synced = false

/-- The body of an operation that only sends. -/
theorem emitFlush_sends (cmds : List (List Byte)) (s1 : State) :
    Sends s1 [.ioError] ((emitFlush cmds s1).bind fun _ s2 => .ok [] s2) ∧
      ∀ (b : List Byte) (t : State),
        ((emitFlush cmds s1).bind fun _ s2 => Res.ok [] s2) = .ok b t → b = [] := by
  have h := emitFlush_spec cmds s1
  cases he : emitFlush cmds s1 with
  | ok a t =>
    rw [he] at h
    refine ⟨⟨h.1, h.2.1, fun e u hu => (by cases hu)⟩, fun b u hu => ?_⟩
    simp only [Res.bind, Res.ok.injEq] at hu
    exact hu.1.symm
  | raise e t =>
    rw [he] at h
    refine ⟨⟨h.1, h.2.1, fun e' u hu => ?_⟩, fun b u hu => (by simp [Res.bind] at hu)⟩
    simp only [Res.bind, Res.raise.injEq] at hu
    obtain ⟨rfl, rfl⟩ := hu
    simpa using h.2.2 _ _ rfl

theorem correct_length (resp : List Byte) (n k : Nat) (hn : 0 < n)
    (h : wholeBytes n ≤ resp.length) : (correct resp n k).length = ceil8 n := by
  simp only [correct, List.length_append, List.length_take, List.length_singleton, wholeBytes,
    ceil8] at h ⊢
  omega

/-- `readResult`: transport activity, never a raise, and a result of the stated length. -/
theorem readResult_spec (n : Nat) (b : List Byte) (s : State) :
    ∃ r t, readResult n b s = .ok r t ∧ TransportOnly s t ∧ t.imm = s.imm ∧
      (s.synced = true → r = b ∧ t = s) ∧ (s.synced = false → r.length = n) := by
  unfold readResult
  split
  · next h => exact ⟨b, s, rfl, .refl s, rfl, fun _ => ⟨rfl, rfl⟩, fun h' => by simp [h] at h'⟩
  · next h =>
    refine ⟨_, _, rfl, ?_, rfl, fun h' => absurd h' h, fun _ => by simp⟩
    constructor <;> first | rfl | exact id | exact ⟨[], by simp [frames]⟩

/-- Receiving the response of a shift. -/
theorem receiveShift_spec (q : ShiftSpec) (sent : Nat) (hq : 0 < q.n) (s : State) (hi : s.imm = []) :
    Sends s [.ioError, .commandTimeout] (receiveShift q sent s) ∧
      ∀ b t, receiveShift q sent s = .ok b t → b.length = ceil8 q.n := by
  have h := recvExact_spec (respLen q.n) sent s
  unfold receiveShift
  cases he : recvExact (respLen q.n) sent s with
  | raise e t =>
    rw [he] at h
    refine ⟨⟨h.1, h.2.1.trans hi, fun e' u hu => ?_⟩, fun b u hu => (by simp [Res.bind] at hu)⟩
    simp only [Res.bind, Res.raise.injEq] at hu
    obtain ⟨rfl, rfl⟩ := hu
    simpa using h.2.2.1 _ _ rfl
  | ok resp t =>
    rw [he] at h
    have hl := (h.2.2.2 _ _ rfl).1
    obtain ⟨r, u, hr, hu, hui, hs, hf⟩ :=
      readResult_spec (ceil8 q.n) (correct resp q.n (shiftClocks q)) t
    simp only [Res.bind, hr]
    refine ⟨⟨h.1.trans hu, hui.trans (h.2.1.trans hi), fun e' u' hu' => (by cases hu')⟩,
      fun b u' hu' => ?_⟩
    cases hu'
    cases hb : t.synced
    · exact hf hb
    · rw [(hs hb).1]
      exact correct_length _ _ _ hq (by rw [hl, respLen]; omega)

/-- A shift that is sent and answered: READ and WRITE_READ after their checks. -/
theorem exchangeShift_sends (q : ShiftSpec) (hq : 0 < q.n) (s : State) :
    Sends (s.setCursor (.known q.exit)) [.ioError, .commandTimeout] (exchangeShift q s) ∧
      ∀ b t, exchangeShift q s = .ok b t → b.length = ceil8 q.n := by
  have h := emitFlush_spec (shiftCommands s.cursor q ++ immediateTail s.params)
    (s.setCursor (.known q.exit))
  unfold exchangeShift sendShift
  cases he : emitFlush (shiftCommands s.cursor q ++ immediateTail s.params)
      (s.setCursor (.known q.exit)) with
  | raise e t =>
    rw [he] at h
    refine ⟨⟨h.1, h.2.1, fun e' u hu => ?_⟩, fun b u hu => (by simp [Res.bind] at hu)⟩
    simp only [Res.bind, Res.raise.injEq] at hu
    obtain ⟨rfl, rfl⟩ := hu
    have := h.2.2 _ _ rfl
    exact ⟨by simp [this.1], this.2⟩
  | ok a t =>
    rw [he] at h
    have h2 := receiveShift_spec q (shiftCommands s.cursor q ++ immediateTail s.params).flatten.length
      hq t h.2.1
    simp only [Res.bind]
    exact ⟨⟨h.1.trans h2.1.only, h2.1.imm, h2.1.raised⟩, h2.2⟩

/-- The check of a shift passes only in range, and what it rejects is a parameter error. -/
theorem checkShift_ok {n : Nat} {m : Option Nat} {exit : Byte} {t : DefState}
    (h : checkShift n m exit = .ok t) :
    Config.nMin ≤ n ∧ n ≤ Config.nMax ∧ DefState.ofCode exit = some t ∧
      ∀ k, m = some k → ceil8 n ≤ k ∧ k ≤ Config.writeBytesMax := by
  unfold checkShift at h
  split at h
  · cases h
  · next hn =>
    split at h
    · cases h
    · split at h
      · cases h
      · next hm =>
        split at h
        · cases h
        · next t' ht =>
          cases h
          refine ⟨by omega, by omega, ht, fun k hk => ?_⟩
          subst hk
          simp at hm
          omega

/-- The check passes whatever is in range. -/
theorem checkShift_passes {n : Nat} {m : Option Nat} {exit : Byte} {t : DefState}
    (h1 : Config.nMin ≤ n) (h2 : n ≤ Config.nMax)
    (hm : ∀ k, m = some k → ceil8 n ≤ k ∧ k ≤ Config.writeBytesMax)
    (ht : DefState.ofCode exit = some t) : checkShift n m exit = .ok t := by
  have hn : ¬ (n < Config.nMin ∨ Config.nMax < n) := by omega
  have h0 : m ≠ some 0 := by
    intro h
    have := (hm 0 h).1
    simp only [Config.nMin, ceil8] at this h1
    omega
  have h3 : ¬ (m.any fun k => decide (k < ceil8 n) || decide (Config.writeBytesMax < k)) = true := by
    cases m with
    | none => simp
    | some k =>
      have := hm k rfl
      simp only [Option.any_some, Bool.or_eq_true, decide_eq_true_eq]
      omega
  simp only [checkShift, hn, h0, h3, if_false, ht, Bool.false_eq_true]

theorem checkShift_error {n : Nat} {m : Option Nat} {exit : Byte} {e : Status}
    (h : checkShift n m exit = .error e) : e.kind = .parameter := by
  unfold checkShift at h
  repeat' split at h
  all_goals first | cases h; rfl | cases h

/-- How the operations of one shift end: a parameter error with nothing done, or the rest of the
operation for a shift whose fields are in range. -/
theorem shift_cases {n : Nat} {m : Option Nat} {exit : Byte} {s : State}
    {f : DefState → Res (List Byte)} {r : Res (List Byte)}
    (hr : r = match checkShift n m exit with
      | .error e => .raise e s
      | .ok t => f t) :
    (∃ e, e.kind = .parameter ∧ r = .raise e s) ∨
      ∃ t, checkShift n m exit = .ok t ∧ r = f t := by
  cases hc : checkShift n m exit with
  | error e => rw [hc] at hr; exact .inl ⟨e, checkShift_error hc, hr⟩
  | ok t => rw [hc] at hr; exact .inr ⟨t, rfl, hr⟩

/-- What INIT keeps or writes after its divisor check, whatever its outcome. -/
structure InitWrites (divisor : Half) (s t : State) : Prop where
  imm : s.imm = [] → t.imm = []
  seq : t.seq = []
  desc : t.desc = []
  div5 : t.div5 = s.div5
  params : t.params = s.params
  op : t.op = s.op
  pins : (t.pinVal = s.pinVal ∧ t.pinDir = s.pinDir ∧ t.divisor = s.divisor) ∨
    (t.pinVal = initPinVal s.pinVal ∧ t.pinDir = initPinDir s.pinDir ∧ t.divisor = some divisor)
  frames : ∃ es, t.log = s.log ++ es ∧ frames es = []
  inbox : (s.dn.mpsse = false → s.dn.inbox = []) → t.dn.mpsse = false → t.dn.inbox = []

/-- Transport activity after INIT's first writes. -/
theorem InitWrites.of_begin {divisor : Half} {s t : State} (h : TransportOnly (initBegin s) t)
    (hi : t.imm = s.imm) : InitWrites divisor s t where
  imm := hi.trans
  seq := h.seq
  desc := h.desc
  div5 := h.div5
  params := h.params
  op := h.op
  pins := .inl ⟨h.pinVal, h.pinDir, h.divisor⟩
  frames := h.frames
  inbox := h.inbox

/-- Transport activity with the handshake keeps what was so before it. -/
theorem InitWrites.handshake {divisor : Half} {s t u : State} (h : InitWrites divisor s t)
    (k : HandshakeOnly t u) (hi : u.imm = []) : InitWrites divisor s u where
  imm := fun _ => hi
  seq := k.seq.trans h.seq
  desc := k.desc.trans h.desc
  div5 := k.div5.trans h.div5
  params := k.params.trans h.params
  op := k.op.trans h.op
  pins := h.pins.imp
    (fun x => ⟨k.pinVal.trans x.1, k.pinDir.trans x.2.1, k.divisor.trans x.2.2⟩)
    (fun x => ⟨k.pinVal.trans x.1, k.pinDir.trans x.2.1, k.divisor.trans x.2.2⟩)
  frames := by
    obtain ⟨a, ha, ha'⟩ := h.frames
    obtain ⟨b, hb, hb'⟩ := k.frames
    exact ⟨a ++ b, by rw [hb]; simp [ha], by simp [ha', hb']⟩
  inbox := fun x => k.inbox (h.inbox x)

/-- What INIT can do after its divisor check (R262): its writes; if it raises, IoError or
SynchronizationFailed with the cursor Undefined and `synced` cleared; else the cursor is RTI, `synced`
is set and DIVISOR and the pins are written. -/
theorem initOp_spec (divisor : Half) (s : State)
    (hd : ¬ s.params.divisorMax < divisor.toNat) :
    InitWrites divisor s (initOp divisor s).state ∧
      (∀ e t, initOp divisor s = .raise e t →
        (e = .ioError ∨ e = .synchronizationFailed) ∧ t.synced = false ∧ t.cursor = .undefined) ∧
      ∀ b t, initOp divisor s = .ok b t → b = [] ∧ t.cursor = .known .rti ∧ t.synced = true ∧
        t.pinVal = initPinVal s.pinVal ∧ t.pinDir = initPinDir s.pinDir ∧
        t.divisor = some divisor := by
  have hx := xportCalls_spec initCalls (initBegin s)
  unfold initOp
  simp only [hd, if_false]
  cases h1 : xportCalls initCalls (initBegin s) with
  | raise e t =>
    rw [h1] at hx
    have := InitWrites.of_begin (divisor := divisor) hx.1 hx.2.1
    refine ⟨{ this with }, fun e' t' h => ?_, fun b t' h => (by cases h)⟩
    cases h
    have := hx.2.2 _ _ rfl
    exact ⟨.inl this.1, this.2, rfl⟩
  | ok a t =>
    rw [h1] at hx
    have w1 := InitWrites.of_begin (divisor := divisor) hx.1 hx.2.1
    have hh := handshake_spec t
    simp only [Res.bind]
    cases h2 : handshake t with
    | raise e u =>
      rw [h2] at hh
      have w2 := w1.handshake hh.1 hh.2.1
      refine ⟨{ w2 with }, fun e' t' h => ?_, fun b t' h => (by cases h)⟩
      cases h
      exact ⟨(hh.2.2.1 _ _ rfl).1, (hh.2.2.1 _ _ rfl).2, rfl⟩
    | ok a u =>
      rw [h2] at hh
      have w2 := w1.handshake hh.1 hh.2.1
      have hsy := hh.2.2.2 _ rfl
      have hv : u.pinVal = s.pinVal := hh.1.pinVal.trans hx.1.pinVal
      have hdr : u.pinDir = s.pinDir := hh.1.pinDir.trans hx.1.pinDir
      have key : ∀ v : State, TransportOnly { u with
            divisor := some divisor
            pinVal := initPinVal u.pinVal
            pinDir := initPinDir u.pinDir
            cursor := .known .rti } v → v.imm = [] → InitWrites divisor s v := by
        intro v k hvi
        refine ⟨fun _ => hvi, k.seq.trans w2.seq, k.desc.trans w2.desc, k.div5.trans w2.div5,
          k.params.trans w2.params, k.op.trans w2.op, .inr ⟨?_, ?_, k.divisor⟩, ?_,
          fun x => k.inbox (w2.inbox x)⟩
        · rw [k.pinVal, ← hv]
        · rw [k.pinDir, ← hdr]
        · obtain ⟨a, ha, ha'⟩ := w2.frames
          obtain ⟨b, hb, hb'⟩ := k.frames
          exact ⟨a ++ b, by rw [hb, ← List.append_assoc, ← ha]; rfl, by simp [ha', hb']⟩
      have hc := emitFlush_spec (initCommands divisor u) { u with
        divisor := some divisor
        pinVal := initPinVal u.pinVal
        pinDir := initPinDir u.pinDir
        cursor := .known .rti }
      simp only [initConfigure]
      cases h3 : emitFlush (initCommands divisor u) { u with
          divisor := some divisor
          pinVal := initPinVal u.pinVal
          pinDir := initPinDir u.pinDir
          cursor := .known .rti } with
      | raise e v =>
        rw [h3] at hc
        refine ⟨{ key v hc.1 hc.2.1 with }, fun e' t' h => ?_, fun b t' h => (by cases h)⟩
        cases h
        have := hc.2.2 _ _ rfl
        exact ⟨.inl this.1, this.2, rfl⟩
      | ok a v =>
        rw [h3] at hc
        have hs3 : v.synced = true := (emitFlush_ok_synced h3).trans hsy
        refine ⟨key v hc.1 hc.2.1, fun e' t' h => (by cases h), fun b t' h => ?_⟩
        cases h
        exact ⟨rfl, hc.1.cursor, hs3, hv ▸ hc.1.pinVal, hdr ▸ hc.1.pinDir, hc.1.divisor⟩

end Sys2Proof.Machine
end

