-- ==== Sys2Proof/Laws/HostOps.lean ====
section
/-! SUPPORT. One lemma for all host operations, one for all commands: what executing an instruction can
do. The claims about every instruction cite these and unfold no operation. -/

namespace Sys2Proof.Machine

/-! ### Commands -/

/-- A command changes the downstream as `cmdEffect` says, and nothing else. -/
theorem exec_command (i : Instr) (s : State) (h : i.isHostOp = false) :
    exec i s = .next (s.setDn (cmdEffect s.params.variant.hiSpeed i s.dn)) := by
  cases i <;> simp only [Instr.isHostOp, Bool.true_eq_false] at h <;> rfl

/-! ### Host operations -/

/-- What every host operation does, however it ends. -/
structure HostResult (s : State) (r : Res (List Byte)) : Prop where
  params : r.state.params = s.params
  op : r.state.op = s.op
  frames : ∃ es, r.state.log = s.log ++ es ∧ frames es = []
  inbox : (s.dn.mpsse = false → s.dn.inbox = []) → r.state.dn.mpsse = false → r.state.dn.inbox = []
  imm : s.imm = [] → r.state.imm = []
  channel : ∀ e t, r = .raise e t →
    e = .ioError ∨ e = .commandTimeout ∨ e = .synchronizationFailed → t.synced = false
  param : ∀ e t, r = .raise e t → e.kind = .parameter → t = s
  notOk : ∀ e t, r = .raise e t → e ≠ .success
  pins : (r.state.pinVal = s.pinVal ∧ r.state.pinDir = s.pinDir) ∨
    (r.state.pinVal = initPinVal s.pinVal ∧ r.state.pinDir = initPinDir s.pinDir)
  divisor : r.state.divisor = s.divisor ∨
    ∃ d : Half, d.toNat ≤ s.params.divisorMax ∧ r.state.divisor = some d

/-- What every host operation does to the deferred queue. -/
def QueueResult (s : State) (r : Res (List Byte)) : Prop :=
  (r.state.seq = s.seq ∧ r.state.desc = s.desc) ∨ (r.state.seq = [] ∧ r.state.desc = []) ∨
    ∃ c q, Config.nMin ≤ q.n ∧ q.n ≤ Config.nMax ∧ r.state.seq = s.seq ++ queuedBytes c q ∧
      r.state.desc = s.desc ++ queuedDesc q ∧ r.state.seq.length ≤ Config.cmdBufMax

/-- A parameter error. -/
theorem HostResult.parameter {s : State} {e : Status} (h : e.kind = .parameter) :
    HostResult s (.raise e s) := by
  refine ⟨rfl, rfl, ⟨[], by simp [Machine.frames]⟩, id, id, ?_, ?_, ?_, .inl ⟨rfl, rfl⟩, .inl rfl⟩
  · intro e t h1 h2
    cases h1
    rcases h2 with rfl | rfl | rfl <;> cases h
  · intro e t h1 h2
    cases h1
    rfl
  · intro e t h1
    cases h1
    rintro rfl
    cases h

/-- An operation that writes its own fields and then uses the transport. -/
theorem HostResult.sends {s s1 : State} {r : Res (List Byte)} {E : List Status}
    (h : Sends s1 E r) (hE : ∀ e ∈ E, e = .ioError ∨ e = .commandTimeout)
    (hp : s1.params = s.params) (ho : s1.op = s.op) (hl : s1.log = s.log) (hd : s1.dn = s.dn)
    (hv : s1.pinVal = s.pinVal) (hr : s1.pinDir = s.pinDir)
    (hdiv : s1.divisor = s.divisor ∨
      ∃ d : Half, d.toNat ≤ s.params.divisorMax ∧ s1.divisor = some d) :
    HostResult s r := by
  refine ⟨h.only.params.trans hp, h.only.op.trans ho, hl ▸ h.only.frames, hd ▸ h.only.inbox,
    fun _ => h.imm, fun e t h1 _ => (h.raised _ _ h1).2, fun e t h1 h2 => ?_, fun e t h1 => ?_,
    .inl ⟨h.only.pinVal.trans hv, h.only.pinDir.trans hr⟩, by rw [h.only.divisor]; exact hdiv⟩
  · rcases hE e (h.raised _ _ h1).1 with rfl | rfl <;> cases h2
  · rcases hE e (h.raised _ _ h1).1 with rfl | rfl <;> simp

/-- An operation that only emits and flushes. -/
theorem HostResult.flushes (cmds : List (List Byte)) {s s1 : State} (hp : s1.params = s.params)
    (ho : s1.op = s.op) (hl : s1.log = s.log) (hd : s1.dn = s.dn) (hv : s1.pinVal = s.pinVal)
    (hr : s1.pinDir = s.pinDir)
    (hdiv : s1.divisor = s.divisor ∨
      ∃ d : Half, d.toNat ≤ s.params.divisorMax ∧ s1.divisor = some d) :
    HostResult s ((emitFlush cmds s1).bind fun _ s2 => .ok [] s2) :=
  .sends (emitFlush_sends cmds s1).1 (by simp) hp ho hl hd hv hr hdiv

/-- An operation that ends well and uses no port. -/
theorem HostResult.quiet {s t : State} {b : List Byte} (hp : t.params = s.params)
    (ho : t.op = s.op) (hl : t.log = s.log) (hd : t.dn = s.dn) (hi : t.imm = s.imm)
    (hv : t.pinVal = s.pinVal) (hr : t.pinDir = s.pinDir) (hdv : t.divisor = s.divisor) :
    HostResult s (.ok b t) := by
  refine ⟨hp, ho, ⟨[], by simp [hl, Machine.frames]⟩, hd ▸ id, fun h => hi.trans h, ?_, ?_, ?_,
    .inl ⟨hv, hr⟩, .inl hdv⟩ <;>
  intro e t h <;> cases h

theorem addShift_result (s : State) (q : ShiftSpec) : HostResult s (addShift q s) := by
  unfold addShift
  simp only
  split
  · refine ⟨rfl, rfl, ⟨[], by simp [Machine.frames]⟩, id, id, ?_, ?_, ?_, .inl ⟨rfl, rfl⟩,
      .inl rfl⟩ <;> intro e t h <;> cases h <;> simp [Status.kind]
  · exact .quiet rfl rfl rfl rfl rfl rfl rfl rfl

theorem addShift_queue (s : State) (q : ShiftSpec) (h1 : Config.nMin ≤ q.n) (h2 : q.n ≤ Config.nMax) :
    (s.cursor ≠ .undefined → (addShift q s).state.cursor ≠ .undefined) ∧
      QueueResult s (addShift q s) := by
  unfold addShift
  simp only
  split
  · exact ⟨id, .inl ⟨rfl, rfl⟩⟩
  · next hl =>
    refine ⟨fun _ => by simp, .inr (.inr ⟨s.cursor, q, h1, h2, rfl, rfl, ?_⟩)⟩
    simp
    omega

/-- SYNC. -/
theorem syncOp_spec (s : State) :
    HostResult s (syncOp s) ∧ HandshakeOnly s (syncOp s).state ∧
      (∀ e t, syncOp s = .raise e t →
        (e = .ioError ∨ e = .synchronizationFailed) ∧ t.synced = false) ∧
      ∀ b t, syncOp s = .ok b t → b = [] ∧ t.synced = true := by
  have h := handshake_spec s
  unfold syncOp
  cases he : handshake s with
  | ok a t =>
    rw [he] at h
    simp only [Res.bind_ok]
    refine ⟨⟨h.1.params, h.1.op, h.1.frames, h.1.inbox, fun _ => h.2.1, ?_, ?_, ?_,
      .inl ⟨h.1.pinVal, h.1.pinDir⟩, .inl h.1.divisor⟩, h.1, ?_, ?_⟩
    any_goals (intro e t h; cases h; done)
    intro e t' h'
    cases h'
    exact ⟨rfl, h.2.2.2 _ rfl⟩
  | raise e t =>
    rw [he] at h
    have hr := h.2.2.1 _ _ rfl
    simp only [Res.bind_raise]
    refine ⟨⟨h.1.params, h.1.op, h.1.frames, h.1.inbox, fun _ => h.2.1, ?_, ?_, ?_,
      .inl ⟨h.1.pinVal, h.1.pinDir⟩, .inl h.1.divisor⟩, h.1, ?_, ?_⟩
    · intro e t h _; cases h; exact hr.2
    · intro e t h h2; cases h; rcases hr.1 with rfl | rfl <;> cases h2
    · intro e t h h2; cases h; rcases hr.1 with rfl | rfl <;> cases h2
    · intro e t h; cases h; exact hr
    · intro e t h; cases h

/-- SEQ_EXECUTE: nothing at all for an empty sequence, else an empty queue and transport activity. -/
theorem seqExecuteOp_spec (s : State) :
    (seqExecuteOp s = .ok [] s ∧ s.seq = [] ∧ s.desc = []) ∨
      (TransportOnly (s.setQueue [] []) (seqExecuteOp s).state ∧
        (seqExecuteOp s).state.imm = s.imm ∧
        ∀ e t, seqExecuteOp s = .raise e t →
          (e = .ioError ∨ e = .commandTimeout) ∧ t.synced = false) := by
  unfold seqExecuteOp
  split
  · next h => exact .inl ⟨rfl, h⟩
  · right
    have h := send_transportOnly (sequenceBytes s) (s.setQueue [] [])
    cases he : send (sequenceBytes s) (s.setQueue [] []) with
    | raise e t =>
      rw [he] at h
      refine ⟨h.1, h.2, ?_⟩
      intro e' t' h'
      cases h'
      exact ⟨.inl (send_raise he).1, (send_raise he).2⟩
    | ok a t =>
      rw [he] at h
      simp only [Res.bind_ok]
      split
      · exact ⟨h.1, h.2, fun e t h => by cases h⟩
      · have h2 := recvExact_spec (totalResponse s.desc) (sequenceBytes s).length t
        cases hr : recvExact (totalResponse s.desc) (sequenceBytes s).length t with
        | raise e u =>
          rw [hr] at h2
          refine ⟨h.1.trans h2.1, h2.2.1.trans h.2, ?_⟩
          intro e' t' h'
          cases h'
          exact h2.2.2.1 _ _ rfl
        | ok b u =>
          rw [hr] at h2
          simp only [Res.bind_ok]
          obtain ⟨r, w, hr', hw, hwi, _⟩ :=
            readResult_spec (totalResult s.desc) (demux b s.desc) u
          rw [hr']
          exact ⟨(h.1.trans h2.1).trans hw, hwi.trans (h2.2.1.trans h.2), fun e t h => by cases h⟩

/-- What executing a host operation can do. -/
theorem exec_hostOp (i : Instr) (s : State) (h : i.isHostOp = true) :
    ∃ r, exec i s = .next (finish r) ∧ HostResult s r ∧
      ((∀ d, i ≠ .init d) → s.cursor ≠ .undefined → r.state.cursor ≠ .undefined) ∧
      QueueResult s r := by
  cases i <;> simp only [Instr.isHostOp, Bool.false_eq_true] at h
  case move code =>
    refine ⟨moveOp code s, rfl, ?_⟩
    unfold moveOp
    split
    · exact ⟨.parameter rfl, fun _ => id, .inl ⟨rfl, rfl⟩⟩
    · next t ht =>
      have hs := (emitFlush_sends (moveCommands s.cursor t none false)
        (s.setCursor (.known t))).1
      exact ⟨.flushes _ rfl rfl rfl rfl rfl rfl (.inl rfl),
        fun _ _ => by rw [hs.only.cursor]; simp, .inl ⟨hs.only.seq, hs.only.desc⟩⟩
  case write ir e n data =>
    refine ⟨writeOp ir e n data s, rfl, ?_⟩
    rcases shift_cases (r := writeOp ir e n data s) rfl with ⟨e', he, hr⟩ | ⟨t, hc, hr⟩ <;> rw [hr]
    · exact ⟨.parameter he, fun _ => id, .inl ⟨rfl, rfl⟩⟩
    · have hs := (emitFlush_sends (shiftCommands s.cursor ⟨.w, ir, n.toNat, data, t⟩ ++ [])
        (s.setCursor (.known t))).1
      exact ⟨.flushes _ rfl rfl rfl rfl rfl rfl (.inl rfl),
        fun _ _ => by unfold sendShift; rw [hs.only.cursor]; simp,
        .inl ⟨hs.only.seq, hs.only.desc⟩⟩
  case read ir e n =>
    refine ⟨readOp ir e n s, rfl, ?_⟩
    rcases shift_cases (r := readOp ir e n s) rfl with ⟨e', he, hr⟩ | ⟨t, hc, hr⟩ <;> rw [hr]
    · exact ⟨.parameter he, fun _ => id, .inl ⟨rfl, rfl⟩⟩
    · have hn := (checkShift_ok hc).1
      have hs := (exchangeShift_sends ⟨.r, ir, n.toNat, [], t⟩
        (by simp only [Config.nMin] at hn ⊢; omega) s).1
      exact ⟨.sends hs (by simp) rfl rfl rfl rfl rfl rfl (.inl rfl),
        fun _ _ => by rw [hs.only.cursor]; simp, .inl ⟨hs.only.seq, hs.only.desc⟩⟩
  case writeRead ir e n data =>
    refine ⟨writeReadOp ir e n data s, rfl, ?_⟩
    rcases shift_cases (r := writeReadOp ir e n data s) rfl with ⟨e', he, hr⟩ | ⟨t, hc, hr⟩ <;>
      rw [hr]
    · exact ⟨.parameter he, fun _ => id, .inl ⟨rfl, rfl⟩⟩
    · have hn := (checkShift_ok hc).1
      have hs := (exchangeShift_sends ⟨.wr, ir, n.toNat, data, t⟩
        (by simp only [Config.nMin] at hn ⊢; omega) s).1
      exact ⟨.sends hs (by simp) rfl rfl rfl rfl rfl rfl (.inl rfl),
        fun _ _ => by rw [hs.only.cursor]; simp, .inl ⟨hs.only.seq, hs.only.desc⟩⟩
  case seqClear =>
    exact ⟨_, rfl, .quiet rfl rfl rfl rfl rfl rfl rfl rfl, fun _ => id, .inr (.inl ⟨rfl, rfl⟩)⟩
  case seqExecute =>
    refine ⟨seqExecuteOp s, rfl, ?_⟩
    rcases seqExecuteOp_spec s with ⟨hr, h1, h2⟩ | ⟨h1, h2, h3⟩
    · rw [hr]
      exact ⟨.quiet rfl rfl rfl rfl rfl rfl rfl rfl, fun _ => id, .inl ⟨rfl, rfl⟩⟩
    · refine ⟨⟨h1.params, h1.op, h1.frames, h1.inbox, fun h => h2.trans h,
        fun e t h _ => (h3 e t h).2, ?_, ?_, .inl ⟨h1.pinVal, h1.pinDir⟩, .inl h1.divisor⟩,
        fun _ => ?_, .inr (.inl ⟨h1.seq, h1.desc⟩)⟩
      · intro e t he hk
        rcases (h3 e t he).1 with rfl | rfl <;> cases hk
      · intro e t he hk
        rcases (h3 e t he).1 with rfl | rfl <;> cases hk
      · rw [h1.cursor]
        exact id
  case seqAddWrite ir e n data =>
    refine ⟨seqAddWriteOp ir e n data s, rfl, ?_⟩
    rcases shift_cases (r := seqAddWriteOp ir e n data s) rfl with ⟨e', he, hr⟩ | ⟨t, hc, hr⟩ <;>
      rw [hr]
    · exact ⟨.parameter he, fun _ => id, .inl ⟨rfl, rfl⟩⟩
    · have := addShift_queue s ⟨.w, ir, n.toNat, data, t⟩ (checkShift_ok hc).1
        (checkShift_ok hc).2.1
      exact ⟨addShift_result _ _, fun _ => this.1, this.2⟩
  case seqAddRead ir e n =>
    refine ⟨seqAddReadOp ir e n s, rfl, ?_⟩
    rcases shift_cases (r := seqAddReadOp ir e n s) rfl with ⟨e', he, hr⟩ | ⟨t, hc, hr⟩ <;> rw [hr]
    · exact ⟨.parameter he, fun _ => id, .inl ⟨rfl, rfl⟩⟩
    · have := addShift_queue s ⟨.r, ir, n.toNat, [], t⟩ (checkShift_ok hc).1
        (checkShift_ok hc).2.1
      exact ⟨addShift_result _ _, fun _ => this.1, this.2⟩
  case seqAddWriteRead ir e n data =>
    refine ⟨seqAddWriteReadOp ir e n data s, rfl, ?_⟩
    rcases shift_cases (r := seqAddWriteReadOp ir e n data s) rfl with
      ⟨e', he, hr⟩ | ⟨t, hc, hr⟩ <;> rw [hr]
    · exact ⟨.parameter he, fun _ => id, .inl ⟨rfl, rfl⟩⟩
    · have := addShift_queue s ⟨.wr, ir, n.toNat, data, t⟩ (checkShift_ok hc).1
        (checkShift_ok hc).2.1
      exact ⟨addShift_result _ _, fun _ => this.1, this.2⟩
  case pulse c =>
    refine ⟨pulseOp c s, rfl, ?_⟩
    unfold pulseOp
    split
    · exact ⟨.parameter rfl, fun _ => id, .inl ⟨rfl, rfl⟩⟩
    · have hs := (emitFlush_sends (pulseCommands c.toNat) s).1
      exact ⟨.flushes _ rfl rfl rfl rfl rfl rfl (.inl rfl),
        fun _ => by rw [hs.only.cursor]; exact id, .inl ⟨hs.only.seq, hs.only.desc⟩⟩
  case pulseHs a b c =>
    refine ⟨pulseHsOp a b c s, rfl, ?_⟩
    unfold pulseHsOp
    split
    · exact ⟨.parameter rfl, fun _ => id, .inl ⟨rfl, rfl⟩⟩
    split
    · exact ⟨.parameter rfl, fun _ => id, .inl ⟨rfl, rfl⟩⟩
    · have hs := (emitFlush_sends (pulseHsCommands a b c.toNat) s).1
      exact ⟨.flushes _ rfl rfl rfl rfl rfl rfl (.inl rfl),
        fun _ => by rw [hs.only.cursor]; exact id, .inl ⟨hs.only.seq, hs.only.desc⟩⟩
  case setClock d =>
    refine ⟨setClockOp d s, rfl, ?_⟩
    unfold setClockOp
    split
    · exact ⟨.parameter rfl, fun _ => id, .inl ⟨rfl, rfl⟩⟩
    · have hs := (emitFlush_sends [encode (.setTckDivisor d)] { s with divisor := some d }).1
      exact ⟨.flushes _ rfl rfl rfl rfl rfl rfl (.inr ⟨d, by omega, rfl⟩),
        fun _ => by rw [hs.only.cursor]; exact id, .inl ⟨hs.only.seq, hs.only.desc⟩⟩
  case setDiv5 on =>
    refine ⟨setDiv5Op on s, rfl, ?_⟩
    unfold setDiv5Op
    split
    · exact ⟨.parameter rfl, fun _ => id, .inl ⟨rfl, rfl⟩⟩
    · have hs := (emitFlush_sends [prescalerCommand on] { s with div5 := on }).1
      exact ⟨.flushes _ rfl rfl rfl rfl rfl rfl (.inl rfl),
        fun _ => by rw [hs.only.cursor]; exact id, .inl ⟨hs.only.seq, hs.only.desc⟩⟩
  case getFreq d =>
    refine ⟨getFreqOp d s, rfl, ?_⟩
    unfold getFreqOp
    split
    · exact ⟨.parameter rfl, fun _ => id, .inl ⟨rfl, rfl⟩⟩
    · exact ⟨.quiet rfl rfl rfl rfl rfl rfl rfl rfl, fun _ => id, .inl ⟨rfl, rfl⟩⟩
  case sync =>
    have := syncOp_spec s
    exact ⟨_, rfl, this.1, fun _ => by rw [this.2.1.cursor]; exact id,
      .inl ⟨this.2.1.seq, this.2.1.desc⟩⟩
  case init d =>
    refine ⟨initOp d s, rfl, ?_⟩
    by_cases hd : s.params.divisorMax < d.toNat
    · simp only [initOp, hd, if_true]
      exact ⟨.parameter rfl, fun h => (h d rfl).elim, .inl ⟨rfl, rfl⟩⟩
    · have h := initOp_spec d s hd
      refine ⟨⟨h.1.params, h.1.op, h.1.frames, h.1.inbox, h.1.imm, ?_, ?_, ?_, ?_, ?_⟩,
        fun h => (h d rfl).elim, .inr (.inl ⟨h.1.seq, h.1.desc⟩)⟩
      · intro e t he _
        exact (h.2.1 e t he).2.1
      · intro e t he hk
        rcases (h.2.1 e t he).1 with rfl | rfl <;> cases hk
      · intro e t he hk
        rcases (h.2.1 e t he).1 with rfl | rfl <;> cases hk
      · rcases h.1.pins with h | h
        · exact .inl ⟨h.1, h.2.1⟩
        · exact .inr ⟨h.1, h.2.1⟩
      · rcases h.1.pins with h | h
        · exact .inl h.2.2
        · exact .inr ⟨d, by omega, h.2.2⟩

/-! ### The end of an operation -/

theorem finish_log (r : Res (List Byte)) : (finish r).log =
    r.state.log ++ [.frame ((finish r).status.code :: (finish r).result)] := by
  cases r <;> rfl

theorem finish_result (r : Res (List Byte)) :
    (finish r).status ≠ .success → (finish r).result = [] := by
  cases r <;> simp [State.complete]

/-- A frame that decodes is a host operation's. -/
theorem decodeOp_isHostOp {frame : List Byte} {i : Instr} (h : decodeOp frame = .instr i) :
    i.isHostOp = true := by
  cases frame with
  | nil => cases h
  | cons op args =>
    simp only [decodeOp] at h
    split at h <;>
      (try simp only [decodeState, decodeShiftW, decodeShiftR, decodeNone, decodeCount,
        decodePulseHs, decodeU16, decodeFlag] at h) <;>
      (repeat' split at h) <;> cases h <;> rfl

/-! ### Legal shifts as operations -/

theorem ofCode_code (t : DefState) : DefState.ofCode t.code = some t := by cases t <;> rfl

theorem legal_toNat {q : ShiftSpec} (h : q.Legal) : (BitVec.ofNat 32 q.n).toNat = q.n := by
  have := h.2.1
  simp only [Config.nMax] at this
  simp only [BitVec.toNat_ofNat]
  omega

/-- The checks of a legal shift's operation pass. -/
theorem legal_check {q : ShiftSpec} (h : q.Legal) :
    checkShift q.n (if q.kind = .r then none else some q.data.length) q.exit.code = .ok q.exit := by
  refine checkShift_passes h.1 h.2.1 (fun k hk => ?_) (ofCode_code _)
  split at hk
  · cases hk
  · next hr =>
    cases hk
    exact h.2.2.2 hr

/-- The deferred operation of a legal shift. -/
theorem exec_deferred (s : State) {q : ShiftSpec} (hq : q.Legal) :
    exec q.deferred s = .next (finish (addShift q s)) := by
  have hn := legal_toNat hq
  have hc := legal_check hq
  obtain ⟨kind, ir, n, data, t⟩ := q
  dsimp only at hn hc
  cases kind with
  | w => simp_all only [ShiftSpec.deferred, exec, execSeqAddWrite, seqAddWriteOp, reduceCtorEq, if_false]
  | r =>
    have : data = [] := hq.2.2.1 rfl
    simp_all only [ShiftSpec.deferred, exec, execSeqAddRead, seqAddReadOp, if_true]
  | wr => simp_all only [ShiftSpec.deferred, exec, execSeqAddWriteRead, seqAddWriteReadOp, reduceCtorEq, if_false]

/-- The immediate operation of a legal shift. -/
theorem exec_immediate (s : State) {q : ShiftSpec} (hq : q.Legal) :
    exec q.immediate s = .next (finish (
      if q.kind = .w then (sendShift q [] s).bind fun _ s1 => .ok [] s1
      else exchangeShift q s)) := by
  have hn := legal_toNat hq
  have hc := legal_check hq
  obtain ⟨kind, ir, n, data, t⟩ := q
  dsimp only at hn hc
  cases kind with
  | w => simp_all only [ShiftSpec.immediate, exec, execWrite, writeOp, reduceCtorEq, if_true, if_false]
  | r =>
    have : data = [] := hq.2.2.1 rfl
    simp_all only [ShiftSpec.immediate, exec, execRead, readOp, reduceCtorEq, if_true, if_false]
  | wr => simp_all only [ShiftSpec.immediate, exec, execWriteRead, writeReadOp, reduceCtorEq, if_false]

end Sys2Proof.Machine
end

