-- ==== Sys2Proof/Laws/PerInstr.lean ====
section
/-! SUPPORT. Statements about each instruction as syntax, one lemma per constructor. -/

namespace Sys2Proof.Laws

/-- The bytes an instruction takes: a host operation's frame (30_encoding.md R95) or a command with its
operand and data bytes (R97, R98). -/
def specLength : Instr → Nat
  | .move _ => 2
  | .write _ _ _ data => 11 + data.length
  | .read _ _ _ => 7
  | .writeRead _ _ _ data => 11 + data.length
  | .seqClear => 1
  | .seqExecute => 1
  | .seqAddWrite _ _ _ data => 11 + data.length
  | .seqAddRead _ _ _ => 7
  | .seqAddWriteRead _ _ _ data => 11 + data.length
  | .pulse _ => 5
  | .pulseHs _ _ _ => 6
  | .setClock _ => 3
  | .setDiv5 _ => 2
  | .getFreq _ => 3
  | .init _ => 3
  | .sync => 1
  | .clkBytesOut data => 3 + data.length
  | .clkBitsOut _ _ => 3
  | .clkBytesIn _ => 3
  | .clkBitsIn _ => 2
  | .clkBytesOutIn data => 3 + data.length
  | .clkBitsOutIn _ _ => 3
  | .tmsOut _ _ => 3
  | .tmsOutIn _ _ => 3
  | .setPinsLow _ _ => 3
  | .setTckDivisor _ => 3
  | .sendImmediate => 1
  | .div5Off => 1
  | .div5On => 1
  | .clkOctets _ => 3
  | .clkOctetsUntilHigh _ => 3
  | .clkOctetsUntilLow _ => 3
  | .syncProbe1 => 1
  | .syncProbe2 => 1

/-- The encoding has the length its format gives it. -/
def EncodeLength.Statement (i : Instr) : Prop := (encode i).length = specLength i

theorem EncodeLength.move (state : Byte) : EncodeLength.Statement (.move state) := rfl

theorem EncodeLength.write (ir : Bool) (exit : Byte) (n : Word) (data : List Byte) :
    EncodeLength.Statement (.write ir exit n data) := by
  simp [EncodeLength.Statement, encode, specLength]

theorem EncodeLength.read (ir : Bool) (exit : Byte) (n : Word) :
    EncodeLength.Statement (.read ir exit n) := by
  simp [EncodeLength.Statement, encode, specLength]

theorem EncodeLength.writeRead (ir : Bool) (exit : Byte) (n : Word) (data : List Byte) :
    EncodeLength.Statement (.writeRead ir exit n data) := by
  simp [EncodeLength.Statement, encode, specLength]

theorem EncodeLength.seqClear : EncodeLength.Statement (.seqClear) := rfl

theorem EncodeLength.seqExecute : EncodeLength.Statement (.seqExecute) := rfl

theorem EncodeLength.seqAddWrite (ir : Bool) (exit : Byte) (n : Word) (data : List Byte) :
    EncodeLength.Statement (.seqAddWrite ir exit n data) := by
  simp [EncodeLength.Statement, encode, specLength]

theorem EncodeLength.seqAddRead (ir : Bool) (exit : Byte) (n : Word) :
    EncodeLength.Statement (.seqAddRead ir exit n) := by
  simp [EncodeLength.Statement, encode, specLength]

theorem EncodeLength.seqAddWriteRead (ir : Bool) (exit : Byte) (n : Word) (data : List Byte) :
    EncodeLength.Statement (.seqAddWriteRead ir exit n data) := by
  simp [EncodeLength.Statement, encode, specLength]

theorem EncodeLength.pulse (count : Word) : EncodeLength.Statement (.pulse count) := rfl

theorem EncodeLength.pulseHs (pinstop stoplevel : Bool) (count : Word) : EncodeLength.Statement (.pulseHs pinstop stoplevel count) := rfl

theorem EncodeLength.setClock (divisor : Half) : EncodeLength.Statement (.setClock divisor) := rfl

theorem EncodeLength.setDiv5 (on : Bool) : EncodeLength.Statement (.setDiv5 on) := rfl

theorem EncodeLength.getFreq (divisor : Half) : EncodeLength.Statement (.getFreq divisor) := rfl

theorem EncodeLength.init (divisor : Half) : EncodeLength.Statement (.init divisor) := rfl

theorem EncodeLength.sync : EncodeLength.Statement (.sync) := rfl

theorem EncodeLength.clkBytesOut (data : List Byte) :
    EncodeLength.Statement (.clkBytesOut data) := by
  simp [EncodeLength.Statement, encode, specLength]

theorem EncodeLength.clkBitsOut (n : BitVec 3) (d : Byte) : EncodeLength.Statement (.clkBitsOut n d) := rfl

theorem EncodeLength.clkBytesIn (len : Half) : EncodeLength.Statement (.clkBytesIn len) := rfl

theorem EncodeLength.clkBitsIn (n : BitVec 3) : EncodeLength.Statement (.clkBitsIn n) := rfl

theorem EncodeLength.clkBytesOutIn (data : List Byte) :
    EncodeLength.Statement (.clkBytesOutIn data) := by
  simp [EncodeLength.Statement, encode, specLength]

theorem EncodeLength.clkBitsOutIn (n : BitVec 3) (d : Byte) : EncodeLength.Statement (.clkBitsOutIn n d) := rfl

theorem EncodeLength.tmsOut (n : BitVec 3) (p : Byte) : EncodeLength.Statement (.tmsOut n p) := rfl

theorem EncodeLength.tmsOutIn (n : BitVec 3) (p : Byte) : EncodeLength.Statement (.tmsOutIn n p) := rfl

theorem EncodeLength.setPinsLow (val dir : Byte) : EncodeLength.Statement (.setPinsLow val dir) := rfl

theorem EncodeLength.setTckDivisor (div : Half) : EncodeLength.Statement (.setTckDivisor div) := rfl

theorem EncodeLength.sendImmediate : EncodeLength.Statement (.sendImmediate) := rfl

theorem EncodeLength.div5Off : EncodeLength.Statement (.div5Off) := rfl

theorem EncodeLength.div5On : EncodeLength.Statement (.div5On) := rfl

theorem EncodeLength.clkOctets (len : Half) : EncodeLength.Statement (.clkOctets len) := rfl

theorem EncodeLength.clkOctetsUntilHigh (len : Half) : EncodeLength.Statement (.clkOctetsUntilHigh len) := rfl

theorem EncodeLength.clkOctetsUntilLow (len : Half) : EncodeLength.Statement (.clkOctetsUntilLow len) := rfl

theorem EncodeLength.syncProbe1 : EncodeLength.Statement (.syncProbe1) := rfl

theorem EncodeLength.syncProbe2 : EncodeLength.Statement (.syncProbe2) := rfl

end Sys2Proof.Laws
end

