-- ==== Sys2Proof/Tests/Slice0.lean ====
section
/-! SUPPORT. The model's own tests: ill-formed terms, words decoded, one step on small states with results
from 95_test_vectors.md, and for each statement with hypotheses a state and operands that meet them. -/

namespace Sys2Proof.Tests

open Sys2Proof.Machine

/-! ### Ill-formed terms are refused -/

/-- A payload whose length does not fit `numBytes`. -/
theorem test_wf_payload_too_long : Instr.wf (.write false 0x02#8 8#32 (List.replicate 4294967296 0#8)) = false := by
  simp only [Instr.wf, payloadFits, List.length_replicate]
  decide

theorem test_wf_stoplevel_without_pinstop : Instr.wf (.pulseHs false true 1#32) = false := by decide

theorem test_wf_no_bytes : Instr.wf (.clkBytesOut []) = false := by decide

theorem test_wf_too_many_bytes : Instr.wf (.clkBytesOutIn (List.replicate 65537 0#8)) = false := by
  simp only [Instr.wf, byteCountFits, List.length_replicate]
  decide

theorem test_wf_eight_tms_clocks : Instr.wf (.tmsOut 7#3 0x00#8) = false ∧ Instr.wf (.tmsOutIn 7#3 0x00#8) = false := by
  decide

/-! ### Every constructor, decoded from a word written out (30_encoding.md R85 to R92, R97) -/

theorem test_decode_move : decodeOp [0x01#8, 0x06#8] = .instr (.move 0x06#8) := by decide

theorem test_decode_write : decodeOp [0x02#8, 0x00#8, 0x02#8, 0x10#8, 0#8, 0#8, 0#8, 0x02#8, 0#8, 0#8, 0#8,
    0x34#8, 0x12#8] = .instr (.write false 0x02#8 16#32 [0x34#8, 0x12#8]) := by decide

theorem test_decode_read : decodeOp [0x03#8, 0x01#8, 0x02#8, 0xF8#8, 0xFF#8, 0x07#8, 0#8] =
    .instr (.read true 0x02#8 524280#32) := by decide

theorem test_decode_write_read : decodeOp [0x04#8, 0x01#8, 0x03#8, 0x04#8, 0#8, 0#8, 0#8, 0x01#8, 0#8, 0#8,
    0#8, 0x0F#8] = .instr (.writeRead true 0x03#8 4#32 [0x0F#8]) := by decide

theorem test_decode_seq_clear : decodeOp [0x10#8] = .instr .seqClear := by decide

theorem test_decode_seq_execute : decodeOp [0x11#8] = .instr .seqExecute := by decide

theorem test_decode_seq_add_write : decodeOp [0x12#8, 0x00#8, 0x02#8, 0x08#8, 0#8, 0#8, 0#8, 0x01#8, 0#8,
    0#8, 0#8, 0x55#8] = .instr (.seqAddWrite false 0x02#8 8#32 [0x55#8]) := by decide

theorem test_decode_seq_add_read : decodeOp [0x13#8, 0x00#8, 0x05#8, 0x08#8, 0#8, 0#8, 0#8] =
    .instr (.seqAddRead false 0x05#8 8#32) := by decide

theorem test_decode_seq_add_write_read : decodeOp [0x14#8, 0x00#8, 0x02#8, 0x10#8, 0#8, 0#8, 0#8, 0x02#8,
    0#8, 0#8, 0#8, 0x34#8, 0x12#8] = .instr (.seqAddWriteRead false 0x02#8 16#32 [0x34#8, 0x12#8]) := by
  decide

theorem test_decode_pulse : decodeOp [0x20#8, 0x01#8, 0x94#8, 0x35#8, 0x77#8] =
    .instr (.pulse 2000000001#32) := by decide

theorem test_decode_pulse_hs : decodeOp [0x21#8, 0x01#8, 0x01#8, 0#8, 0#8, 0#8] =
    .instr (.pulseHs true false 1#32) := by decide

theorem test_decode_set_clock : decodeOp [0x22#8, 0xE9#8, 0x03#8] = .instr (.setClock 1001#16) := by decide

theorem test_decode_set_div5 : decodeOp [0x23#8, 0x01#8] = .instr (.setDiv5 true) := by decide

theorem test_decode_get_freq : decodeOp [0x24#8, 0x1D#8, 0x00#8] = .instr (.getFreq 29#16) := by decide

theorem test_decode_init : decodeOp [0x30#8, 0x00#8, 0x01#8] = .instr (.init 256#16) := by decide

theorem test_decode_sync : decodeOp [0x31#8] = .instr .sync := by decide

theorem test_decode_clk_bytes_out : decodeCmd false [0x19#8, 0x01#8, 0x00#8, 0x34#8, 0x12#8, 0x87#8] =
    .cmd (.clkBytesOut [0x34#8, 0x12#8]) [0x87#8] := by decide

theorem test_decode_clk_bits_out : decodeCmd false [0x1B#8, 0x06#8, 0x12#8] =
    .cmd (.clkBitsOut 6#3 0x12#8) [] := by decide

theorem test_decode_clk_bytes_in : decodeCmd false [0x28#8, 0xFD#8, 0xFF#8, 0x2A#8] =
    .cmd (.clkBytesIn 65533#16) [0x2A#8] := by decide

theorem test_decode_clk_bits_in : decodeCmd false [0x2A#8, 0x07#8] = .cmd (.clkBitsIn 7#3) [] := by decide

theorem test_decode_clk_bytes_out_in : decodeCmd false [0x39#8, 0x00#8, 0x00#8, 0x78#8] =
    .cmd (.clkBytesOutIn [0x78#8]) [] := by decide

theorem test_decode_clk_bits_out_in : decodeCmd false [0x3B#8, 0x00#8, 0x01#8] =
    .cmd (.clkBitsOutIn 0#3 0x01#8) [] := by decide

theorem test_decode_tms_out : decodeCmd false [0x4B#8, 0x06#8, 0x7F#8] = .cmd (.tmsOut 6#3 0x7F#8) [] := by
  decide

theorem test_decode_tms_out_in : decodeCmd false [0x6B#8, 0x02#8, 0x83#8] =
    .cmd (.tmsOutIn 2#3 0x83#8) [] := by decide

theorem test_decode_set_pins_low : decodeCmd false [0x80#8, 0x08#8, 0x0B#8] =
    .cmd (.setPinsLow 0x08#8 0x0B#8) [] := by decide

theorem test_decode_set_tck_divisor : decodeCmd false [0x86#8, 0x05#8, 0x01#8] =
    .cmd (.setTckDivisor 261#16) [] := by decide

theorem test_decode_send_immediate : decodeCmd false [0x87#8] = .cmd .sendImmediate [] := by decide

theorem test_decode_div5_off : decodeCmd true [0x8A#8, 0x86#8] = .cmd .div5Off [0x86#8] := by decide

theorem test_decode_div5_on : decodeCmd true [0x8B#8] = .cmd .div5On [] := by decide

theorem test_decode_clk_octets : decodeCmd true [0x8F#8, 0x7F#8, 0xB2#8] = .cmd (.clkOctets 45695#16) [] := by
  decide

theorem test_decode_clk_octets_until_high : decodeCmd true [0x9C#8, 0x07#8, 0x00#8] =
    .cmd (.clkOctetsUntilHigh 7#16) [] := by decide

theorem test_decode_clk_octets_until_low : decodeCmd true [0x9D#8, 0x00#8, 0x00#8] =
    .cmd (.clkOctetsUntilLow 0#16) [] := by decide

theorem test_decode_sync_probes : decodeCmd false [0xAA#8] = .cmd .syncProbe1 [] ∧
    decodeCmd false [0xAB#8] = .cmd .syncProbe2 [] := by decide

/-- A command that has not arrived whole waits; opcodes and operands outside R97 are named. -/
theorem test_decode_cmd_other : decodeCmd true [0x39#8, 0x01#8, 0x00#8, 0x78#8] = .more ∧
    decodeCmd true [0x81#8, 0x00#8] = .unlisted 0x81#8 [0x00#8] ∧
    decodeCmd false [0x8A#8] = .unlisted 0x8A#8 [] ∧
    decodeCmd true [0x4B#8, 0x07#8, 0x00#8] = .undescribed ∧
    decodeCmd true [0x1B#8, 0x08#8, 0x00#8] = .undescribed := by decide

/-- Vectors M10, M11, XE8, XE9, K19a, K25, I8 and §7 of 95_test_vectors.md: InvalidOperation. -/
theorem test_decode_rejects : decodeOp [0x01#8] = .reject .frameLength ∧
    decodeOp [0x01#8, 0x02#8, 0x00#8] = .reject .frameLength ∧
    decodeOp [0x02#8, 0x02#8, 0x02#8, 0x08#8, 0#8, 0#8, 0#8, 0x01#8, 0#8, 0#8, 0#8, 0xA5#8] =
      .reject .reservedFlag ∧
    decodeOp [0x02#8, 0x00#8, 0x02#8, 0x08#8, 0#8, 0#8, 0#8, 0x01#8, 0#8, 0#8, 0#8] =
      .reject .frameLength ∧
    decodeOp [0x21#8, 0x02#8, 0x01#8, 0#8, 0#8, 0#8] = .reject .reservedFlag ∧
    decodeOp [0x23#8, 0x03#8] = .reject .reservedFlag ∧ decodeOp [0x30#8, 0x05#8] = .reject .frameLength ∧
    decodeOp [0x00#8] = .reject .unassigned ∧ decodeOp [0x05#8] = .reject .unassigned ∧
    decodeOp [0xFF#8] = .reject .unassigned := by decide

/-- The text R101 gives an instruction (vector W2). -/
theorem test_asm : asm (.write false 0x02#8 16#32 [0x34#8, 0x12#8]) =
    some "WRITE DR, 16, [0x34, 0x12], RTI" := by decide

/-! ### Small states -/

/-- A poll after 1 ms at which everything produced has arrived. -/
def poll : Poll := ⟨1, 100000, false, false⟩

/-- A wait with these polls; if it fails, nothing of what waited was executed and nothing is lost. -/
def heard (polls : List Poll) : Wait := ⟨polls, 0, 0⟩

/-- The downstream in MPSSE mode and in step with a cursor, with nothing waiting. -/
def readyDn (c : Cursor) : Downstream where
  mpsse := true
  inbox := []
  rsp := []
  tap := match c with
    | .undefined => .pauseIR
    | .known a => a.tap
  reg := [true, false, true, true]
  tms := decide (c = .known .tlr)
  tdi := false
  pinVal := 0x00#8
  pinDir := 0x00#8
  divisor := 0#16
  div5 := false
  otherOpcodes := []
  captures := [bitsOf [0xCD#8, 0xAB#8, 0x34#8, 0x12#8] 32]
  stops := [5]
  draws := 0

/-- A synced instance whose transport answers well. -/
def ready (c : Cursor) : State :=
  { State.reset with
    cursor := c
    synced := true
    writes := List.replicate 4 .full
    waits := [heard [poll], heard [poll]]
    calls := List.replicate 7 true
    dn := readyDn c }

/-- The same on a Standard chip. -/
def readyStd (c : Cursor) : State := { ready c with params := Config.defaultParams .standard }

/-- The same with P_DIVISOR_MAX = 1000 (95_test_vectors.md §7). -/
def readySmallDivisor : State :=
  { ready (.known .rti) with
    params := { Config.defaultParams .standard with divisorMax := 1000 } }

/-- The state an instruction leaves. -/
def after (i : Instr) (s : State) : State :=
  match exec i s with
  | .next t => t
  | .fault _ => s
  | .refused _ => s

/-- What an instruction sends on CMD, and its result frame. -/
def sends (i : Instr) (s : State) : List Byte × List (List Byte) :=
  (cmdBytes (after i s).log, frames (after i s).log)

/-! ### One step each, with the outcome of 95_test_vectors.md -/

/-- M2, M8. -/
theorem test_move : sends (.move 0x02#8) (ready .undefined) =
      ([0x4B#8, 0x06#8, 0x7F#8, 0x4B#8, 0x00#8, 0x00#8], [[0x00#8]]) ∧
    sends (.move 0x07#8) (ready (.known .rti)) = ([], [[0x05#8]]) := by decide

/-- W8, XE10. -/
theorem test_write : sends (.write false 0x04#8 12#32 [0xBC#8, 0x0A#8]) (readyStd (.known .rti)) =
      ([0x4B#8, 0x02#8, 0x01#8, 0x19#8, 0x00#8, 0x00#8, 0xBC#8, 0x1B#8, 0x02#8, 0x0A#8, 0x4B#8, 0x06#8,
        0xAF#8], [[0x00#8]]) ∧
    sends (.write false 0x09#8 1#32 [0x01#8]) (readyStd (.known .rti)) = ([], [[0x03#8]]) := by decide

/-- R6: its CMD and its cursor (its result bytes are checked in `test_correct`). -/
theorem test_read : cmdBytes (after (.read false 0x05#8 33#32) (ready (.known .rti))).log =
      [0x4B#8, 0x02#8, 0x01#8, 0x28#8, 0x03#8, 0x00#8, 0x6B#8, 0x00#8, 0x00#8, 0x87#8] ∧
    (after (.read false 0x05#8 33#32) (ready (.known .rti))).cursor = .known .sdr ∧
    (after (.read false 0x05#8 33#32) (ready (.known .rti))).status = .success := by decide

/-- X4. -/
theorem test_write_read :
    cmdBytes (after (.writeRead false 0x02#8 16#32 [0x34#8, 0x92#8]) (ready (.known .rti))).log =
      [0x4B#8, 0x02#8, 0x01#8, 0x39#8, 0x00#8, 0x00#8, 0x34#8, 0x3B#8, 0x06#8, 0x92#8, 0x6B#8, 0x02#8,
        0x83#8, 0x87#8] := by decide

/-- The responses and results of R1, R4, R6, X5 and L7. -/
theorem test_correct : correct [0xCD#8, 0xAB#8, 0x34#8, 0x24#8, 0xC0#8] 32 3 = [0xCD#8, 0xAB#8, 0x34#8, 0x12#8] ∧
    correct [0xCD#8, 0xE0#8] 9 3 = [0xCD#8, 0x01#8] ∧
    correct [0xCD#8, 0xAB#8, 0x34#8, 0x12#8, 0x00#8] 33 1 = [0xCD#8, 0xAB#8, 0x34#8, 0x12#8, 0x00#8] ∧
    correct [0xCD#8, 0x60#8, 0xC0#8] 12 2 = [0xCD#8, 0x0B#8] ∧
    correct [0x11#8, 0x22#8, 0x06#8, 0xE0#8] 24 3 = [0x11#8, 0x22#8, 0x83#8] := by decide

/-- The response and result of S4. -/
theorem test_demux : demux [0x9A#8, 0x80#8, 0xAB#8, 0x34#8, 0x24#8, 0xC0#8] [⟨8, 1⟩, ⟨24, 3⟩] =
    [0xCD#8, 0xAB#8, 0x34#8, 0x12#8] := by decide

/-- S1. -/
theorem test_seq_add_write : (after (.seqAddWrite false 0x02#8 8#32 [0x55#8]) (ready (.known .rti))).seq =
      [0x4B#8, 0x02#8, 0x01#8, 0x1B#8, 0x06#8, 0x55#8, 0x4B#8, 0x02#8, 0x03#8] ∧
    sends (.seqAddWrite false 0x02#8 8#32 [0x55#8]) (ready (.known .rti)) = ([], [[0x00#8]]) := by decide

/-- The first add of S4. -/
theorem test_seq_add_read : (after (.seqAddRead false 0x05#8 8#32) (ready (.known .rti))).desc = [⟨8, 1⟩] ∧
    (after (.seqAddRead false 0x05#8 8#32) (ready (.known .rti))).seq =
      [0x4B#8, 0x02#8, 0x01#8, 0x2A#8, 0x06#8, 0x6B#8, 0x00#8, 0x00#8] := by decide

/-- The add 4 of P3, as the first one. -/
theorem test_seq_add_write_read :
    (after (.seqAddWriteRead false 0x02#8 16#32 [0x34#8, 0x12#8]) (ready (.known .rti))).seq =
      [0x4B#8, 0x02#8, 0x01#8, 0x39#8, 0x00#8, 0x00#8, 0x34#8, 0x3B#8, 0x06#8, 0x12#8, 0x6B#8, 0x02#8,
        0x03#8] ∧
    (after (.seqAddWriteRead false 0x02#8 16#32 [0x34#8, 0x12#8]) (ready (.known .rti))).desc =
      [⟨16, 3⟩] := by decide

/-- A queue of two reads (the bytes and descriptors of S4). -/
def queued : State :=
  { ready (.known .rti) with
    seq := [0x4B#8, 0x02#8, 0x01#8, 0x2A#8, 0x06#8, 0x6B#8, 0x00#8, 0x00#8, 0x28#8, 0x01#8, 0x00#8, 0x2A#8,
      0x06#8, 0x6B#8, 0x02#8, 0x03#8]
    desc := [⟨8, 1⟩, ⟨24, 3⟩] }

/-- S3. -/
theorem test_seq_clear : (after .seqClear queued).seq = [] ∧ (after .seqClear queued).desc = [] ∧
    sends .seqClear queued = ([], [[0x00#8]]) := by decide

/-- S4, and S11: the response is late. -/
theorem test_seq_execute : cmdBytes (after .seqExecute queued).log = queued.seq ++ [0x87#8] ∧
    (after .seqExecute queued).status = .success ∧
    (after .seqExecute { queued with waits := [heard [⟨1, 3, false, false⟩]] }).status = .commandTimeout := by
  decide

/-- A READ of 8 bits whose wait fails (R325 case 3, R331). CMD is `4B 02 01`, `2A 06`, `6B 01 01`, `87`.
First: one command was executed, the last two bytes are lost, the rest waits. Second: a byte was read, so
its command was executed. Third: nothing arrived at all. -/
theorem test_failed_receive :
    let left := fun polls executed lost =>
      let t := after (.read false 0x03#8 8#32)
        { ready (.known .rti) with waits := [⟨polls, executed, lost⟩] }
      (t.status, t.dn.tap, t.dn.inbox, t.dn.rsp)
    left [] 1 2 = (.commandTimeout, .shiftDR, [0x2A#8, 0x06#8, 0x6B#8, 0x01#8], []) ∧
    left [⟨1, 1, false, false⟩, ⟨1, 0, true, false⟩] 0 0 =
      (.ioError, .shiftDR, [0x6B#8, 0x01#8, 0x01#8, 0x87#8], []) ∧
    left [] 0 9 = (.commandTimeout, .runTestIdle, [], []) := by decide

/-- K7, K12. -/
theorem test_pulse : sends (.pulse 17#32) (ready (.known .rti)) =
      ([0x19#8, 0x01#8, 0x00#8, 0x00#8, 0x00#8, 0x1B#8, 0x00#8, 0x00#8], [[0x00#8]]) ∧
    sends (.pulse 0#32) (ready (.known .rti)) = ([], [[0x08#8]]) := by decide

/-- K16, K19b. -/
theorem test_pulse_hs : sends (.pulseHs false false 65537#32) (ready (.known .rti)) =
      ([0x8F#8, 0xFF#8, 0xFF#8, 0x8F#8, 0x00#8, 0x00#8], [[0x00#8]]) ∧
    sends (.pulseHs false false 0#32) (readyStd (.known .rti)) = ([], [[0x02#8]]) := by decide

/-- K18, K19. -/
theorem test_pulse_hs_pinstop : sends (.pulseHs true false 1#32) (ready (.known .rti)) =
      ([0x9D#8, 0x00#8, 0x00#8], [[0x00#8]]) ∧
    sends (.pulseHs true true 8#32) (ready (.known .rti)) = ([0x9C#8, 0x07#8, 0x00#8], [[0x00#8]]) := by
  decide

/-- K20, and §7's code 7. -/
theorem test_set_clock : sends (.setClock 5#16) (ready (.known .rti)) =
      ([0x86#8, 0x05#8, 0x00#8], [[0x00#8]]) ∧
    sends (.setClock 1001#16) readySmallDivisor = ([], [[0x07#8]]) := by decide

/-- K22, K24. -/
theorem test_set_div5 : sends (.setDiv5 true) (ready (.known .rti)) = ([0x8B#8], [[0x00#8]]) ∧
    sends (.setDiv5 true) (readyStd (.known .rti)) = ([], [[0x02#8]]) := by decide

/-- K26, K29. -/
theorem test_get_freq : sends (.getFreq 65535#16) (readyStd (.known .rti)) =
      ([], [[0x00#8, 0x5B#8, 0x00#8, 0x00#8, 0x00#8]]) ∧
    sends (.getFreq 5#16) { ready (.known .rti) with div5 := true } =
      ([], [[0x00#8, 0x40#8, 0x42#8, 0x0F#8, 0x00#8]]) := by decide

/-- A downstream with these response bytes waiting. -/
def withRsp (b : List Byte) (s : State) : State := s.setDn { s.dn with rsp := b }

/-- Y3, Y4. -/
theorem test_sync : sends .sync (withRsp [0xFA#8, 0xAB#8] (ready (.known .rti))) =
      ([0xAA#8, 0xAB#8], [[0x00#8]]) ∧
    sends .sync { ready (.known .rti) with waits := [heard []] } = ([0xAA#8], [[0x0C#8]]) := by decide

/-- I4, I6. -/
theorem test_init : sends (.init 5#16) { readyStd .undefined with pinVal := 0x50#8, pinDir := 0xF0#8 } =
      ([0xAA#8, 0xAB#8, 0x86#8, 0x05#8, 0x00#8, 0x80#8, 0x58#8, 0xFB#8, 0x4B#8, 0x06#8, 0x7F#8, 0x4B#8,
        0x00#8, 0x00#8], [[0x00#8]]) ∧
    sends (.init 5#16) { readyStd .undefined with calls := [true, true, true, true, true, false] } =
      ([], [[0x0A#8]]) := by decide

/-- R294 item 4, worked by hand: 8 bits into a 4-bit register in Shift-DR. -/
theorem test_clk_bytes : (after (.clkBytesOut [0xA5#8]) (ready (.known .sdr))).dn.reg =
      [false, true, false, true] ∧
    (after (.clkBytesOutIn [0xA5#8]) (ready (.known .sdr))).dn.rsp = [0x5D#8] := by decide

/-- R294 item 5, worked by hand: 3 bits of 6 into the same register. -/
theorem test_clk_bits_out : (after (.clkBitsOut 2#3 0x06#8) (ready (.known .sdr))).dn.reg =
      [true, false, true, true] ∧
    (after (.clkBitsOut 2#3 0x06#8) (ready (.known .sdr))).dn.tdi = true := by decide

/-- R294 items 4, 5: how many response bytes the reading forms give; the byte of 8 bits is whole. -/
theorem test_clk_in : (after (.clkBytesIn 1#16) (ready (.known .sdr))).dn.rsp.length = 2 ∧
    (after (.clkBitsIn 2#3) (ready (.known .sdr))).dn.rsp.length = 1 ∧
    (after (.clkBitsOutIn 7#3 0xA5#8) (ready (.known .sdr))).dn.rsp = [0x5D#8] := by decide

/-- R294 item 6: the bootstrap reaches Test-Logic-Reset, and TMS keeps the last bit clocked. -/
theorem test_tms : (after (.tmsOut 6#3 0x7F#8) (ready (.known .sir))).dn.tap = .testLogicReset ∧
    (after (.tmsOut 6#3 0x7F#8) (ready (.known .sir))).dn.tms = true ∧
    (after (.tmsOutIn 0#3 0x80#8) (ready (.known .sdr))).dn.reg = [false, true, true, true] := by decide

/-- R294 item 8. -/
theorem test_configuration : (after (.setPinsLow 0x08#8 0x0B#8) (ready (.known .rti))).dn.tms = true ∧
    (after (.setTckDivisor 7#16) (ready (.known .rti))).dn.divisor = 7#16 ∧
    (after .div5On (ready (.known .rti))).dn.div5 = true ∧
    (after .div5Off (after .div5On (ready (.known .rti)))).dn.div5 = false ∧
    after .sendImmediate (ready (.known .rti)) = ready (.known .rti) := by decide

/-- R294 item 9: the held TDI level goes in 8 times; GPIOL1 stops the pulses after 5 clocks. -/
theorem test_clk_octets : (after (.clkOctets 0#16) (ready (.known .sdr))).dn.reg = List.replicate 4 false ∧
    (after (.clkOctetsUntilHigh 0#16) (withRsp [] (ready (.known .sdr)))).dn.stops = [] ∧
    (after (.clkOctetsUntilLow 0#16) (ready (.known .sdr))).dn.reg = List.replicate 4 false := by decide

/-- R100. -/
theorem test_probes : (after .syncProbe1 (ready (.known .rti))).dn.rsp = [0xFA#8, 0xAA#8] ∧
    (after .syncProbe2 (ready (.known .rti))).dn.rsp = [0xFA#8, 0xAB#8] := by decide

/-! ### Every row of the opcode table: decoded from its word, and run as the first instruction -/

/-- The operation codes and opcodes of the table. -/
def tableOpcodes : List Nat :=
  [0x01, 0x02, 0x03, 0x04, 0x10, 0x11, 0x12, 0x13, 0x14, 0x20, 0x21, 0x22, 0x23, 0x24, 0x30, 0x31, 0x19,
    0x1B, 0x28, 0x2A, 0x39, 0x3B, 0x4B, 0x6B, 0x80, 0x86, 0x87, 0x8A, 0x8B, 0x8F, 0x9C, 0x9D, 0xAA, 0xAB]

theorem test_table_decodes : tableOpcodes.all (fun w => (decodeTableWord 8 w).isSome) = true := by decide

theorem test_first_instruction :
    step (State.reset.withFetchWord 8 0x10) = exec .seqClear State.reset ∧
      step (State.reset.withFetchWord 24 0x05014B) =
        exec (.tmsOut 1#3 0x05#8) (State.reset.setDn { State.reset.dn with mpsse := true }) := by
  constructor <;> rfl

/-! ### For each statement with hypotheses, a state and operands that meet them -/

theorem witness_DecodeOpInvertsEncode : Instr.wf (.pulseHs true true 8#32) = true ∧
    Instr.isHostOp (.pulseHs true true 8#32) = true ∧
    Instr.wf (.write true 0xFF#8 0#32 []) = true := by decide

theorem witness_DecodeCmdInvertsEncode : Instr.wf (.clkBytesOut [0x00#8]) = true ∧
    Instr.isHostOp (.clkBytesOut [0x00#8]) = false ∧ Instr.wf (.tmsOut 6#3 0xFF#8) = true := by decide

theorem witness_DecodedFrameIsItsEncoding : decodeOp [0x23#8, 0x00#8] = .instr (.setDiv5 false) := by decide

theorem witness_DecodedCommandIsItsEncoding :
    decodeCmd true [0x9D#8, 0xFF#8, 0xFF#8] = .cmd (.clkOctetsUntilLow 65535#16) [] ∧
    decodeCmd false [0x87#8, 0x87#8] = .cmd .sendImmediate [0x87#8] := by decide

/-- CMD bytes waiting. -/
def withInbox (b : List Byte) (s : State) : State := s.setDn { s.dn with inbox := b }

theorem witness_StepRunsFetchedCommand :
    (withInbox [0x87#8, 0xAA#8] (ready .undefined)).dn.mpsse = true ∧
    decodeCmd (ready .undefined).hs [0x87#8, 0xAA#8] = .cmd .sendImmediate [0xAA#8] := by decide

/-- A frame on OP. -/
def withOp (f : List Byte) (s : State) : State := { s with op := [f] }

theorem witness_StepRunsNextDescriptor :
    (withOp [0x31#8] State.reset).dn.fetch State.reset.hs = .more ∧
    decodeOp [0x31#8] = .instr .sync ∧
    (withInbox [0x4B#8, 0x06#8] (ready .undefined)).dn.fetch (ready .undefined).hs = .more := by decide

theorem witness_RejectedFrameOnlyReports :
    (withOp [] State.reset).dn.fetch State.reset.hs = .more ∧
    (withOp [] State.reset).op = [[]] ∧ decodeOp [] = .reject .noOperation ∧
    0x00#8 ∉ [0x01#8, 0x02#8, 0x03#8, 0x04#8, 0x10#8, 0x11#8, 0x12#8, 0x13#8, 0x14#8, 0x20#8, 0x21#8,
      0x22#8, 0x23#8, 0x24#8, 0x30#8, 0x31#8] ∧
    0x32#8 ∉ [0x01#8, 0x02#8, 0x03#8, 0x04#8, 0x10#8, 0x11#8, 0x12#8, 0x13#8, 0x14#8, 0x20#8, 0x21#8,
      0x22#8, 0x23#8, 0x24#8, 0x30#8, 0x31#8] ∧
    2 ≤ (0x02#8).toNat ∧ ([] : List Byte).length < 2 ^ 32 ∧ 4 ≤ (0x04#8).toNat := by decide

/-- The clause on the frame's length: one byte too many or too few of each format, and a WRITE whose
`numBytes` says 1 with no byte after it. -/
theorem witness_wrongLength : [0x00#8].length + 1 ≠ 1 ∧ ([] : List Byte).length + 1 ≠ 2 ∧
    [0x00#8].length + 1 ≠ 3 ∧ [0x00#8, 0x00#8, 0x00#8].length + 1 ≠ 5 ∧
    [0x00#8, 0x00#8, 0x00#8, 0x00#8].length + 1 ≠ 6 ∧ (List.replicate 7 0x00#8).length + 1 ≠ 7 ∧
    (List.replicate 9 0x00#8).length + 1 < 11 ∧
    ∀ numBytes : Nat, numBytes < 2 ^ 32 →
      (([0x00#8, 0x02#8, 0x08#8, 0#8, 0#8, 0#8, 0x01#8, 0#8, 0#8, 0#8] : List Byte).drop 6).take 4 =
        u32le numBytes →
      ([0x00#8, 0x02#8, 0x08#8, 0#8, 0#8, 0#8, 0x01#8, 0#8, 0#8, 0#8] : List Byte).length + 1 ≠
        11 + numBytes := by
  refine ⟨by decide, by decide, by decide, by decide, by decide, by decide, by decide, ?_⟩
  intro numBytes _ h hl
  obtain rfl : numBytes = 0 := by simpa using hl
  revert h
  decide

theorem witness_IdleMachineHoldsItsState : State.reset.dn.fetch State.reset.hs = .more ∧
    State.reset.op = [] := by decide

theorem witness_UnrecognisedOpcodeIsEchoed :
    (withInbox [0x00#8] State.reset).dn.inbox = 0x00#8 :: [] ∧
    (withInbox [0x00#8] (ready .undefined)).dn.mpsse = true ∧
    0x00#8 ∉ State.reset.dn.otherOpcodes ∧ 0xFF#8 ∉ State.reset.dn.otherOpcodes ∧
    0xAC#8 ∉ [0x19#8, 0x1B#8, 0x28#8, 0x2A#8, 0x39#8, 0x3B#8, 0x4B#8, 0x6B#8, 0x80#8, 0x86#8, 0x87#8,
      0x8A#8, 0x8B#8, 0x8F#8, 0x9C#8, 0x9D#8, 0xAA#8, 0xAB#8] ∧
    (withInbox [0x9D#8] (readyStd .undefined)).dn.inbox = 0x9D#8 :: [] ∧
    (withInbox [0x9D#8] (readyStd .undefined)).dn.mpsse = true ∧
    (readyStd .undefined).params.variant = .standard ∧ 0x9D#8 ∉ (readyStd .undefined).dn.otherOpcodes ∧
    0x9D#8 ∈ [0x8A#8, 0x8B#8, 0x8F#8, 0x9C#8, 0x9D#8] := by decide

theorem witness_ResetState : ∃ t, step (withOp [0x22#8, 0x05#8, 0x00#8] (ready .undefined)) = .next t :=
  ⟨_, rfl⟩

theorem reset_inv : State.reset.Inv := by
  constructor <;> first | decide | exact .inl (by decide) | (intro d h; cases h)

theorem witness_StepKeepsInvariant : State.reset.Inv ∧ ∃ t, step State.reset = .next t :=
  ⟨reset_inv, _, rfl⟩

theorem witness_EachDescriptorGetsOneFrame :
    (withOp [0x24#8, 0x00#8, 0x00#8] State.reset).dn.fetch State.reset.hs = .more ∧
    ∃ t, step (withOp [0x24#8, 0x00#8, 0x00#8] State.reset) = .next t :=
  ⟨rfl, _, rfl⟩

theorem witness_CursorStaysDefined : (∀ d, Instr.seqClear ≠ .init d) ∧
    (ready (.known .pdr)).cursor ≠ .undefined ∧ ∃ t, exec .seqClear (ready (.known .pdr)) = .next t :=
  ⟨fun _ => by simp, by decide, _, rfl⟩

theorem witness_ParameterErrorChangesNothing :
    (after (.move 0x00#8) (ready .undefined)).status.kind = .parameter ∧
    (∃ t, exec (.move 0x00#8) (ready .undefined) = .next t) ∧
    (withOp [0x32#8] State.reset).dn.fetch State.reset.hs = .more ∧
    ∃ t, step (withOp [0x32#8] State.reset) = .next t ∧ t.status.kind = .parameter :=
  ⟨by decide, ⟨_, rfl⟩, rfl, _, rfl, rfl⟩

/-- A transport that fails its first write. -/
def failing (s : State) : State := { s with writes := [.failed 0] }

theorem witness_ChannelErrorClearsSynced : (failing (ready .undefined)).imm = [] ∧
    (after (.move 0x01#8) (failing (ready .undefined))).status = .ioError ∧
    (after .seqExecute { queued with waits := [heard []] }).status = .commandTimeout ∧
    (after .sync { ready .undefined with waits := [heard []] }).status = .synchronizationFailed := by decide

/-- Two bytes a write, and a transport whose second write is short. -/
def shortWrite : State :=
  { ready .undefined with
    params := { (ready .undefined).params with writeChunk := 2, writeChunk_pos := by decide }
    writes := [.full, .wrote 0 3] }

theorem witness_SendWritesChunksInOrder :
    (failing (ready .undefined)).writes = List.replicate 0 .full ++ .failed 0 :: [] ∧
    (chunksOf (failing (ready .undefined)).params.writeChunk [0x87#8])[0]? = some [0x87#8] ∧
    shortWrite.writes = List.replicate 1 .full ++ .wrote 0 3 :: [] ∧
    (chunksOf shortWrite.params.writeChunk [0x4B#8, 0x06#8, 0x7F#8])[1]? = some [0x7F#8] ∧
    0 ≠ [0x7F#8].length ∧ { shortWrite with writes := [.full, .full] }.WritesAccepted [0x4B#8, 0x06#8, 0x7F#8] [] := by
  refine ⟨rfl, rfl, rfl, rfl, by decide, rfl⟩

/-- A send of these bytes whose first write fails, and one whose second write is short. -/
theorem writes_fail : (failing (ready .undefined)).WriteFails [0x4B#8, 0x06#8, 0x7F#8] 0 0 [] ∧
    shortWrite.WriteFails [0x4B#8, 0x06#8, 0x7F#8] 1 3 [] :=
  ⟨⟨.failed 0, [0x4B#8, 0x06#8, 0x7F#8], rfl, rfl, .inl rfl⟩,
    ⟨.wrote 0 3, [0x7F#8], rfl, rfl, .inr ⟨0, by decide, rfl⟩⟩⟩

theorem witness_MoveOperation : (ready .undefined).imm = [] ∧ DefState.ofCode 0x01#8 = some .tlr ∧
    DefState.ofCode 0x06#8 = some .sir ∧ (0x07#8).toNat = 7 ∧
    (ready .undefined).WritesAccepted [0x4B#8, 0x06#8, 0x7F#8] (List.replicate 3 .full) ∧
    (ready (.known .rti)).WritesAccepted [] (List.replicate 4 .full) ∧
    (failing (ready .undefined)).WriteFails [0x4B#8, 0x06#8, 0x7F#8] 0 0 [] ∧
    shortWrite.WriteFails [0x4B#8, 0x06#8, 0x7F#8] 1 3 [] := by
  refine ⟨rfl, rfl, rfl, rfl, ?_, ?_, writes_fail⟩ <;> rfl

theorem ready_inStep : (ready .undefined).InStep ∧ (ready (.known .tlr)).InStep ∧
    (ready (.known .sdr)).InStep := by
  refine ⟨⟨rfl, rfl, fun a h => by cases h⟩, ⟨rfl, rfl, fun a h => ?_⟩, ⟨rfl, rfl, fun a h => ?_⟩⟩ <;>
  · cases h
    decide

theorem witness_MoveKeepsCursorAndTapInStep : (ready (.known .tlr)).InStep ∧
    (after (.move 0x04#8) (ready (.known .tlr))).status = .success ∧ (ready .undefined).InStep ∧
    (after (.move 0x02#8) (ready .undefined)).status = .success :=
  ⟨ready_inStep.2.1, by decide, ready_inStep.1, by decide⟩

theorem witness_ShiftChecksInOrder : (1#32).toNat < 2 ∧ 524280 < (524281#32).toNat ∧
    2 ≤ (2#32).toNat ∧ (524280#32).toNat ≤ 524280 ∧
    [0x00#8].length < ((9#32).toNat + 7) / 8 ∧ 65535 < (List.replicate 65536 0x00#8).length ∧
    (0x00#8).toNat = 0 ∧ 7 ≤ (0x07#8).toNat := by
  simp only [List.length_replicate]
  decide

theorem witness_WriteCompletes : (ready .undefined).imm = [] ∧ 2 ≤ (2#32).toNat ∧
    ((2#32).toNat + 7) / 8 ≤ [0x03#8].length ∧ DefState.ofCode 0x03#8 = some .pdr ∧
    (ready .undefined).WritesAccepted
      (shiftCommands (ready .undefined).cursor ⟨.w, false, 2, [0x03#8], .pdr⟩).flatten
      (List.replicate 3 .full) ∧
    (failing (ready .undefined)).WriteFails
      (shiftCommands (ready .undefined).cursor ⟨.w, false, 2, [0x03#8], .pdr⟩).flatten 0 0 [] := by
  refine ⟨rfl, by decide, by decide, rfl, rfl, .failed 0, _, rfl, rfl, .inl rfl⟩

/-- A legal shift of 9 bits of each kind. -/
def spec (kind : ShiftKind) : ShiftSpec :=
  ⟨kind, false, 9, if kind = .r then [] else [0x34#8, 0x01#8], .rti⟩

theorem spec_legal (kind : ShiftKind) : (spec kind).Legal := by
  cases kind <;> refine ⟨by decide, by decide, ?_, ?_⟩ <;> decide

/-- A poll after 1 ms that sees nothing. -/
def quiet : Poll := ⟨1, 0, false, false⟩

/-- Polls that see nothing, then one byte, then all: a response that arrives over several polls. -/
def slow : List Poll := [quiet, ⟨2, 1, false, false⟩, ⟨3, 100000, false, false⟩]

theorem slow_passes (t : Nat) (h : 6 < t) (more : List Poll) : PollsPass t slow (slow ++ more) := by
  refine ⟨⟨more, rfl⟩, ?_, .inr h⟩
  simp [slow, quiet, PollWorks]

theorem slow_arrives (t n : Nat) (h : 6 < t) (h1 : 1 < n) (h2 : n ≤ 100001) (more : List Poll) :
    Arrives t n slow (slow ++ more) :=
  ⟨slow_passes t h more, h1, h2⟩

/-- Waits that end badly, each in one way: no more polls, a poll at the deadline, a count that fails, a
read that fails. -/
theorem waits_fail (late : Status) (t produced : Nat) (h : 1 < t) (hp : 0 < produced) :
    WaitFails late t produced [quiet] [quiet] t late ∧
    WaitFails late t produced [quiet] [quiet, ⟨t, 0, false, false⟩] (1 + t) late ∧
    WaitFails late t produced [quiet] [quiet, ⟨0, 0, true, false⟩] 1 .ioError ∧
    WaitFails late t produced [quiet] [quiet, ⟨0, 1, false, true⟩] 1 .ioError := by
  have hpass : ∀ more, PollsPass t [quiet] ([quiet] ++ more) := fun more =>
    ⟨⟨more, rfl⟩, by simp [quiet, PollWorks], .inr h⟩
  exact ⟨⟨hpass [], .inl ⟨rfl, rfl, rfl⟩⟩,
    ⟨hpass [_], .inr ⟨_, [], rfl, rfl, .inl ⟨rfl, Nat.le_add_left _ _⟩⟩⟩,
    ⟨hpass [_], .inr ⟨_, [], rfl, rfl, .inr ⟨rfl, h, .inl rfl⟩⟩⟩,
    ⟨hpass [_], .inr ⟨_, [], rfl, rfl, .inr ⟨rfl, h, .inr ⟨rfl, Nat.one_pos, hp⟩⟩⟩⟩⟩

theorem witness_ReadAndWriteReadComplete : (spec .r).Legal ∧ (spec .wr).Legal ∧
    ({ ready .undefined with waits := [heard slow] } : State).waits = heard slow :: [] ∧
    Arrives (ready .undefined).params.rxTimeoutMs (respLen 9) slow slow ∧
    (ready .undefined).WritesAccepted ((shiftCommands .undefined (spec .wr)).flatten ++ [0x87#8])
      (List.replicate 3 .full) ∧
    respLen 9 ≤ (((ready .undefined).afterSend
      ((shiftCommands .undefined (spec .wr)).flatten ++ [0x87#8]) []).dn.run true).rsp.length ∧
    respLen 9 ≤ (((ready .undefined).afterSend
      ((shiftCommands .undefined (spec .r)).flatten ++ [0x87#8]) []).dn.run true).rsp.length ∧
    (∀ e ∈ [Status.commandTimeout, .ioError], ∃ polls elapsed,
      WaitFails .commandTimeout (ready .undefined).params.rxTimeoutMs (respLen 9) [quiet] polls
        elapsed e) ∧
    pollReach [quiet] < respLen 9 ∧
    (failing (ready .undefined)).WriteFails ((shiftCommands .undefined (spec .wr)).flatten ++ [0x87#8])
      0 0 [] := by
  have hf := waits_fail .commandTimeout (ready .undefined).params.rxTimeoutMs (respLen 9) (by decide)
    (by decide)
  refine ⟨spec_legal _, spec_legal _, rfl, slow_arrives _ _ (by decide) (by decide) (by decide) [], rfl,
    by decide, by decide, ?_, by decide, .failed 0, _, rfl, rfl, .inl rfl⟩
  intro e he
  rcases List.mem_pair.1 he with rfl | rfl
  · exact ⟨_, _, hf.1⟩
  · exact ⟨_, _, hf.2.2.2⟩

/-- Parts of the bytes that a failing wait leaves executed: as many commands as it says, or as it takes
for the byte that was read. -/
theorem witness_partOfTheBytes :
    let pre : List Instr := [.tmsOut 2#3 0x01#8, .clkBitsIn 6#3]
    (readyDn (.known .rti)).mpsse = true ∧ (readyDn (.known .rti)).inbox = [] ∧
    (∀ i ∈ pre, ∀ more, decodeCmd true (encode i ++ more) = .cmd i more) ∧
    (⟨[], 2, 1⟩ : Wait).executed = pre.length ∧ (⟨[], 0, 1⟩ : Wait).executed < pre.length ∧
    ((deliver (pre.map encode).flatten (readyDn (.known .rti))).run true).rsp.length = 1 ∧
    ((deliver (pre.dropLast.map encode).flatten (readyDn (.known .rti))).run true).rsp.length < 1 ∧
    [0x87#8].length = (⟨[], 2, 1⟩ : Wait).lost ∧ (⟨[], 2, 1⟩ : Wait).lost ≤ 9 := by
  refine ⟨rfl, rfl, ?_, rfl, by decide, by decide, by decide, rfl, by decide⟩
  intro i hi more
  rcases List.mem_pair.1 hi with rfl | rfl <;> rfl

theorem witness_ResponseLengthIsExact : (spec .w).Legal ∧ (spec .r).Legal ∧ (spec .wr).Legal ∧
    (readyDn .undefined).mpsse = true ∧ (readyDn .undefined).inbox = [] :=
  ⟨spec_legal _, spec_legal _, spec_legal _, rfl, rfl⟩

theorem witness_CorrectionGivesTheSamples : 2 ≤ [true, false].length ∧ [true, false].length ≤ 524280 ∧
    (List.replicate 7 true).length = 8 - ([true, false].length - 1) % 8 ∧
    (List.replicate 7 true).length = 8 - 1 ∧ (List.replicate 1 true).length = 8 - 7 ∧
    (List.replicate 6 true).length = 7 - 1 := by decide

theorem ready_scan : (ready .undefined).ScanRegister false (bitsOf [0xCD#8, 0xAB#8, 0x34#8, 0x12#8] 32) ∧
    (ready (.known .sdr)).ScanRegister false [true, false, true, true] :=
  ⟨⟨⟨[], rfl⟩, fun _ => rfl⟩, rfl⟩

theorem witness_WriteShiftsThePayloadIn : (ready (.known .sdr)).InStep ∧
    (ready (.known .sdr)).ScanRegister false [true, false, true, true] ∧
    (after (.write false 0x05#8 2#32 [0x03#8]) (ready (.known .sdr))).status = .success ∧
    exitsToOtherRegister false .sdr = false :=
  ⟨ready_inStep.2.2, ready_scan.2, by decide, rfl⟩

theorem ready_read (c : Cursor) (h : (ready c).InStep) : (ready c).ReadyToRead := ⟨rfl, rfl, h, rfl⟩

theorem witness_WriteReadExchangesBits : (ready .undefined).ReadyToRead ∧
    (ready .undefined).ScanRegister false (bitsOf [0xCD#8, 0xAB#8, 0x34#8, 0x12#8] 32) ∧
    (after (.writeRead false 0x02#8 9#32 [0x34#8, 0x01#8]) (ready .undefined)).status = .success :=
  ⟨ready_read _ ready_inStep.1, ready_scan.1, by decide⟩

theorem witness_ReadReturnsTheRegister : (ready (.known .sdr)).ReadyToRead ∧
    (ready (.known .sdr)).ScanRegister false [true, false, true, true] ∧
    (4#32).toNat ≤ [true, false, true, true].length ∧
    (after (.read false 0x06#8 4#32) (ready (.known .sdr))).status = .success :=
  ⟨ready_read _ ready_inStep.2.2, ready_scan.2, by decide, by decide⟩

/-- A queue with no room. -/
def full : State := { ready (.known .rti) with seq := List.replicate 131072 0x00#8 }

theorem witness_AddsComplete : (spec .w).Legal ∧
    (ready (.known .rti)).seq.length + (shiftCommands (.known .rti) (spec .w)).flatten.length ≤ 131072 ∧
    131072 < full.seq.length + (shiftCommands full.cursor (spec .w)).flatten.length := by
  have h1 : full.seq.length = 131072 := List.length_replicate
  have h2 : 0 < (shiftCommands full.cursor (spec .w)).flatten.length := by decide
  exact ⟨spec_legal _, by decide, by omega⟩

theorem witness_EmptySequenceDoesNoIo : (ready .undefined).seq = [] ∧ (ready .undefined).desc = [] :=
  ⟨rfl, rfl⟩

theorem witness_SeqExecuteAlwaysEmptiesTheQueue : ∃ t, exec .seqExecute queued = .next t := ⟨_, rfl⟩

theorem witness_SeqExecuteCompletes :
    queued.WritesAccepted (queued.seq ++ [0x87#8]) (List.replicate 3 .full) ∧ queued.desc ≠ [] ∧
    ({ queued with waits := [heard slow] } : State).waits = heard slow :: [] ∧
    Arrives queued.params.rxTimeoutMs 6 slow slow ∧
    (queued.desc.map fun e => respLen e.nbits).sum = 6 ∧
    6 ≤ ((queued.afterSend (queued.seq ++ [0x87#8]) []).dn.run true).rsp.length ∧
    { queued with desc := [] }.seq ≠ [] ∧ queued.synced = true ∧
    { queued with synced := false }.synced = false ∧
    (∀ e ∈ [Status.commandTimeout, .ioError], ∃ polls elapsed,
      WaitFails .commandTimeout queued.params.rxTimeoutMs 6 [quiet] polls elapsed e) ∧
    pollReach [quiet] < 6 ∧ (failing queued).WriteFails (queued.seq ++ [0x87#8]) 0 0 [] := by
  have hf := waits_fail .commandTimeout queued.params.rxTimeoutMs 6 (by decide) (by decide)
  refine ⟨rfl, by decide, rfl, slow_arrives _ _ (by decide) (by decide) (by decide) [], rfl, by decide,
    by decide, rfl, rfl, ?_, by decide, .failed 0, _, rfl, rfl, .inl rfl⟩
  intro e he
  rcases List.mem_pair.1 he with rfl | rfl
  · exact ⟨_, _, hf.2.1⟩
  · exact ⟨_, _, hf.2.2.1⟩

theorem witness_DemuxSlicesIndependently :
    ∀ x ∈ [([0x9A#8, 0x80#8], (⟨8, 1⟩ : ReadDesc)), ([0x00#8, 0x00#8], ⟨2, 7⟩)],
      x.1.length = respLen x.2.nbits ∧ 2 ≤ x.2.nbits := by decide

theorem witness_BatchSendsTheImmediateBytes : (∀ q ∈ [spec .w, spec .r, spec .wr], q.Legal) ∧
    (ready .undefined).seq.length + (batchBytes .undefined [spec .w, spec .r, spec .wr]).length ≤ 131072 ∧
    (runOps ([spec .w, spec .r, spec .wr].map ShiftSpec.immediate) (ready .undefined)).isSome = true ∧
    { Config.defaultParams .standard with sendImmediateOnRead := false }.sendImmediateOnRead = false := by
  refine ⟨?_, by decide, by decide, rfl⟩
  intro q hq
  simp only [List.mem_cons, List.not_mem_nil, or_false] at hq
  rcases hq with rfl | rfl | rfl <;> exact spec_legal _

/-- The clause on the results: a batch and the same immediate operations, from one downstream. -/
theorem witness_batchResults :
    (ready .undefined).seq = [] ∧ (ready .undefined).desc = [] ∧ (ready .undefined).synced = true ∧
    (ready .undefined).imm = [] ∧ (ready .undefined).dn.mpsse = true ∧
    (ready .undefined).dn.inbox = [] ∧ (ready .undefined).dn.rsp = [] ∧
    (runOps ([spec .w, spec .r, spec .wr].map ShiftSpec.deferred) (ready .undefined)).map
      (fun t => (after .seqExecute t).status) = some .success ∧
    (runResults ([spec .w, spec .r, spec .wr].map ShiftSpec.immediate) (ready .undefined)).isSome =
      true := by decide

/-- A transport that accepts `m` writes. -/
def accepting (m : Nat) (s : State) : State := { s with writes := List.replicate m .full ++ [] }

/-- As many writes as the largest pulse could need. -/
def manyWrites : Nat := (pulseCommands (2000000000#32).toNat).flatten.length

theorem witness_PulseCompletes : (accepting manyWrites (ready .undefined)).imm = [] ∧
    1 ≤ (1#32).toNat ∧ (2000000000#32).toNat ≤ 2000000000 ∧
    (accepting manyWrites (ready .undefined)).writes = List.replicate manyWrites .full ++ [] ∧
    (pulseCommands (2000000000#32).toNat).flatten.length ≤ manyWrites ∧
    (pulseCommands (1#32).toNat).flatten.length ≤ 3 ∧
    (failing (ready .undefined)).writes = List.replicate 0 .full ++ .failed 0 :: [] ∧
    shortWrite.writes = List.replicate 1 .full ++ .wrote 0 3 :: [] ∧
    1 * shortWrite.params.writeChunk < [0x1B#8, 0x00#8, 0x00#8].length :=
  ⟨rfl, by decide, by decide, rfl, Nat.le_refl manyWrites, by decide, rfl, rfl, by decide⟩

theorem witness_PulseClocksExactly : (readyDn (.known .sdr)).mpsse = true ∧
    (readyDn (.known .sdr)).inbox = [] ∧ isShift (readyDn (.known .sdr)).tap = true ∧
    (readyDn (.known .sdr)).tms = false ∧
    tapNext (readyDn (.known .tlr)).tap (readyDn (.known .tlr)).tms = (readyDn (.known .tlr)).tap := by
  decide

theorem witness_PulseHsCompletes : (accepting 11445 (ready .undefined)).params.variant ≠ .standard ∧
    (accepting 11445 (ready .undefined)).writes = List.replicate 11445 .full ++ [] ∧
    (250000000#32).toNat ≤ (ready .undefined).params.hsPulseMaxFree ∧
    (8#32).toNat ≤ (ready .undefined).params.hsPulseMaxPinstop ∧
    ((List.replicate ((250000000#32).toNat / 65536) [0x8F#8, 0xFF#8, 0xFF#8]).flatten ++
      ([0x8F#8] ++ u16le ((250000000#32).toNat % 65536 - 1))).length ≤ 11445 ∧
    shortWrite.params.variant ≠ .standard ∧
    shortWrite.writes = List.replicate 1 .full ++ .wrote 0 3 :: [] ∧
    1 * shortWrite.params.writeChunk < [0x8F#8, 0x00#8, 0x00#8].length := by
  refine ⟨by decide, rfl, by decide, by decide, ?_, by decide, rfl, by decide⟩
  simp only [List.length_append, List.length_flatten, List.map_replicate, List.sum_replicate]
  decide

theorem witness_PulseCountsAreBounded : (0#32).toNat = 0 ∧ 2000000000 < (2000000001#32).toNat ∧
    (ready .undefined).params.variant ≠ .standard ∧
    (ready .undefined).params.hsPulseMaxPinstop < (9#32).toNat ∧
    (ready .undefined).params.hsPulseMaxFree < (250000001#32).toNat := by decide

theorem witness_StandardChipRefusesHiSpeedOps : (readyStd .undefined).params.variant = .standard := rfl

theorem witness_ClockSettingsComplete : (ready .undefined).imm = [] ∧
    (65535#16).toNat ≤ (ready .undefined).params.divisorMax ∧
    (ready .undefined).params.variant ≠ .standard ∧
    (ready .undefined).WritesAccepted [0x86#8, 0xFF#8, 0xFF#8] (List.replicate 3 .full) ∧
    (ready .undefined).WritesAccepted [0x8A#8] (List.replicate 3 .full) ∧
    shortWrite.WriteFails [0x86#8, 0xFF#8, 0xFF#8] 1 3 [] ∧
    (failing (ready .undefined)).WriteFails [0x8A#8] 0 0 [] := by
  exact ⟨rfl, by decide, by decide, rfl, rfl,
    ⟨.wrote 0 3, _, rfl, rfl, .inr ⟨0, by decide, rfl⟩⟩, .failed 0, _, rfl, rfl, .inl rfl⟩

theorem witness_DivisorsAreBounded : readySmallDivisor.params.divisorMax < (1001#16).toNat := by decide

theorem witness_GetFreqCompletes : (1000#16).toNat ≤ readySmallDivisor.params.divisorMax ∧
    readySmallDivisor.params.divisorMax < (1001#16).toNat := by decide

/-- Two waits whose echoes arrive over several polls, with a stale byte before the first. -/
def slowSync : State :=
  withRsp [0xFA#8] { ready .undefined with waits := [heard slow, heard slow], writes := [.full, .full, .failed 0] }

/-- The echoes of the two probes of SYNC at that state, and the state between them. -/
theorem slowSync_echoed (writes : List WriteReply) (ws : List Wait) :
    slowSync.Echoed 0xAA#8 slow slow ∧
    (slowSync.afterProbe 0xAA#8 (pollTime slow) (pollReach slow) writes ws).Echoed 0xAB#8 slow slow := by
  refine ⟨⟨slow_passes _ (by decide) [], ⟨1, rfl, rfl⟩, ?_⟩,
    slow_passes 5000 (by decide) [], ⟨0, rfl, rfl⟩, ?_⟩ <;>
    rw [← echoFound_iff]
  · decide
  · show ¬ echoFound 0xAB#8 ([0xFA#8, 0xAB#8].take 1) = true
    decide

theorem witness_SyncCompletes : slowSync.imm = [] ∧ slowSync.dn.mpsse = true ∧ slowSync.dn.inbox = [] ∧
    slowSync.writes = [.full, .full] ++ [.failed 0] ∧ slowSync.waits = heard slow :: heard slow :: [] ∧
    slowSync.Echoed 0xAA#8 slow slow ∧
    (slowSync.afterProbe 0xAA#8 (pollTime slow) (pollReach slow) [] []).Echoed 0xAB#8 slow slow :=
  ⟨rfl, rfl, rfl, rfl, rfl, slowSync_echoed [] []⟩

/-- The wait for an echo ends badly, in either way. -/
theorem echo_fails (probe : Byte) (s : State) (h : 1 < s.params.syncTimeoutMs) :
    ∀ e ∈ [Status.synchronizationFailed, .ioError], ∃ polls elapsed,
      s.EchoFails probe [quiet] polls elapsed e := by
  have hf := waits_fail .synchronizationFailed s.params.syncTimeoutMs (s.probeRsp probe).length h
    (by simp [State.probeRsp])
  have hn : ¬ HasEcho probe ((s.probeRsp probe).take (pollReach [quiet])) := by
    rw [← echoFound_iff]
    simp [pollReach, quiet, echoFound]
  intro e he
  rcases List.mem_pair.1 he with rfl | rfl
  · exact ⟨_, _, hf.1, hn⟩
  · exact ⟨_, _, hf.2.2.2, hn⟩

theorem witness_SyncOutcomes : (∃ t, exec .sync (ready .undefined) = .next t) ∧
    (failing (ready .undefined)).WriteFails [0xAA#8] 0 0 [] ∧ slowSync.imm = [] ∧
    slowSync.dn.mpsse = true ∧ slowSync.dn.inbox = [] ∧
    slowSync.writes = .full :: [.full, .failed 0] ∧ slowSync.waits = heard slow :: [heard slow] ∧
    (∀ e ∈ [Status.synchronizationFailed, .ioError], ∃ polls elapsed,
      slowSync.EchoFails 0xAA#8 [quiet] polls elapsed e) ∧
    slowSync.Echoed 0xAA#8 slow slow ∧
    (slowSync.afterProbe 0xAA#8 (pollTime slow) (pollReach slow) [.failed 0] [heard slow]).WriteFails [0xAB#8]
      0 0 [] ∧
    (∀ e ∈ [Status.synchronizationFailed, .ioError], ∃ polls elapsed,
      (slowSync.afterProbe 0xAA#8 (pollTime slow) (pollReach slow) [.full, .failed 0] [heard slow]).EchoFails
        0xAB#8 [quiet] polls elapsed e) :=
  ⟨⟨_, rfl⟩, ⟨.failed 0, _, rfl, rfl, .inl rfl⟩, rfl, rfl, rfl, rfl, rfl, echo_fails _ _ (by decide),
    (slowSync_echoed [] []).1, ⟨.failed 0, _, rfl, rfl, .inl rfl⟩, echo_fails _ _ (by decide)⟩

theorem witness_InitCompletes : (ready .undefined).imm = [] ∧
    (0#16).toNat ≤ (ready .undefined).params.divisorMax ∧
    (ready .undefined).calls = List.replicate 7 true ++ [] ∧
    (ready .undefined).writes = [.full, .full] ++
      List.replicate (chunksOf 4096 [0x8A#8, 0x86#8, 0#8,
      0#8, 0x80#8, 0x08#8, 0x0B#8, 0x4B#8, 0x06#8, 0x7F#8, 0x4B#8, 0#8, 0#8]).length .full ++ [.full] ∧
    slowSync.waits = heard slow :: heard slow :: [] ∧ Arrives (ready .undefined).params.syncTimeoutMs 2 slow slow :=
  ⟨by decide, by decide, by decide, by decide, rfl,
    slow_arrives _ _ (by decide) (by decide) (by decide) []⟩

theorem witness_InitBringsTheTargetToIdle :
    (after (.init 5#16) (ready .undefined)).status = .success ∧
    (after (.init 5#16) (readyStd (.known .sir))).status = .success := by decide

theorem witness_FailedInitLeavesUndefined :
    (5#16).toNat ≤ (ready .undefined).params.divisorMax ∧
    (after (.init 5#16) { ready .undefined with calls := [false] }).status = .ioError ∧
    (after (.init 5#16) { ready .undefined with waits := [heard []] }).status = .synchronizationFailed ∧
    (3 < 7 ∧ ({ ready .undefined with calls := [true, true, true, false] } : State).calls =
      List.replicate 3 true ++ false :: []) ∧
    slowSync.calls = List.replicate 7 true ++ [] ∧
    ((failing (ready .undefined)).afterInitCalls 7 []).WriteFails [0xAA#8] 0 0 [] ∧
    slowSync.writes = .full :: [.full, .failed 0] ∧ slowSync.waits = heard slow :: [heard slow] := by
  exact ⟨by decide, by decide, by decide, by decide, rfl, ⟨.failed 0, _, rfl, rfl, .inl rfl⟩, rfl, rfl⟩

/-- The clauses after the first probe of an INIT. -/
theorem witness_failedHandshake :
    let s0 := slowSync.afterInitCalls 7 []
    let s1 := fun w => s0.afterProbe 0xAA#8 (pollTime slow) (pollReach slow) w [heard slow]
    let s2 := (s1 [.full, .failed 0]).afterProbe 0xAB#8 (pollTime slow) (pollReach slow) [.failed 0] []
    (∀ e ∈ [Status.synchronizationFailed, .ioError], ∃ polls elapsed,
      s0.EchoFails 0xAA#8 [quiet] polls elapsed e) ∧
    s0.Echoed 0xAA#8 slow slow ∧ (s1 [.failed 0]).WriteFails [0xAB#8] 0 0 [] ∧
    (∀ e ∈ [Status.synchronizationFailed, .ioError], ∃ polls elapsed,
      (s1 [.full]).EchoFails 0xAB#8 [quiet] polls elapsed e) ∧
    (s1 [.full, .failed 0]).Echoed 0xAB#8 slow slow ∧
    s2.WriteFails [0x8A#8, 0x86#8, 0x05#8, 0x00#8, 0x80#8, 0x08#8, 0x0B#8, 0x4B#8, 0x06#8, 0x7F#8,
      0x4B#8, 0x00#8, 0x00#8] 0 0 [] := by
  refine ⟨echo_fails _ _ (by decide), ⟨slow_passes _ (by decide) [], ⟨0, rfl, rfl⟩, ?_⟩,
    ⟨.failed 0, _, rfl, rfl, .inl rfl⟩, echo_fails _ _ (by decide),
    ⟨slow_passes _ (by decide) [], ⟨0, rfl, rfl⟩, ?_⟩, .failed 0, _, rfl, rfl, .inl rfl⟩ <;>
  · rw [← echoFound_iff]
    decide

theorem witness_ImmediateTapOpsFrame : (ready .undefined).imm = [] ∧
    (∃ t, exec (.writeRead true 0x02#8 4#32 [0x0F#8]) (ready .undefined) = .next t) ∧
    (after (.move 0x07#8) (ready .undefined)).status.kind = .parameter ∧
    (after (.move 0x06#8) (ready .undefined)).status.kind ≠ .parameter :=
  ⟨rfl, ⟨_, rfl⟩, by decide, by decide⟩

theorem witness_QueueOpsDoNoIo : ∃ t, exec .seqClear (ready .undefined) = .next t := ⟨_, rfl⟩

theorem witness_ClockOpsFrame : (ready .undefined).imm = [] ∧
    (∃ t, exec (.setClock 5#16) (ready .undefined) = .next t) ∧
    Instr.pulse 1#32 ≠ .setClock 5#16 ∧ Instr.pulse 1#32 ≠ .setDiv5 true :=
  ⟨rfl, ⟨_, rfl⟩, by decide, by decide⟩

theorem witness_CommandsCompleteWithTheirResponses : Instr.isHostOp .div5Off = false ∧
    Instr.isHostOp (.clkBytesIn 0#16) = false ∧ (readyStd .undefined).params.variant = .standard := by
  decide

theorem witness_DataOutCommandsShiftTheRegister :
    isShift (ready (.known .sdr)).dn.tap = true ∧ (ready (.known .sdr)).dn.tms = false ∧
    isShift (ready (.known .sir)).dn.tap = true ∧ (ready (.known .sir)).dn.tms = false ∧
    [0x00#8] ≠ [] := by decide

/-- In Shift-DR with a 32-bit register. -/
def longRegister : State :=
  (ready (.known .sdr)).setDn { readyDn (.known .sdr) with
    reg := bitsOf [0xCD#8, 0xAB#8, 0x34#8, 0x12#8] 32 }

theorem witness_DataInCommandsReadTheRegister :
    isShift longRegister.dn.tap = true ∧ longRegister.dn.tms = false ∧
    8 * ((3#16).toNat + 1) ≤ longRegister.dn.reg.length ∧
    (7#3).toNat + 1 ≤ longRegister.dn.reg.length := by decide

theorem witness_TmsCommandsWalkTheTap : isShift (ready (.known .sdr)).dn.tap = true ∧
    (ready (.known .sdr)).dn.reg = true :: [false, true, true] := by decide

theorem witness_ConfigurationCommandsComplete : (ready .undefined).params.variant ≠ .standard := by decide

theorem witness_OctetCommandsShiftTheHeldLevel : (ready (.known .sdr)).params.variant ≠ .standard ∧
    isShift (ready (.known .sdr)).dn.tap = true ∧ (ready (.known .sdr)).dn.tms = false ∧
    (ready (.known .sdr)).dn.stops = 5 :: [] ∧ (ready (.known .rti)).params.variant ≠ .standard ∧
    isShift (ready (.known .rti)).dn.tap = false ∧
    tapNext (ready (.known .rti)).dn.tap (ready (.known .rti)).dn.tms = (ready (.known .rti)).dn.tap ∧
    (readyDn (.known .tlr)).mpsse = true ∧ (readyDn (.known .tlr)).inbox = [] ∧
    tapNext (readyDn (.known .tlr)).tap (readyDn (.known .tlr)).tms = (readyDn (.known .tlr)).tap := by
  decide

end Sys2Proof.Tests
end

section
/-! Proofs of the state family: what every host operation leaves of the invariant, of a defined cursor
and of `synced`, read off the one lemma for all host operations, and the statements of the family. -/

namespace Sys2Proof.Machine

/-! ### The end of an operation as one update -/

/-- An operation ends with STATUS, the result and the frame written, and nothing else (R31, R52, R81). -/
theorem finish_eq_complete (r : Res (List Byte)) :
    finish r = r.state.complete (finish r).status (finish r).result := by
  cases r <;> rfl

@[simp] theorem finish_cursor (r : Res (List Byte)) : (finish r).cursor = r.state.cursor := by
  rw [finish_eq_complete, State.complete_cursor]

@[simp] theorem finish_imm (r : Res (List Byte)) : (finish r).imm = r.state.imm := by
  rw [finish_eq_complete, State.complete_imm]

/-- A status other than Success was raised, and the state is the one it was raised in (R291). -/
theorem finish_raised {r : Res (List Byte)} (h : (finish r).status ≠ .success) :
    r = .raise (finish r).status r.state := by
  cases r with
  | ok b s => exact absurd rfl h
  | raise e s => rfl

/-- What a host operation that was executed did. -/
theorem exec_hostOp_next {i : Instr} {s t : State} (hi : i.isHostOp = true)
    (h : exec i s = .next t) :
    ∃ r, t = finish r ∧ HostResult s r ∧
      ((∀ d, i ≠ .init d) → s.cursor ≠ .undefined → r.state.cursor ≠ .undefined) ∧
      QueueResult s r := by
  obtain ⟨r, hr, hrest⟩ := exec_hostOp i s hi
  rw [hr] at h
  cases h
  exact ⟨r, rfl, hrest⟩

/-! ### The engine's pins (10_state.md R27) -/

theorem initPinVal_engineBits (v : Byte) : initPinVal v &&& 0x0F#8 = 0x08#8 := by
  rw [initPinVal, BitVec.and_or_distrib_right, BitVec.and_assoc]
  simp

theorem initPinDir_engineBits (d : Byte) : initPinDir d &&& 0x0F#8 = 0x0B#8 := by
  rw [initPinDir, BitVec.and_or_distrib_right, BitVec.and_assoc]
  simp

theorem HostResult.pinsLegal {s : State} {r : Res (List Byte)} (h : HostResult s r)
    (hs : s.PinsLegal) : r.state.PinsLegal := by
  rcases h.pins with ⟨hv, hd⟩ | ⟨hv, hd⟩
  · simpa only [State.PinsLegal, hv, hd] using hs
  · exact .inr ⟨hv ▸ initPinVal_engineBits s.pinVal, hd ▸ initPinDir_engineBits s.pinDir⟩

/-! ### The deferred queue (R24, R25, R190) -/

/-- What an add queues for a read is in range (R25, R130, R150). -/
theorem queuedDesc_inRange {q : ShiftSpec} (h1 : Config.nMin ≤ q.n) (h2 : q.n ≤ Config.nMax) :
    ∀ d ∈ queuedDesc q, d.InRange := by
  have hr : ReadDesc.InRange ⟨q.n, shiftClocks q⟩ := ⟨h1, h2, shiftClocks_bounds q⟩
  unfold queuedDesc
  cases q.kind <;> simp [hr]

/-- A queued descriptor comes with at least 5 queued bytes (R190). -/
theorem queuedDesc_bounded (c : Cursor) {q : ShiftSpec} (hn : Config.nMin ≤ q.n) :
    5 * (queuedDesc q).length ≤ (queuedBytes c q).length := by
  have hb := queuedBytes_length_ge c q hn
  unfold queuedDesc
  cases hk : q.kind with
  | w => simp
  | r => simpa using hb (by simp [hk])
  | wr => simpa using hb (by simp [hk])

/-- The queue's part of the invariant is kept. -/
theorem QueueResult.keeps_queue {s : State} {r : Res (List Byte)} (h : QueueResult s r)
    (hs : s.Inv) :
    r.state.seq.length ≤ Config.cmdBufMax ∧ (∀ d ∈ r.state.desc, d.InRange) ∧
      5 * r.state.desc.length ≤ r.state.seq.length := by
  rcases h with ⟨hq, hd⟩ | ⟨hq, hd⟩ | ⟨c, q, h1, h2, hq, hd, hcap⟩
  · rw [hq, hd]
    exact ⟨hs.seq_capped, hs.desc_inRange, hs.desc_bounded⟩
  · simp [hq, hd]
  · refine ⟨hcap, fun d hmem => ?_, ?_⟩
    · rw [hd] at hmem
      exact (List.mem_append.1 hmem).elim (hs.desc_inRange d) (queuedDesc_inRange h1 h2 d)
    · have := hs.desc_bounded
      have := queuedDesc_bounded c h1
      simp only [hq, hd, List.length_append]
      omega

/-! ### The invariant -/

/-- A change of the downstream keeps the invariant, if a downstream outside MPSSE mode holds no
commands after it. -/
theorem State.Inv.setDn {s : State} (hs : s.Inv) {d : Downstream}
    (hd : d.mpsse = false → d.inbox = []) : (s.setDn d).Inv :=
  { hs with inbox_only_mpsse := hd }

theorem State.Inv.takeFrame {s : State} (hs : s.Inv) (fs : List (List Byte)) :
    State.Inv { s with op := fs } :=
  { hs with }

theorem HostResult.divisor_bounded {s : State} {r : Res (List Byte)} (h : HostResult s r)
    (hs : s.Inv) : ∀ d, r.state.divisor = some d → d.toNat ≤ r.state.params.divisorMax := by
  intro d hd
  rw [h.params]
  rcases h.divisor with h' | ⟨d', hle, h'⟩
  · exact hs.divisor_bounded d (h' ▸ hd)
  · rw [h'] at hd
    cases hd
    exact hle

/-- The frame an operation puts on RES is the last one, and says STATUS and the result (R81). -/
theorem finish_lastFrame (r : Res (List Byte)) :
    lastFrame (finish r).log = some ((finish r).status.code :: (finish r).result) := by
  rw [finish_log, lastFrame_append_frame]

/-- An operation with these results, once it has ended, keeps the invariant. -/
theorem HostResult.keeps_inv {s : State} {r : Res (List Byte)} (h : HostResult s r)
    (hq : QueueResult s r) (hs : s.Inv) : (finish r).Inv := by
  obtain ⟨hcap, hrange, hbound⟩ := hq.keeps_queue hs
  have hres := finish_result r
  have hframe := finish_lastFrame r
  rw [finish_eq_complete] at hres hframe ⊢
  exact
    { imm_empty := h.imm hs.imm_empty
      seq_capped := hcap
      desc_inRange := hrange
      desc_bounded := hbound
      pins_legal := h.pinsLegal hs.pins_legal
      divisor_bounded := h.divisor_bounded hs
      no_result_on_error := hres
      inbox_only_mpsse := h.inbox hs.inbox_only_mpsse
      frame_is_status := .inr hframe }

/-- Executing any instruction keeps the invariant. -/
theorem exec_keeps_inv {i : Instr} {s t : State} (hs : s.Inv) (h : exec i s = .next t) : t.Inv := by
  cases hi : i.isHostOp with
  | true =>
    obtain ⟨r, rfl, hr, -, hq⟩ := exec_hostOp_next hi h
    exact hr.keeps_inv hq hs
  | false =>
    rw [exec_command i s hi] at h
    cases h
    obtain ⟨hm, hb⟩ := cmdEffect_inbox s.params.variant.hiSpeed i s.dn
    exact hs.setDn (by rw [hm, hb]; exact hs.inbox_only_mpsse)

/-- Accepting a descriptor keeps the invariant. -/
theorem stepBlock_keeps_inv {s t : State} (hs : s.Inv) (h : stepBlock s = .next t) : t.Inv := by
  unfold stepBlock at h
  split at h
  · cases h
    exact hs
  · next frame fs _ =>
    split at h
    · exact exec_keeps_inv (hs.takeFrame fs) h
    · cases h
      exact (HostResult.parameter rfl).keeps_inv (.inl ⟨rfl, rfl⟩) (hs.takeFrame fs)

/-- A downstream that finds anything on CMD is in MPSSE mode. -/
theorem Downstream.mpsse_of_fetch {hs : Bool} {d : Downstream} (h : d.fetch hs ≠ .more) :
    d.mpsse = true := by
  by_contra hm
  exact h (by simp [Downstream.fetch, hm])

/-- Settles O13: a step changes the downstream alone, which keeps its command rule, or runs one
instruction, or accepts one descriptor. -/
theorem stepKeepsInvariant : Obligations.StepKeepsInvariant := by
  unfold Obligations.StepKeepsInvariant
  intro s t hs h
  unfold step at h
  cases hf : s.dn.fetch s.params.variant.hiSpeed with
  | more =>
    rw [hf] at h
    exact stepBlock_keeps_inv hs h
  | cmd i rest =>
    rw [hf] at h
    have hm : s.dn.mpsse = true := Downstream.mpsse_of_fetch (by rw [hf]; simp)
    exact exec_keeps_inv (hs.setDn (by simp [hm])) h
  | unlisted op rest =>
    have ha : s.dn.advance s.params.variant.hiSpeed =
        some (unlistedOpcode op { s.dn with inbox := rest }) := by
      simp only [Downstream.advance, hf]
    rw [hf] at h
    cases h
    exact hs.setDn (advance_inbox ha)
  | undescribed =>
    have ha : s.dn.advance s.params.variant.hiSpeed = some (loseTrack s.dn) := by
      simp only [Downstream.advance, hf]
    rw [hf] at h
    cases h
    exact hs.setDn (advance_inbox ha)

/-! ### The cursor and `synced` -/

/-- Settles O16: a command leaves the block alone, and no host operation but INIT writes Undefined. -/
theorem cursorStaysDefined : Obligations.CursorStaysDefined := by
  unfold Obligations.CursorStaysDefined
  intro i s t hinit hs h
  cases hi : i.isHostOp with
  | true =>
    obtain ⟨r, rfl, -, hc, -⟩ := exec_hostOp_next hi h
    rw [finish_cursor]
    exact hc hinit hs
  | false =>
    rw [exec_command i s hi] at h
    cases h
    exact hs

/-- Settles O18: such a status was raised, and every operation that raises it has cleared `synced`. -/
theorem channelErrorClearsSynced : Obligations.ChannelErrorClearsSynced := by
  unfold Obligations.ChannelErrorClearsSynced
  intro i s t hi himm h hstatus
  obtain ⟨r, rfl, hr, -, -⟩ := exec_hostOp_next hi h
  have hne : (finish r).status ≠ .success := by
    intro h0
    simp [h0] at hstatus
  have hsynced : r.state.synced = false := hr.channel _ _ (finish_raised hne) hstatus
  refine ⟨?_, ?_, finish_result r hne⟩
  · rw [finish_eq_complete, State.complete_synced, hsynced]
  · rw [finish_imm, hr.imm himm]

end Sys2Proof.Machine
end

section
/-! Proofs of the memory family: the statement about a send, put together from what the support lemmas
say of its pieces and of its two outcomes (20_memory.md R58, R59). -/

namespace Sys2Proof.Machine

/-- Settles O19: the pieces of a send join to its bytes and are full but for the last, and the send's
outcome follows from the first answer that is not in full. -/
theorem sendWritesChunksInOrder : Obligations.SendWritesChunksInOrder := by
  unfold Obligations.SendWritesChunksInOrder
  refine ⟨?chunks, ?accepted, ?failing⟩
  case chunks =>
    intro p bytes
    obtain ⟨hnonempty, hfull⟩ := chunksFor_full p.writeChunk p.writeChunk_pos _ bytes le_rfl
    exact ⟨chunksOf_flatten p.writeChunk_pos bytes,
      fun c hc => ⟨hnonempty c hc, chunksOf_length_le _ bytes c hc⟩, hfull⟩
  case accepted =>
    intro s bytes rest h
    exact send_accepted h
  case failing =>
    intro s bytes c k delivered r rest hwrites hpiece hreply
    exact send_failed ⟨r, c, hwrites, hpiece, hreply⟩

end Sys2Proof.Machine
end

section
/-! Proofs of the encoding family, part 1: for each format its decoder accepts exactly the bytes that
encode an instruction of the format, for frames on OP (30_encoding.md R80 to R95) and for commands on
CMD (R97 to R99). Both directions of "decode and encode agree" are read off these equivalences. -/

namespace Sys2Proof

/-! ### Flag bytes (R84) -/

theorem irFlag_eq_some {flags : Byte} {ir : Bool} : irFlag flags = some ir ↔ flags = flagByte ir := by
  constructor
  · intro h
    unfold irFlag at h
    split at h
    · next hlt =>
      cases h
      exact (flagByte_getLsbD_zero flags hlt).symm
    · cases h
  · rintro rfl
    exact irFlag_flagByte ir

theorem irFlag_eq_none {flags : Byte} (h : 2 ≤ flags.toNat) : irFlag flags = none := by
  rw [irFlag, if_neg (by omega)]

/-- A PULSE_HS flag byte without reserved bits is the flag byte of its two named bits. -/
theorem pulseHsFlags_getLsbD (flags : Byte) (h : flags.toNat < 4) :
    pulseHsFlags (flags.getLsbD 0) (flags.getLsbD 1) = flags := by
  obtain ⟨k, rfl⟩ : ∃ k : Fin 4, flags = BitVec.ofNat 8 k.val :=
    ⟨⟨flags.toNat, h⟩, (BitVec.ofNat_toNat 8 flags).symm⟩
  revert k
  decide

/-! ### The formats of a descriptor -/

theorem decodeNone_eq_instr {j i : Instr} {args : List Byte} :
    decodeNone j args = .instr i ↔ args = [] ∧ j = i := by
  cases args <;> simp [decodeNone]

theorem decodeState_eq_instr {mk : Byte → Instr} {args : List Byte} {i : Instr} :
    decodeState mk args = .instr i ↔ ∃ state, args = [state] ∧ mk state = i := by
  unfold decodeState
  split <;> simp_all

theorem decodeU16_eq_instr {mk : Half → Instr} {args : List Byte} {i : Instr} :
    decodeU16 mk args = .instr i ↔ ∃ d : Half, args = u16le d.toNat ∧ mk d = i := by
  constructor
  · intro h
    unfold decodeU16 at h
    split at h <;> cases h
    exact ⟨_, (u16le_ofU16le _ _).symm, rfl⟩
  · rintro ⟨d, rfl, rfl⟩
    simp [decodeU16, u16le]

theorem decodeCount_eq_instr {mk : Word → Instr} {args : List Byte} {i : Instr} :
    decodeCount mk args = .instr i ↔ ∃ c : Word, args = u32le c.toNat ∧ mk c = i := by
  constructor
  · intro h
    unfold decodeCount at h
    split at h <;> cases h
    exact ⟨_, (u32le_ofU32le _ _ _ _).symm, rfl⟩
  · rintro ⟨c, rfl, rfl⟩
    simp [decodeCount, u32le]

theorem decodeFlag_eq_instr {mk : Bool → Instr} {args : List Byte} {i : Instr} :
    decodeFlag mk args = .instr i ↔ ∃ on, args = [flagByte on] ∧ mk on = i := by
  constructor
  · intro h
    unfold decodeFlag at h
    split at h
    · next flags =>
      split at h <;> cases h
      next hlt => exact ⟨_, by rw [flagByte_getLsbD_zero flags hlt], rfl⟩
    · cases h
  · rintro ⟨on, rfl, rfl⟩
    cases on <;> rfl

theorem decodePulseHs_eq_instr {args : List Byte} {i : Instr} :
    decodePulseHs args = .instr i ↔
      ∃ (pinstop stoplevel : Bool) (c : Word), (pinstop || !stoplevel) = true ∧
        args = pulseHsFlags pinstop stoplevel :: u32le c.toNat ∧
        .pulseHs pinstop stoplevel c = i := by
  constructor
  · intro h
    unfold decodePulseHs at h
    split at h
    · next flags c0 c1 c2 c3 =>
      split at h
      · next hlt =>
        split at h <;> cases h
        next hflags =>
          exact ⟨_, _, _, hflags, by rw [pulseHsFlags_getLsbD flags hlt, u32le_ofU32le], rfl⟩
      · cases h
    · cases h
  · rintro ⟨pinstop, stoplevel, c, hflags, rfl, rfl⟩
    cases pinstop <;> cases stoplevel <;> simp_all [decodePulseHs, u32le, pulseHsFlags]

theorem decodeShiftR_eq_instr {mk : Bool → Byte → Word → Instr} {args : List Byte} {i : Instr} :
    decodeShiftR mk args = .instr i ↔
      ∃ ir exit n, args = flagByte ir :: exit :: u32le n.toNat ∧ mk ir exit n = i := by
  constructor
  · intro h
    unfold decodeShiftR at h
    split at h
    · split at h <;> cases h
      next ir hir => exact ⟨ir, _, _, by rw [irFlag_eq_some.1 hir, u32le_ofU32le], rfl⟩
    · cases h
  · rintro ⟨ir, exit, n, rfl, rfl⟩
    simp [decodeShiftR, u32le]

theorem decodeShiftW_eq_instr {mk : Bool → Byte → Word → List Byte → Instr} {args : List Byte}
    {i : Instr} :
    decodeShiftW mk args = .instr i ↔
      ∃ ir exit n data, payloadFits data = true ∧
        args = flagByte ir :: exit :: (u32le n.toNat ++ u32le data.length ++ data) ∧
        mk ir exit n data = i := by
  constructor
  · intro h
    unfold decodeShiftW at h
    split at h
    · next flags exit n0 n1 n2 n3 m0 m1 m2 m3 data =>
      split at h
      · next hlen =>
        split at h <;> cases h
        next ir hir =>
          refine ⟨ir, exit, _, data, ?_, ?_, rfl⟩
          · rw [payloadFits, hlen]
            exact decide_eq_true (ofU32le m0 m1 m2 m3).isLt
          · rw [irFlag_eq_some.1 hir, hlen, u32le_ofU32le, u32le_ofU32le]
            rfl
      · cases h
    · cases h
  · rintro ⟨ir, exit, n, data, hfits, rfl, rfl⟩
    have hlen := ofU32le_u32le data.length (of_decide_eq_true hfits)
    simp [decodeShiftW, u32le, hlen]

/-! ### The formats of a command -/

theorem cmdSingle_eq_cmd {j i : Instr} {args rest : List Byte} :
    cmdSingle j args = .cmd i rest ↔ args = rest ∧ j = i := by
  simp [cmdSingle, and_comm]

theorem cmdHiSpeed_eq_cmd {hs : Bool} {op : Byte} {args rest : List Byte} {r : CmdDecode}
    {i : Instr} : cmdHiSpeed hs op args r = .cmd i rest ↔ hs = true ∧ r = .cmd i rest := by
  cases hs <;> simp [cmdHiSpeed]

theorem cmdPins_eq_cmd {mk : Byte → Byte → Instr} {args rest : List Byte} {i : Instr} :
    cmdPins mk args = .cmd i rest ↔ ∃ v d, args = v :: d :: rest ∧ mk v d = i := by
  unfold cmdPins
  split <;> simp_all [and_comm]

theorem cmdLen16_eq_cmd {mk : Half → Instr} {args rest : List Byte} {i : Instr} :
    cmdLen16 mk args = .cmd i rest ↔ ∃ l : Half, args = u16le l.toNat ++ rest ∧ mk l = i := by
  constructor
  · intro h
    unfold cmdLen16 at h
    split at h <;> cases h
    exact ⟨_, by rw [u16le_ofU16le]; rfl, rfl⟩
  · rintro ⟨l, rfl, rfl⟩
    simp [cmdLen16, u16le]

theorem cmdLen3_eq_cmd {mk : BitVec 3 → Instr} {args rest : List Byte} {i : Instr} :
    cmdLen3 mk args = .cmd i rest ↔ ∃ n : BitVec 3, args = n.setWidth 8 :: rest ∧ mk n = i := by
  constructor
  · intro h
    unfold cmdLen3 at h
    split at h
    · split at h <;> cases h
      next hlt => exact ⟨_, by rw [setWidth_eight_three _ hlt], rfl⟩
    · cases h
  · rintro ⟨n, rfl, rfl⟩
    simp only [cmdLen3, setWidth_eight_toNat, setWidth_three_eight, n.isLt, if_true]

theorem cmdLen3Data_eq_cmd {mk : BitVec 3 → Byte → Instr} {args rest : List Byte} {i : Instr} :
    cmdLen3Data mk args = .cmd i rest ↔
      ∃ (n : BitVec 3) (d : Byte), args = n.setWidth 8 :: d :: rest ∧ mk n d = i := by
  constructor
  · intro h
    unfold cmdLen3Data at h
    split at h
    · split at h <;> cases h
      next hlt => exact ⟨_, _, by rw [setWidth_eight_three _ hlt], rfl⟩
    · cases h
  · rintro ⟨n, d, rfl, rfl⟩
    simp only [cmdLen3Data, setWidth_eight_toNat, setWidth_three_eight, n.isLt, if_true]

theorem tmsCountFits_iff (n : BitVec 3) : tmsCountFits n = true ↔ n.toNat < 7 := by
  revert n
  decide

theorem cmdTms_eq_cmd {mk : BitVec 3 → Byte → Instr} {args rest : List Byte} {i : Instr} :
    cmdTms mk args = .cmd i rest ↔
      ∃ (n : BitVec 3) (p : Byte), tmsCountFits n = true ∧ args = n.setWidth 8 :: p :: rest ∧
        mk n p = i := by
  constructor
  · intro h
    unfold cmdTms at h
    split at h
    · next n p _ =>
      split at h <;> cases h
      next hlt =>
        have hback := setWidth_eight_three n (by omega)
        refine ⟨_, _, ?_, by rw [hback], rfl⟩
        rw [tmsCountFits_iff, ← setWidth_eight_toNat, hback]
        exact hlt
    · cases h
  · rintro ⟨n, p, hfits, rfl, rfl⟩
    simp only [cmdTms, setWidth_eight_toNat, setWidth_three_eight, (tmsCountFits_iff n).1 hfits,
      if_true]

theorem cmdLen16Data_eq_cmd {mk : List Byte → Instr} {args rest : List Byte} {i : Instr} :
    cmdLen16Data mk args = .cmd i rest ↔
      ∃ data, byteCountFits data = true ∧ args = u16le (data.length - 1) ++ data ++ rest ∧
        mk data = i := by
  constructor
  · intro h
    unfold cmdLen16Data at h
    split at h
    · next l0 l1 bytes =>
      dsimp only at h
      split at h <;> cases h
      next hle =>
        have hlen := List.length_take_of_le hle
        refine ⟨_, ?_, ?_, rfl⟩
        · have := (ofU16le l0 l1).isLt
          simp only [byteCountFits, hlen, Bool.and_eq_true, decide_eq_true_eq]
          omega
        · rw [hlen, Nat.add_sub_cancel, u16le_ofU16le, List.append_assoc, List.take_append_drop]
          rfl
    · cases h
  · rintro ⟨data, hfits, rfl, rfl⟩
    simp only [byteCountFits, Bool.and_eq_true, decide_eq_true_eq] at hfits
    have hlen := ofU16le_u16le (data.length - 1) (by omega)
    have hcount : data.length - 1 + 1 = data.length := by omega
    simp [cmdLen16Data, u16le, hlen, hcount]

/-! ### Decoding and encoding agree -/

/-- Settles O1: each operation's frame has the shape its format's decoder accepts. -/
theorem decodeOpInvertsEncode : Obligations.DecodeOpInvertsEncode := by
  unfold Obligations.DecodeOpInvertsEncode
  intro i hwf hop
  cases i with
  | move state => exact decodeState_eq_instr.2 ⟨state, rfl, rfl⟩
  | write ir exit n data => exact decodeShiftW_eq_instr.2 ⟨ir, exit, n, data, hwf, rfl, rfl⟩
  | read ir exit n => exact decodeShiftR_eq_instr.2 ⟨ir, exit, n, rfl, rfl⟩
  | writeRead ir exit n data => exact decodeShiftW_eq_instr.2 ⟨ir, exit, n, data, hwf, rfl, rfl⟩
  | seqClear => exact decodeNone_eq_instr.2 ⟨rfl, rfl⟩
  | seqExecute => exact decodeNone_eq_instr.2 ⟨rfl, rfl⟩
  | seqAddWrite ir exit n data => exact decodeShiftW_eq_instr.2 ⟨ir, exit, n, data, hwf, rfl, rfl⟩
  | seqAddRead ir exit n => exact decodeShiftR_eq_instr.2 ⟨ir, exit, n, rfl, rfl⟩
  | seqAddWriteRead ir exit n data =>
    exact decodeShiftW_eq_instr.2 ⟨ir, exit, n, data, hwf, rfl, rfl⟩
  | pulse c => exact decodeCount_eq_instr.2 ⟨c, rfl, rfl⟩
  | pulseHs pinstop stoplevel c =>
    exact decodePulseHs_eq_instr.2 ⟨pinstop, stoplevel, c, hwf, rfl, rfl⟩
  | setClock divisor => exact decodeU16_eq_instr.2 ⟨divisor, rfl, rfl⟩
  | setDiv5 on => exact decodeFlag_eq_instr.2 ⟨on, rfl, rfl⟩
  | getFreq divisor => exact decodeU16_eq_instr.2 ⟨divisor, rfl, rfl⟩
  | init divisor => exact decodeU16_eq_instr.2 ⟨divisor, rfl, rfl⟩
  | sync => exact decodeNone_eq_instr.2 ⟨rfl, rfl⟩
  | _ => cases hop

/-- Settles O2: each command's bytes have the shape its format's decoder accepts, and the decoder
leaves the bytes after them. -/
theorem decodeCmdInvertsEncode : Obligations.DecodeCmdInvertsEncode := by
  unfold Obligations.DecodeCmdInvertsEncode
  intro i rest hwf hop
  cases i with
  | clkBytesOut data => exact cmdLen16Data_eq_cmd.2 ⟨data, hwf, rfl, rfl⟩
  | clkBitsOut n d => exact cmdLen3Data_eq_cmd.2 ⟨n, d, rfl, rfl⟩
  | clkBytesIn len => exact cmdLen16_eq_cmd.2 ⟨len, rfl, rfl⟩
  | clkBitsIn n => exact cmdLen3_eq_cmd.2 ⟨n, rfl, rfl⟩
  | clkBytesOutIn data => exact cmdLen16Data_eq_cmd.2 ⟨data, hwf, rfl, rfl⟩
  | clkBitsOutIn n d => exact cmdLen3Data_eq_cmd.2 ⟨n, d, rfl, rfl⟩
  | tmsOut n p => exact cmdTms_eq_cmd.2 ⟨n, p, hwf, rfl, rfl⟩
  | tmsOutIn n p => exact cmdTms_eq_cmd.2 ⟨n, p, hwf, rfl, rfl⟩
  | setPinsLow val dir => exact cmdPins_eq_cmd.2 ⟨val, dir, rfl, rfl⟩
  | setTckDivisor div => exact cmdLen16_eq_cmd.2 ⟨div, rfl, rfl⟩
  | sendImmediate => exact cmdSingle_eq_cmd.2 ⟨rfl, rfl⟩
  | div5Off => exact cmdSingle_eq_cmd.2 ⟨rfl, rfl⟩
  | div5On => exact cmdSingle_eq_cmd.2 ⟨rfl, rfl⟩
  | clkOctets len => exact cmdLen16_eq_cmd.2 ⟨len, rfl, rfl⟩
  | clkOctetsUntilHigh len => exact cmdLen16_eq_cmd.2 ⟨len, rfl, rfl⟩
  | clkOctetsUntilLow len => exact cmdLen16_eq_cmd.2 ⟨len, rfl, rfl⟩
  | syncProbe1 => exact cmdSingle_eq_cmd.2 ⟨rfl, rfl⟩
  | syncProbe2 => exact cmdSingle_eq_cmd.2 ⟨rfl, rfl⟩
  | _ => cases hop

/-- Settles O3: what a format's decoder accepts is that format's encoding, with the operation code in
front. -/
theorem decodedFrameIsItsEncoding : Obligations.DecodedFrameIsItsEncoding := by
  unfold Obligations.DecodedFrameIsItsEncoding
  intro frame i h
  cases frame with
  | nil => cases h
  | cons op args =>
    simp only [decodeOp] at h
    split at h
    case h_1 =>
      obtain ⟨state, rfl, rfl⟩ := decodeState_eq_instr.1 h
      exact ⟨rfl, rfl, rfl⟩
    case h_2 | h_4 | h_7 | h_9 =>
      obtain ⟨ir, exit, n, data, hfits, rfl, rfl⟩ := decodeShiftW_eq_instr.1 h
      exact ⟨hfits, rfl, rfl⟩
    case h_3 | h_8 =>
      obtain ⟨ir, exit, n, rfl, rfl⟩ := decodeShiftR_eq_instr.1 h
      exact ⟨rfl, rfl, rfl⟩
    case h_5 | h_6 | h_16 =>
      obtain ⟨rfl, rfl⟩ := decodeNone_eq_instr.1 h
      exact ⟨rfl, rfl, rfl⟩
    case h_10 =>
      obtain ⟨c, rfl, rfl⟩ := decodeCount_eq_instr.1 h
      exact ⟨rfl, rfl, rfl⟩
    case h_11 =>
      obtain ⟨pinstop, stoplevel, c, hflags, rfl, rfl⟩ := decodePulseHs_eq_instr.1 h
      exact ⟨hflags, rfl, rfl⟩
    case h_12 | h_14 | h_15 =>
      obtain ⟨d, rfl, rfl⟩ := decodeU16_eq_instr.1 h
      exact ⟨rfl, rfl, rfl⟩
    case h_13 =>
      obtain ⟨on, rfl, rfl⟩ := decodeFlag_eq_instr.1 h
      exact ⟨rfl, rfl, rfl⟩
    case h_17 => cases h

/-- Settles O4: what a format's decoder accepts is that format's encoding, with the opcode in front,
and the bytes it leaves. -/
theorem decodedCommandIsItsEncoding : Obligations.DecodedCommandIsItsEncoding := by
  unfold Obligations.DecodedCommandIsItsEncoding
  intro hs bytes i rest h
  cases bytes with
  | nil => cases h
  | cons op args =>
    simp only [decodeCmd] at h
    split at h
    case h_1 | h_5 =>
      obtain ⟨data, hfits, rfl, rfl⟩ := cmdLen16Data_eq_cmd.1 h
      exact ⟨hfits, rfl, rfl⟩
    case h_2 | h_6 =>
      obtain ⟨n, d, rfl, rfl⟩ := cmdLen3Data_eq_cmd.1 h
      exact ⟨rfl, rfl, rfl⟩
    case h_3 | h_10 =>
      obtain ⟨len, rfl, rfl⟩ := cmdLen16_eq_cmd.1 h
      exact ⟨rfl, rfl, rfl⟩
    case h_4 =>
      obtain ⟨n, rfl, rfl⟩ := cmdLen3_eq_cmd.1 h
      exact ⟨rfl, rfl, rfl⟩
    case h_7 | h_8 =>
      obtain ⟨n, p, hfits, rfl, rfl⟩ := cmdTms_eq_cmd.1 h
      exact ⟨hfits, rfl, rfl⟩
    case h_9 =>
      obtain ⟨val, dir, rfl, rfl⟩ := cmdPins_eq_cmd.1 h
      exact ⟨rfl, rfl, rfl⟩
    case h_11 | h_17 | h_18 =>
      obtain ⟨rfl, rfl⟩ := cmdSingle_eq_cmd.1 h
      exact ⟨rfl, rfl, rfl⟩
    case h_12 | h_13 =>
      obtain ⟨-, h⟩ := cmdHiSpeed_eq_cmd.1 h
      obtain ⟨rfl, rfl⟩ := cmdSingle_eq_cmd.1 h
      exact ⟨rfl, rfl, rfl⟩
    case h_14 | h_15 | h_16 =>
      obtain ⟨-, h⟩ := cmdHiSpeed_eq_cmd.1 h
      obtain ⟨len, rfl, rfl⟩ := cmdLen16_eq_cmd.1 h
      exact ⟨rfl, rfl, rfl⟩
    case h_19 => cases h

/-! ### The spec's words -/

/-- Settles O5: both decoders compute on words that are written out. -/
theorem specWordsDecode : Obligations.SpecWordsDecode := by
  unfold Obligations.SpecWordsDecode
  decide

end Sys2Proof
end

section
/-! Proofs of the encoding family, part 2: the frames that do not decode (30_encoding.md R80, R84, R94,
R95), what a step does with the next frame, and the opcodes that are echoed (R100). -/

namespace Sys2Proof

/-! ### Which format an operation code has (R82) -/

theorem decodeOp_none {op : Byte} (h : op ∈ [0x10#8, 0x11#8, 0x31#8]) :
    ∃ j, ∀ args, decodeOp (op :: args) = decodeNone j args := by
  simp only [List.mem_cons, List.not_mem_nil, or_false] at h
  rcases h with rfl | rfl | rfl <;> exact ⟨_, fun _ => rfl⟩

theorem decodeOp_u16 {op : Byte} (h : op ∈ [0x22#8, 0x24#8, 0x30#8]) :
    ∃ mk, ∀ args, decodeOp (op :: args) = decodeU16 mk args := by
  simp only [List.mem_cons, List.not_mem_nil, or_false] at h
  rcases h with rfl | rfl | rfl <;> exact ⟨_, fun _ => rfl⟩

theorem decodeOp_shiftR {op : Byte} (h : op ∈ [0x03#8, 0x13#8]) :
    ∃ mk, ∀ args, decodeOp (op :: args) = decodeShiftR mk args := by
  simp only [List.mem_cons, List.not_mem_nil, or_false] at h
  rcases h with rfl | rfl <;> exact ⟨_, fun _ => rfl⟩

theorem decodeOp_shiftW {op : Byte} (h : op ∈ [0x02#8, 0x04#8, 0x12#8, 0x14#8]) :
    ∃ mk, ∀ args, decodeOp (op :: args) = decodeShiftW mk args := by
  simp only [List.mem_cons, List.not_mem_nil, or_false] at h
  rcases h with rfl | rfl | rfl | rfl <;> exact ⟨_, fun _ => rfl⟩

/-- A code that is none of R82's is unassigned. -/
theorem decodeOp_unassigned {op : Byte}
    (h : op ∉ [0x01#8, 0x02#8, 0x03#8, 0x04#8, 0x10#8, 0x11#8, 0x12#8, 0x13#8, 0x14#8, 0x20#8,
      0x21#8, 0x22#8, 0x23#8, 0x24#8, 0x30#8, 0x31#8]) (args : List Byte) :
    decodeOp (op :: args) = .reject .unassigned := by
  simp only [decodeOp]
  split
  case h_17 => rfl
  all_goals simp at h

/-! ### Frames of the wrong length (R95) -/

theorem decodeNone_frameLength {j : Instr} {args : List Byte} (h : args.length ≠ 0) :
    decodeNone j args = .reject .frameLength := by
  unfold decodeNone
  split <;> simp_all

theorem decodeState_frameLength {mk : Byte → Instr} {args : List Byte} (h : args.length ≠ 1) :
    decodeState mk args = .reject .frameLength := by
  unfold decodeState
  split <;> simp_all

theorem decodeU16_frameLength {mk : Half → Instr} {args : List Byte} (h : args.length ≠ 2) :
    decodeU16 mk args = .reject .frameLength := by
  unfold decodeU16
  split <;> simp_all

theorem decodeCount_frameLength {mk : Word → Instr} {args : List Byte} (h : args.length ≠ 4) :
    decodeCount mk args = .reject .frameLength := by
  unfold decodeCount
  split <;> simp_all

theorem decodeFlag_frameLength {mk : Bool → Instr} {args : List Byte} (h : args.length ≠ 1) :
    decodeFlag mk args = .reject .frameLength := by
  unfold decodeFlag
  split <;> simp_all

theorem decodePulseHs_frameLength {args : List Byte} (h : args.length ≠ 5) :
    decodePulseHs args = .reject .frameLength := by
  unfold decodePulseHs
  split <;> simp_all

theorem decodeShiftR_frameLength {mk : Bool → Byte → Word → Instr} {args : List Byte}
    (h : args.length ≠ 6) : decodeShiftR mk args = .reject .frameLength := by
  unfold decodeShiftR
  split <;> simp_all

/-- A shift frame with a payload is too short for its fields, or not as long as its `numBytes` says. -/
theorem decodeShiftW_frameLength {mk : Bool → Byte → Word → List Byte → Instr} {args : List Byte}
    (h : args.length < 10 ∨ ∀ m : Nat, m < 2 ^ 32 → (args.drop 6).take 4 = u32le m →
      args.length ≠ 10 + m) : decodeShiftW mk args = .reject .frameLength := by
  unfold decodeShiftW
  split
  · next flags exit n0 n1 n2 n3 m0 m1 m2 m3 data =>
    rw [if_neg]
    intro hlen
    rcases h with hshort | hfield
    · simp only [List.length_cons] at hshort
      omega
    · refine hfield _ (ofU32le m0 m1 m2 m3).isLt (u32le_ofU32le ..).symm ?_
      simp only [List.length_cons]
      omega
  · rfl

/-! ### Reserved flag bits (R84) -/

theorem decodeShiftR_reservedFlag {mk : Bool → Byte → Word → Instr} {flags : Byte}
    (h : 2 ≤ flags.toNat) (exit n0 n1 n2 n3 : Byte) :
    decodeShiftR mk [flags, exit, n0, n1, n2, n3] = .reject .reservedFlag := by
  simp only [decodeShiftR, irFlag_eq_none h]

theorem decodeShiftW_reservedFlag {mk : Bool → Byte → Word → List Byte → Instr} {flags : Byte}
    (h : 2 ≤ flags.toNat) (exit : Byte) (n : Nat) {data : List Byte} (hdata : data.length < 2 ^ 32) :
    decodeShiftW mk (flags :: exit :: (u32le n ++ u32le data.length ++ data)) =
      .reject .reservedFlag := by
  have hlen := ofU32le_u32le data.length hdata
  simp [decodeShiftW, u32le, hlen, irFlag_eq_none h]

theorem decodeFlag_reservedFlag {mk : Bool → Instr} {flags : Byte} (h : 2 ≤ flags.toNat) :
    decodeFlag mk [flags] = .reject .reservedFlag := by
  rw [decodeFlag, if_neg (by omega)]

theorem decodePulseHs_reservedFlag {flags : Byte} (h : 4 ≤ flags.toNat ∨ flags = 0x02#8)
    (c0 c1 c2 c3 : Byte) : decodePulseHs [flags, c0, c1, c2, c3] = .reject .reservedFlag := by
  rcases h with h | rfl
  · rw [decodePulseHs, if_neg (by omega)]
  · rfl

end Sys2Proof

namespace Sys2Proof.Machine

/-! ### The step and the next frame -/

theorem step_of_fetch_more {s : State} (h : s.dn.fetch s.hs = .more) : step s = stepBlock s := by
  unfold step
  rw [h]

theorem step_of_fetch_unlisted {s : State} {op : Byte} {rest : List Byte}
    (h : s.dn.fetch s.hs = .unlisted op rest) :
    step s = .next (s.setDn (unlistedOpcode op { s.dn with inbox := rest })) := by
  unfold step
  rw [h]

theorem stepBlock_instr {s : State} {frame : List Byte} {fs : List (List Byte)} {i : Instr}
    (hop : s.op = frame :: fs) (hd : decodeOp frame = .instr i) :
    stepBlock s = exec i { s with op := fs } := by
  unfold stepBlock
  rw [hop]
  simp only [hd]

theorem stepBlock_reject {s : State} {frame : List Byte} {fs : List (List Byte)} {r : OpReject}
    (hop : s.op = frame :: fs) (hd : decodeOp frame = .reject r) :
    stepBlock s = .next (State.complete .invalidOperation [] { s with op := fs }) := by
  unfold stepBlock
  rw [hop]
  simp only [hd, finish_raise]

/-- Settles O7: with nothing to fetch the step is the block's, which runs what the frame decodes to. -/
theorem stepRunsNextDescriptor : Obligations.StepRunsNextDescriptor := by
  unfold Obligations.StepRunsNextDescriptor
  intro s frame fs i hmore hop hd
  rw [step_of_fetch_more hmore, stepBlock_instr hop hd]

/-- Settles O8: the block reports a frame that does not decode, and each format's decoder rejects the
lengths and the flag bits it does not have. -/
theorem rejectedFrameOnlyReports : Obligations.RejectedFrameOnlyReports := by
  unfold Obligations.RejectedFrameOnlyReports
  refine ⟨?report, fun _ args hop => decodeOp_unassigned hop args, ?length, ?shiftR, ?shiftW, ?pulseHs,
    ?flag⟩
  case report =>
    intro s frame fs r hmore hop hd
    rw [step_of_fetch_more hmore, stepBlock_reject hop hd]
  case length =>
    rintro op args (⟨hop, hl⟩ | ⟨hop, hl⟩ | ⟨hop, hl⟩ | ⟨rfl, hl⟩ | ⟨rfl, hl⟩ | ⟨hop, hl⟩ | ⟨hop, hl⟩)
    · obtain ⟨j, hj⟩ := decodeOp_none hop
      rw [hj, decodeNone_frameLength (by omega)]
    · simp only [List.mem_cons, List.not_mem_nil, or_false] at hop
      rcases hop with rfl | rfl
      · exact decodeState_frameLength (by omega)
      · exact decodeFlag_frameLength (by omega)
    · obtain ⟨mk, hmk⟩ := decodeOp_u16 hop
      rw [hmk, decodeU16_frameLength (by omega)]
    · exact decodeCount_frameLength (by omega)
    · exact decodePulseHs_frameLength (by omega)
    · obtain ⟨mk, hmk⟩ := decodeOp_shiftR hop
      rw [hmk, decodeShiftR_frameLength (by omega)]
    · obtain ⟨mk, hmk⟩ := decodeOp_shiftW hop
      rw [hmk, decodeShiftW_frameLength]
      refine hl.imp (fun hshort => by omega) fun hfield m hm hm4 hlen => ?_
      exact hfield m hm hm4 (by omega)
  case shiftR =>
    intro op hop flags exit n0 n1 n2 n3 hflags
    obtain ⟨mk, hmk⟩ := decodeOp_shiftR hop
    rw [hmk, decodeShiftR_reservedFlag hflags]
  case shiftW =>
    intro op hop flags exit n data hdata hflags
    obtain ⟨mk, hmk⟩ := decodeOp_shiftW hop
    exact (hmk _).trans (decodeShiftW_reservedFlag hflags exit n.toNat hdata)
  case pulseHs =>
    intro flags c0 c1 c2 c3 hflags
    exact decodePulseHs_reservedFlag hflags c0 c1 c2 c3
  case flag =>
    intro flags hflags
    exact decodeFlag_reservedFlag hflags

/-! ### Opcodes that are echoed (R100, R294 item 10) -/

/-- An opcode outside R97's table, or on a Standard chip one of the five high-speed commands', is not a
command's (logs 15, 16). -/
theorem decodeCmd_unlisted {hs : Bool} {op : Byte}
    (h : op ∉ [0x19#8, 0x1B#8, 0x28#8, 0x2A#8, 0x39#8, 0x3B#8, 0x4B#8, 0x6B#8, 0x80#8, 0x86#8, 0x87#8,
      0x8A#8, 0x8B#8, 0x8F#8, 0x9C#8, 0x9D#8, 0xAA#8, 0xAB#8] ∨
      (hs = false ∧ op ∈ [0x8A#8, 0x8B#8, 0x8F#8, 0x9C#8, 0x9D#8])) (args : List Byte) :
    decodeCmd hs (op :: args) = .unlisted op args := by
  rcases h with h | ⟨rfl, h⟩
  · simp only [decodeCmd]
    split
    case h_19 => rfl
    all_goals simp at h
  · simp only [List.mem_cons, List.not_mem_nil, or_false] at h
    rcases h with rfl | rfl | rfl | rfl | rfl <;> rfl

theorem unlistedOpcode_echo {op : Byte} {d : Downstream} (h : op ∉ d.otherOpcodes) :
    unlistedOpcode op d = { d with rsp := d.rsp ++ [0xFA#8, op] } := by
  rw [unlistedOpcode, if_neg (by simpa using h)]
  rfl

theorem hiSpeed_of_standard {s : State} (h : s.params.variant = .standard) : s.hs = false := by
  simp [State.hs, h, Variant.hiSpeed]

/-- Settles O10: such an opcode is fetched as unlisted, and one the device does not recognise is
echoed. -/
theorem unrecognisedOpcodeIsEchoed : Obligations.UnrecognisedOpcodeIsEchoed := by
  unfold Obligations.UnrecognisedOpcodeIsEchoed
  intro s op rest hm hinbox hother hop
  have hfetch : s.dn.fetch s.hs = .unlisted op rest := by
    rw [Downstream.fetch, if_pos hm, hinbox]
    exact decodeCmd_unlisted (hop.imp id fun ⟨hv, h5⟩ => ⟨hiSpeed_of_standard hv, h5⟩) rest
  rw [step_of_fetch_unlisted hfetch, unlistedOpcode_echo (d := { s.dn with inbox := rest }) hother]

end Sys2Proof.Machine
end

section
/-! Proofs of the encoding family, part 3: what the MPSSE commands answer (30_encoding.md R97, R100,
60_exceptions.md R294 item 2) and where a TMS command takes the TAP (R99, R294 item 6). -/

namespace Sys2Proof.Machine

/-! ### Response bytes -/

/-- From `d` to `d'` the downstream answered `n` bytes behind the responses it had, and recognises the
same opcodes (R294 item 2). -/
def Downstream.Answers (n : Nat) (d d' : Downstream) : Prop :=
  d'.otherOpcodes = d.otherOpcodes ∧ ∃ r : List Byte, r.length = n ∧ d'.rsp = d.rsp ++ r

theorem Downstream.Answers.none {d d' : Downstream} (ho : d'.otherOpcodes = d.otherOpcodes)
    (hr : d'.rsp = d.rsp) : Downstream.Answers 0 d d' :=
  ⟨ho, [], rfl, by rw [hr, List.append_nil]⟩

theorem Downstream.Answers.rsp_eq {d d' : Downstream} (h : Downstream.Answers 0 d d') :
    d'.rsp = d.rsp := by
  obtain ⟨-, r, hr, hrsp⟩ := h
  rw [hrsp, List.eq_nil_of_length_eq_zero hr, List.append_nil]

theorem Downstream.Answers.respond {d d' : Downstream} (h : Downstream.Answers 0 d d')
    (b : List Byte) : Downstream.Answers b.length d (respond b d') :=
  ⟨h.1, b, rfl, by rw [respond_rsp, h.rsp_eq]⟩

/-- Whole bytes of samples are answered by as many bytes (R294 item 4). -/
theorem Downstream.Answers.respond_pack {d d' : Downstream} (h : Downstream.Answers 0 d d') {n : Nat}
    {samples : List Bool} (hn : samples.length = 8 * n) :
    Downstream.Answers n d (Machine.respond (pack samples) d') := by
  have hlen : (pack samples).length = n := by
    rw [pack_length, hn, ceil8]
    omega
  exact hlen ▸ h.respond (pack samples)

/-- The samples of a bit command are the high bits of its one response byte (R294 items 5, 6). -/
theorem respondBits_rsp (samples : List Bool) (d : Downstream) :
    ∃ low : List Bool, low.length = 8 - samples.length ∧
      (respondBits samples d).rsp = d.rsp ++ [byteOfBits (low ++ samples)] :=
  ⟨(freeBits (8 - samples.length) d).1, freeBits_length _ d, rfl⟩

theorem Downstream.Answers.respondBits {d d' : Downstream} (h : Downstream.Answers 0 d d')
    (samples : List Bool) : Downstream.Answers 1 d (respondBits samples d') := by
  obtain ⟨low, -, hbyte⟩ := respondBits_rsp samples d'
  exact ⟨h.1, [byteOfBits (low ++ samples)], rfl, by rw [hbyte, h.rsp_eq]⟩

theorem clockOut_answers (bits : List Bool) (d : Downstream) :
    Downstream.Answers 0 d (clockOut bits d).2 :=
  .none (clockMany_otherOpcodes _ d) (clockMany_rsp _ d)

theorem clockOut_length (bits : List Bool) (d : Downstream) :
    (clockOut bits d).1.length = bits.length := by
  simp [clockOut, clockData]

theorem clockIn_answers (n : Nat) (d : Downstream) : Downstream.Answers 0 d (clockIn n d).2 :=
  .none (clockMany_otherOpcodes _ (freeBits n d).2) (clockMany_rsp _ (freeBits n d).2)

theorem clockIn_length (n : Nat) (d : Downstream) : (clockIn n d).1.length = n := by
  simp [clockIn, clockData]

theorem clockTms_answers (n : BitVec 3) (p : Byte) (d : Downstream) :
    Downstream.Answers 0 d (clockTms n p d).2 :=
  .none (clockMany_otherOpcodes _ d) (clockMany_rsp _ d)

theorem clockHeld_answers (n : Nat) (d : Downstream) : Downstream.Answers 0 d (clockHeld n d) :=
  .none (clockMany_otherOpcodes _ d) (clockMany_rsp _ d)

theorem clockUntil_answers (n : Nat) (d : Downstream) : Downstream.Answers 0 d (clockUntil n d) :=
  .none ((clockMany_otherOpcodes _ _).trans (nextStop_otherOpcodes d))
    ((clockMany_rsp _ _).trans (nextStop_rsp d))

theorem badCommand_answers (op : Byte) (d : Downstream) :
    Downstream.Answers 2 d (badCommand op d) :=
  (Downstream.Answers.none rfl rfl).respond [0xFA#8, op]

/-- A command that only a high-speed chip has, and that answers nothing there (log 16). -/
theorem onHiSpeed_answers (hs : Bool) (op : Byte) {effect : Downstream → Downstream}
    (d : Downstream) (h : Downstream.Answers 0 d (effect d)) :
    Downstream.Answers (if hs then 0 else 2) d (onHiSpeed hs op effect d) := by
  cases hs with
  | true => exact h
  | false => exact badCommand_answers op d

/-- The response bytes of a command (R97's table); a Standard chip echoes the five it lacks (log 16). -/
def responseBytes (hs : Bool) : Instr → Nat
  | .clkBytesIn len => len.toNat + 1
  | .clkBitsIn _ => 1
  | .clkBytesOutIn data => data.length
  | .clkBitsOutIn _ _ => 1
  | .tmsOutIn _ _ => 1
  | .syncProbe1 => 2
  | .syncProbe2 => 2
  | .div5Off => if hs then 0 else 2
  | .div5On => if hs then 0 else 2
  | .clkOctets _ => if hs then 0 else 2
  | .clkOctetsUntilHigh _ => if hs then 0 else 2
  | .clkOctetsUntilLow _ => if hs then 0 else 2
  | _ => 0

/-- Each command answers the bytes of its row. -/
theorem cmdEffect_answers (hs : Bool) (i : Instr) (d : Downstream) :
    Downstream.Answers (responseBytes hs i) d (cmdEffect hs i d) := by
  cases i with
  | clkBytesOut data => exact clockOut_answers (bitsOfBytes data) d
  | clkBitsOut n b => exact clockOut_answers (byteBits (n.toNat + 1) b) d
  | clkBytesIn len => exact (clockIn_answers _ d).respond_pack (clockIn_length _ d)
  | clkBitsIn n => exact (clockIn_answers (n.toNat + 1) d).respondBits _
  | clkBytesOutIn data =>
    exact (clockOut_answers _ d).respond_pack ((clockOut_length _ d).trans (bitsOfBytes_length data))
  | clkBitsOutIn n b => exact (clockOut_answers (byteBits (n.toNat + 1) b) d).respondBits _
  | tmsOut n p => exact clockTms_answers n p d
  | tmsOutIn n p => exact (clockTms_answers n p d).respondBits _
  | div5Off => exact onHiSpeed_answers hs _ d (.none rfl rfl)
  | div5On => exact onHiSpeed_answers hs _ d (.none rfl rfl)
  | clkOctets len => exact onHiSpeed_answers hs _ d (clockHeld_answers _ d)
  | clkOctetsUntilHigh len => exact onHiSpeed_answers hs _ d (clockUntil_answers _ d)
  | clkOctetsUntilLow len => exact onHiSpeed_answers hs _ d (clockUntil_answers _ d)
  | syncProbe1 => exact badCommand_answers _ d
  | syncProbe2 => exact badCommand_answers _ d
  | _ => exact .none rfl rfl

/-- A Standard chip takes each of the five high-speed commands for an unrecognised opcode (log 16). -/
theorem exec_hiSpeedCommand_standard (s : State) (len : Half) (hv : s.params.variant = .standard) :
    ∀ x ∈ [(Instr.div5Off, 0x8A#8), (.div5On, 0x8B#8), (.clkOctets len, 0x8F#8),
      (.clkOctetsUntilHigh len, 0x9C#8), (.clkOctetsUntilLow len, 0x9D#8)],
      exec x.1 s = .next (s.setDn (badCommand x.2 s.dn)) := by
  intro x hx
  have hhs : s.params.variant.hiSpeed = false := hiSpeed_of_standard hv
  simp only [List.mem_cons, List.not_mem_nil, or_false] at hx
  rcases hx with rfl | rfl | rfl | rfl | rfl <;> rw [exec_command _ _ rfl, hhs] <;> rfl

/-- Settles O55: a command is its effect on the downstream, which answers the bytes of its row. -/
theorem commandsCompleteWithTheirResponses : Obligations.CommandsCompleteWithTheirResponses := by
  unfold Obligations.CommandsCompleteWithTheirResponses
  refine ⟨fun s i hi => ?_, exec_hiSpeedCommand_standard⟩
  obtain ⟨hmpsse, hinbox⟩ := cmdEffect_inbox s.hs i s.dn
  obtain ⟨hother, r, hlen, hrsp⟩ := cmdEffect_answers s.hs i s.dn
  refine ⟨_, r, exec_command i s hi, hrsp, hinbox, hmpsse, hother, ?_⟩
  rw [hlen]
  cases i <;> rfl

/-! ### TMS commands -/

/-- What the clocks of a TMS command leave: the TAP after the pattern's bits, the lines at their last
levels, and the device's registers and the pulse inputs as they were (R99, R294 item 6). -/
structure Downstream.TmsWalked (n : BitVec 3) (p : Byte) (d d' : Downstream) : Prop where
  tap : d'.tap = tapAfter d.tap (byteBits (n.toNat + 1) p)
  tms : d'.tms = p.getLsbD n.toNat
  tdi : d'.tdi = p.getLsbD 7
  divisor : d'.divisor = d.divisor
  div5 : d'.div5 = d.div5
  pinVal : d'.pinVal = d.pinVal
  pinDir : d'.pinDir = d.pinDir
  stops : d'.stops = d.stops

theorem clockTms_walked (n : BitVec 3) (p : Byte) (d : Downstream) :
    Downstream.TmsWalked n p d (clockTms n p d).2 where
  tap := (clockMany_tap _ d).trans (by rw [pairs_fst])
  tms := rfl
  tdi := rfl
  divisor := clockMany_divisor _ d
  div5 := clockMany_div5 _ d
  pinVal := clockMany_pinVal _ d
  pinDir := clockMany_pinDir _ d
  stops := clockMany_stops _ d

theorem Downstream.TmsWalked.respondBits {n : BitVec 3} {p : Byte} {d d' : Downstream}
    (h : Downstream.TmsWalked n p d d') (samples : List Bool) :
    Downstream.TmsWalked n p d (respondBits samples d') :=
  { h with }

theorem clockTms_length (n : BitVec 3) (p : Byte) (d : Downstream) :
    (clockTms n p d).1.length = n.toNat + 1 := by
  simp [clockTms]

/-- From a shift state the first sample is the register's low bit (R294 item 3). -/
theorem clockTms_first_sample (n : BitVec 3) (p : Byte) {d : Downstream} {b : Bool} {bs : List Bool}
    (hs : isShift d.tap = true) (hreg : d.reg = b :: bs) :
    ∃ more, (clockTms n p d).1 = b :: more := by
  have hbits : (byteBits (n.toNat + 1) p).map (fun m => (m, p.getLsbD 7)) =
      (p.getLsbD 0, p.getLsbD 7) :: ((List.range n.toNat).map fun k =>
        (p.getLsbD (k + 1), p.getLsbD 7)) := by
    simp [byteBits, List.range_succ_eq_map, Function.comp_def]
  obtain ⟨more, hmore, -⟩ := clockMany_shift_sample (p.getLsbD 0) (p.getLsbD 7) _ d hs
  exact ⟨more, by rw [clockTms, hbits, hmore, hreg]; rfl⟩

/-- The first of `m` samples is at bit `8 - m` of its response byte (R294 items 5, 6). -/
theorem byteOfBits_first_sample {low more : List Bool} {b : Bool} (h : low.length + more.length = 7) :
    (byteOfBits (low ++ b :: more)).getLsbD low.length = b := by
  rw [byteOfBits_getLsbD _ _ (by omega)]
  simp

/-- Settles O58: both forms clock the same pattern; the echoing one answers with its samples. -/
theorem tmsCommandsWalkTheTap : Obligations.TmsCommandsWalkTheTap := by
  unfold Obligations.TmsCommandsWalkTheTap
  intro s n p
  have hw := clockTms_walked n p s.dn
  have hrsp : (clockTms n p s.dn).2.rsp = s.dn.rsp := clockMany_rsp _ s.dn
  have hn := n.isLt
  constructor
  case left =>
    exact ⟨_, rfl, hrsp, hw.tap, hw.tms, hw.tdi, hw.divisor, hw.div5, hw.pinVal, hw.pinDir, hw.stops⟩
  case right =>
    have he := hw.respondBits (clockTms n p s.dn).1
    obtain ⟨low, hlow, hbyte⟩ := respondBits_rsp (clockTms n p s.dn).1 (clockTms n p s.dn).2
    rw [hrsp] at hbyte
    refine ⟨_, _, rfl, hbyte, he.tap, he.tms, he.tdi, he.divisor, he.div5, he.pinVal, he.pinDir,
      he.stops, ?_⟩
    intro b bs hs hreg
    obtain ⟨more, hmore⟩ := clockTms_first_sample n p hs hreg
    have hlen := clockTms_length n p s.dn
    rw [hmore, List.length_cons] at hlow hlen
    rw [hmore, show 7 - n.toNat = low.length by omega]
    exact byteOfBits_first_sample (by omega)

end Sys2Proof.Machine
end

section
/-! Proofs of the TAP sequencer's family: the transition table against the TAP graph, MOVE's outcomes, the
target's TAP after a MOVE, and the frame of the operations that go out at once (40_tap_sequencer.md). -/

namespace Sys2Proof.Machine

/-! ### The transition table (R121, R122) -/

/-- The paths of at most `n` TMS bits from `a` to `b` in the TAP graph. -/
def pathsTo (b : TapState) : Nat → TapState → List (List Bool)
  | 0, a => if a = b then [[]] else []
  | n + 1, a =>
    (if a = b then [[]] else []) ++
      ((pathsTo b n (tapNext a false)).map (false :: ·) ++
        (pathsTo b n (tapNext a true)).map (true :: ·))

theorem tapAfter_cons (a : TapState) (m : Bool) (path : List Bool) :
    tapAfter a (m :: path) = tapAfter (tapNext a m) path := rfl

theorem mem_pathsTo {b a : TapState} {n : Nat} {path : List Bool} :
    path ∈ pathsTo b n a ↔ path.length ≤ n ∧ tapAfter a path = b := by
  induction n generalizing a path with
  | zero => cases path <;> simp [pathsTo, tapAfter]
  | succ n ih =>
    cases path with
    | nil => simp [pathsTo, tapAfter]
    | cons m path => cases m <;> simp [pathsTo, ih, tapAfter_cons]

/-- The table's path is there, and no other one that is no longer. -/
theorem pathsTo_tt (a b : DefState) :
    pathsTo b.tap (tt a b).2 a.tap = [byteBits (tt a b).2 (tt a b).1] := by
  cases a <;> cases b <;> decide

theorem tt_pattern_fits (a b : DefState) : (tt a b).1.toNat < 2 ^ (tt a b).2 := by
  cases a <;> cases b <;> decide

/-- Settles O20: the paths to a target no longer than the table's are enumerated, and the table's is the
only one. -/
theorem transitionPathsAreTheShortest : Obligations.TransitionPathsAreTheShortest := by
  unfold Obligations.TransitionPathsAreTheShortest
  refine ⟨rfl, fun a b => ?_⟩
  have hpaths (path : List Bool) : path.length ≤ (tt a b).2 ∧ tapAfter a.tap path = b.tap ↔
      path = byteBits (tt a b).2 (tt a b).1 := by
    rw [← mem_pathsTo, pathsTo_tt, List.mem_singleton]
  exact ⟨((hpaths _).2 rfl).2, tt_clocks_le a b, tt_pattern_fits a b,
    fun path hlen htap => (hpaths path).1 ⟨hlen, htap⟩⟩

/-! ### MOVE (R129) -/

theorem code_of_ofCode {code : Byte} {t : DefState} (h : DefState.ofCode code = some t) :
    t.code = code := by
  unfold DefState.ofCode at h
  split at h <;> cases h <;> rfl

/-- 0 and 7 to 255 name no defined state (R83). -/
theorem ofCode_eq_none {code : Byte} (h : code.toNat = 0 ∨ 7 ≤ code.toNat) :
    DefState.ofCode code = none := by
  cases hcode : DefState.ofCode code with
  | none => rfl
  | some t =>
    rw [← code_of_ofCode hcode] at h
    cases t <;> simp [DefState.code] at h

theorem exec_move (code : Byte) (s : State) : exec (.move code) s = .next (finish (moveOp code s)) :=
  rfl

theorem moveOp_undefinedCode {code : Byte} (s : State) (h : DefState.ofCode code = none) :
    moveOp code s = .raise .invalidTapState s := by
  simp only [moveOp, h]

theorem moveOp_definedCode {code : Byte} {t : DefState} (s : State)
    (h : DefState.ofCode code = some t) :
    moveOp code s = (emitFlush (moveCommands s.cursor t none false) (s.setCursor (.known t))).bind
      fun _ s1 => .ok [] s1 := by
  simp only [moveOp, h]

/-- The bytes of a plain move: the bootstrap from Undefined (R124), then the table's command if it has
clocks (R123, R125), with bit 7 clear (R127). -/
theorem moveCommands_flatten (c : Cursor) (t : DefState) :
    (moveCommands c t none false).flatten =
      (if c = .undefined then [0x4B#8, 0x06#8, 0x7F#8] else []) ++
        (if (tt c.origin t).2 > 0 then
          [0x4B#8, BitVec.ofNat 8 ((tt c.origin t).2 - 1), (tt c.origin t).1] else []) := by
  have hcmd : (moveCommand c.origin t none false).flatten =
      if (tt c.origin t).2 > 0 then
        [0x4B#8, BitVec.ofNat 8 ((tt c.origin t).2 - 1), (tt c.origin t).1] else [] := by
    by_cases hk : (tt c.origin t).2 > 0 <;> simp [moveCommand, movePath, hk]
  rw [moveCommands, List.flatten_append, hcmd]
  cases c <;> simp [Cursor.entry, bootstrap]

/-- The bytes of a move fit IMM. -/
theorem moveCommands_fit (c : Cursor) (t : DefState) :
    (moveCommands c t none false).flatten.length ≤ Config.cmdBufMax :=
  (moveCommands_length_le c t none false).trans (by decide)

theorem moveOp_accepted {code : Byte} {t : DefState} {s : State} {rest : List WriteReply}
    (himm : s.imm = []) (h : DefState.ofCode code = some t)
    (hw : s.WritesAccepted (moveCommands s.cursor t none false).flatten rest) :
    moveOp code s = .ok []
      ((s.afterSend (moveCommands s.cursor t none false).flatten rest).setCursor (.known t)) := by
  rw [moveOp_definedCode s h,
    emitFlush_accepted (s := s.setCursor (.known t)) himm (moveCommands_fit s.cursor t) hw]
  rfl

theorem moveOp_failed {code : Byte} {t : DefState} {s : State} {k delivered : Nat}
    {rest : List WriteReply} (himm : s.imm = []) (h : DefState.ofCode code = some t)
    (hw : s.WriteFails (moveCommands s.cursor t none false).flatten k delivered rest) :
    moveOp code s = .raise .ioError
      ((s.afterFailedSend (moveCommands s.cursor t none false).flatten k delivered rest).setCursor
        (.known t)) := by
  rw [moveOp_definedCode s h,
    emitFlush_failed (s := s.setCursor (.known t)) himm (moveCommands_fit s.cursor t) hw]
  rfl

/-! ### How an operation that goes out at once ends (R129, R159 to R161) -/

/-- The end of an operation whose state code is `code`: a parameter error with nothing done, or the
cursor at the state the code names and then only transport activity. -/
inductive TapResult (code : Byte) (s : State) (r : Res (List Byte)) : Prop where
  | rejected (e : Status) (hkind : e.kind = .parameter) (hr : r = .raise e s)
  | sent (t : DefState) (E : List Status) (hcode : DefState.ofCode code = some t)
      (hE : ∀ e ∈ E, e = .ioError ∨ e = .commandTimeout)
      (hr : Sends (s.setCursor (.known t)) E r)

theorem moveOp_tapResult (code : Byte) (s : State) : TapResult code s (moveOp code s) := by
  cases h : DefState.ofCode code with
  | none => exact .rejected _ rfl (moveOp_undefinedCode s h)
  | some t =>
    rw [moveOp_definedCode s h]
    exact .sent t _ h (by simp) (emitFlush_sends _ _).1

theorem writeOp_tapResult (ir : Bool) (code : Byte) (n : Word) (data : List Byte) (s : State) :
    TapResult code s (writeOp ir code n data s) := by
  rcases shift_cases (r := writeOp ir code n data s) rfl with ⟨e, he, hr⟩ | ⟨t, hc, hr⟩
  · exact .rejected e he hr
  · obtain ⟨-, -, hcode, -⟩ := checkShift_ok hc
    rw [hr]
    exact .sent t _ hcode (by simp) (emitFlush_sends _ _).1

/-- A shift that is sent and answered, after its checks. -/
theorem exchangeShift_tapResult {code : Byte} {m : Option Nat} {q : ShiftSpec} (s : State)
    (hc : checkShift q.n m code = .ok q.exit) : TapResult code s (exchangeShift q s) := by
  obtain ⟨hmin, -, hcode, -⟩ := checkShift_ok hc
  have hpos : 0 < q.n := Nat.lt_of_lt_of_le (by decide) hmin
  exact .sent q.exit _ hcode (by simp) (exchangeShift_sends q hpos s).1

theorem readOp_tapResult (ir : Bool) (code : Byte) (n : Word) (s : State) :
    TapResult code s (readOp ir code n s) := by
  rcases shift_cases (r := readOp ir code n s) rfl with ⟨e, he, hr⟩ | ⟨t, hc, hr⟩
  · exact .rejected e he hr
  · rw [hr]
    exact exchangeShift_tapResult (q := ⟨.r, ir, n.toNat, [], t⟩) s hc

theorem writeReadOp_tapResult (ir : Bool) (code : Byte) (n : Word) (data : List Byte) (s : State) :
    TapResult code s (writeReadOp ir code n data s) := by
  rcases shift_cases (r := writeReadOp ir code n data s) rfl with ⟨e, he, hr⟩ | ⟨t, hc, hr⟩
  · exact .rejected e he hr
  · rw [hr]
    exact exchangeShift_tapResult (q := ⟨.wr, ir, n.toNat, data, t⟩) s hc

/-- The final status of an operation that ends in transport activity. -/
theorem Sends.finish_status {s : State} {E : List Status} {r : Res (List Byte)} (h : Sends s E r) :
    (finish r).status = .success ∨ (finish r).status ∈ E := by
  cases r with
  | ok b t => exact .inl rfl
  | raise e t => exact .inr (h.raised e t rfl).1

/-- The frame of the operations that go out at once (R286). -/
theorem TapResult.frame {code : Byte} {s : State} {r : Res (List Byte)} (h : TapResult code s r)
    (himm : s.imm = []) :
    let t := finish r
    t.seq = s.seq ∧ t.desc = s.desc ∧ t.pinVal = s.pinVal ∧ t.pinDir = s.pinDir ∧
      t.divisor = s.divisor ∧ t.div5 = s.div5 ∧ t.op = s.op ∧ t.imm = [] ∧
      (t.status.kind = .parameter → t.cursor = s.cursor) ∧
      (t.status.kind ≠ .parameter → some t.cursor = (DefState.ofCode code).map .known) := by
  cases h with
  | rejected e hkind hr =>
    subst hr
    exact ⟨rfl, rfl, rfl, rfl, rfl, rfl, rfl, himm, fun _ => rfl, fun h => absurd hkind h⟩
  | sent t E hcode hE hr =>
    have hkind : (finish r).status.kind ≠ .parameter := by
      rcases hr.finish_status with h | h
      · rw [h]; decide
      · rcases hE _ h with h | h <;> rw [h] <;> decide
    have hcursor : (finish r).cursor = .known t := (finish_cursor r).trans hr.only.cursor
    refine ⟨?_, ?_, ?_, ?_, ?_, ?_, ?_, (finish_imm r).trans hr.imm, fun h => absurd h hkind,
      fun _ => by rw [hcursor, hcode]; rfl⟩ <;> rw [finish_eq_complete]
    exacts [hr.only.seq, hr.only.desc, hr.only.pinVal, hr.only.pinDir, hr.only.divisor,
      hr.only.div5, hr.only.op]

/-- Settles O52: each of the four ends as a parameter error or in transport activity from the new
cursor, and the frame follows from that. -/
theorem immediateTapOpsFrame : Obligations.ImmediateTapOpsFrame := by
  unfold Obligations.ImmediateTapOpsFrame
  intro s t ir code n data himm i hi h
  simp only [List.mem_cons, List.not_mem_nil, or_false] at hi
  rcases hi with rfl | rfl | rfl | rfl <;> cases h
  · exact (moveOp_tapResult code s).frame himm
  · exact (writeOp_tapResult ir code n data s).frame himm
  · exact (readOp_tapResult ir code n s).frame himm
  · exact (writeReadOp_tapResult ir code n data s).frame himm

/-- Every outcome of a MOVE to a defined state: the cursor is the state, no result, Success or
IoError. -/
theorem moveOp_outcomes {code : Byte} {t : DefState} (s : State)
    (h : DefState.ofCode code = some t) :
    (finish (moveOp code s)).cursor = .known t ∧ (finish (moveOp code s)).result = [] ∧
      ((finish (moveOp code s)).status = .success ∨ (finish (moveOp code s)).status = .ioError) := by
  rw [moveOp_definedCode s h]
  obtain ⟨hsends, hresult⟩ :=
    emitFlush_sends (moveCommands s.cursor t none false) (s.setCursor (.known t))
  refine ⟨(finish_cursor _).trans hsends.only.cursor, ?_, by simpa using hsends.finish_status⟩
  cases hr : (emitFlush (moveCommands s.cursor t none false) (s.setCursor (.known t))).bind
      fun _ s1 => Res.ok [] s1 with
  | ok b u => exact hresult b u hr
  | raise e u => rfl

/-- Settles O21: the bytes are the move's commands, which fit IMM, so MOVE ends as their send does. -/
theorem moveOperation : Obligations.MoveOperation := by
  unfold Obligations.MoveOperation
  refine ⟨?defined, ?outcomes, ?undefined⟩
  case defined =>
    intro s code t a bytes himm hcode
    have ha : a = s.cursor.origin := rfl
    have hbytes : bytes = (moveCommands s.cursor t none false).flatten := by
      rw [moveCommands_flatten, ← ha]
    rw [hbytes]
    refine ⟨fun rest hw => ?_, fun k delivered rest hw => ?_⟩
    · rw [exec_move, moveOp_accepted himm hcode hw, finish_ok]
    · rw [exec_move, moveOp_failed himm hcode hw, finish_raise]
  case outcomes =>
    intro s u code t hcode h
    cases h
    exact moveOp_outcomes s hcode
  case undefined =>
    intro s code hcode
    rw [exec_move, moveOp_undefinedCode s (ofCode_eq_none hcode), finish_raise]

/-! ### The target after a MOVE (R128, R325) -/

/-- The instructions of a plain move from any cursor are its commands, and each decodes. -/
theorem moveInstrs_entry_encode (c : Cursor) (t : DefState) :
    (entryInstrs c ++ moveInstrs c.origin t none false).map encode = moveCommands c t none false ∧
      ∀ i ∈ entryInstrs c ++ moveInstrs c.origin t none false, Decodes i := by
  obtain ⟨hencode, hdecodes⟩ := moveInstrs_encode c.origin t none false
  have hentry : (entryInstrs c).map encode = c.entry ∧ ∀ i ∈ entryInstrs c, Decodes i := by
    cases c with
    | undefined => exact ⟨rfl, by simpa [entryInstrs] using (decodes_tms 6#3 0x7F#8 (by decide)).1⟩
    | known a => exact ⟨rfl, by simp [entryInstrs]⟩
  refine ⟨by rw [List.map_append, hencode, hentry.1, moveCommands], fun i hi => ?_⟩
  exact (List.mem_append.1 hi).elim (hentry.2 i) (hdecodes i)

/-- What a MOVE that ended with Success has sent. -/
theorem moveOp_success {code : Byte} {t : DefState} {s : State} (himm : s.imm = [])
    (hcode : DefState.ofCode code = some t) (h : (finish (moveOp code s)).status = .success) :
    ∃ v, moveOp code s = .ok [] v ∧ SentOk (moveCommands s.cursor t none false).flatten
      { s with cursor := .known t, imm := [] } v := by
  rw [moveOp_definedCode s hcode] at h ⊢
  have hs : s.setCursor (.known t) = { s with cursor := .known t, imm := [] } := by
    rw [← himm]; rfl
  cases he : emitFlush (moveCommands s.cursor t none false) (s.setCursor (.known t)) with
  | ok a v =>
    have hsent := (emitFlush_ok he).1
    rw [hs] at hsent
    exact ⟨v, rfl, hsent⟩
  | raise e v =>
    obtain ⟨-, -, hraised⟩ :=
      emitFlush_spec (moveCommands s.cursor t none false) (s.setCursor (.known t))
    obtain ⟨rfl, -⟩ := hraised e v he
    rw [he] at h
    cases h

/-- Settles O22: the bytes sent are the move's instructions, whose execution brings the TAP to the
target and leaves TMS holding it. -/
theorem moveKeepsCursorAndTapInStep : Obligations.MoveKeepsCursorAndTapInStep := by
  unfold Obligations.MoveKeepsCursorAndTapInStep
  intro s u code t himm hstep hcode h hsuccess
  cases h
  obtain ⟨hmpsse, hinbox, hheld⟩ := hstep
  obtain ⟨v, hv, hsent⟩ := moveOp_success himm hcode hsuccess
  obtain ⟨hencode, hdecodes⟩ := moveInstrs_entry_encode s.cursor t
  obtain ⟨hrun, hcursor⟩ := sent_exec hmpsse hinbox (fun i hi => hdecodes i hi _)
    (congrArg List.flatten hencode) hsent
  obtain ⟨htap, htms, -⟩ := move_run s.params.variant.hiSpeed s.cursor t s.dn hheld
  obtain ⟨hm, hi⟩ := execCommands_mpsse s.params.variant.hiSpeed
    (entryInstrs s.cursor ++ moveInstrs s.cursor.origin t none false) s.dn
  rw [hv, finish_ok]
  have hdn : (State.complete .success [] v).runDownstream.dn = _ := hrun
  refine ⟨hcursor, ?_, ?_, fun a ha => ?_⟩
  · rw [hdn, hm, hmpsse]
  · rw [hdn, hi, hinbox]
  · obtain rfl : t = a := Cursor.known.inj (hcursor.symm.trans ha)
    rw [hdn]
    exact ⟨htap, htms⟩

end Sys2Proof.Machine
end

section
/-! Proofs of the shift family, part 1: the checks of a shift (41_shift_ops.md R150) and the bytes it
sends (R151 to R155). -/

namespace Sys2Proof.Machine

/-! ### The checks (R150) -/

theorem checkShift_invalidNumberBits {n : Nat} (h : n < Config.nMin ∨ Config.nMax < n)
    (m : Option Nat) (exit : Byte) : checkShift n m exit = .error .invalidNumberBits :=
  if_pos h

theorem checkShift_nullBuffer {n : Nat} (h1 : Config.nMin ≤ n) (h2 : n ≤ Config.nMax) (exit : Byte) :
    checkShift n (some 0) exit = .error .nullBuffer := by
  have hn : ¬ (n < Config.nMin ∨ Config.nMax < n) := by omega
  simp only [checkShift, hn, if_false, if_true]

theorem checkShift_invalidNumberBytes {n m : Nat} (h1 : Config.nMin ≤ n) (h2 : n ≤ Config.nMax)
    (h0 : m ≠ 0) (hm : m < ceil8 n ∨ Config.writeBytesMax < m) (exit : Byte) :
    checkShift n (some m) exit = .error .invalidNumberBytes := by
  have hn : ¬ (n < Config.nMin ∨ Config.nMax < n) := by omega
  simp [checkShift, hn, h0, hm]

theorem checkShift_invalidTapState {n : Nat} {m : Option Nat} {exit : Byte} (h1 : Config.nMin ≤ n)
    (h2 : n ≤ Config.nMax) (hm : ∀ k, m = some k → ceil8 n ≤ k ∧ k ≤ Config.writeBytesMax)
    (hexit : DefState.ofCode exit = none) : checkShift n m exit = .error .invalidTapState := by
  -- a defined exit state passes, so none of the checks before the last one fails
  have hpass := checkShift_passes (exit := 0x01#8) h1 h2 hm rfl
  unfold checkShift at hpass
  split_ifs at hpass with hbits hnull hbytes
  simp only [checkShift, hbits, hnull, hbytes, if_false, hexit, Bool.false_eq_true]

/-- A shift with a payload whose checks fail ends with their status and nothing done. -/
theorem exec_payloadShift_rejected (s : State) (ir : Bool) {exit : Byte} {n : Word} {data : List Byte}
    {e : Status} (h : checkShift n.toNat (some data.length) exit = .error e) :
    ∀ i ∈ [Instr.write ir exit n data, .writeRead ir exit n data, .seqAddWrite ir exit n data,
      .seqAddWriteRead ir exit n data], exec i s = .next (s.complete e []) := by
  intro i hi
  simp only [List.mem_cons, List.not_mem_nil, or_false] at hi
  rcases hi with rfl | rfl | rfl | rfl
  · simp only [exec, execWrite, writeOp, h, finish_raise]
  · simp only [exec, execWriteRead, writeReadOp, h, finish_raise]
  · simp only [exec, execSeqAddWrite, seqAddWriteOp, h, finish_raise]
  · simp only [exec, execSeqAddWriteRead, seqAddWriteReadOp, h, finish_raise]

/-- The same for a shift without a payload. -/
theorem exec_readShift_rejected (s : State) (ir : Bool) {exit : Byte} {n : Word} {e : Status}
    (h : checkShift n.toNat none exit = .error e) :
    ∀ i ∈ [Instr.read ir exit n, .seqAddRead ir exit n], exec i s = .next (s.complete e []) := by
  intro i hi
  simp only [List.mem_cons, List.not_mem_nil, or_false] at hi
  rcases hi with rfl | rfl
  · simp only [exec, execRead, readOp, h, finish_raise]
  · simp only [exec, execSeqAddRead, seqAddReadOp, h, finish_raise]

/-- Settles O23: each clause is a check that fails after those before it passed, and every form ends
with the status of its checks. -/
theorem shiftChecksInOrder : Obligations.ShiftChecksInOrder := by
  unfold Obligations.ShiftChecksInOrder
  constructor
  case left =>
    intro s ir exit n data i hi
    have hend {e : Status} (h : checkShift n.toNat (some data.length) exit = .error e) :
        exec i s = .next (s.complete e []) := exec_payloadShift_rejected s ir h i hi
    refine ⟨fun hbits => hend (checkShift_invalidNumberBits hbits _ _), fun h1 h2 => ⟨?_, ?_⟩⟩
    · rintro rfl
      exact hend (checkShift_nullBuffer h1 h2 exit)
    · intro hdata
      have h0 : data.length ≠ 0 := by simpa using hdata
      refine ⟨fun hbytes => hend (checkShift_invalidNumberBytes h1 h2 h0 hbytes exit),
        fun h3 h4 hexit => hend (checkShift_invalidTapState h1 h2 ?_ (ofCode_eq_none hexit))⟩
      intro k hk
      cases hk
      exact ⟨h3, h4⟩
  case right =>
    intro s ir exit n i hi
    have hend {e : Status} (h : checkShift n.toNat none exit = .error e) :
        exec i s = .next (s.complete e []) := exec_readShift_rejected s ir h i hi
    exact ⟨fun hbits => hend (checkShift_invalidNumberBits hbits _ _), fun h1 h2 hexit =>
      hend (checkShift_invalidTapState h1 h2 (by simp) (ofCode_eq_none hexit))⟩

/-! ### The bytes of a shift (R151 to R155) -/

/-- The exit's pattern and clocks: one clock with TMS low to stay, else the table's (R126). -/
theorem movePath_exit (a t : DefState) (last : Bool) :
    movePath a t (some last) = if t = a then (0x00#8, 1) else tt a t := by
  simp [movePath]

theorem byteCommand_flatten (kind : ShiftKind) (b : Nat) (data : List Byte) :
    (byteCommand kind b data).flatten = if b > 0 then
      match kind with
      | .w => [0x19#8] ++ u16le (b - 1) ++ data.take b
      | .r => [0x28#8] ++ u16le (b - 1)
      | .wr => [0x39#8] ++ u16le (b - 1) ++ data.take b
    else [] := by
  unfold byteCommand
  split
  · cases kind <;> exact List.flatten_singleton
  · rfl

theorem bitCommand_flatten (kind : ShiftKind) (b r : Nat) (data : List Byte) :
    (bitCommand kind b r data).flatten = if r > 0 then
      match kind with
      | .w => [0x1B#8, BitVec.ofNat 8 (r - 1), data.getD b 0#8]
      | .r => [0x2A#8, BitVec.ofNat 8 (r - 1)]
      | .wr => [0x3B#8, BitVec.ofNat 8 (r - 1), data.getD b 0#8]
    else [] := by
  unfold bitCommand
  split
  · cases kind <;> rfl
  · rfl

/-- The level the exit puts on TDI: the last bit of a payload (R153), low for a read (R154). -/
theorem exitBit_eq_true (kind : ShiftKind) (data : List Byte) (n : Nat) :
    exitBit kind data n = true ↔ kind ≠ .r ∧ bitAt data (n - 1) = true := by
  cases kind <;> simp [exitBit, lastBit]

/-- Settles O24: the four parts of a shift, each with its bytes spelt out. -/
theorem shiftEncoding : Obligations.ShiftEncoding := by
  unfold Obligations.ShiftEncoding
  intro c ir n data t kind a b r sh k p last
  have hclocks : shiftClocks ⟨kind, ir, n, data, t⟩ = k := by
    rw [shiftClocks, movePath_exit, apply_ite Prod.snd]
    rfl
  have hpattern : (movePath sh t (some (exitBit kind data n))).1 = p := by
    rw [movePath_exit, apply_ite Prod.fst]
  have hlast : (if exitBit kind data n = true then 0x80#8 else 0x00#8) = last := by
    simp only [exitBit_eq_true]
    rfl
  have hecho : (if echoes kind = true then 0x6B#8 else 0x4B#8) =
      if kind = .w then 0x4B#8 else 0x6B#8 := by
    cases kind <;> rfl
  have hexit := exitCommand_eq ⟨kind, ir, n, data, t⟩
  dsimp only at hexit
  rw [hclocks, hecho, hlast, show shiftState ir = sh from rfl, hpattern] at hexit
  refine ⟨?_, hclocks⟩
  simp only [shiftCommands, List.flatten_append, moveCommands_flatten, byteCommand_flatten,
    bitCommand_flatten]
  rw [show shiftState ir = sh from rfl, hexit]
  rfl

end Sys2Proof.Machine
end

section
/-! Proofs of the shift family, part 2: how WRITE, READ and WRITE_READ end (41_shift_ops.md R159 to
R162), and what a wait that fails leaves of the bytes sent (70_reset_and_hazards.md R325, R331). -/

namespace Sys2Proof.Machine

/-! ### A legal shift that is sent (R159) -/

/-- The operation that a legal shift is, with the fields of its descriptor. -/
theorem immediate_eq {kind : ShiftKind} {ir : Bool} {exit : Byte} {n : Word} {data : List Byte}
    {t : DefState} (h : DefState.ofCode exit = some t) :
    (ShiftSpec.mk kind ir n.toNat data t).immediate =
      match kind with
      | .w => .write ir exit n data
      | .r => .read ir exit n
      | .wr => .writeRead ir exit n data := by
  cases kind <;> simp only [ShiftSpec.immediate, code_of_ofCode h, BitVec.ofNat_toNat, BitVec.setWidth_eq]

/-- The bytes of a shift and of the SEND_IMMEDIATE after it fit IMM. -/
theorem shiftCommands_fit (c : Cursor) {q : ShiftSpec} (h : q.n ≤ Config.nMax)
    {tail : List (List Byte)} (htail : tail.flatten.length ≤ 1) :
    (shiftCommands c q ++ tail).flatten.length ≤ Config.cmdBufMax := by
  have hlen := shiftCommands_length_le c q h
  rw [List.flatten_append, List.length_append, Config.cmdBufMax]
  omega

theorem sendShift_accepted {q : ShiftSpec} {tail : List (List Byte)} {s : State}
    {rest : List WriteReply} (hn : q.n ≤ Config.nMax) (htail : tail.flatten.length ≤ 1)
    (himm : s.imm = [])
    (hw : s.WritesAccepted (shiftCommands s.cursor q ++ tail).flatten rest) :
    sendShift q tail s = .ok ()
      ((s.afterSend (shiftCommands s.cursor q ++ tail).flatten rest).setCursor (.known q.exit)) := by
  rw [sendShift, emitFlush_accepted (s := s.setCursor (.known q.exit)) himm
    (shiftCommands_fit s.cursor hn htail) hw]
  rfl

theorem sendShift_failed {q : ShiftSpec} {tail : List (List Byte)} {s : State} {k delivered : Nat}
    {rest : List WriteReply} (hn : q.n ≤ Config.nMax) (htail : tail.flatten.length ≤ 1)
    (himm : s.imm = [])
    (hw : s.WriteFails (shiftCommands s.cursor q ++ tail).flatten k delivered rest) :
    sendShift q tail s = .raise .ioError
      ((s.afterFailedSend (shiftCommands s.cursor q ++ tail).flatten k delivered rest).setCursor
        (.known q.exit)) := by
  rw [sendShift, emitFlush_failed (s := s.setCursor (.known q.exit)) himm
    (shiftCommands_fit s.cursor hn htail) hw]
  rfl

/-- Settles O25: a legal WRITE is its send, whose bytes fit IMM, so it ends as that send does. -/
theorem writeCompletes : Obligations.WriteCompletes := by
  unfold Obligations.WriteCompletes
  intro s ir exit n data t bytes himm hmin hmax hceil hlen hexit
  have hlegal : (ShiftSpec.mk .w ir n.toNat data t).Legal :=
    ⟨hmin, hmax, by simp, fun _ => ⟨hceil, hlen⟩⟩
  have hexec := exec_immediate s hlegal
  rw [immediate_eq hexit, if_pos rfl] at hexec
  have hbytes : bytes = (shiftCommands s.cursor ⟨.w, ir, n.toNat, data, t⟩ ++ []).flatten := by
    rw [List.append_nil]
  refine ⟨fun rest hw => ?_, fun k delivered rest hw => ?_⟩
  · rw [hbytes] at hw ⊢
    rw [hexec, sendShift_accepted (tail := []) hmax (Nat.zero_le 1) himm hw, Res.bind_ok, finish_ok]
  · rw [hbytes] at hw ⊢
    rw [hexec, sendShift_failed (tail := []) hmax (Nat.zero_le 1) himm hw, Res.bind_raise, finish_raise]

/-! ### The response of a shift (R160, R324) -/

theorem immediateTail_flatten (p : Params) :
    (immediateTail p).flatten = if p.sendImmediateOnRead then [0x87#8] else [] := by
  unfold immediateTail
  split <;> rfl

theorem immediateTail_length_le (p : Params) : (immediateTail p).flatten.length ≤ 1 := by
  rw [immediateTail_flatten]
  split <;> decide

theorem respLen_pos (n : Nat) : 0 < respLen n := Nat.succ_pos _

/-- The result bytes of a read: the corrected ones, or as many free ones while the channel is not
synced (R324). -/
theorem readResult_eq {n : Nat} {corrected : List Byte} (h : corrected.length = n) (s : State) :
    ∃ result : List Byte, result.length = n ∧ (s.synced = true → result = corrected) ∧
      readResult n corrected s =
        .ok result { s with draws := if s.synced then s.draws else s.draws + n } := by
  cases hs : s.synced with
  | true =>
    refine ⟨corrected, h, fun _ => rfl, ?_⟩
    simp only [readResult, hs, if_true]
    rw [← hs]
  | false =>
    refine ⟨(freeResult n s).1, by simp [freeResult], by simp, ?_⟩
    simp only [readResult, hs, freeResult, Bool.false_eq_true, if_false]

theorem receiveShift_arrives {q : ShiftSpec} {sent : Nat} {s : State} {used : List Poll} {w : Wait}
    {ws : List Wait} (hn : 0 < q.n) (hw : s.waits = w :: ws)
    (h : Arrives s.params.rxTimeoutMs (respLen q.n) used w.polls)
    (hrsp : respLen q.n ≤ (s.dn.run s.hs).rsp.length) :
    ∃ result : List Byte, result.length = ceil8 q.n ∧
      (s.synced = true →
        result = correct ((s.dn.run s.hs).rsp.take (respLen q.n)) q.n (shiftClocks q)) ∧
      receiveShift q sent s = .ok result
        { s with
          waits := ws
          time := s.time + pollTime used
          draws := if s.synced then s.draws else s.draws + ceil8 q.n
          dn := { s.dn.run s.hs with rsp := (s.dn.run s.hs).rsp.drop (respLen q.n) } } := by
  have hlen : (correct ((s.dn.run s.hs).rsp.take (respLen q.n)) q.n (shiftClocks q)).length =
      ceil8 q.n := by
    refine correct_length _ _ _ hn ?_
    rw [List.length_take, respLen]
    rw [respLen] at hrsp
    omega
  obtain ⟨result, hresult, hsynced, hread⟩ := readResult_eq hlen
    { s with
      waits := ws
      time := s.time + pollTime used
      dn := { s.dn.run s.hs with rsp := (s.dn.run s.hs).rsp.drop (respLen q.n) } }
  refine ⟨result, hresult, hsynced, ?_⟩
  rw [receiveShift, recvExact_arrives (respLen_pos q.n) hw h hrsp, Res.bind_ok]
  exact hread

theorem receiveShift_fails {q : ShiftSpec} {sent elapsed : Nat} {s : State} {used : List Poll}
    {w : Wait} {ws : List Wait} {e : Status} (hw : s.waits = w :: ws)
    (h : WaitFails .commandTimeout s.params.rxTimeoutMs (s.dn.run s.hs).rsp.length used w.polls
      elapsed e)
    (hrsp : pollReach used < respLen q.n ∨ (s.dn.run s.hs).rsp.length < respLen q.n) :
    receiveShift q sent s = .raise e
      { s with
        synced := false
        waits := ws
        time := s.time + elapsed
        dn := s.dn.interrupted s.hs sent w
          (min (pollReach used) (s.dn.run s.hs).rsp.length) } := by
  rw [receiveShift, recvExact_fails (respLen_pos q.n) hw h hrsp, Res.bind_raise]

/-- An exchange whose send is accepted goes on with the response. -/
theorem exchangeShift_accepted {q : ShiftSpec} {s : State} {bytes : List Byte}
    {rest : List WriteReply} (hn : q.n ≤ Config.nMax) (himm : s.imm = [])
    (hbytes : (shiftCommands s.cursor q ++ immediateTail s.params).flatten = bytes)
    (hw : s.WritesAccepted bytes rest) :
    exchangeShift q s =
      receiveShift q bytes.length ((s.afterSend bytes rest).setCursor (.known q.exit)) := by
  subst hbytes
  rw [exchangeShift, sendShift_accepted hn (immediateTail_length_le _) himm hw, Res.bind_ok]

theorem exchangeShift_failed {q : ShiftSpec} {s : State} {bytes : List Byte} {k delivered : Nat}
    {rest : List WriteReply} (hn : q.n ≤ Config.nMax) (himm : s.imm = [])
    (hbytes : (shiftCommands s.cursor q ++ immediateTail s.params).flatten = bytes)
    (hw : s.WriteFails bytes k delivered rest) :
    exchangeShift q s = .raise .ioError
      ((s.afterFailedSend bytes k delivered rest).setCursor (.known q.exit)) := by
  subst hbytes
  rw [exchangeShift, sendShift_failed hn (immediateTail_length_le _) himm hw, Res.bind_raise]

/-! ### What a failing wait leaves (R325 case 3, R331) -/

/-- A wait that fails after the commands `pre` were executed, and after which `tail` is lost. -/
theorem interrupted_encoded {hs : Bool} {d : Downstream} {sent c : Nat} {w : Wait}
    {pre : List Instr} {mid tail : List Byte} (hm : d.mpsse = true) (hi : d.inbox = [])
    (hdecode : ∀ i ∈ pre, ∀ more, decodeCmd hs (encode i ++ more) = .cmd i more)
    (hexecuted : w.executed ≤ pre.length) (hc : c ≤ (execCommands hs pre d).rsp.length)
    (hleast : w.executed < pre.length → (execCommands hs pre.dropLast d).rsp.length < c)
    (htail : tail.length = w.lost) (hlost : w.lost ≤ sent) :
    (deliver ((pre.map encode).flatten ++ mid ++ tail) d).interrupted hs sent w c =
      { execCommands hs pre d with inbox := mid, rsp := (execCommands hs pre d).rsp.drop c } := by
  have hd : deliver ((pre.map encode).flatten ++ mid ++ tail) d =
      d.withInbox ((pre.map encode).flatten ++ (mid ++ tail)) := by
    rw [deliver_mpsse hm, hi, List.nil_append, List.append_assoc]
    rfl
  have hrun := runUntil_encoded (rest := mid ++ tail) hm hdecode le_rfl hexecuted hc hleast
  have hkept : (mid ++ tail).take ((mid ++ tail).length - min w.lost sent) = mid :=
    List.take_left' (by rw [List.length_append]; omega)
  simp only [Downstream.withInbox] at hd hrun
  simp only [Downstream.interrupted, hd, hrun, hkept]

/-- Settles O26: a legal READ or WRITE_READ is an exchange, which ends as its send fails, as its response
arrives, or as its wait fails; the last clause is about a wait that fails. -/
theorem readAndWriteReadComplete : Obligations.ReadAndWriteReadComplete := by
  unfold Obligations.ReadAndWriteReadComplete
  constructor
  case left =>
    intro s kind ir exit n data t q i bytes hkind hlegal himm hexit
    have hi : i = q.immediate := by
      rw [immediate_eq hexit]
      cases kind with
      | w => exact absurd rfl hkind
      | r => rfl
      | wr => rfl
    have hexec : exec i s = .next (finish (exchangeShift q s)) := by
      rw [hi, exec_immediate s hlegal, if_neg hkind]
    have hmax : q.n ≤ Config.nMax := hlegal.2.1
    have hpos : 0 < q.n := Nat.lt_of_lt_of_le (by decide) hlegal.1
    have hbytes : (shiftCommands s.cursor q ++ immediateTail s.params).flatten = bytes := by
      rw [List.flatten_append, immediateTail_flatten]
    rw [hexec]
    refine ⟨?_, fun k delivered rest hw => ?_⟩
    · intro rest w ws u d hw hwaits
      rw [exchangeShift_accepted hmax himm hbytes hw]
      refine ⟨fun used harrives hrsp => ?_, fun used elapsed e hfails hrsp => ?_⟩
      · obtain ⟨result, hlen, hsynced, hr⟩ :=
          receiveShift_arrives (sent := bytes.length) (s := u) hpos hwaits harrives hrsp
        refine ⟨result, hlen, hsynced, ?_⟩
        rw [hr, finish_ok]
        rfl
      · rw [receiveShift_fails (s := u) hwaits hfails hrsp, finish_raise]
        rfl
    · rw [exchangeShift_failed hmax himm hbytes hw, finish_raise]
  case right =>
    intro hs d sent c w pre mid tail response hm hin hdecode hexecuted hc hleast htail hlost
    have hrun (is : List Instr) (h : ∀ i ∈ is, i ∈ pre) :
        (deliver (is.map encode).flatten d).run hs = execCommands hs is d :=
      run_encoded hm hin fun i hi => hdecode i (h i hi)
    have hpre := hrun pre fun _ h => h
    have hdrop := hrun pre.dropLast fun _ h => List.mem_of_mem_dropLast h
    simp only [response, hpre, hdrop] at hc hleast ⊢
    exact interrupted_encoded hm hin hdecode hexecuted hc hleast htail hlost

end Sys2Proof.Machine
end

section
/-! Proofs of the shift family, part 3: how many bytes a shift is answered with (41_shift_ops.md R156),
that correcting them gives the samples (R157, R158), and what a successful shift did to a target in
step (R152 to R155, 70_reset_and_hazards.md R327). -/

namespace Sys2Proof.Machine

/-! ### The length of a response (R156) -/

theorem Downstream.Answers.trans {m n : Nat} {d e f : Downstream} (h : Downstream.Answers m d e)
    (k : Downstream.Answers n e f) : Downstream.Answers (m + n) d f := by
  obtain ⟨ho, r, hr, hrsp⟩ := h
  obtain ⟨ko, r', hr', krsp⟩ := k
  exact ⟨ko.trans ho, r ++ r', by rw [List.length_append, hr, hr'],
    by rw [krsp, hrsp, List.append_assoc]⟩

/-- The response bytes of commands one after another. -/
def responseTotal (hs : Bool) (is : List Instr) : Nat := (is.map (responseBytes hs)).sum

theorem responseTotal_append (hs : Bool) (is js : List Instr) :
    responseTotal hs (is ++ js) = responseTotal hs is + responseTotal hs js := by
  simp [responseTotal]

theorem responseTotal_singleton (hs : Bool) (i : Instr) :
    responseTotal hs [i] = responseBytes hs i := by
  simp [responseTotal]

theorem execCommands_answers (hs : Bool) (is : List Instr) (d : Downstream) :
    Downstream.Answers (responseTotal hs is) d (execCommands hs is d) := by
  induction is generalizing d with
  | nil => exact .none rfl rfl
  | cons i is ih => exact (cmdEffect_answers hs i d).trans (ih (cmdEffect hs i d))

theorem entryInstrs_responseTotal (hs : Bool) (c : Cursor) : responseTotal hs (entryInstrs c) = 0 := by
  cases c <;> rfl

/-- A move answers one byte if it echoes and has clocks. -/
theorem moveInstrs_responseTotal (hs : Bool) (a t : DefState) (e : Option Bool) (echo : Bool) :
    responseTotal hs (moveInstrs a t e echo) =
      if (movePath a t e).2 > 0 ∧ echo = true then 1 else 0 := by
  simp only [moveInstrs]
  split
  · next hk =>
    rw [responseTotal_singleton]
    cases echo with
    | true => exact (if_pos ⟨hk, rfl⟩).symm
    | false => exact (if_neg (by simp)).symm
  · next hk => exact (if_neg fun h => hk h.1).symm

theorem byteInstrs_responseTotal (hs : Bool) {kind : ShiftKind} {b : Nat} {data : List Byte}
    (hb : b ≤ 65534) (hdata : kind ≠ .r → b ≤ data.length) :
    responseTotal hs (byteInstrs kind b data) = if kind = .w then 0 else b := by
  unfold byteInstrs
  split
  · cases kind with
    | w => rfl
    | r =>
      rw [responseTotal_singleton]
      show (BitVec.ofNat 16 (b - 1)).toNat + 1 = b
      rw [BitVec.toNat_ofNat]
      omega
    | wr =>
      rw [responseTotal_singleton]
      exact List.length_take_of_le (hdata (by simp))
  · next h0 =>
    obtain rfl : b = 0 := by omega
    split <;> rfl

theorem bitInstrs_responseTotal (hs : Bool) (kind : ShiftKind) (b r : Nat) (data : List Byte) :
    responseTotal hs (bitInstrs kind b r data) =
      if kind = .w then 0 else if r > 0 then 1 else 0 := by
  unfold bitInstrs
  split
  · cases kind <;> rfl
  · exact (ite_self 0).symm

theorem exitInstrs_responseTotal (hs : Bool) (q : ShiftSpec) :
    responseTotal hs (exitInstrs q) = if q.kind = .w then 0 else 1 := by
  have hk : (movePath (shiftState q.ir) q.exit (some (exitBit q.kind q.data q.n))).2 > 0 :=
    (shiftClocks_bounds q).1
  rw [exitInstrs, moveInstrs_responseTotal]
  cases hkind : q.kind <;> simp_all [echoes]

/-- The commands of a legal shift are answered with respLen(N) bytes, those of a write with none. -/
theorem shiftInstrs_responseTotal (hs : Bool) (c : Cursor) {q : ShiftSpec} (hq : q.Legal) :
    responseTotal hs (shiftInstrs c q) = if q.kind = .w then 0 else respLen q.n := by
  obtain ⟨-, hmax, -, hpayload⟩ := hq
  have hb : wholeBytes q.n ≤ 65534 := by
    simp only [wholeBytes, Config.nMax] at hmax ⊢
    omega
  have hdata : q.kind ≠ .r → wholeBytes q.n ≤ q.data.length := fun hk => by
    have := (hpayload hk).1
    simp only [ceil8, wholeBytes] at this ⊢
    omega
  simp only [shiftInstrs, responseTotal_append, entryInstrs_responseTotal,
    moveInstrs_responseTotal, byteInstrs_responseTotal hs hb hdata, bitInstrs_responseTotal,
    exitInstrs_responseTotal, Bool.false_eq_true, and_false, if_false]
  by_cases hw : q.kind = .w <;> simp [hw, respLen]

/-- Settles O27: the bytes of a legal shift are its instructions, each of which answers its row's
bytes whatever state the target is in. -/
theorem responseLengthIsExact : Obligations.ResponseLengthIsExact := by
  unfold Obligations.ResponseLengthIsExact
  intro hs d c q hq hm hi d'
  obtain ⟨hencode, hdecodes⟩ := shiftInstrs_encode c q hq
  have hrun : d' = execCommands hs (shiftInstrs c q) d := by
    show (deliver (shiftCommands c q).flatten d).run hs = _
    rw [← hencode]
    exact run_encoded hm hi fun i hi => hdecodes i hi hs
  obtain ⟨-, r, hlen, hrsp⟩ := execCommands_answers hs (shiftInstrs c q) d
  rw [hrun]
  refine ⟨(execCommands_mpsse hs (shiftInstrs c q) d).2.trans hi, r, hrsp, ?_⟩
  rw [hlen, shiftInstrs_responseTotal hs c hq]
  rfl

/-! ### The correction (R157, R158) -/

/-- The last byte's worth of the samples: the remaining bits and the exit's one. -/
theorem drop_wholeBytes (samples : List Bool) (hn : 1 ≤ samples.length) :
    ∃ fin, samples.drop (8 * wholeBytes samples.length) =
        (samples.drop (8 * wholeBytes samples.length)).take (restBits samples.length) ++ [fin] ∧
      samples.drop (samples.length - 1) = [fin] := by
  have hindex : 8 * wholeBytes samples.length + restBits samples.length = samples.length - 1 := by
    simp only [wholeBytes, restBits]
    omega
  obtain ⟨fin, hfin⟩ := List.length_eq_one_iff.1
    (show (samples.drop (samples.length - 1)).length = 1 by rw [List.length_drop]; omega)
  refine ⟨fin, ?_, hfin⟩
  rw [← hfin, ← hindex, ← List.drop_drop, List.take_append_drop]

/-- The response bytes of samples, corrected, are the samples packed, whatever the unspecified bits and
the exit's later samples. -/
theorem correct_response {samples low lowT more : List Bool} {k : Nat} (hn : 1 ≤ samples.length)
    (hk : 1 ≤ k) (hk7 : k ≤ 7) (hlow : low.length = 8 - restBits samples.length)
    (hlowT : lowT.length = 8 - k) :
    correct (pack (samples.take (8 * wholeBytes samples.length)) ++
        (if restBits samples.length > 0 then [byteOfBits (low ++
          (samples.drop (8 * wholeBytes samples.length)).take (restBits samples.length))] else []) ++
        [byteOfBits (lowT ++ samples.drop (samples.length - 1) ++ more)]) samples.length k =
      pack samples := by
  obtain ⟨fin, hsplit, hfin⟩ := drop_wholeBytes samples hn
  have hr : restBits samples.length < 8 := Nat.mod_lt _ (by decide)
  have hwhole : 8 * wholeBytes samples.length + restBits samples.length + 1 = samples.length := by
    simp only [wholeBytes, restBits]
    omega
  rw [pack_split samples hn, ← pack_take_whole samples _ (by omega), hfin]
  have hpart : ((samples.drop (8 * wholeBytes samples.length)).take
      (restBits samples.length)).length = restBits samples.length := by
    rw [List.length_take, List.length_drop]
    omega
  have hbytes : (pack (samples.take (8 * wholeBytes samples.length))).length =
      wholeBytes samples.length := by
    rw [pack_length, List.length_take, ceil8]
    omega
  conv_rhs => rw [hsplit]
  generalize (samples.drop (8 * wholeBytes samples.length)).take (restBits samples.length) = part
    at hpart ⊢
  generalize pack (samples.take (8 * wholeBytes samples.length)) = bytes at hbytes ⊢
  have hlast := correct_last low lowT part more fin k hk hk7 (by omega) (by rw [hpart, hlow]) hlowT
  rw [hpart] at hlast
  rw [← hlast]
  by_cases h0 : restBits samples.length > 0 <;> simp [correct, ← hbytes, h0]

/-- Settles O28: the samples are the whole bytes, the remaining bits and the exit's first sample. -/
theorem correctionGivesTheSamples : Obligations.CorrectionGivesTheSamples := by
  unfold Obligations.CorrectionGivesTheSamples
  intro samples low lowT more k n b r hmin _ hk hk7 hlow hlowT _
  exact correct_response (Nat.le_of_succ_le hmin) hk hk7 hlow hlowT

/-! ### Operations that end with Success -/

/-- A shift's operation that ends with Success has passed its checks. -/
theorem checkedShift_success {n : Nat} {m : Option Nat} {exit : Byte} {s : State}
    {f : DefState → Res (List Byte)} {r : Res (List Byte)}
    (hr : r = match checkShift n m exit with
      | .error e => .raise e s
      | .ok t => f t)
    (h : (finish r).status = .success) : ∃ t, checkShift n m exit = .ok t ∧ r = f t := by
  rcases shift_cases hr with ⟨e, he, rfl⟩ | hok
  · obtain rfl : e = .success := h
    cases he
  · exact hok

/-- Transport activity that ends with Success has raised nothing. -/
theorem Sends.success {s : State} {E : List Status} {r : Res (List Byte)} (h : Sends s E r)
    (hE : .success ∉ E) (hr : (finish r).status = .success) : ∃ b v, r = .ok b v := by
  cases r with
  | ok b v => exact ⟨b, v, rfl⟩
  | raise e v =>
    obtain rfl : e = .success := hr
    exact absurd (h.raised _ _ rfl).1 hE

/-- What passes the checks of R150 is legal. -/
theorem legal_of_checkShift {q : ShiftSpec} {code : Byte}
    (h : checkShift q.n (if q.kind = .r then none else some q.data.length) code = .ok q.exit)
    (hdata : q.kind = .r → q.data = []) : q.Legal := by
  obtain ⟨hmin, hmax, -, hlen⟩ := checkShift_ok h
  exact ⟨hmin, hmax, hdata, fun hk => hlen _ (if_neg hk)⟩

theorem writeOp_success {ir : Bool} {exit : Byte} {n : Word} {data : List Byte} {s : State}
    (h : (finish (writeOp ir exit n data s)).status = .success) :
    ∃ t v, DefState.ofCode exit = some t ∧ (ShiftSpec.mk .w ir n.toNat data t).Legal ∧
      sendShift ⟨.w, ir, n.toNat, data, t⟩ [] s = .ok () v ∧ writeOp ir exit n data s = .ok [] v := by
  obtain ⟨t, hc, hr⟩ := checkedShift_success (r := writeOp ir exit n data s) rfl h
  obtain ⟨-, -, hexit, -⟩ := checkShift_ok hc
  have hlegal := legal_of_checkShift (q := ⟨.w, ir, n.toNat, data, t⟩) hc (by simp)
  cases hsend : sendShift ⟨.w, ir, n.toNat, data, t⟩ [] s with
  | ok a v => exact ⟨t, v, hexit, hlegal, hsend, by rw [hr, hsend, Res.bind_ok]⟩
  | raise e v =>
    obtain ⟨rfl, -⟩ := (emitFlush_spec _ (s.setCursor (.known t))).2.2 e v hsend
    rw [hr, hsend] at h
    cases h

/-- An exchange that ends with Success. -/
theorem exchangeShift_success {q : ShiftSpec} {s : State} (hq : q.Legal)
    (h : (finish (exchangeShift q s)).status = .success) :
    ∃ b v, exchangeShift q s = .ok b v :=
  (exchangeShift_sends q (Nat.lt_of_lt_of_le (by decide) hq.1) s).1.success (by simp) h

theorem readOp_success {ir : Bool} {exit : Byte} {n : Word} {s : State}
    (h : (finish (readOp ir exit n s)).status = .success) :
    ∃ t b v, (ShiftSpec.mk .r ir n.toNat [] t).Legal ∧
      exchangeShift ⟨.r, ir, n.toNat, [], t⟩ s = .ok b v ∧ readOp ir exit n s = .ok b v := by
  obtain ⟨t, hc, hr⟩ := checkedShift_success (r := readOp ir exit n s) rfl h
  have hlegal := legal_of_checkShift (q := ⟨.r, ir, n.toNat, [], t⟩) hc fun _ => rfl
  obtain ⟨b, v, hok⟩ := exchangeShift_success hlegal (hr ▸ h)
  exact ⟨t, b, v, hlegal, hok, hr.trans hok⟩

theorem writeReadOp_success {ir : Bool} {exit : Byte} {n : Word} {data : List Byte} {s : State}
    (h : (finish (writeReadOp ir exit n data s)).status = .success) :
    ∃ t b v, (ShiftSpec.mk .wr ir n.toNat data t).Legal ∧
      exchangeShift ⟨.wr, ir, n.toNat, data, t⟩ s = .ok b v ∧
      writeReadOp ir exit n data s = .ok b v := by
  obtain ⟨t, hc, hr⟩ := checkedShift_success (r := writeReadOp ir exit n data s) rfl h
  have hlegal := legal_of_checkShift (q := ⟨.wr, ir, n.toNat, data, t⟩) hc (by simp)
  obtain ⟨b, v, hok⟩ := exchangeShift_success hlegal (hr ▸ h)
  exact ⟨t, b, v, hlegal, hok, hr.trans hok⟩

/-! ### The target after a shift (R152 to R155, R327) -/

/-- A shift that was sent from a target in step: the downstream executes the shift's instructions. The
commands behind it, `tail`, change no downstream. -/
theorem sendShift_run {q : ShiftSpec} {s v : State} {tail : List (List Byte)} (hq : q.Legal)
    (himm : s.imm = []) (hstep : s.InStep)
    (htail : ∃ is : List Instr, is.map encode = tail ∧ (∀ i ∈ is, Decodes i) ∧
      ∀ hs d, execCommands hs is d = d)
    (h : sendShift q tail s = .ok () v) :
    v.dn.run v.hs = execCommands s.hs (shiftInstrs s.cursor q) s.dn ∧
      v.cursor = .known q.exit ∧ v.synced = s.synced := by
  obtain ⟨is, rfl, hdecodes, hnoop⟩ := htail
  obtain ⟨hencode, hshift⟩ := shiftInstrs_encode s.cursor q hq
  have hall : ∀ i ∈ shiftInstrs s.cursor q ++ is, Decodes i := fun i hi =>
    (List.mem_append.1 hi).elim (hshift i) (hdecodes i)
  have hsent := (emitFlush_ok h).1
  rw [State.setCursor_imm, himm, List.nil_append] at hsent
  have hs : s.setCursor (.known q.exit) = { s with cursor := .known q.exit, imm := [] } := by
    rw [← himm]
    rfl
  rw [hs] at hsent
  obtain ⟨hrun, hcursor⟩ := sent_exec hstep.1 hstep.2.1 (fun i hi => hall i hi _)
    (by rw [List.map_append, hencode]) hsent
  refine ⟨?_, hcursor, emitFlush_ok_synced (s := s.setCursor (.known q.exit)) h⟩
  rw [execCommands_append, hnoop] at hrun
  exact hrun

/-- Settles O29: the downstream executes the shift's instructions, which put the payload into the
register and leave the target in the exit state. -/
theorem writeShiftsThePayloadIn : Obligations.WriteShiftsThePayloadIn := by
  unfold Obligations.WriteShiftsThePayloadIn
  intro s u ir exit n data t reg himm hstep hscan hexit h hsuccess
  cases h
  obtain ⟨t', v, hexit', hq, hsend, hr⟩ := writeOp_success hsuccess
  obtain rfl : t = t' := Option.some.inj (hexit.symm.trans hexit')
  obtain ⟨hrun, hcursor, -⟩ := sendShift_run hq himm hstep ⟨[], rfl, by simp, fun _ _ => rfl⟩ hsend
  obtain ⟨hmpsse, hinbox, hheld⟩ := hstep
  obtain ⟨ins, low, lowT, more, -, -, -, -, hins, htap, htms, hreg, hrsp⟩ :=
    shiftInstrs_run s.hs s.cursor _ s.dn reg hq hheld hscan
  obtain ⟨hm, hi⟩ := execCommands_mpsse s.hs
    (shiftInstrs s.cursor ⟨.w, ir, n.toNat, data, t⟩) s.dn
  rw [hr, finish_ok]
  have hdn : (State.complete .success [] v).runDownstream.dn = _ := hrun
  refine ⟨⟨?_, ?_, fun a ha => ?_⟩, hcursor, ?_, fun hother => ?_⟩
  · rw [hdn, hm, hmpsse]
  · rw [hdn, hi, hinbox]
  · obtain rfl : t = a := Cursor.known.inj (hcursor.symm.trans ha)
    rw [hdn]
    exact ⟨htap, htms⟩
  · rw [hdn, hrsp, if_pos rfl, List.append_nil]
  · rw [hdn, hreg hother, hins (by simp)]

/-! ### The result of a shift that reads (R158) -/

/-- Receiving that ends with Success on a synced channel: the result is the corrected response. -/
theorem receiveShift_ok {q : ShiftSpec} {sent : Nat} {b : List Byte} {s u : State}
    (hsynced : s.synced = true) (h : receiveShift q sent s = .ok b u) :
    b = correct ((s.dn.run s.hs).rsp.take (respLen q.n)) q.n (shiftClocks q) ∧
      u.dn.rsp = (s.dn.run s.hs).rsp.drop (respLen q.n) := by
  rw [receiveShift] at h
  cases hrecv : recvExact (respLen q.n) sent s with
  | raise e v =>
    rw [hrecv, Res.bind_raise] at h
    cases h
  | ok resp v =>
    obtain ⟨-, hresp, hdn⟩ := recvExact_ok hrecv (respLen_pos q.n).ne'
    obtain ⟨-, -, -, hok⟩ := recvExact_spec (respLen q.n) sent s
    have hv : v.synced = true := (hok _ _ hrecv).2.trans hsynced
    rw [hrecv, Res.bind_ok, readResult, if_pos hv] at h
    cases h
    exact ⟨by rw [hresp], by rw [hdn]⟩

/-- A successful exchange with a target in step and nothing left over: the result is what came out of
the register, with `ins` the bits that went in, and no response byte is left. -/
theorem exchangeShift_ok {q : ShiftSpec} {s u : State} {b : List Byte} {reg : List Bool}
    (hq : q.Legal) (hkind : q.kind ≠ .w) (hready : s.ReadyToRead) (hscan : s.ScanRegister q.ir reg)
    (h : exchangeShift q s = .ok b u) :
    ∃ ins : List Bool, ins.length = q.n ∧ (q.kind ≠ .r → ins = bitsOf q.data q.n) ∧
      b = pack ((reg ++ ins).take q.n) ∧ u.dn.rsp = [] := by
  obtain ⟨himm, hsynced, hstep, hempty⟩ := hready
  rw [exchangeShift] at h
  cases hsend : sendShift q (immediateTail s.params) s with
  | raise e v =>
    rw [hsend, Res.bind_raise] at h
    cases h
  | ok a v =>
    rw [hsend, Res.bind_ok] at h
    obtain ⟨hrun, -, hv⟩ := sendShift_run hq himm hstep (immediateTail_instrs s.params) hsend
    obtain ⟨hb, hu⟩ := receiveShift_ok (hv.trans hsynced) h
    obtain ⟨ins, low, lowT, more, hlen, hlow, hlowT, -, hins, -, -, -, hrsp⟩ :=
      shiftInstrs_run s.hs s.cursor q s.dn reg hq hstep.2.2 hscan
    have hsamples : ((reg ++ ins).take q.n).length = q.n := by
      rw [List.length_take, List.length_append]
      omega
    -- the response is as long as the exchange reads
    obtain ⟨-, r, hrlen, hr⟩ := execCommands_answers s.hs (shiftInstrs s.cursor q) s.dn
    rw [shiftInstrs_responseTotal s.hs s.cursor hq, if_neg hkind] at hrlen
    rw [hempty, List.nil_append] at hr hrsp
    rw [hrun, hr] at hb hu
    rw [List.take_of_length_le hrlen.le] at hb
    rw [List.drop_of_length_le hrlen.le] at hu
    refine ⟨ins, hlen, hins, ?_, hu⟩
    obtain ⟨hk, hk7⟩ := shiftClocks_bounds q
    have hcorrect := correct_response (samples := (reg ++ ins).take q.n) (low := low) (lowT := lowT)
      (more := more) (k := shiftClocks q)
      (by rw [hsamples]; exact Nat.le_of_succ_le hq.1) hk hk7 (by rw [hsamples, hlow]) hlowT
    rw [hsamples] at hcorrect
    rw [hb, ← hr, hrsp, if_neg hkind, hcorrect]

/-- Settles O30: the bits that went in are the payload's. -/
theorem writeReadExchangesBits : Obligations.WriteReadExchangesBits := by
  unfold Obligations.WriteReadExchangesBits
  intro s u ir exit n data reg hready hscan h hsuccess
  cases h
  obtain ⟨t, b, v, hq, hok, hr⟩ := writeReadOp_success hsuccess
  obtain ⟨ins, -, hins, hb, hrsp⟩ := exchangeShift_ok hq (by simp) hready hscan hok
  have hresult : b = pack ((reg ++ bitsOf data n.toNat).take n.toNat) := by
    rw [hb, hins (by simp)]
  rw [hr, finish_ok]
  refine ⟨hresult, hrsp, ?_⟩
  rintro rfl
  rw [List.nil_append, List.take_of_length_le (bitsOf_length data n.toNat).le] at hresult
  exact hresult

/-- Settles O31: the bits that come out first are the register's, whatever went in. -/
theorem readReturnsTheRegister : Obligations.ReadReturnsTheRegister := by
  unfold Obligations.ReadReturnsTheRegister
  intro s u ir exit n reg hready hscan hlen h hsuccess
  cases h
  obtain ⟨t, b, v, hq, hok, hr⟩ := readOp_success hsuccess
  obtain ⟨ins, -, -, hb, hrsp⟩ := exchangeShift_ok hq (by simp) hready hscan hok
  rw [List.take_append_of_le_length hlen] at hb
  rw [hr, finish_ok]
  exact ⟨hb, hrsp⟩

end Sys2Proof.Machine
end

section
/-! Proofs of the sequence family, part 1: the operations that change the queue and do no I/O
(42_sequence.md R190 to R195, 20_memory.md R63). -/

namespace Sys2Proof.Machine

/-! ### The adds (R192 to R195) -/

/-- Only a shift that reads queues a descriptor (R192). -/
theorem queuedDesc_eq (q : ShiftSpec) :
    queuedDesc q = if q.kind = .w then [] else [⟨q.n, shiftClocks q⟩] := by
  unfold queuedDesc
  cases q.kind <;> rfl

/-- An add that fits. -/
theorem addShift_fits {s : State} {q : ShiftSpec}
    (h : s.seq.length + (queuedBytes s.cursor q).length ≤ Config.cmdBufMax) :
    addShift q s = .ok [] ((s.setCursor (.known q.exit)).setQueue (s.seq ++ queuedBytes s.cursor q)
      (s.desc ++ queuedDesc q)) :=
  if_neg (Nat.not_lt.2 h)

/-- An add that does not fit. -/
theorem addShift_full {s : State} {q : ShiftSpec}
    (h : Config.cmdBufMax < s.seq.length + (queuedBytes s.cursor q).length) :
    addShift q s = .raise .commandSequenceBufferFull s :=
  if_pos h

/-- Settles O32: an add is its append, or finds the buffer full. -/
theorem addsComplete : Obligations.AddsComplete := by
  unfold Obligations.AddsComplete
  constructor
  case left =>
    intro s q hq hfits
    rw [exec_deferred s hq, addShift_fits hfits, finish_ok, ← queuedDesc_eq]
    rfl
  case right =>
    intro s q hq hfull
    rw [exec_deferred s hq, addShift_full hfull, finish_raise]

/-- Settles O33: SEQ_CLEAR is the one update of the queue. -/
theorem seqClearEmptiesTheQueue : Obligations.SeqClearEmptiesTheQueue := fun _ => rfl

/-! ### The frame of the operations without I/O (R63) -/

/-- `t` differs from `s` in the cursor and the queue only. -/
def QueueOnly (s t : State) : Prop :=
  ∃ (c : Cursor) (bytes : List Byte) (descs : List ReadDesc),
    t = (s.setCursor c).setQueue bytes descs

theorem QueueOnly.refl (s : State) : QueueOnly s s := ⟨s.cursor, s.seq, s.desc, rfl⟩

theorem addShift_queueOnly (q : ShiftSpec) (s : State) : QueueOnly s (addShift q s).state := by
  by_cases h : Config.cmdBufMax < s.seq.length + (queuedBytes s.cursor q).length
  · rw [addShift_full h]
    exact .refl s
  · rw [addShift_fits (Nat.not_lt.1 h)]
    exact ⟨_, _, _, rfl⟩

/-- A checked add: its checks fail, with nothing done, or it is the add. -/
theorem checkedAdd_queueOnly {n : Nat} {m : Option Nat} {exit : Byte} {s : State}
    {q : DefState → ShiftSpec} {r : Res (List Byte)}
    (hr : r = match checkShift n m exit with
      | .error e => .raise e s
      | .ok t => addShift (q t) s) : QueueOnly s r.state := by
  rcases shift_cases hr with ⟨e, -, rfl⟩ | ⟨t, -, rfl⟩
  · exact .refl s
  · exact addShift_queueOnly (q t) s

theorem getFreqOp_queueOnly (divisor : Half) (s : State) :
    QueueOnly s (getFreqOp divisor s).state := by
  unfold getFreqOp
  split
  · exact .refl s
  · exact .refl s

/-- An operation that changes the cursor and the queue only puts its frame on RES and nothing else on
any port. -/
theorem QueueOnly.finish_frame {s : State} {r : Res (List Byte)} (h : QueueOnly s r.state) :
    let t := finish r
    t.log = s.log ++ [.frame (t.status.code :: t.result)] ∧ t.dn = s.dn ∧ t.time = s.time ∧
      t.synced = s.synced ∧ t.imm = s.imm ∧ t.pinVal = s.pinVal ∧ t.pinDir = s.pinDir ∧
      t.divisor = s.divisor ∧ t.div5 = s.div5 ∧ t.op = s.op ∧ t.draws = s.draws := by
  obtain ⟨c, bytes, descs, hstate⟩ := h
  have hlog := finish_log r
  rw [hstate] at hlog
  refine ⟨hlog, ?_⟩
  rw [finish_eq_complete, hstate]
  exact ⟨rfl, rfl, rfl, rfl, rfl, rfl, rfl, rfl, rfl, rfl⟩

/-- Settles O53: each of the five changes at most the cursor and the queue before it ends. -/
theorem queueOpsDoNoIo : Obligations.QueueOpsDoNoIo := by
  unfold Obligations.QueueOpsDoNoIo
  intro s t ir code n data divisor i hi h
  simp only [List.mem_cons, List.not_mem_nil, or_false] at hi
  rcases hi with rfl | rfl | rfl | rfl | rfl <;> cases h
  · exact QueueOnly.finish_frame (r := seqClearOp s) ⟨s.cursor, [], [], rfl⟩
  · exact (checkedAdd_queueOnly (q := fun t => ⟨.w, ir, n.toNat, data, t⟩) rfl).finish_frame
  · exact (checkedAdd_queueOnly (q := fun t => ⟨.r, ir, n.toNat, [], t⟩) rfl).finish_frame
  · exact (checkedAdd_queueOnly (q := fun t => ⟨.wr, ir, n.toNat, data, t⟩) rfl).finish_frame
  · exact (getFreqOp_queueOnly divisor s).finish_frame

end Sys2Proof.Machine
end

section
/-! Proofs of the sequence family, part 2: SEQ_EXECUTE and the demultiplexer (42_sequence.md R196 to
R199). -/

namespace Sys2Proof.Machine

/-! ### The demultiplexer (R197) -/

@[simp] theorem totalResponse_nil : totalResponse [] = 0 := rfl

@[simp] theorem totalResponse_cons (e : ReadDesc) (d : List ReadDesc) :
    totalResponse (e :: d) = respLen e.nbits + totalResponse d := by
  simp [totalResponse]

/-- Every read is answered with at least one byte. -/
theorem totalResponse_eq_zero {d : List ReadDesc} : totalResponse d = 0 ↔ d = [] := by
  cases d with
  | nil => simp
  | cons e d =>
    have := respLen_pos e.nbits
    simp only [totalResponse_cons, reduceCtorEq, iff_false]
    omega

@[simp] theorem demux_nil (resp : List Byte) : demux resp [] = [] := rfl

theorem demux_cons (resp : List Byte) (e : ReadDesc) (d : List ReadDesc) :
    demux resp (e :: d) = correct (resp.take (respLen e.nbits)) e.nbits e.tmsclk ++
      demux (resp.drop (respLen e.nbits)) d :=
  rfl

/-- The descriptor in front takes its own slice and leaves the rest of the response to the others. -/
theorem demux_slice {slice : List Byte} {e : ReadDesc} (h : slice.length = respLen e.nbits)
    (resp : List Byte) (d : List ReadDesc) :
    demux (slice ++ resp) (e :: d) = correct slice e.nbits e.tmsclk ++ demux resp d := by
  rw [demux_cons, List.take_left' h, List.drop_left' h]

/-- Settles O37: by induction on the slices, each descriptor takes its own. -/
theorem demuxSlicesIndependently : Obligations.DemuxSlicesIndependently := by
  unfold Obligations.DemuxSlicesIndependently
  intro slices hslices
  constructor
  case left =>
    induction slices with
    | nil => rfl
    | cons x slices ih =>
      simp only [List.map_cons, List.flatten_cons]
      rw [demux_slice (hslices x (by simp)).1, ih fun y hy => hslices y (by simp [hy])]
  case right =>
    intro x hx
    obtain ⟨hlen, hmin⟩ := hslices x hx
    exact correct_length _ _ _ (by omega) (by rw [hlen, respLen]; omega)

/-! ### SEQ_EXECUTE as a send and a receive (R196) -/

theorem exec_seqExecute (s : State) : exec .seqExecute s = .next (finish (seqExecuteOp s)) := rfl

theorem seqExecuteOp_empty {s : State} (hseq : s.seq = []) (hdesc : s.desc = []) :
    seqExecuteOp s = .ok [] s :=
  if_pos ⟨hseq, hdesc⟩

/-- Settles O35: nothing is sent and nothing received for an empty sequence (R199). -/
theorem emptySequenceDoesNoIo : Obligations.EmptySequenceDoesNoIo := by
  unfold Obligations.EmptySequenceDoesNoIo
  intro s hseq hdesc
  rw [exec_seqExecute, seqExecuteOp_empty hseq hdesc, finish_ok]

/-- Settles O34: an empty sequence leaves its empty queue, and any other is taken out of the queue
before the transport activity, which writes none of these fields. -/
theorem seqExecuteAlwaysEmptiesTheQueue : Obligations.SeqExecuteAlwaysEmptiesTheQueue := by
  unfold Obligations.SeqExecuteAlwaysEmptiesTheQueue
  intro s t h
  cases h
  rw [finish_eq_complete]
  rcases seqExecuteOp_spec s with ⟨hr, hseq, hdesc⟩ | ⟨honly, himm, -⟩
  · rw [hr]
    exact ⟨hseq, hdesc, rfl, rfl, rfl, rfl, rfl, rfl, rfl⟩
  · exact ⟨honly.seq, honly.desc, honly.cursor, himm, honly.pinVal, honly.pinDir, honly.divisor,
      honly.div5, honly.op⟩

/-- What SEQ_EXECUTE does once its `sent` bytes are out: receive the responses of the descriptors, if
there are any, and take them apart (R196, R197). -/
def receiveSequence (d : List ReadDesc) (sent : Nat) (s : State) : Res (List Byte) :=
  if d = [] then .ok [] s
  else
    (recvExact (totalResponse d) sent s).bind fun resp s1 =>
      readResult (totalResult d) (demux resp d) s1

theorem receiveSequence_nil (sent : Nat) (s : State) : receiveSequence [] sent s = .ok [] s :=
  if_pos rfl

theorem receiveSequence_reads {d : List ReadDesc} (h : d ≠ []) (sent : Nat) (s : State) :
    receiveSequence d sent s = (recvExact (totalResponse d) sent s).bind fun resp s1 =>
      readResult (totalResult d) (demux resp d) s1 :=
  if_neg h

theorem seqExecuteOp_nonempty {s : State} (h : ¬(s.seq = [] ∧ s.desc = [])) :
    seqExecuteOp s = (send (sequenceBytes s) (s.setQueue [] [])).bind fun _ s1 =>
      receiveSequence s.desc (sequenceBytes s).length s1 := by
  simp only [seqExecuteOp, if_neg h, totalResponse_eq_zero, receiveSequence]

/-- Bytes are sent only for a sequence that is not empty. -/
theorem sequenceBytes_empty {s : State} (hseq : s.seq = []) (hdesc : s.desc = []) :
    sequenceBytes s = [] := by
  simp [sequenceBytes, hseq, hdesc]

theorem seqExecuteOp_accepted {s : State} {rest : List WriteReply}
    (h : ¬(s.seq = [] ∧ s.desc = [])) (hw : s.WritesAccepted (sequenceBytes s) rest) :
    seqExecuteOp s = receiveSequence s.desc (sequenceBytes s).length
      ((s.afterSend (sequenceBytes s) rest).setQueue [] []) := by
  rw [seqExecuteOp_nonempty h, send_accepted (s := s.setQueue [] []) hw]
  rfl

theorem seqExecuteOp_failed {s : State} {k delivered : Nat} {rest : List WriteReply}
    (hw : s.WriteFails (sequenceBytes s) k delivered rest) :
    seqExecuteOp s = .raise .ioError
      ((s.afterFailedSend (sequenceBytes s) k delivered rest).setQueue [] []) := by
  have hne : ¬(s.seq = [] ∧ s.desc = []) := by
    rintro ⟨hseq, hdesc⟩
    obtain ⟨r, c, -, hc, -⟩ := hw
    simp [sequenceBytes_empty hseq hdesc] at hc
  rw [seqExecuteOp_nonempty hne, send_failed (s := s.setQueue [] []) hw]
  rfl

/-! ### How the receive of SEQ_EXECUTE ends (R196, R285, R287, R324) -/

/-- The result of a read uses up free values and changes nothing else; while the channel is synced it
uses none and is the corrected response (R324). -/
theorem readResult_draws (n : Nat) (corrected : List Byte) (s : State) :
    ∃ (result : List Byte) (m : Nat),
      (s.synced = true → m = s.draws ∧ result = corrected) ∧
      (s.synced = false → result.length = n) ∧
      readResult n corrected s = .ok result { s with draws := m } := by
  by_cases hs : s.synced = true
  · refine ⟨corrected, s.draws, fun _ => ⟨rfl, rfl⟩, by simp [hs], ?_⟩
    rw [readResult, if_pos hs]
  · refine ⟨(freeResult n s).1, s.draws + n, by simp [hs], fun _ => by simp [freeResult], ?_⟩
    rw [readResult, if_neg hs]
    rfl

theorem receiveSequence_arrives {d : List ReadDesc} {sent : Nat} {s : State} {used : List Poll}
    {w : Wait} {ws : List Wait} (hd : d ≠ []) (hw : s.waits = w :: ws)
    (h : Arrives s.params.rxTimeoutMs (totalResponse d) used w.polls)
    (hrsp : totalResponse d ≤ (s.dn.run s.hs).rsp.length) :
    ∃ (result : List Byte) (m : Nat),
      (s.synced = true →
        m = s.draws ∧ result = demux ((s.dn.run s.hs).rsp.take (totalResponse d)) d) ∧
      (s.synced = false → result.length = totalResult d) ∧
      receiveSequence d sent s = .ok result
        { s with
          waits := ws
          time := s.time + pollTime used
          draws := m
          dn := { s.dn.run s.hs with rsp := (s.dn.run s.hs).rsp.drop (totalResponse d) } } := by
  obtain ⟨result, m, hsynced, hfree, hread⟩ := readResult_draws (totalResult d)
    (demux ((s.dn.run s.hs).rsp.take (totalResponse d)) d)
    { s with
      waits := ws
      time := s.time + pollTime used
      dn := { s.dn.run s.hs with rsp := (s.dn.run s.hs).rsp.drop (totalResponse d) } }
  refine ⟨result, m, hsynced, hfree, ?_⟩
  have hpos : 0 < totalResponse d := Nat.pos_of_ne_zero (totalResponse_eq_zero.not.2 hd)
  rw [receiveSequence_reads hd, recvExact_arrives hpos hw h hrsp, Res.bind_ok]
  exact hread

theorem receiveSequence_fails {d : List ReadDesc} {sent elapsed : Nat} {s : State}
    {used : List Poll} {w : Wait} {ws : List Wait} {e : Status} (hd : d ≠ [])
    (hw : s.waits = w :: ws)
    (h : WaitFails .commandTimeout s.params.rxTimeoutMs (s.dn.run s.hs).rsp.length used w.polls
      elapsed e)
    (hrsp : pollReach used < totalResponse d ∨ (s.dn.run s.hs).rsp.length < totalResponse d) :
    receiveSequence d sent s = .raise e
      { s with
        synced := false
        waits := ws
        time := s.time + elapsed
        dn := s.dn.interrupted s.hs sent w
          (min (pollReach used) (s.dn.run s.hs).rsp.length) } := by
  have hpos : 0 < totalResponse d := Nat.pos_of_ne_zero (totalResponse_eq_zero.not.2 hd)
  rw [receiveSequence_reads hd, recvExact_fails hpos hw h hrsp, Res.bind_raise]

/-- Settles O36: SEQ_EXECUTE ends as its send fails, at once when nothing is read, as its responses
arrive, or as its wait fails. -/
theorem seqExecuteCompletes : Obligations.SeqExecuteCompletes := by
  unfold Obligations.SeqExecuteCompletes
  intro s total bytes
  -- the statement's `bytes` and `total` are the operation's own
  have hbytes : bytes = sequenceBytes s := rfl
  have htotal : total = totalResponse s.desc := rfl
  clear_value bytes total
  subst hbytes htotal
  rw [exec_seqExecute]
  refine ⟨?accepted, fun k delivered rest hw => ?failing⟩
  case failing => rw [seqExecuteOp_failed hw, finish_raise]
  case accepted =>
    intro rest u d hw
    refine ⟨fun hseq hdesc => ?_, fun w ws hdesc hwaits => ?_⟩
    · rw [seqExecuteOp_accepted (fun h => hseq h.1) hw, hdesc, receiveSequence_nil, finish_ok]
    · rw [seqExecuteOp_accepted (fun h => hdesc h.2) hw]
      refine ⟨fun used harrives hrsp => ?_, fun used elapsed e hfails hrsp => ?_⟩
      · obtain ⟨result, m, hsynced, hfree, hr⟩ := receiveSequence_arrives
          (sent := (sequenceBytes s).length) (s := u) hdesc hwaits harrives hrsp
        exact ⟨result, m, hsynced, hfree, by rw [hr, finish_ok]; rfl⟩
      · rw [receiveSequence_fails (s := u) hdesc hwaits hfails hrsp, finish_raise]
        rfl

end Sys2Proof.Machine
end

section
/-! Proofs of the sequence family, part 3: a batch of shifts against the same immediate operations
(42_sequence.md R200). -/

namespace Sys2Proof.Machine

/-! ### Runs of operations -/

theorem runOps_cons {i : Instr} {is : List Instr} {s u : State} (h : runOps (i :: is) s = some u) :
    ∃ t, exec i s = .next t ∧ t.status = .success ∧ runOps is t = some u := by
  unfold runOps at h
  split at h
  · next t ht =>
    split at h
    · next hs => exact ⟨t, ht, hs, h⟩
    · cases h
  · cases h
  · cases h

theorem runOps_next {i : Instr} {s t : State} (h : exec i s = .next t) (hs : t.status = .success)
    (is : List Instr) : runOps (i :: is) s = runOps is t := by
  simp only [runOps, h, hs, if_true]

theorem runResults_cons {i : Instr} {is : List Instr} {s v : State} {results : List (List Byte)}
    (h : runResults (i :: is) s = some (v, results)) :
    ∃ t more, exec i s = .next t ∧ t.status = .success ∧ runResults is t = some (v, more) ∧
      results = t.result :: more := by
  unfold runResults at h
  split at h
  · next t ht =>
    split at h
    · next hs =>
      obtain ⟨⟨v', more⟩, hrun, heq⟩ := Option.map_eq_some_iff.1 h
      cases heq
      exact ⟨t, more, ht, hs, hrun, rfl⟩
    · cases h
  · cases h
  · cases h

/-- Collecting the results does not change the run. -/
theorem runOps_of_runResults {is : List Instr} {s v : State} {results : List (List Byte)}
    (h : runResults is s = some (v, results)) : runOps is s = some v := by
  induction is generalizing s results with
  | nil => cases h; rfl
  | cons i is ih =>
    obtain ⟨t, more, ht, hs, hrun, -⟩ := runResults_cons h
    rw [runOps_next ht hs, ih hrun]

/-! ### The adds of a batch (R192, R200) -/

/-- The end of an operation puts nothing on CMD. -/
theorem cmdBytes_complete (e : Status) (result : List Byte) (s : State) :
    cmdBytes (s.complete e result).log = cmdBytes s.log := by
  simp [State.complete, cmdBytes]

/-- `t` is `s` after the adds of some shifts: the queue and the cursor as the shifts leave them, and
nothing sent. -/
structure Queued (qs : List ShiftSpec) (s t : State) : Prop where
  seq : t.seq = s.seq ++ batchBytes s.cursor qs
  desc : t.desc = s.desc ++ qs.flatMap queuedDesc
  cursor : t.cursor = lastCursor s.cursor qs
  sent : cmdBytes t.log = cmdBytes s.log
  synced : t.synced = s.synced
  params : t.params = s.params
  dn : t.dn = s.dn

theorem Queued.nil (s : State) : Queued [] s s :=
  ⟨(List.append_nil _).symm, (List.append_nil _).symm, rfl, rfl, rfl, rfl, rfl⟩

/-- The state after an add that succeeded. -/
def State.added (q : ShiftSpec) (s : State) : State :=
  ((s.setCursor (.known q.exit)).setQueue (s.seq ++ queuedBytes s.cursor q)
    (s.desc ++ queuedDesc q)).complete .success []

theorem Queued.cons {q : ShiftSpec} {qs : List ShiftSpec} {s t : State}
    (h : Queued qs (s.added q) t) : Queued (q :: qs) s t where
  seq := h.seq.trans (List.append_assoc _ _ _)
  desc := h.desc.trans (List.append_assoc _ _ _)
  cursor := h.cursor
  sent := h.sent.trans (cmdBytes_complete _ _ _)
  synced := h.synced
  params := h.params
  dn := h.dn

theorem exec_deferred_fits {s : State} {q : ShiftSpec} (hq : q.Legal)
    (h : s.seq.length + (queuedBytes s.cursor q).length ≤ Config.cmdBufMax) :
    exec q.deferred s = .next (s.added q) := by
  rw [exec_deferred s hq, addShift_fits h, finish_ok]
  rfl

/-- An add ends with Success only if it fits. -/
theorem exec_deferred_success {s t : State} {q : ShiftSpec} (hq : q.Legal)
    (h : exec q.deferred s = .next t) (hs : t.status = .success) : t = s.added q := by
  by_cases hfits : s.seq.length + (queuedBytes s.cursor q).length ≤ Config.cmdBufMax
  · rw [exec_deferred_fits hq hfits] at h
    cases h
    rfl
  · rw [exec_deferred s hq, addShift_full (Nat.lt_of_not_le hfits)] at h
    cases h
    cases hs

theorem runOps_deferred_queued {qs : List ShiftSpec} (hq : ∀ q ∈ qs, q.Legal) {s t : State}
    (h : runOps (qs.map ShiftSpec.deferred) s = some t) : Queued qs s t := by
  induction qs generalizing s with
  | nil => cases h; exact .nil _
  | cons q qs ih =>
    obtain ⟨t1, ht, hs, hrun⟩ := runOps_cons h
    obtain rfl := exec_deferred_success (hq q (by simp)) ht hs
    exact (ih (fun x hx => hq x (by simp [hx])) hrun).cons

theorem runOps_deferred_fits {qs : List ShiftSpec} (hq : ∀ q ∈ qs, q.Legal) {s : State}
    (h : s.seq.length + (batchBytes s.cursor qs).length ≤ Config.cmdBufMax) :
    ∃ t, runOps (qs.map ShiftSpec.deferred) s = some t := by
  induction qs generalizing s with
  | nil => exact ⟨s, rfl⟩
  | cons q qs ih =>
    rw [batchBytes, List.length_append] at h
    have hrest : (s.added q).seq.length + (batchBytes (s.added q).cursor qs).length ≤
        Config.cmdBufMax := by
      show (s.seq ++ queuedBytes s.cursor q).length + (batchBytes (.known q.exit) qs).length ≤ _
      rw [List.length_append]
      omega
    obtain ⟨t, ht⟩ := ih (fun x hx => hq x (by simp [hx])) hrest
    refine ⟨t, ?_⟩
    rw [List.map_cons, runOps_next (exec_deferred_fits (hq q (by simp)) (by omega)) rfl, ht]

/-! ### One immediate operation of a batch (R159 to R162) -/

/-- The commands an immediate operation sends behind its shift's (R162). -/
def shiftTail (p : Params) (q : ShiftSpec) : List (List Byte) :=
  if q.kind = .w then [] else immediateTail p

theorem shiftTail_instrs (p : Params) (q : ShiftSpec) : ∃ is : List Instr,
    is.map encode = shiftTail p q ∧ (∀ i ∈ is, Decodes i) ∧ ∀ hs d, execCommands hs is d = d := by
  unfold shiftTail
  split
  · exact ⟨[], rfl, by simp, fun _ _ => rfl⟩
  · exact immediateTail_instrs p

theorem immediateBytes_cons (p : Params) (c : Cursor) (q : ShiftSpec) (qs : List ShiftSpec) :
    immediateBytes p c (q :: qs) = queuedBytes c q ++ (shiftTail p q).flatten ++
      immediateBytes p (.known q.exit) qs := by
  rw [immediateBytes, shiftTail, apply_ite List.flatten]
  rfl

/-- The end of an immediate operation that was sent: a write is done, a read receives its response. -/
inductive Answered (q : ShiftSpec) (v : State) : List Byte → State → Prop where
  | write (hkind : q.kind = .w) : Answered q v [] v
  | read (hkind : q.kind ≠ .w) (sent : Nat) (result : List Byte) (w : State)
      (h : receiveShift q sent v = .ok result w) : Answered q v result w

/-- What an immediate operation that ended with Success went through. -/
theorem exec_immediate_success {q : ShiftSpec} {s t : State} (hq : q.Legal)
    (h : exec q.immediate s = .next t) (hs : t.status = .success) :
    ∃ v result w, sendShift q (shiftTail s.params q) s = .ok () v ∧ Answered q v result w ∧
      t = w.complete .success result := by
  rw [exec_immediate s hq] at h
  cases h
  by_cases hkind : q.kind = .w
  · simp only [if_pos hkind, shiftTail] at hs ⊢
    have hends := (emitFlush_sends (shiftCommands s.cursor q ++ []) (s.setCursor (.known q.exit))).1
    obtain ⟨b, w, hok⟩ := hends.success (by simp) hs
    cases hsend : sendShift q [] s with
    | ok a v => exact ⟨v, [], v, rfl, .write hkind, rfl⟩
    | raise e v =>
      have : (sendShift q [] s).bind (fun _ s1 => Res.ok ([] : List Byte) s1) = .ok b w := hok
      rw [hsend, Res.bind_raise] at this
      cases this
  · simp only [if_neg hkind, shiftTail] at hs ⊢
    obtain ⟨b, w, hok⟩ := exchangeShift_success hq hs
    rw [hok]
    rw [exchangeShift] at hok
    cases hsend : sendShift q (immediateTail s.params) s with
    | ok a v =>
      rw [hsend, Res.bind_ok] at hok
      exact ⟨v, b, w, rfl, .read hkind _ b w hok, rfl⟩
    | raise e v =>
      rw [hsend, Res.bind_raise] at hok
      cases hok

/-- What a shift that was sent has done: CMD took its bytes, and only the cursor has moved. -/
theorem sendShift_ok {q : ShiftSpec} {tail : List (List Byte)} {s v : State} (himm : s.imm = [])
    (h : sendShift q tail s = .ok () v) :
    cmdBytes v.log = cmdBytes s.log ++ (queuedBytes s.cursor q ++ tail.flatten) ∧
      (s.dn.mpsse = true → v.dn =
        { s.dn with inbox := s.dn.inbox ++ (queuedBytes s.cursor q ++ tail.flatten) }) ∧
      v.imm = [] ∧ v.cursor = .known q.exit ∧ v.params = s.params ∧ v.synced = s.synced := by
  obtain ⟨hsent, hv⟩ := emitFlush_ok h
  have honly := (emitFlush_spec (shiftCommands s.cursor q ++ tail) (s.setCursor (.known q.exit))).1
  rw [show emitFlush _ _ = _ from h] at honly
  rw [State.setCursor_imm, himm, List.nil_append, List.flatten_append] at hsent
  exact ⟨hsent.cmdBytes, hsent.dn, hv, honly.cursor, honly.params,
    emitFlush_ok_synced (s := s.setCursor (.known q.exit)) h⟩

/-- Receiving puts nothing on a port, leaves the cursor, the parameters, IMM and `synced`, and takes its
response from what the downstream has made of all it was sent. -/
theorem receiveShift_frame {q : ShiftSpec} {sent : Nat} {b : List Byte} {v w : State}
    (h : receiveShift q sent v = .ok b w) :
    (w.log = v.log ∧ w.imm = v.imm ∧ w.cursor = v.cursor ∧ w.params = v.params ∧
      w.synced = v.synced) ∧
      w.dn = { v.dn.run v.hs with rsp := (v.dn.run v.hs).rsp.drop (respLen q.n) } := by
  rw [receiveShift] at h
  have hlog := recvExact_log (respLen q.n) sent v
  obtain ⟨honly, himm, -, hok⟩ := recvExact_spec (respLen q.n) sent v
  cases hrecv : recvExact (respLen q.n) sent v with
  | raise e u =>
    rw [hrecv, Res.bind_raise] at h
    cases h
  | ok resp u =>
    obtain ⟨-, hsynced⟩ := hok _ _ hrecv
    obtain ⟨-, -, hdn⟩ := recvExact_ok hrecv (respLen_pos q.n).ne'
    rw [hrecv] at h hlog honly himm
    obtain ⟨result, m, -, -, hread⟩ :=
      readResult_draws (ceil8 q.n) (correct resp q.n (shiftClocks q)) u
    rw [Res.bind_ok, hread] at h
    cases h
    exact ⟨⟨hlog, himm, honly.cursor, honly.params, hsynced⟩, hdn⟩

theorem Answered.frame {q : ShiftSpec} {v w : State} {b : List Byte} (h : Answered q v b w) :
    w.log = v.log ∧ w.imm = v.imm ∧ w.cursor = v.cursor ∧ w.params = v.params ∧
      w.synced = v.synced := by
  cases h with
  | write hkind => exact ⟨rfl, rfl, rfl, rfl, rfl⟩
  | read hkind sent result w h => exact (receiveShift_frame h).1

/-- What an immediate operation that ended with Success has sent, and where it leaves the block. -/
theorem exec_immediate_sent {q : ShiftSpec} {s t : State} (hq : q.Legal) (himm : s.imm = [])
    (h : exec q.immediate s = .next t) (hs : t.status = .success) :
    cmdBytes t.log = cmdBytes s.log ++ (queuedBytes s.cursor q ++ (shiftTail s.params q).flatten) ∧
      t.imm = [] ∧ t.cursor = .known q.exit ∧ t.params = s.params ∧ t.synced = s.synced := by
  obtain ⟨v, b, w, hsend, hanswer, rfl⟩ := exec_immediate_success hq h hs
  obtain ⟨hbytes, -, hvimm, hvcursor, hvparams, hvsynced⟩ := sendShift_ok himm hsend
  obtain ⟨hwlog, hwimm, hwcursor, hwparams, hwsynced⟩ := hanswer.frame
  refine ⟨?_, hwimm.trans hvimm, hwcursor.trans hvcursor, hwparams.trans hvparams,
    hwsynced.trans hvsynced⟩
  rw [cmdBytes_complete, hwlog, hbytes]

/-- A run of immediate operations sends their bytes and ends with the last exit state. -/
theorem runOps_immediate_sent {qs : List ShiftSpec} (hq : ∀ q ∈ qs, q.Legal) {s u : State}
    (himm : s.imm = []) (h : runOps (qs.map ShiftSpec.immediate) s = some u) :
    cmdBytes u.log = cmdBytes s.log ++ immediateBytes s.params s.cursor qs ∧
      u.cursor = lastCursor s.cursor qs := by
  induction qs generalizing s with
  | nil => cases h; exact ⟨(List.append_nil _).symm, rfl⟩
  | cons q qs ih =>
    obtain ⟨t, ht, hs, hrun⟩ := runOps_cons h
    obtain ⟨hbytes, htimm, htcursor, htparams, -⟩ :=
      exec_immediate_sent (hq q (by simp)) himm ht hs
    obtain ⟨hmore, hcursor⟩ := ih (fun x hx => hq x (by simp [hx])) htimm hrun
    rw [htcursor] at hmore hcursor
    refine ⟨?_, hcursor⟩
    rw [hmore, hbytes, htparams, immediateBytes_cons]
    simp only [List.append_assoc]

/-- Without SEND_IMMEDIATE the immediate operations' bytes are the batch's. -/
theorem immediateBytes_eq_batchBytes {p : Params} (hp : p.sendImmediateOnRead = false) (c : Cursor)
    (qs : List ShiftSpec) : immediateBytes p c qs = batchBytes c qs := by
  induction qs generalizing c with
  | nil => rfl
  | cons q qs ih =>
    have htail : shiftTail p q = [] := by simp [shiftTail, immediateTail, hp]
    rw [immediateBytes_cons, htail, ih, List.flatten_nil, List.append_nil, batchBytes]

/-! ### The results of the immediate operations (R158, R197) -/

theorem totalResponse_append (a b : List ReadDesc) :
    totalResponse (a ++ b) = totalResponse a + totalResponse b := by
  simp [totalResponse]

/-- A response that divides between two lists of descriptors is demultiplexed part by part. -/
theorem demux_append {resp : List Byte} {a : List ReadDesc} (h : resp.length = totalResponse a)
    (resp' : List Byte) (b : List ReadDesc) :
    demux (resp ++ resp') (a ++ b) = demux resp a ++ demux resp' b := by
  induction a generalizing resp with
  | nil =>
    obtain rfl := List.eq_nil_of_length_eq_zero h
    rw [demux_nil]
    rfl
  | cons e a ih =>
    rw [totalResponse_cons] at h
    have hle : respLen e.nbits ≤ resp.length := by omega
    have hrest : (resp.drop (respLen e.nbits)).length = totalResponse a := by
      rw [List.length_drop]
      omega
    rw [List.cons_append, demux_cons, demux_cons, List.take_append_of_le_length hle,
      List.drop_append_of_le_length hle, ih hrest, List.append_assoc]

/-- The commands of a legal shift are answered with the bytes its descriptor asks for. -/
theorem shiftInstrs_rsp_length (hs : Bool) (c : Cursor) {q : ShiftSpec} (hq : q.Legal)
    {e : Downstream} (he : e.rsp = []) :
    (execCommands hs (shiftInstrs c q) e).rsp.length = totalResponse (queuedDesc q) := by
  obtain ⟨-, r, hlen, hrsp⟩ := execCommands_answers hs (shiftInstrs c q) e
  rw [hrsp, he, List.nil_append, hlen, shiftInstrs_responseTotal hs c hq, queuedDesc_eq]
  split <;> simp

/-- A shift with its tail, sent to a downstream that settles: once executed, its own instructions were
executed after the commands that waited. -/
theorem sendShift_settles {q : ShiftSpec} {s v : State} {e : Downstream} (hq : q.Legal)
    (himm : s.imm = []) (he : Settles s.hs s.dn e)
    (h : sendShift q (shiftTail s.params q) s = .ok () v) :
    Settles s.hs v.dn (execCommands s.hs (shiftInstrs s.cursor q) e) := by
  obtain ⟨is, htail, hdecodes, hnoop⟩ := shiftTail_instrs s.params q
  obtain ⟨hencode, hshift⟩ := shiftInstrs_encode s.cursor q hq
  obtain ⟨-, hdn, -⟩ := sendShift_ok himm h
  have hmore := he.more (shiftInstrs s.cursor q ++ is) fun i hi =>
    (List.mem_append.1 hi).elim (hshift i) (hdecodes i)
  rw [execCommands_append, hnoop, List.map_append, hencode, htail, List.flatten_append] at hmore
  rw [hdn he.run.2.1]
  exact hmore

/-- The end of an immediate operation on a synced channel with no response left over: its result is
what the demultiplexer makes of the response `e.rsp`, and no response is left. -/
theorem Answered.result {q : ShiftSpec} {v w : State} {b : List Byte} {e : Downstream}
    (h : Answered q v b w) (hsynced : v.synced = true) (he : Settles v.hs v.dn e)
    (hlen : e.rsp.length = totalResponse (queuedDesc q)) :
    b = demux e.rsp (queuedDesc q) ∧ Settles v.hs w.dn { e with rsp := [] } := by
  obtain ⟨hrun, -, hmpsse, hinbox⟩ := he.run
  rw [queuedDesc_eq] at hlen ⊢
  cases h with
  | write hkind =>
    rw [if_pos hkind] at hlen ⊢
    have hrsp : e.rsp = [] := List.eq_nil_of_length_eq_zero hlen
    refine ⟨(demux_nil _).symm, ?_⟩
    rw [← hrsp]
    exact he
  | read hkind sent b w h =>
    rw [if_neg hkind] at hlen ⊢
    have hlen : e.rsp.length = respLen q.n := hlen
    obtain ⟨hb, -⟩ := receiveShift_ok hsynced h
    obtain ⟨-, hdn⟩ := receiveShift_frame h
    rw [hrun] at hb hdn
    rw [List.drop_of_length_le hlen.le] at hdn
    rw [hdn, demux_cons, demux_nil, List.append_nil]
    exact ⟨hb, .of_empty hmpsse hinbox⟩

/-- Immediate operations on a synced channel with no response left over: their results are what the
demultiplexer makes of their responses one behind the other. -/
theorem runResults_immediate {qs : List ShiftSpec} (hq : ∀ q ∈ qs, q.Legal) {s v : State}
    {e : Downstream} {results : List (List Byte)} (himm : s.imm = []) (hsynced : s.synced = true)
    (he : Settles s.hs s.dn e) (hrsp : e.rsp = [])
    (h : runResults (qs.map ShiftSpec.immediate) s = some (v, results)) :
    results.flatten =
      demux (batchSlices s.hs s.cursor qs e).flatten (qs.flatMap queuedDesc) := by
  induction qs generalizing s e results with
  | nil => cases h; rfl
  | cons q qs ih =>
    obtain ⟨t, more, ht, hs, hrun, rfl⟩ := runResults_cons h
    have hlegal := hq q (by simp)
    obtain ⟨u, b, w, hsend, hanswer, rfl⟩ := exec_immediate_success hlegal ht hs
    obtain ⟨-, htimm, htcursor, htparams, htsynced⟩ := exec_immediate_sent hlegal himm ht hs
    obtain ⟨-, -, -, -, huparams, husynced⟩ := sendShift_ok himm hsend
    have hhs : u.hs = s.hs := by rw [State.hs, huparams]
    have hths : (w.complete .success b).hs = s.hs := by rw [State.hs, htparams]
    have hlen := shiftInstrs_rsp_length s.hs s.cursor hlegal hrsp
    obtain ⟨hb, hw⟩ := hanswer.result (husynced.trans hsynced)
      (hhs ▸ sendShift_settles hlegal himm he hsend) hlen
    have hmore := ih (fun x hx => hq x (by simp [hx])) htimm (htsynced.trans hsynced)
      (by rw [hths, ← hhs]; exact hw) rfl hrun
    rw [htcursor, hths] at hmore
    simp only [List.flatten_cons, batchSlices, List.flatMap_cons]
    rw [demux_append hlen, hmore, ← hb]
    rfl

/-! ### The execution of the batch (R196) -/

/-- Receiving for SEQ_EXECUTE that ends with Success on a synced channel. -/
theorem receiveSequence_ok {d : List ReadDesc} {sent : Nat} {b : List Byte} {s u : State}
    (hsynced : s.synced = true) (h : receiveSequence d sent s = .ok b u) :
    b = demux ((s.dn.run s.hs).rsp.take (totalResponse d)) d ∧ u.log = s.log := by
  by_cases hd : d = []
  · subst hd
    rw [receiveSequence_nil] at h
    cases h
    exact ⟨(demux_nil _).symm, rfl⟩
  · rw [receiveSequence_reads hd] at h
    have hlog := recvExact_log (totalResponse d) sent s
    cases hrecv : recvExact (totalResponse d) sent s with
    | raise e v =>
      rw [hrecv, Res.bind_raise] at h
      cases h
    | ok resp v =>
      obtain ⟨-, hresp, -⟩ := recvExact_ok hrecv (totalResponse_eq_zero.not.2 hd)
      obtain ⟨-, -, -, hok⟩ := recvExact_spec (totalResponse d) sent s
      have hv : v.synced = true := (hok _ _ hrecv).2.trans hsynced
      rw [hrecv] at hlog
      rw [hrecv, Res.bind_ok, readResult, if_pos hv] at h
      cases h
      exact ⟨by rw [hresp], hlog⟩

/-- A SEQ_EXECUTE that ends with Success has raised nothing. -/
theorem seqExecuteOp_success {s : State} (h : (finish (seqExecuteOp s)).status = .success) :
    ∃ b u, seqExecuteOp s = .ok b u := by
  rcases seqExecuteOp_spec s with ⟨hr, -, -⟩ | ⟨-, -, hraised⟩
  · exact ⟨[], s, hr⟩
  · cases hr : seqExecuteOp s with
    | ok b u => exact ⟨b, u, rfl⟩
    | raise e u =>
      rw [hr] at h
      obtain rfl : e = .success := h
      obtain ⟨h | h, -⟩ := hraised _ _ hr <;> cases h

/-- The result of a successful SEQ_EXECUTE on a synced channel, and what it has sent: the downstream
executes the instructions `is` that the bytes sent encode. -/
theorem seqExecuteOp_ok {s u : State} {b : List Byte} {is : List Instr} (hsynced : s.synced = true)
    (hmpsse : s.dn.mpsse = true) (hinbox : s.dn.inbox = []) (hdecodes : ∀ i ∈ is, Decodes i)
    (hencode : (is.map encode).flatten = sequenceBytes s) (h : seqExecuteOp s = .ok b u) :
    b = demux ((execCommands s.hs is s.dn).rsp.take (totalResponse s.desc)) s.desc ∧
      cmdBytes u.log = cmdBytes s.log ++ sequenceBytes s := by
  by_cases hempty : s.seq = [] ∧ s.desc = []
  · obtain ⟨hseq, hdesc⟩ := hempty
    rw [seqExecuteOp_empty hseq hdesc] at h
    cases h
    rw [sequenceBytes_empty hseq hdesc, hdesc, demux_nil, List.append_nil]
    exact ⟨rfl, rfl⟩
  · rw [seqExecuteOp_nonempty hempty] at h
    have honly := (send_transportOnly (sequenceBytes s) (s.setQueue [] [])).1
    cases hsend : send (sequenceBytes s) (s.setQueue [] []) with
    | raise e v =>
      rw [hsend, Res.bind_raise] at h
      cases h
    | ok a v =>
      rw [hsend] at h honly
      have hsent := (send_ok hsend).1
      have hvsynced : v.synced = true := (send_ok_synced hsend).trans hsynced
      have hhs : v.hs = s.hs := congrArg (·.variant.hiSpeed) honly.params
      obtain ⟨hb, hlog⟩ := receiveSequence_ok hvsynced h
      have hdn : v.dn = { s.dn with inbox := s.dn.inbox ++ sequenceBytes s } := hsent.dn hmpsse
      have hrun := ((Settles.of_empty (hs := s.hs) hmpsse hinbox).more is hdecodes).run.1
      rw [hencode, ← hdn] at hrun
      refine ⟨by rw [hb, hhs, hrun], ?_⟩
      rw [hlog]
      exact hsent.cmdBytes

/-- The bytes of SEQ_EXECUTE for a batch of legal shifts are those of the batch's instructions and of a
SEND_IMMEDIATE that changes no downstream (log 25). -/
theorem batch_sequence_instrs {qs : List ShiftSpec} (hq : ∀ q ∈ qs, q.Legal) (c : Cursor)
    {t : State} (hseq : t.seq = batchBytes c qs) :
    ∃ is : List Instr, (is.map encode).flatten = sequenceBytes t ∧ (∀ i ∈ is, Decodes i) ∧
      ∀ hs d, execCommands hs is d = execCommands hs (batchInstrs c qs) d := by
  obtain ⟨hencode, hdecodes⟩ := batchInstrs_encode c qs hq
  have hsplit : sequenceBytes t = batchBytes c qs ++
      (if t.desc ≠ [] ∧ t.params.sendImmediateOnRead then encode .sendImmediate else []) := by
    rw [sequenceBytes, hseq]
  rw [hsplit]
  split
  · refine ⟨batchInstrs c qs ++ [.sendImmediate], by simp [hencode], fun i hi => ?_,
      fun hs d => execCommands_append hs _ _ d⟩
    rcases List.mem_append.1 hi with hi | hi
    · exact hdecodes i hi
    · obtain rfl := List.mem_singleton.1 hi
      exact fun _ _ => rfl
  · exact ⟨batchInstrs c qs, by simp [hencode], hdecodes, fun _ _ => rfl⟩

/-- The responses of a batch are as many bytes as its descriptors ask for. -/
theorem batchSlices_length (hs : Bool) {qs : List ShiftSpec} (hq : ∀ q ∈ qs, q.Legal) (c : Cursor)
    {e : Downstream} (he : e.rsp = []) :
    (batchSlices hs c qs e).flatten.length = totalResponse (qs.flatMap queuedDesc) := by
  induction qs generalizing c e with
  | nil => rfl
  | cons q qs ih =>
    have hmore := ih (fun x hx => hq x (by simp [hx])) (.known q.exit)
      (e := { execCommands hs (shiftInstrs c q) e with rsp := [] }) rfl
    simp only [batchSlices, List.flatten_cons, List.length_append, List.flatMap_cons,
      totalResponse_append]
    rw [hmore, shiftInstrs_rsp_length hs c (hq q (by simp)) he]

/-- A successful SEQ_EXECUTE of a batch of shifts that were added to an empty queue. -/
theorem seqExecute_batch {qs : List ShiftSpec} (hq : ∀ q ∈ qs, q.Legal) {s t u : State}
    (hseq : s.seq = []) (hdesc : s.desc = []) (hsynced : s.synced = true)
    (hmpsse : s.dn.mpsse = true) (hinbox : s.dn.inbox = []) (hrsp : s.dn.rsp = [])
    (hadds : Queued qs s t) (h : exec .seqExecute t = .next u) (hs : u.status = .success) :
    u.result = demux (batchSlices s.hs s.cursor qs s.dn).flatten (qs.flatMap queuedDesc) ∧
      cmdBytes u.log = cmdBytes s.log ++ sequenceBytes t := by
  have htseq : t.seq = batchBytes s.cursor qs := by rw [hadds.seq, hseq, List.nil_append]
  have htdesc : t.desc = qs.flatMap queuedDesc := by rw [hadds.desc, hdesc, List.nil_append]
  have hhs : t.hs = s.hs := congrArg (·.variant.hiSpeed) hadds.params
  cases h
  obtain ⟨b, v, hok⟩ := seqExecuteOp_success hs
  obtain ⟨is, hencode, hdecodes, hexec⟩ := batch_sequence_instrs hq s.cursor htseq
  obtain ⟨hb, hlog⟩ := seqExecuteOp_ok (hadds.synced.trans hsynced) (by rw [hadds.dn, hmpsse])
    (by rw [hadds.dn, hinbox]) hdecodes hencode hok
  rw [hexec, hhs, hadds.dn, batchSlices_flatten _ _ _ _ hrsp, htdesc,
    ← batchSlices_length s.hs hq s.cursor hrsp, List.take_length] at hb
  rw [hok, finish_ok]
  exact ⟨hb, by rw [cmdBytes_complete, hlog, hadds.sent]⟩

/-- Settles O38: the adds queue what the immediate operations send; their results and that of the
batch are what the demultiplexer makes of the same responses. -/
theorem batchSendsTheImmediateBytes : Obligations.BatchSendsTheImmediateBytes := by
  unfold Obligations.BatchSendsTheImmediateBytes
  refine ⟨?adds, ?immediate, ?noTail, ?results⟩
  case adds =>
    intro s qs hq hfits
    obtain ⟨t, ht⟩ := runOps_deferred_fits hq hfits
    have hadds := runOps_deferred_queued hq ht
    exact ⟨t, ht, hadds.sent, hadds.seq, hadds.desc, hadds.cursor⟩
  case immediate =>
    intro s u qs hq himm h
    exact runOps_immediate_sent hq himm h
  case noTail =>
    intro p c qs hp
    exact immediateBytes_eq_batchBytes hp c qs
  case results =>
    intro s t u s' v qs results hq hseq hdesc hsynced himm hsynced' hcursor hparams hdn hmpsse hinbox
      hrsp hadds hexec hsuccess hrun
    have hadds := runOps_deferred_queued hq hadds
    obtain ⟨hresult, hbytes⟩ :=
      seqExecute_batch hq hseq hdesc hsynced hmpsse hinbox hrsp hadds hexec hsuccess
    have hhs : s'.hs = s.hs := congrArg (·.variant.hiSpeed) hparams
    have hresults := runResults_immediate hq himm hsynced'
      (.of_empty (by rw [hdn, hmpsse]) (by rw [hdn, hinbox])) (by rw [hdn, hrsp]) hrun
    obtain ⟨-, hv⟩ := runOps_immediate_sent hq himm (runOps_of_runResults hrun)
    obtain ⟨-, -, hu, -⟩ := seqExecuteAlwaysEmptiesTheQueue t u hexec
    refine ⟨?_, ?_, ?_⟩
    · rw [hresult, hresults, hhs, hcursor, hdn]
    · rw [hu, hadds.cursor, hv, hcursor]
    · rw [hbytes, sequenceBytes, hadds.seq, hadds.desc, hadds.params, hseq, hdesc, List.nil_append,
        List.nil_append, List.append_assoc]
      rfl

end Sys2Proof.Machine
end

section
/-! Proofs of the clock family, part 1: the counts and divisors that are rejected, how PULSE, PULSE_HS,
SET_CLOCK and SET_DIV5 end, and what they leave alone (43_clock_ops.md R230 to R237). -/

namespace Sys2Proof.Machine

/-! ### An operation that only sends (R57, R58, R286) -/

/-- The body of an operation that only sends these commands and has no result (R57). -/
def sendCommands (cmds : List (List Byte)) (s : State) : Res (List Byte) :=
  (emitFlush cmds s).bind fun _ s1 => .ok [] s1

/-- Commands that fit IMM: the one send of their bytes decides how the operation ends (R58, R59). -/
theorem sendCommands_ends {cmds : List (List Byte)} {s : State} (himm : s.imm = [])
    (hfit : cmds.flatten.length ≤ Config.cmdBufMax) :
    (∀ rest, s.WritesAccepted cmds.flatten rest →
      finish (sendCommands cmds s) = (s.afterSend cmds.flatten rest).complete .success []) ∧
    (∀ k delivered rest, s.WriteFails cmds.flatten k delivered rest →
      finish (sendCommands cmds s) =
        (s.afterFailedSend cmds.flatten k delivered rest).complete .ioError []) := by
  refine ⟨fun rest hw => ?_, fun k delivered rest hw => ?_⟩
  · rw [sendCommands, emitFlush_accepted himm hfit hw, Res.bind_ok, finish_ok, State.afterSend]
  · rw [sendCommands, emitFlush_failed himm hfit hw, Res.bind_raise, finish_raise]

/-- `t` has the block of `s` but for IMM, `synced`, STATUS and the result, and no time, wait or XPORT
call has been used. -/
def KeepsBlock (s t : State) : Prop :=
  t.cursor = s.cursor ∧ t.seq = s.seq ∧ t.desc = s.desc ∧ t.pinVal = s.pinVal ∧
    t.pinDir = s.pinDir ∧ t.divisor = s.divisor ∧ t.div5 = s.div5 ∧ t.op = s.op ∧
    t.time = s.time ∧ t.waits = s.waits ∧ t.calls = s.calls

/-- Commands of any length, over as many flushes as IMM needs, when every write is accepted (R57). -/
theorem sendCommands_completes (cmds : List (List Byte)) {m : Nat} {rest : List WriteReply} {s : State}
    (himm : s.imm = []) (hw : s.writes = List.replicate m .full ++ rest)
    (hm : cmds.flatten.length ≤ m) :
    let t := finish (sendCommands cmds s)
    t.status = .success ∧ t.result = [] ∧ t.imm = [] ∧
      cmdBytes t.log = cmdBytes s.log ++ cmds.flatten ∧ t.synced = s.synced ∧ KeepsBlock s t := by
  obtain ⟨t, hsend, ⟨n, es, d, -, -, hbytes, -, hstate⟩, ht⟩ := emitFlush_sentAll cmds himm hw hm
  rw [sendCommands, hsend, Res.bind_ok, finish_ok]
  refine ⟨rfl, rfl, ht, ?_, ?_, ?_⟩
  · rw [cmdBytes_complete, hstate, cmdBytes_append, hbytes]
  · rw [State.complete_synced, hstate]
  · rw [hstate]
    exact ⟨rfl, rfl, rfl, rfl, rfl, rfl, rfl, rfl, rfl, rfl, rfl⟩

/-- The same when a write fails, or takes nothing, before all bytes are sent (R59, R286). -/
theorem sendCommands_stops (cmds : List (List Byte)) {m delivered : Nat} {r : WriteReply}
    {rest : List WriteReply} {s : State} (himm : s.imm = [])
    (hw : s.writes = List.replicate m .full ++ r :: rest)
    (hr : r = .failed delivered ∨ r = .wrote 0 delivered)
    (hm : m * s.params.writeChunk < cmds.flatten.length) :
    let t := finish (sendCommands cmds s)
    ∃ asked, t.status = .ioError ∧ t.result = [] ∧ t.imm = [] ∧ t.writes = rest ∧
      cmdBytes t.log = cmdBytes s.log ++ cmds.flatten.take asked ∧ t.synced = false ∧
      KeepsBlock s t := by
  obtain ⟨t, hsend, es, d, asked, hbytes, -, rfl⟩ :=
    emitFlush_stops cmds himm hw ⟨delivered, hr⟩ hm
  rw [sendCommands, hsend, Res.bind_raise, finish_raise]
  refine ⟨asked, rfl, rfl, rfl, rfl, ?_, rfl, rfl, rfl, rfl, rfl, rfl, rfl, rfl, rfl, rfl, rfl, rfl⟩
  rw [cmdBytes_complete, cmdBytes_append, hbytes]

/-! ### The clock operations and their checks -/

theorem exec_pulse (count : Word) (s : State) :
    exec (.pulse count) s = .next (finish (pulseOp count s)) := rfl

theorem exec_pulseHs (pinstop stoplevel : Bool) (count : Word) (s : State) :
    exec (.pulseHs pinstop stoplevel count) s =
      .next (finish (pulseHsOp pinstop stoplevel count s)) := rfl

theorem exec_setClock (divisor : Half) (s : State) :
    exec (.setClock divisor) s = .next (finish (setClockOp divisor s)) := rfl

theorem exec_setDiv5 (on : Bool) (s : State) :
    exec (.setDiv5 on) s = .next (finish (setDiv5Op on s)) := rfl

theorem exec_getFreq (divisor : Half) (s : State) :
    exec (.getFreq divisor) s = .next (finish (getFreqOp divisor s)) := rfl

theorem exec_init (divisor : Half) (s : State) :
    exec (.init divisor) s = .next (finish (initOp divisor s)) := rfl

theorem hiSpeed_of_ne_standard {s : State} (h : s.params.variant ≠ .standard) : s.hs = true := by
  unfold State.hs Variant.hiSpeed
  split <;> simp_all

theorem pulseOp_badCount {count : Word} (s : State)
    (h : count.toNat = 0 ∨ 2000000000 < count.toNat) :
    pulseOp count s = .raise .invalidNumberClockPulses s :=
  if_pos h

theorem pulseOp_legal {count : Word} (s : State) (hmin : 1 ≤ count.toNat)
    (hmax : count.toNat ≤ 2000000000) :
    pulseOp count s = sendCommands (pulseCommands count.toNat) s :=
  if_neg (not_or.2 ⟨Nat.one_le_iff_ne_zero.1 hmin, Nat.not_lt.2 hmax⟩)

theorem pulseHsOp_badCount {pinstop : Bool} (stoplevel : Bool) {count : Word} {s : State}
    (hv : s.params.variant ≠ .standard)
    (h : count.toNat = 0 ∨ pulseHsMax s.params pinstop < count.toNat) :
    pulseHsOp pinstop stoplevel count s = .raise .invalidNumberClockPulses s := by
  rw [pulseHsOp, if_neg (by simp [hiSpeed_of_ne_standard hv]), if_pos h]

theorem pulseHsOp_legal {pinstop : Bool} (stoplevel : Bool) {count : Word} {s : State}
    (hv : s.params.variant ≠ .standard) (hmin : 1 ≤ count.toNat)
    (hmax : count.toNat ≤ pulseHsMax s.params pinstop) :
    pulseHsOp pinstop stoplevel count s =
      sendCommands (pulseHsCommands pinstop stoplevel count.toNat) s := by
  rw [pulseHsOp, if_neg (by simp [hiSpeed_of_ne_standard hv]),
    if_neg (not_or.2 ⟨Nat.one_le_iff_ne_zero.1 hmin, Nat.not_lt.2 hmax⟩)]
  rfl

theorem setClockOp_badDivisor {divisor : Half} {s : State}
    (h : s.params.divisorMax < divisor.toNat) :
    setClockOp divisor s = .raise .invalidClockDivisor s :=
  if_pos h

theorem setClockOp_legal {divisor : Half} {s : State} (h : divisor.toNat ≤ s.params.divisorMax) :
    setClockOp divisor s =
      sendCommands [encode (.setTckDivisor divisor)] { s with divisor := some divisor } :=
  if_neg (Nat.not_lt.2 h)

theorem setDiv5Op_hiSpeed (on : Bool) {s : State} (hv : s.params.variant ≠ .standard) :
    setDiv5Op on s = sendCommands [prescalerCommand on] { s with div5 := on } :=
  if_neg (by simp [hiSpeed_of_ne_standard hv])

theorem getFreqOp_badDivisor {divisor : Half} {s : State}
    (h : s.params.divisorMax < divisor.toNat) :
    getFreqOp divisor s = .raise .invalidClockDivisor s :=
  if_pos h

theorem getFreqOp_legal {divisor : Half} {s : State} (h : divisor.toNat ≤ s.params.divisorMax) :
    getFreqOp divisor s = .ok (u32le (freq s.params.variant s.div5 divisor.toNat)) s :=
  if_neg (Nat.not_lt.2 h)

theorem initOp_badDivisor {divisor : Half} {s : State} (h : s.params.divisorMax < divisor.toNat) :
    initOp divisor s = .raise .invalidClockDivisor s :=
  if_pos h

/-- Settles O42: such a count fails the operation's check, before anything is done. -/
theorem pulseCountsAreBounded : Obligations.PulseCountsAreBounded := by
  unfold Obligations.PulseCountsAreBounded
  constructor
  case left =>
    intro s count h
    rw [exec_pulse, pulseOp_badCount s h, finish_raise]
  case right =>
    intro s pinstop stoplevel count hv h
    rw [exec_pulseHs, pulseHsOp_badCount stoplevel hv h, finish_raise]

/-- Settles O45: both operations check the divisor before they do anything. -/
theorem divisorsAreBounded : Obligations.DivisorsAreBounded := by
  unfold Obligations.DivisorsAreBounded
  intro s divisor h i hi
  simp only [List.mem_cons, List.not_mem_nil, or_false] at hi
  rcases hi with rfl | rfl
  · rw [exec_setClock, setClockOp_badDivisor h, finish_raise]
  · rw [exec_init, initOp_badDivisor h, finish_raise]

/-- The clock bases in numbers (R8, R236). -/
theorem clockBase_eq (v : Variant) (div5 : Bool) :
    clockBase v div5 =
      if v = .standard then 12000000 else if div5 then 12000000 else 60000000 := by
  cases v <;> cases div5 <;> rfl

/-- Settles O46: past its check GET_FREQ is the formula of R236 and does nothing else. -/
theorem getFreqCompletes : Obligations.GetFreqCompletes := by
  unfold Obligations.GetFreqCompletes
  intro s divisor base
  constructor
  case left =>
    intro h
    rw [exec_getFreq, getFreqOp_legal h, finish_ok, freq, clockBase_eq]
  case right =>
    intro h
    rw [exec_getFreq, getFreqOp_badDivisor h, finish_raise]

/-! ### The bytes of the commands (R231, R233, R234, R235) -/

/-- The bytes of a count's groups: full groups of 65536, then a smaller one if there is a rest. -/
theorem groups_flatten (f : Nat → List Byte) (c : Nat) :
    ((groups c).map f).flatten =
      (List.replicate (c / 65536) (f 65536)).flatten ++
        (if c % 65536 > 0 then f (c % 65536) else []) := by
  rw [groups, List.map_append, List.flatten_append, List.map_replicate]
  congr 1
  split <;> simp

theorem pulseCommands_flatten (c : Nat) :
    (pulseCommands c).flatten =
      (List.replicate (c / 8 / 65536)
          ([0x19#8, 0xFF#8, 0xFF#8] ++ List.replicate 65536 0x00#8)).flatten ++
        (if c / 8 % 65536 > 0 then
          [0x19#8] ++ u16le (c / 8 % 65536 - 1) ++ List.replicate (c / 8 % 65536) 0x00#8 else []) ++
        (if c % 8 > 0 then [0x1B#8, BitVec.ofNat 8 (c % 8 - 1), 0x00#8] else []) := by
  rw [pulseCommands, List.flatten_append, groups_flatten]
  congr 1
  split <;> simp

theorem pulseHsCommands_flatten (pinstop stoplevel : Bool) (c : Nat) :
    (pulseHsCommands pinstop stoplevel c).flatten =
      (List.replicate (c / 65536) [pulseHsOpcode pinstop stoplevel, 0xFF#8, 0xFF#8]).flatten ++
        (if c % 65536 > 0 then [pulseHsOpcode pinstop stoplevel] ++ u16le (c % 65536 - 1)
          else []) :=
  groups_flatten _ c

theorem u16le_toNat (h : Half) : u16le h.toNat = [h.setWidth 8, (h >>> 8).setWidth 8] := by
  have hhigh : BitVec.ofNat 8 (h.toNat / 256) = (h >>> 8).setWidth 8 := by
    apply BitVec.eq_of_toNat_eq
    rw [BitVec.toNat_ofNat, BitVec.toNat_setWidth, BitVec.toNat_ushiftRight, Nat.shiftRight_eq_div_pow]
  rw [u16le, hhigh, BitVec.ofNat_toNat]

theorem setTckDivisor_bytes (divisor : Half) :
    [encode (.setTckDivisor divisor)].flatten =
      [0x86#8, divisor.setWidth 8, (divisor >>> 8).setWidth 8] := by
  rw [encode, u16le_toNat]
  rfl

theorem prescalerCommand_bytes (on : Bool) :
    [prescalerCommand on].flatten = [if on then 0x8B#8 else 0x8A#8] := by
  cases on <;> rfl

/-! ### Completion -/

/-- Settles O39: a legal PULSE is the send of its commands. -/
theorem pulseCompletes : Obligations.PulseCompletes := by
  unfold Obligations.PulseCompletes
  intro s count whole bytes
  have hbytes : bytes = (pulseCommands count.toNat).flatten := (pulseCommands_flatten count.toNat).symm
  refine ⟨hbytes, fun himm hmin hmax => ⟨?accepted, ?stopped⟩⟩
  all_goals rw [exec_pulse, pulseOp_legal s hmin hmax, hbytes]
  case accepted =>
    intro m rest hw hm
    exact ⟨_, rfl, sendCommands_completes _ himm hw hm⟩
  case stopped =>
    intro m delivered r rest hw hr hm
    obtain ⟨asked, h⟩ := sendCommands_stops _ himm hw hr hm
    exact ⟨_, asked, rfl, h⟩

/-- Settles O41: a legal PULSE_HS on a high-speed chip is the send of its commands. -/
theorem pulseHsCompletes : Obligations.PulseHsCompletes := by
  unfold Obligations.PulseHsCompletes
  intro s pinstop stoplevel count op bytes himm hv hmin hmax
  have hbytes : bytes = (pulseHsCommands pinstop stoplevel count.toNat).flatten :=
    (pulseHsCommands_flatten pinstop stoplevel count.toNat).symm
  rw [exec_pulseHs, pulseHsOp_legal stoplevel hv hmin hmax, hbytes]
  constructor
  case left =>
    intro m rest hw hm
    exact ⟨_, rfl, sendCommands_completes _ himm hw hm⟩
  case right =>
    intro m delivered r rest hw hr hm
    obtain ⟨asked, h⟩ := sendCommands_stops _ himm hw hr hm
    exact ⟨_, asked, rfl, h⟩

/-- Settles O44: past its check each is the send of one command, from the state with its register
written. -/
theorem clockSettingsComplete : Obligations.ClockSettingsComplete := by
  unfold Obligations.ClockSettingsComplete
  constructor
  case left =>
    intro s divisor bytes himm hmax
    have hbytes : bytes = [encode (.setTckDivisor divisor)].flatten := (setTckDivisor_bytes divisor).symm
    obtain ⟨haccepted, hfailed⟩ := sendCommands_ends (cmds := [encode (.setTckDivisor divisor)])
      (s := { s with divisor := some divisor }) himm (by decide : 3 ≤ Config.cmdBufMax)
    rw [exec_setClock, setClockOp_legal hmax, hbytes]
    exact ⟨fun rest hw => congrArg _ (haccepted rest hw),
      fun k delivered rest hw => congrArg _ (hfailed k delivered rest hw)⟩
  case right =>
    intro s on bytes himm hv
    have hbytes : bytes = [prescalerCommand on].flatten := (prescalerCommand_bytes on).symm
    have hfit : [prescalerCommand on].flatten.length ≤ Config.cmdBufMax := by
      rw [prescalerCommand_bytes]
      exact (by decide : 1 ≤ Config.cmdBufMax)
    obtain ⟨haccepted, hfailed⟩ := sendCommands_ends (s := { s with div5 := on }) himm hfit
    rw [exec_setDiv5, setDiv5Op_hiSpeed on hv, hbytes]
    exact ⟨fun rest hw => congrArg _ (haccepted rest hw),
      fun k delivered rest hw => congrArg _ (hfailed k delivered rest hw)⟩

/-! ### The frame (R237) -/

/-- The operation wrote at most DIVISOR and DIV5, to these values, and then only used the transport; IMM
is empty after it. -/
def ClockResult (s : State) (divisor : Option Half) (div5 : Bool) (r : Res (List Byte)) : Prop :=
  TransportOnly { s with divisor := divisor, div5 := div5 } r.state ∧ r.state.imm = []

theorem ClockResult.rejected {s : State} (himm : s.imm = []) (e : Status) :
    ClockResult s s.divisor s.div5 (.raise e s) :=
  ⟨.refl s, himm⟩

theorem sendCommands_clockResult (cmds : List (List Byte)) (s : State) (divisor : Option Half)
    (div5 : Bool) :
    ClockResult s divisor div5 (sendCommands cmds { s with divisor := divisor, div5 := div5 }) :=
  have h := (emitFlush_sends cmds { s with divisor := divisor, div5 := div5 }).1
  ⟨h.only, h.imm⟩

theorem pulseOp_clockResult (count : Word) {s : State} (himm : s.imm = []) :
    ClockResult s s.divisor s.div5 (pulseOp count s) := by
  unfold pulseOp
  split
  · exact .rejected himm _
  · exact sendCommands_clockResult _ s s.divisor s.div5

theorem pulseHsOp_clockResult (pinstop stoplevel : Bool) (count : Word) {s : State}
    (himm : s.imm = []) :
    ClockResult s s.divisor s.div5 (pulseHsOp pinstop stoplevel count s) := by
  unfold pulseHsOp
  split
  · exact .rejected himm _
  split
  · exact .rejected himm _
  · exact sendCommands_clockResult _ s s.divisor s.div5

theorem setClockOp_clockResult (divisor : Half) {s : State} (himm : s.imm = []) :
    ∃ d, ClockResult s d s.div5 (setClockOp divisor s) := by
  unfold setClockOp
  split
  · exact ⟨s.divisor, .rejected himm _⟩
  · exact ⟨some divisor, sendCommands_clockResult _ s (some divisor) s.div5⟩

theorem setDiv5Op_clockResult (on : Bool) {s : State} (himm : s.imm = []) :
    ∃ b, ClockResult s s.divisor b (setDiv5Op on s) := by
  unfold setDiv5Op
  split
  · exact ⟨s.div5, .rejected himm _⟩
  · exact ⟨on, sendCommands_clockResult _ s s.divisor on⟩

/-- The frame of an operation that may have written its own register; `P` and `Q` say when DIVISOR and
DIV5 are not that register. -/
theorem ClockResult.frame {s : State} {divisor : Option Half} {div5 : Bool} {r : Res (List Byte)}
    {P Q : Prop} (h : ClockResult s divisor div5 r) (hdivisor : P → divisor = s.divisor)
    (hdiv5 : Q → div5 = s.div5) :
    let t := finish r
    t.cursor = s.cursor ∧ t.seq = s.seq ∧ t.desc = s.desc ∧ t.pinVal = s.pinVal ∧
      t.pinDir = s.pinDir ∧ t.op = s.op ∧ t.imm = [] ∧ (P → t.divisor = s.divisor) ∧
      (Q → t.div5 = s.div5) := by
  obtain ⟨honly, himm⟩ := h
  rw [finish_eq_complete]
  exact ⟨honly.cursor, honly.seq, honly.desc, honly.pinVal, honly.pinDir, honly.op, himm,
    fun p => honly.divisor.trans (hdivisor p), fun q => honly.div5.trans (hdiv5 q)⟩

/-- Settles O54: each of the four writes at most its own register and then only uses the transport. -/
theorem clockOpsFrame : Obligations.ClockOpsFrame := by
  unfold Obligations.ClockOpsFrame
  intro s t pinstop stoplevel on count divisor himm i hi h
  simp only [List.mem_cons, List.not_mem_nil, or_false] at hi
  rcases hi with rfl | rfl | rfl | rfl <;> cases h
  · exact (pulseOp_clockResult count himm).frame (fun _ => rfl) (fun _ => rfl)
  · exact (pulseHsOp_clockResult pinstop stoplevel count himm).frame (fun _ => rfl) (fun _ => rfl)
  · obtain ⟨d, hresult⟩ := setClockOp_clockResult divisor himm
    exact hresult.frame (fun hne => absurd rfl hne) (fun _ => rfl)
  · obtain ⟨b, hresult⟩ := setDiv5Op_clockResult on himm
    exact hresult.frame (fun _ => rfl) (fun hne => absurd rfl hne)

end Sys2Proof.Machine
end

section
/-! Proofs of the clock family, part 2: what the downstream does with the commands of PULSE and PULSE_HS
(43_clock_ops.md R231, R233, R237, 60_exceptions.md R294 items 4, 5 and 9). -/

namespace Sys2Proof.Machine

/-! ### The TDI line level does not matter to a TCK cycle -/

/-- The same downstream with another TDI line level. -/
def Downstream.withTdi (b : Bool) (d : Downstream) : Downstream := { d with tdi := b }

theorem clock_withTdi (m t b : Bool) (d : Downstream) :
    clock m t (d.withTdi b) = ((clock m t d).1, (clock m t d).2.withTdi b) := by
  unfold clock Downstream.withTdi nextCapture freeBit
  cases d.tap <;> cases d.captures <;> rfl

theorem clockMany_withTdi (cs : List (Bool × Bool)) (b : Bool) (d : Downstream) :
    clockMany cs (d.withTdi b) = ((clockMany cs d).1, (clockMany cs d).2.withTdi b) := by
  induction cs generalizing d with
  | nil => rfl
  | cons c cs ih => simp only [clockMany, clock_withTdi, ih]

theorem clockData_withTdi (bs : List Bool) (b : Bool) (d : Downstream) :
    (clockData bs (d.withTdi b)).2 = (clockData bs d).2.withTdi b :=
  congrArg Prod.snd (clockMany_withTdi _ b d)

theorem clockData_append (as bs : List Bool) (d : Downstream) :
    (clockData (as ++ bs) d).2 = (clockData bs (clockData as d).2).2 := by
  simp only [clockData, List.map_append, clockMany_append, clockMany_tms]

theorem clockOut_eq_withTdi (bits : List Bool) (d : Downstream) :
    (clockOut bits d).2 = (clockData bits d).2.withTdi (bits.getLastD d.tdi) := rfl

/-- Bits clocked out in two parts are clocked out one after another. -/
theorem clockOut_append (as bs : List Bool) (d : Downstream) :
    (clockOut (as ++ bs) d).2 = (clockOut bs (clockOut as d).2).2 := by
  have hlast : (as ++ bs).getLastD d.tdi = bs.getLastD (as.getLastD d.tdi) := by
    cases h : bs.getLast? <;> simp [List.getLastD_eq_getLast?, List.getLast?_append, h]
  rw [clockOut_eq_withTdi, clockOut_eq_withTdi as, clockOut_eq_withTdi bs, clockData_withTdi,
    clockData_append, hlast]
  rfl

/-! ### The cycles of a pulse (R231) -/

/-- `n` TCK cycles with TDI 0. -/
def clockZeros (n : Nat) (d : Downstream) : Downstream := (clockOut (List.replicate n false) d).2

theorem clockZeros_zero (d : Downstream) : clockZeros 0 d = d := rfl

theorem clockZeros_add (m n : Nat) (d : Downstream) :
    clockZeros (m + n) d = clockZeros n (clockZeros m d) := by
  rw [clockZeros, ← List.replicate_append_replicate, clockOut_append]
  rfl

theorem byteBits_zero (n : Nat) : byteBits n 0x00#8 = List.replicate n false := by
  refine List.eq_replicate_iff.2 ⟨byteBits_length n _, fun b hb => ?_⟩
  obtain ⟨i, -, rfl⟩ := List.mem_map.1 hb
  exact BitVec.getLsbD_zero

theorem bitsOfBytes_zeros (g : Nat) :
    bitsOfBytes (List.replicate g 0x00#8) = List.replicate (8 * g) false := by
  rw [bitsOfBytes, List.flatMap_replicate, byteBits_zero, List.flatten_replicate_replicate,
    Nat.mul_comm]

theorem cmdEffect_zeroBytes (hs : Bool) (g : Nat) (d : Downstream) :
    cmdEffect hs (.clkBytesOut (List.replicate g 0x00#8)) d = clockZeros (8 * g) d := by
  rw [clockZeros, ← bitsOfBytes_zeros]
  rfl

theorem cmdEffect_zeroBits (hs : Bool) {n : Nat} (hmin : 0 < n) (hmax : n ≤ 8) (d : Downstream) :
    cmdEffect hs (.clkBitsOut (BitVec.ofNat 3 (n - 1)) 0x00#8) d = clockZeros n d := by
  have hn : (BitVec.ofNat 3 (n - 1)).toNat + 1 = n := by
    rw [BitVec.toNat_ofNat]
    omega
  rw [clockZeros, ← byteBits_zero]
  conv_rhs => rw [← hn]
  rfl

theorem execCommands_zeroBytes (hs : Bool) (gs : List Nat) (d : Downstream) :
    execCommands hs (gs.map fun g => .clkBytesOut (List.replicate g 0x00#8)) d =
      clockZeros (8 * gs.sum) d := by
  induction gs generalizing d with
  | nil => exact (clockZeros_zero d).symm
  | cons g gs ih =>
    rw [List.sum_cons, Nat.mul_add, clockZeros_add, ← ih, ← cmdEffect_zeroBytes hs]
    rfl

/-- The instructions of a pulse clock exactly the counted cycles with TDI 0, in any TAP state (R231). -/
theorem groupInstrs_run (hs : Bool) (c : Nat) (d : Downstream) :
    execCommands hs (groupInstrs c) d = clockZeros c d := by
  have hbits (e : Downstream) : execCommands hs
      (if c % 8 > 0 then [.clkBitsOut (BitVec.ofNat 3 (c % 8 - 1)) 0x00#8] else []) e =
      clockZeros (c % 8) e := by
    split
    · next hpos => exact cmdEffect_zeroBits hs hpos (by omega) e
    · next hpos =>
      rw [Nat.eq_zero_of_not_pos hpos]
      exact (clockZeros_zero e).symm
  rw [groupInstrs, execCommands_append, execCommands_zeroBytes, groups_sum, hbits, ← clockZeros_add,
    Nat.div_add_mod]

theorem clockZeros_shift {d : Downstream} (hshift : isShift d.tap = true) (htms : d.tms = false)
    {n : Nat} (hn : 1 ≤ n) :
    clockZeros n d = { d with reg := (d.reg ++ List.replicate n false).drop n, tdi := false } := by
  have hlast : (List.replicate n false).getLastD d.tdi = false := by
    rw [List.getLastD_eq_getLast?, List.getLast?_replicate, if_neg (by omega)]
    rfl
  simp only [clockZeros, clockOut, clockData_shift hshift htms, hlast, List.length_replicate]

theorem clockZeros_held {d : Downstream} (h : tapNext d.tap d.tms = d.tap) (n : Nat) :
    (clockZeros n d).tap = d.tap ∧ (clockZeros n d).rsp = d.rsp ∧
      (clockZeros n d).inbox = d.inbox := by
  refine ⟨(clockMany_tap _ d).trans ?_, clockMany_rsp _ d, clockMany_inbox _ d⟩
  rw [List.map_map]
  exact tapAfter_held h _

/-- Settles O40: the bytes are the pulse's instructions, which clock the counted cycles. -/
theorem pulseClocksExactly : Obligations.PulseClocksExactly := by
  unfold Obligations.PulseClocksExactly
  intro hs d c hmpsse hinbox hc d'
  obtain ⟨hencode, hdecodes⟩ := pulse_encode c
  have hd' : d' = clockZeros c d := by
    rw [← groupInstrs_run hs, ← run_encoded hmpsse hinbox fun i hi => hdecodes i hi hs, hencode]
  rw [hd']
  refine ⟨fun hshift htms => clockZeros_shift hshift htms hc, fun hheld => ?_⟩
  obtain ⟨htap, hrsp, hin⟩ := clockZeros_held hheld c
  exact ⟨htap, hrsp, hin.trans hinbox⟩

/-! ### The octet commands (R233, R294 item 9) -/

theorem exec_clkOctets {s : State} (len : Half) (hv : s.params.variant ≠ .standard) :
    exec (.clkOctets len) s = .next (s.setDn (clockHeld (8 * (len.toNat + 1)) s.dn)) := by
  have hhs : s.params.variant.hiSpeed = true := hiSpeed_of_ne_standard hv
  rw [exec_command _ _ rfl, hhs]
  rfl

theorem exec_clkOctetsUntil {s : State} (len : Half) (hv : s.params.variant ≠ .standard) :
    ∀ i ∈ [Instr.clkOctetsUntilHigh len, .clkOctetsUntilLow len],
      exec i s = .next (s.setDn (clockUntil (8 * (len.toNat + 1)) s.dn)) := by
  intro i hi
  have hhs : s.params.variant.hiSpeed = true := hiSpeed_of_ne_standard hv
  simp only [List.mem_cons, List.not_mem_nil, or_false] at hi
  rcases hi with rfl | rfl <;> rw [exec_command _ _ rfl, hhs] <;> rfl

/-- Where a pin-stop pulse stops is the next listed number, if there is one, and reading it changes the
inputs only (log 11). -/
theorem nextStop_eq (d : Downstream) : ∃ (n draws : Nat) (stops : List Nat),
    nextStop d = (n, { d with stops := stops, draws := draws }) ∧
      ∀ m ms, d.stops = m :: ms → n = m ∧ stops = ms ∧ draws = d.draws := by
  unfold nextStop
  split
  · next n ns hstops =>
    refine ⟨n, d.draws, ns, rfl, fun m ms h => ?_⟩
    rw [hstops] at h
    cases h
    exact ⟨rfl, rfl, rfl⟩
  · next hstops => exact ⟨_, _, d.stops, rfl, fun m ms h => by simp [hstops] at h⟩

/-- A pin-stop pulse clocks the held levels some number of cycles up to its maximum (U9). -/
theorem clockUntil_eq (max : Nat) (d : Downstream) : ∃ (n draws : Nat) (stops : List Nat),
    n ≤ max ∧ clockUntil max d = clockHeld n { d with stops := stops, draws := draws } ∧
      ∀ m ms, d.stops = m :: ms → n = min m max ∧ stops = ms ∧ draws = d.draws := by
  obtain ⟨n, draws, stops, hnext, hlisted⟩ := nextStop_eq d
  refine ⟨min n max, draws, stops, Nat.min_le_right n max, by rw [clockUntil, hnext],
    fun m ms h => ?_⟩
  obtain ⟨rfl, hms, hdraws⟩ := hlisted m ms h
  exact ⟨rfl, hms, hdraws⟩

/-! ### The commands of PULSE_HS (R233) -/

/-- The command of a form of PULSE_HS. -/
def pulseHsInstr (pinstop stoplevel : Bool) (len : Half) : Instr :=
  if pinstop then (if stoplevel then .clkOctetsUntilHigh len else .clkOctetsUntilLow len)
  else .clkOctets len

theorem pulseHsInstr_encode (pinstop stoplevel : Bool) (len : Half) :
    encode (pulseHsInstr pinstop stoplevel len) =
      [pulseHsOpcode pinstop stoplevel] ++ u16le len.toNat := by
  cases pinstop <;> cases stoplevel <;> rfl

theorem pulseHsInstr_decodes (pinstop stoplevel : Bool) (len : Half) (rest : List Byte) :
    let i := pulseHsInstr pinstop stoplevel len
    decodeCmd true (encode i ++ rest) = .cmd i rest := by
  cases pinstop <;> cases stoplevel <;> exact decodeCmdInvertsEncode _ _ rfl rfl

/-- The instructions of a PULSE_HS. -/
def pulseHsInstrs (pinstop stoplevel : Bool) (c : Nat) : List Instr :=
  (groups c).map fun g => pulseHsInstr pinstop stoplevel (BitVec.ofNat 16 (g - 1))

theorem pulseHsInstrs_encode (pinstop stoplevel : Bool) (c : Nat) :
    (pulseHsInstrs pinstop stoplevel c).map encode = pulseHsCommands pinstop stoplevel c := by
  rw [pulseHsInstrs, pulseHsCommands, List.map_map]
  refine List.map_congr_left fun g hg => ?_
  have hrange := groups_mem hg
  have hlen : (BitVec.ofNat 16 (g - 1)).toNat = g - 1 := by
    rw [BitVec.toNat_ofNat]
    omega
  rw [Function.comp_apply, pulseHsInstr_encode, hlen]

/-- `e` has the TAP, the lines and the responses of `d`. -/
def Downstream.Holds (d e : Downstream) : Prop :=
  e.tap = d.tap ∧ e.tms = d.tms ∧ e.tdi = d.tdi ∧ e.rsp = d.rsp

/-- A high-speed pulse command in a state that TMS holds. -/
theorem pulseHsInstr_holds (pinstop stoplevel : Bool) (len : Half) {d : Downstream}
    (h : tapNext d.tap d.tms = d.tap) :
    d.Holds (cmdEffect true (pulseHsInstr pinstop stoplevel len) d) := by
  have huntil (max : Nat) : d.Holds (clockUntil max d) := by
    obtain ⟨n, draws, stops, -, hclocks, -⟩ := clockUntil_eq max d
    rw [hclocks]
    exact clockHeld_holds (d := { d with stops := stops, draws := draws }) h n
  cases pinstop with
  | false => exact clockHeld_holds h _
  | true => cases stoplevel <;> exact huntil _

theorem execCommands_pulseHs_holds (pinstop stoplevel : Bool) (lens : List Half) {d : Downstream}
    (h : tapNext d.tap d.tms = d.tap) :
    d.Holds (execCommands true (lens.map (pulseHsInstr pinstop stoplevel)) d) := by
  induction lens generalizing d with
  | nil => exact ⟨rfl, rfl, rfl, rfl⟩
  | cons len lens ih =>
    obtain ⟨htap, htms, htdi, hrsp⟩ := pulseHsInstr_holds pinstop stoplevel len h
    obtain ⟨htap', htms', htdi', hrsp'⟩ := ih (by rw [htap, htms, h])
    exact ⟨htap'.trans htap, htms'.trans htms, htdi'.trans htdi, hrsp'.trans hrsp⟩

/-- Settles O60: the octet commands clock the held levels, the pin-stop forms up to their stop, and the
bytes of a PULSE_HS are such commands. -/
theorem octetCommandsShiftTheHeldLevel : Obligations.OctetCommandsShiftTheHeldLevel := by
  unfold Obligations.OctetCommandsShiftTheHeldLevel
  refine ⟨?shift, ?stay, ?stream⟩
  case shift =>
    intro s len hv hshift htms
    refine ⟨by rw [exec_clkOctets len hv, clockHeld_shift hshift htms], fun i hi => ?_⟩
    obtain ⟨n, draws, stops, hn, hclocks, hlisted⟩ := clockUntil_eq (8 * (len.toNat + 1)) s.dn
    refine ⟨n, draws, stops, hn, hlisted, ?_⟩
    rw [exec_clkOctetsUntil len hv i hi, hclocks,
      clockHeld_shift (d := { s.dn with stops := stops, draws := draws }) hshift htms]
  case stay =>
    intro s len hv hshift hheld i hi
    rcases List.mem_cons.1 hi with rfl | hi
    · refine ⟨s.dn.draws + 8 * (len.toNat + 1), s.dn.stops, fun _ => rfl, ?_⟩
      rw [exec_clkOctets len hv, clockHeld_stay hshift hheld]
    · obtain ⟨n, draws, stops, -, hclocks, -⟩ := clockUntil_eq (8 * (len.toNat + 1)) s.dn
      refine ⟨draws + n, stops, fun h => ?_, ?_⟩
      · simp [h] at hi
      · rw [exec_clkOctetsUntil len hv i hi, hclocks,
          clockHeld_stay (d := { s.dn with stops := stops, draws := draws }) hshift hheld]
  case stream =>
    intro d pinstop stoplevel c hmpsse hinbox hheld d'
    have hdecodes : ∀ i ∈ pulseHsInstrs pinstop stoplevel c, ∀ rest,
        decodeCmd true (encode i ++ rest) = .cmd i rest := by
      intro i hi rest
      obtain ⟨g, -, rfl⟩ := List.mem_map.1 hi
      exact pulseHsInstr_decodes pinstop stoplevel _ rest
    have hd' : d' = execCommands true (pulseHsInstrs pinstop stoplevel c) d := by
      rw [← run_encoded hmpsse hinbox hdecodes, pulseHsInstrs_encode]
    have hin := (execCommands_mpsse true (pulseHsInstrs pinstop stoplevel c) d).2
    have hholds := execCommands_pulseHs_holds pinstop stoplevel
      ((groups c).map fun g => BitVec.ofNat 16 (g - 1)) hheld
    rw [List.map_map] at hholds
    obtain ⟨htap, htms, htdi, hrsp⟩ := hholds
    rw [hd']
    exact ⟨htap, htms, htdi, hrsp, hin.trans hinbox⟩

end Sys2Proof.Machine
end

section
/-! Proofs of the session family: how the handshake ends, how SYNC and INIT end with it, and the frame
of a failed INIT (44_session_ops.md R260 to R264). -/

namespace Sys2Proof.Machine

/-! ### The handshake, from the first probe that is not answered (R260) -/

/-- The machine can send a probe that the downstream decodes: IMM is empty, and the downstream is in
MPSSE mode with nothing before the probe. -/
def State.TakesProbe (s : State) : Prop := s.imm = [] ∧ s.dn.mpsse = true ∧ s.dn.inbox = []

theorem State.TakesProbe.afterProbe {s : State} (h : s.TakesProbe) (probe : Byte)
    (elapsed reach : Nat) (writes : List WriteReply) (waits : List Wait) :
    (s.afterProbe probe elapsed reach writes waits).TakesProbe := h

/-- A failing write leaves `synced` 0 whatever it was before the handshake cleared it. -/
theorem unsyncedProbe_unsent {probe : Byte} {s : State} {k delivered : Nat}
    {rest : List WriteReply} (himm : s.imm = []) (h : s.WriteFails [probe] k delivered rest) :
    syncProbe probe (s.setSynced false) =
      .raise .ioError (s.afterFailedSend [probe] k delivered rest) :=
  syncProbe_writeFails (s := s.setSynced false) himm h

section
variable {probe : Byte} {s : State} {writes : List WriteReply} {w : Wait} {waits : List Wait}
  {used : List Poll} (hp : probe = 0xAA#8 ∨ probe = 0xAB#8) (htakes : s.TakesProbe)
  (hwrites : s.writes = .full :: writes) (hwaits : s.waits = w :: waits)
include hp htakes hwrites hwaits

/-- A failing wait leaves `synced` 0 whatever it was before the handshake cleared it. -/
theorem unsyncedProbe_unanswered {elapsed : Nat} {e : Status}
    (h : s.EchoFails probe used w.polls elapsed e) :
    syncProbe probe (s.setSynced false) =
      .raise e (s.afterFailedProbe probe elapsed (pollReach used) writes w waits) := by
  obtain ⟨himm, hmpsse, hinbox⟩ := htakes
  exact syncProbe_fails (s := s.setSynced false) hp hmpsse hinbox himm hwrites hwaits h

theorem unsyncedProbe_echoed (h : s.Echoed probe used w.polls) :
    syncProbe probe (s.setSynced false) =
      .ok () ((s.afterProbe probe (pollTime used) (pollReach used) writes waits).setSynced
        false) := by
  obtain ⟨himm, hmpsse, hinbox⟩ := htakes
  exact syncProbe_echoed (s := s.setSynced false) hp hmpsse hinbox himm hwrites hwaits h

end

/-- The handshake after the echo of its first probe, `synced` being still 0 in it. -/
def secondProbe (s : State) : Res Unit :=
  (syncProbe 0xAB#8 (s.setSynced false)).bind fun _ t => .ok () (t.setSynced true)

theorem handshake_firstUnsent {s : State} {k delivered : Nat} {rest : List WriteReply}
    (himm : s.imm = []) (h : s.WriteFails [0xAA#8] k delivered rest) :
    handshake s = .raise .ioError (s.afterFailedSend [0xAA#8] k delivered rest) := by
  rw [handshake, unsyncedProbe_unsent himm h, Res.bind_raise]

theorem secondProbe_unsent {s : State} {k delivered : Nat} {rest : List WriteReply}
    (himm : s.imm = []) (h : s.WriteFails [0xAB#8] k delivered rest) :
    secondProbe s = .raise .ioError (s.afterFailedSend [0xAB#8] k delivered rest) := by
  rw [secondProbe, unsyncedProbe_unsent himm h, Res.bind_raise]

section
variable {s : State} {writes : List WriteReply} {w : Wait} {waits : List Wait} {used : List Poll}
  (htakes : s.TakesProbe) (hwrites : s.writes = .full :: writes) (hwaits : s.waits = w :: waits)
include htakes hwrites hwaits

theorem handshake_firstUnanswered {elapsed : Nat} {e : Status}
    (h : s.EchoFails 0xAA#8 used w.polls elapsed e) :
    handshake s =
      .raise e (s.afterFailedProbe 0xAA#8 elapsed (pollReach used) writes w waits) := by
  rw [handshake, unsyncedProbe_unanswered (.inl rfl) htakes hwrites hwaits h, Res.bind_raise]

theorem handshake_firstEchoed (h : s.Echoed 0xAA#8 used w.polls) :
    handshake s =
      secondProbe (s.afterProbe 0xAA#8 (pollTime used) (pollReach used) writes waits) := by
  rw [handshake, unsyncedProbe_echoed (.inl rfl) htakes hwrites hwaits h, Res.bind_ok, secondProbe]

theorem secondProbe_unanswered {elapsed : Nat} {e : Status}
    (h : s.EchoFails 0xAB#8 used w.polls elapsed e) :
    secondProbe s =
      .raise e (s.afterFailedProbe 0xAB#8 elapsed (pollReach used) writes w waits) := by
  rw [secondProbe, unsyncedProbe_unanswered (.inr rfl) htakes hwrites hwaits h, Res.bind_raise]

theorem secondProbe_echoed (h : s.Echoed 0xAB#8 used w.polls) :
    secondProbe s =
      .ok () ((s.afterProbe 0xAB#8 (pollTime used) (pollReach used) writes waits).setSynced
        true) := by
  rw [secondProbe, unsyncedProbe_echoed (.inr rfl) htakes hwrites hwaits h, Res.bind_ok]
  rfl

end

/-! ### SYNC ends as its handshake does -/

theorem exec_sync (s : State) : exec .sync s = .next (finish (syncOp s)) := rfl

theorem exec_sync_completes {s t : State} (h : handshake s = .ok () t) :
    exec .sync s = .next (t.complete .success []) := by
  rw [exec_sync, syncOp, h, Res.bind_ok, finish_ok]

theorem exec_sync_raises {s t : State} {e : Status} (h : handshake s = .raise e t) :
    exec .sync s = .next (t.complete e []) := by
  rw [exec_sync, syncOp, h, Res.bind_raise, finish_raise]

/-- Settles O47: the polls of each wait read its echo, so the handshake completes. -/
theorem syncCompletes : Obligations.SyncCompletes := by
  unfold Obligations.SyncCompletes
  intro s rest w1 w2 used1 used2 ws rsp1 rsp2 himm hmpsse hinbox hwrites hwaits hpass1 hpass2
    hecho1 hnot1 hecho2 hnot2
  have htakes : s.TakesProbe := ⟨himm, hmpsse, hinbox⟩
  let s1 := s.afterProbe 0xAA#8 (pollTime used1) (pollReach used1) (.full :: rest) (w2 :: ws)
  have hfirst : handshake s = secondProbe s1 :=
    handshake_firstEchoed htakes hwrites hwaits ⟨hpass1, hecho1, hnot1⟩
  have hsecond := secondProbe_echoed (s := s1) (htakes.afterProbe _ _ _ _ _) rfl rfl
    ⟨hpass2, hecho2, hnot2⟩
  have hlog : s.log ++ [PortEvent.write [0xAA#8]] ++ [PortEvent.write [0xAB#8]] =
      s.log ++ [PortEvent.write [0xAA#8], PortEvent.write [0xAB#8]] := List.append_assoc _ _ _
  rw [exec_sync_completes (hfirst.trans hsecond), ← hlog]
  rfl

/-- The statuses SYNC can end with, and `synced` with each (R260). -/
theorem syncOp_ends (s : State) :
    (((finish (syncOp s)).status = .success ∧ (syncOp s).state.synced = true) ∨
      (((finish (syncOp s)).status = .synchronizationFailed ∨
        (finish (syncOp s)).status = .ioError) ∧ (syncOp s).state.synced = false)) ∧
      (finish (syncOp s)).result = [] := by
  obtain ⟨-, -, hraised, hok⟩ := syncOp_spec s
  cases hr : syncOp s with
  | ok b t =>
    obtain ⟨hb, hsynced⟩ := hok b t hr
    exact ⟨.inl ⟨rfl, hsynced⟩, hb⟩
  | raise e t =>
    obtain ⟨he, hsynced⟩ := hraised e t hr
    exact ⟨.inr ⟨he.symm, hsynced⟩, rfl⟩

/-- Settles O48: SYNC ends as its handshake does, which stops at the first probe whose write or wait
fails. -/
theorem syncOutcomes : Obligations.SyncOutcomes := by
  unfold Obligations.SyncOutcomes
  refine ⟨?frame, ?stops⟩
  case frame =>
    intro s t h
    rw [exec_sync] at h
    cases h
    obtain ⟨hends, hresult⟩ := syncOp_ends s
    obtain ⟨-, honly, -⟩ := syncOp_spec s
    rw [finish_eq_complete] at hends hresult ⊢
    exact ⟨hends, hresult, honly.cursor, honly.seq, honly.desc, honly.divisor, honly.div5,
      honly.pinVal, honly.pinDir, honly.op⟩
  case stops =>
    intro s himm hmpsse hinbox
    refine ⟨?firstUnsent, ?firstSent⟩
    case firstUnsent =>
      exact fun k delivered rest h => exec_sync_raises (handshake_firstUnsent himm h)
    case firstSent =>
      intro writes w1 ws1 hwrites hwaits
      have htakes : s.TakesProbe := ⟨himm, hmpsse, hinbox⟩
      refine ⟨?firstUnanswered, ?firstEchoed⟩
      case firstUnanswered =>
        exact fun used elapsed e h =>
          exec_sync_raises (handshake_firstUnanswered htakes hwrites hwaits h)
      case firstEchoed =>
        intro used1 hecho s1
        have hfirst : handshake s = secondProbe s1 :=
          handshake_firstEchoed htakes hwrites hwaits hecho
        have htakes1 : s1.TakesProbe := htakes.afterProbe _ _ _ _ _
        refine ⟨?secondUnsent, ?secondUnanswered⟩
        case secondUnsent =>
          exact fun k delivered rest h =>
            exec_sync_raises (hfirst.trans (secondProbe_unsent himm h))
        case secondUnanswered =>
          exact fun rest w2 used ws elapsed e hwrites2 hwaits2 h =>
            exec_sync_raises (hfirst.trans (secondProbe_unanswered htakes1 hwrites2 hwaits2 h))

/-! ### INIT up to its handshake (R262, R263) -/

theorem initOp_legal {divisor : Half} {s : State} (h : divisor.toNat ≤ s.params.divisorMax) :
    initOp divisor s =
      ((xportCalls initCalls (initBegin s)).bind fun _ s1 =>
        (handshake s1).bind fun _ s2 =>
          (initConfigure divisor s2).bind fun _ s3 => Res.ok [] s3).onRaise
        (State.setCursor .undefined) :=
  if_neg (Nat.not_lt.2 h)

theorem State.setCursor_self {s : State} {c : Cursor} (h : s.cursor = c) : s.setCursor c = s := by
  subst h
  rfl

/-- The calls leave the downstream in MPSSE mode with nothing waiting (R263, log 18). -/
theorem afterInitCalls_takesProbe {s : State} (himm : s.imm = []) (calls : List Bool) :
    (s.afterInitCalls 7 calls).TakesProbe := ⟨himm, rfl, rfl⟩

/-- An XPORT call that fails ends INIT (R263). -/
theorem exec_init_callFails {divisor : Half} {s : State} {k : Nat} {calls : List Bool}
    (hmax : divisor.toNat ≤ s.params.divisorMax) (hk : k < 7)
    (hcalls : s.calls = List.replicate k true ++ false :: calls) :
    exec (.init divisor) s = .next (State.complete .ioError []
      { s.afterInitCalls k calls with log := s.log ++ (initCalls.take (k + 1)).map .call }) := by
  rw [exec_init, initOp_legal hmax,
    xportCalls_fail initCalls k calls (initBegin s) hk hcalls]
  rfl

/-- When its calls succeed, INIT is its handshake and then its configuration. -/
theorem initOp_called {divisor : Half} {s : State} {calls : List Bool}
    (hmax : divisor.toNat ≤ s.params.divisorMax)
    (hcalls : s.calls = List.replicate 7 true ++ calls) :
    initOp divisor s =
      ((handshake (s.afterInitCalls 7 calls)).bind fun _ s2 =>
        (initConfigure divisor s2).bind fun _ s3 => Res.ok [] s3).onRaise
        (State.setCursor .undefined) := by
  rw [initOp_legal hmax, xportCalls_succeed initCalls calls (initBegin s) hcalls]
  rfl

/-! ### INIT's configuration (R264) -/

/-- The bytes of INIT's last flush. -/
def initBytes (divisor : Half) (s : State) : List Byte :=
  (if s.params.variant = .standard then [] else [if s.div5 then 0x8B#8 else 0x8A#8]) ++
    [0x86#8, divisor.setWidth 8, (divisor >>> 8).setWidth 8, 0x80#8,
      (s.pinVal &&& 0xF0#8) ||| 0x08#8, (s.pinDir &&& 0xF0#8) ||| 0x0B#8,
      0x4B#8, 0x06#8, 0x7F#8, 0x4B#8, 0x00#8, 0x00#8]

theorem initCommands_flatten (divisor : Half) (s : State) :
    (initCommands divisor s).flatten = initBytes divisor s := by
  have hprescaler : (if s.params.variant.hiSpeed then [prescalerCommand s.div5] else []).flatten =
      if s.params.variant = .standard then [] else [if s.div5 then 0x8B#8 else 0x8A#8] := by
    by_cases hv : s.params.variant = .standard
    · rw [hv]
      rfl
    · rw [if_neg hv, if_pos (hiSpeed_of_ne_standard hv), prescalerCommand_bytes]
  have hpins : encode (.setPinsLow (initPinVal s.pinVal) (initPinDir s.pinDir)) =
      [0x80#8, (s.pinVal &&& 0xF0#8) ||| 0x08#8, (s.pinDir &&& 0xF0#8) ||| 0x0B#8] := rfl
  have hdivisor := setTckDivisor_bytes divisor
  simp only [List.flatten_cons, List.flatten_nil, List.append_nil] at hdivisor
  rw [initCommands, List.flatten_append, List.flatten_append, hprescaler, moveCommands_flatten,
    List.flatten_cons, List.flatten_cons, hdivisor, hpins, List.append_assoc]
  rfl

theorem initBytes_fit (divisor : Half) (s : State) :
    (initBytes divisor s).length ≤ Config.cmdBufMax := by
  rw [initBytes, List.length_append, Config.cmdBufMax]
  split <;> simp

/-- The registers INIT writes before its last flush (R262). -/
def State.configured (divisor : Half) (s : State) : State :=
  { s with
    divisor := some divisor
    pinVal := initPinVal s.pinVal
    pinDir := initPinDir s.pinDir
    cursor := .known .rti }

theorem initConfigure_accepted {divisor : Half} {s : State} {rest : List WriteReply}
    (himm : s.imm = []) (h : s.WritesAccepted (initBytes divisor s) rest) :
    initConfigure divisor s =
      .ok () ((s.configured divisor).afterSend (initBytes divisor s) rest) := by
  have hbytes := initCommands_flatten divisor s
  have hsent := emitFlush_accepted (cs := initCommands divisor s) (s := s.configured divisor)
    (rest := rest) himm (hbytes ▸ initBytes_fit divisor s) (hbytes ▸ h)
  rw [hbytes] at hsent
  exact hsent

theorem initConfigure_failed {divisor : Half} {s : State} {k delivered : Nat}
    {rest : List WriteReply} (himm : s.imm = [])
    (h : s.WriteFails (initBytes divisor s) k delivered rest) :
    initConfigure divisor s = .raise .ioError
      ((s.configured divisor).afterFailedSend (initBytes divisor s) k delivered rest) := by
  have hbytes := initCommands_flatten divisor s
  have hsent := emitFlush_failed (cs := initCommands divisor s) (s := s.configured divisor)
    (k := k) (delivered := delivered) (rest := rest) himm (hbytes ▸ initBytes_fit divisor s)
    (hbytes ▸ h)
  rw [hbytes] at hsent
  exact hsent

/-! ### How INIT ends after its calls -/

section
variable {divisor : Half} {s t : State} {calls : List Bool}
  (hmax : divisor.toNat ≤ s.params.divisorMax)
  (hcalls : s.calls = List.replicate 7 true ++ calls)
include hmax hcalls

theorem exec_init_handshakeRaises {e : Status}
    (h : handshake (s.afterInitCalls 7 calls) = .raise e t) :
    exec (.init divisor) s = .next (t.complete e []) := by
  have hcursor : t.cursor = .undefined := by
    have honly := (handshake_spec (s.afterInitCalls 7 calls)).1
    rw [h] at honly
    exact honly.cursor
  rw [exec_init, initOp_called hmax hcalls, h, Res.bind_raise, Res.onRaise_raise, finish_raise,
    State.setCursor_self hcursor]

variable {rest : List WriteReply} (hhandshake : handshake (s.afterInitCalls 7 calls) = .ok () t)
  (himm : t.imm = [])
include hhandshake himm

theorem exec_init_completes (h : t.WritesAccepted (initBytes divisor t) rest) :
    exec (.init divisor) s =
      .next (((t.configured divisor).afterSend (initBytes divisor t) rest).complete .success []) := by
  rw [exec_init, initOp_called hmax hcalls, hhandshake, Res.bind_ok, initConfigure_accepted himm h,
    Res.bind_ok, Res.onRaise_ok, finish_ok]

/-- A failure of the last flush leaves DIVISOR and the pins written, but not the cursor (log 17). -/
theorem exec_init_flushFails {k delivered : Nat}
    (h : t.WriteFails (initBytes divisor t) k delivered rest) :
    exec (.init divisor) s =
      .next ((((t.configured divisor).afterFailedSend (initBytes divisor t) k delivered
        rest).setCursor .undefined).complete .ioError []) := by
  rw [exec_init, initOp_called hmax hcalls, hhandshake, Res.bind_ok, initConfigure_failed himm h,
    Res.bind_raise, Res.onRaise_raise, finish_raise]

end

/-! ### INIT's completion (R262, R264) -/

/-- `s` after a probe whose whole answer was read: nothing of the downstream has changed. -/
def State.answered (probe : Byte) (elapsed : Nat) (writes : List WriteReply) (waits : List Wait)
    (s : State) : State :=
  { s with
    writes := writes
    waits := waits
    time := s.time + elapsed
    log := s.log ++ [.write [probe]] }

theorem afterProbe_arrives (probe : Byte) {timeout : Nat} {used polls : List Poll} {s : State}
    (hrsp : s.dn.rsp = []) (harr : Arrives timeout 2 used polls) (elapsed : Nat)
    (writes : List WriteReply) (waits : List Wait) :
    s.afterProbe probe elapsed (pollReach used) writes waits =
      s.answered probe elapsed writes waits := by
  obtain ⟨-, -, hreach⟩ := harr
  have hread : (s.probeRsp probe).drop (pollReach used) = s.dn.rsp := by
    rw [State.probeRsp, hrsp]
    exact List.drop_eq_nil_of_le hreach
  rw [State.afterProbe, hread, State.answered]

/-- A handshake that starts with no response left over and reads both echoes (R260). -/
theorem handshake_arrives {s : State} {rest : List WriteReply} {w1 w2 : Wait} {ws : List Wait}
    {used1 used2 : List Poll} (htakes : s.TakesProbe) (hrsp : s.dn.rsp = [])
    (hwrites : s.writes = .full :: .full :: rest) (hwaits : s.waits = w1 :: w2 :: ws)
    (harr1 : Arrives s.params.syncTimeoutMs 2 used1 w1.polls)
    (harr2 : Arrives s.params.syncTimeoutMs 2 used2 w2.polls) :
    handshake s = .ok () (((s.answered 0xAA#8 (pollTime used1) (.full :: rest) (w2 :: ws)).answered
      0xAB#8 (pollTime used2) rest ws).setSynced true) := by
  rw [handshake_firstEchoed htakes hwrites hwaits (arrives_echoed hrsp harr1),
    afterProbe_arrives _ hrsp harr1,
    secondProbe_echoed (s := s.answered _ _ _ _) htakes rfl rfl (arrives_echoed hrsp harr2),
    afterProbe_arrives (s := s.answered _ _ _ _) _ hrsp harr2]

/-- Settles O49: the calls succeed, both echoes arrive, and the last flush is accepted. -/
theorem initCompletes : Obligations.InitCompletes := by
  unfold Obligations.InitCompletes
  intro s divisor rest calls w1 w2 used1 used2 ws v d bytes himm hmax hcalls hwrites hwaits harr1
    harr2
  have hhandshake := handshake_arrives (afterInitCalls_takesProbe himm calls) rfl hwrites hwaits
    harr1 harr2
  have hlog : s.log ++ initCalls.map PortEvent.call ++ [PortEvent.write [0xAA#8]] ++
      [PortEvent.write [0xAB#8]] =
      s.log ++ ([.call .resetAndPurge, .call .setUsbBufferSizes, .call .setSpecialChars,
        .call .setTimeouts, .call .setLatencyTimer, .call .setBitModeReset,
        .call .setBitModeMpsse, .write [0xAA#8], .write [0xAB#8]] : List PortEvent) := by
    rw [List.append_assoc, List.append_assoc]
    rfl
  have hdn : deliver bytes (s.afterInitCalls 7 calls).dn =
      { s.dn with mpsse := true, inbox := bytes, rsp := [] } := deliver_mpsse rfl bytes
  rw [exec_init_completes hmax hcalls hhandshake himm rfl, ← hlog, ← hdn]
  rfl

/-! ### What a failed INIT leaves (R262, R286) -/

/-- INIT keeps the pins that are not the engine's (R27). -/
theorem initPinVal_otherBits (v : Byte) : initPinVal v &&& 0xF0#8 = v &&& 0xF0#8 := by
  rw [initPinVal, BitVec.and_or_distrib_right, BitVec.and_assoc]
  simp

theorem initPinDir_otherBits (d : Byte) : initPinDir d &&& 0xF0#8 = d &&& 0xF0#8 := by
  rw [initPinDir, BitVec.and_or_distrib_right, BitVec.and_assoc]
  simp

/-- Whatever fails in it after its divisor check, INIT leaves this of the block. -/
theorem initOp_failed_frame {divisor : Half} {s : State} (himm : s.imm = [])
    (hmax : divisor.toNat ≤ s.params.divisorMax) :
    let t := finish (initOp divisor s)
    t.status ≠ .success →
    (t.status = .ioError ∨ t.status = .synchronizationFailed) ∧ t.cursor = .undefined ∧
      t.seq = [] ∧ t.desc = [] ∧ t.synced = false ∧ t.imm = [] ∧ t.result = [] ∧
      t.div5 = s.div5 ∧ t.params = s.params ∧ t.pinVal &&& 0xF0#8 = s.pinVal &&& 0xF0#8 ∧
      t.pinDir &&& 0xF0#8 = s.pinDir &&& 0xF0#8 := by
  intro t hfails
  obtain ⟨hkeeps, hraised, -⟩ := initOp_spec divisor s (Nat.not_lt.2 hmax)
  obtain ⟨hstatus, hsynced, hcursor⟩ := hraised _ _ (finish_raised hfails)
  obtain ⟨hval, hdir⟩ : (initOp divisor s).state.pinVal &&& 0xF0#8 = s.pinVal &&& 0xF0#8 ∧
      (initOp divisor s).state.pinDir &&& 0xF0#8 = s.pinDir &&& 0xF0#8 := by
    rcases hkeeps.pins with ⟨hval, hdir, -⟩ | ⟨hval, hdir, -⟩
    · rw [hval, hdir]
      exact ⟨rfl, rfl⟩
    · rw [hval, hdir]
      exact ⟨initPinVal_otherBits _, initPinDir_otherBits _⟩
  have hresult : t.result = [] := finish_result _ hfails
  have ht : t = (initOp divisor s).state.complete t.status t.result := finish_eq_complete _
  rw [ht]
  exact ⟨hstatus, hcursor, hkeeps.seq, hkeeps.desc, hsynced, hkeeps.imm himm, hresult,
    hkeeps.div5, hkeeps.params, hval, hdir⟩

/-- Settles O51: INIT stops at the first call, probe or write that fails, and every failure sets the
cursor back to Undefined. -/
theorem failedInitLeavesUndefined : Obligations.FailedInitLeavesUndefined := by
  unfold Obligations.FailedInitLeavesUndefined
  refine ⟨?frame, ?stops⟩
  case frame =>
    intro s t divisor himm hmax h
    rw [exec_init] at h
    cases h
    exact initOp_failed_frame himm hmax
  case stops =>
    intro s divisor himm hmax
    refine ⟨?callFails, ?called⟩
    case callFails =>
      exact fun k calls hk hcalls => exec_init_callFails hmax hk hcalls
    case called =>
      intro calls hcalls s0
      have hraises {t : State} {e : Status} (h : handshake s0 = .raise e t) :
          exec (.init divisor) s = .next (t.complete e []) :=
        exec_init_handshakeRaises hmax hcalls h
      have htakes : s0.TakesProbe := afterInitCalls_takesProbe himm calls
      refine ⟨?firstUnsent, ?firstSent⟩
      case firstUnsent =>
        exact fun k delivered rest h => hraises (handshake_firstUnsent himm h)
      case firstSent =>
        intro writes w1 ws1 hwrites hwaits
        refine ⟨?firstUnanswered, ?firstEchoed⟩
        case firstUnanswered =>
          exact fun used elapsed e h =>
            hraises (handshake_firstUnanswered htakes hwrites hwaits h)
        case firstEchoed =>
          intro used1 hecho1 s1
          have hfirst : handshake s0 = secondProbe s1 :=
            handshake_firstEchoed htakes hwrites hwaits hecho1
          have htakes1 : s1.TakesProbe := htakes.afterProbe _ _ _ _ _
          refine ⟨?secondUnsent, ?secondSent⟩
          case secondUnsent =>
            exact fun k delivered rest h => hraises (hfirst.trans (secondProbe_unsent himm h))
          case secondSent =>
            intro writes2 w2 ws hwrites2 hwaits2
            refine ⟨?secondUnanswered, ?flushFails⟩
            case secondUnanswered =>
              exact fun used elapsed e h =>
                hraises (hfirst.trans (secondProbe_unanswered htakes1 hwrites2 hwaits2 h))
            case flushFails =>
              intro used2 hecho2 s2 v d bytes k delivered rest h
              have hsecond : secondProbe s1 = .ok () (s2.setSynced true) :=
                secondProbe_echoed htakes1 hwrites2 hwaits2 hecho2
              rw [exec_init_flushFails hmax hcalls (hfirst.trans hsecond) himm h]
              rfl

end Sys2Proof.Machine
end

section
/-! Proofs of the exceptions family, part 1: what a step does with the next command and the next frame,
how an operation's STATUS is delivered, and that nothing stops the machine (60_exceptions.md R282, R290,
R294 item 1, R296). -/

namespace Sys2Proof.Machine

/-! ### The step and the next command (R294 item 1, R296) -/

theorem Downstream.fetch_of_mpsse {d : Downstream} (h : d.mpsse = true) (hs : Bool) :
    d.fetch hs = decodeCmd hs d.inbox :=
  if_pos h

theorem step_of_fetch_cmd {s : State} {i : Instr} {rest : List Byte}
    (h : s.dn.fetch s.hs = .cmd i rest) : step s = exec i (s.setDn { s.dn with inbox := rest }) := by
  unfold step
  rw [h]

theorem step_of_fetch_undescribed {s : State} (h : s.dn.fetch s.hs = .undescribed) :
    step s = .next (s.setDn (loseTrack s.dn)) := by
  unfold step
  rw [h]

theorem stepBlock_idle {s : State} (h : s.op = []) : stepBlock s = .next s := by
  unfold stepBlock
  rw [h]

/-- Settles O6: what a downstream in MPSSE mode fetches is what its bytes decode to. -/
theorem stepRunsFetchedCommand : Obligations.StepRunsFetchedCommand := by
  unfold Obligations.StepRunsFetchedCommand
  intro s i rest hmpsse hcmd
  exact step_of_fetch_cmd ((Downstream.fetch_of_mpsse hmpsse s.hs).trans hcmd)

/-- Settles O9: the step is the block's, which has no frame to accept. -/
theorem idleMachineHoldsItsState : Obligations.IdleMachineHoldsItsState := by
  unfold Obligations.IdleMachineHoldsItsState
  intro s hmore hop
  rw [step_of_fetch_more hmore, stepBlock_idle hop]

/-! ### How a descriptor that is taken ends (R290, R291) -/

/-- A step that takes a frame from OP ends an operation, or reports that the frame does not decode. -/
theorem step_takes_frame {s : State} {frame : List Byte} {fs : List (List Byte)}
    (hmore : s.dn.fetch s.hs = .more) (hop : s.op = frame :: fs) :
    ∃ r, step s = .next (finish r) ∧ HostResult { s with op := fs } r := by
  rw [step_of_fetch_more hmore]
  cases hd : decodeOp frame with
  | instr i =>
    obtain ⟨r, hexec, hr, -⟩ := exec_hostOp i { s with op := fs } (decodeOp_isHostOp hd)
    exact ⟨r, (stepBlock_instr hop hd).trans hexec, hr⟩
  | reject e =>
    exact ⟨.raise .invalidOperation { s with op := fs }, stepBlock_reject hop hd, .parameter rfl⟩

/-- An operation puts no frame on RES before its end, which puts STATUS and the result there (R81). -/
theorem HostResult.frames_finish {s : State} {r : Res (List Byte)} (h : HostResult s r) :
    Machine.frames (finish r).log =
      Machine.frames s.log ++ [(finish r).status.code :: (finish r).result] := by
  obtain ⟨es, hlog, hes⟩ := h.frames
  rw [finish_log, hlog, frames_append, frames_append, hes, List.append_nil]
  rfl

/-- A parameter error is raised in the state the operation began in (R282). -/
theorem HostResult.finish_parameter {s : State} {r : Res (List Byte)} (h : HostResult s r)
    (hk : (finish r).status.kind = .parameter) : finish r = s.complete (finish r).status [] := by
  have hne : (finish r).status ≠ .success := by
    intro h0
    rw [h0] at hk
    cases hk
  have hstate : r.state = s := h.param _ _ (finish_raised hne) hk
  rw [finish_eq_complete, hstate, finish_result r hne]
  rfl

/-- Settles O15: the frame is the one that ends the operation, and the operation leaves OP alone. -/
theorem eachDescriptorGetsOneFrame : Obligations.EachDescriptorGetsOneFrame := by
  unfold Obligations.EachDescriptorGetsOneFrame
  intro s t frame fs hmore hop h
  obtain ⟨r, hstep, hr⟩ := step_takes_frame hmore hop
  rw [hstep] at h
  cases h
  refine ⟨?_, hr.frames_finish, finish_result r⟩
  rw [finish_eq_complete, State.complete_op, hr.op]

/-- Settles O17: an operation raises a parameter error before it has changed anything, and so does the
block for a frame that does not decode. -/
theorem parameterErrorChangesNothing : Obligations.ParameterErrorChangesNothing := by
  unfold Obligations.ParameterErrorChangesNothing
  constructor
  case left =>
    intro i s t hi h hk
    obtain ⟨r, rfl, hr, -⟩ := exec_hostOp_next hi h
    exact hr.finish_parameter hk
  case right =>
    intro s t frame fs hmore hop h hk
    obtain ⟨r, hstep, hr⟩ := step_takes_frame hmore hop
    rw [hstep] at h
    cases h
    exact hr.finish_parameter hk

/-! ### Every step answers (93_implementation_defined.md Part 1) -/

theorem exec_answers (i : Instr) (s : State) : ∃ t, exec i s = .next t := by
  cases hi : i.isHostOp with
  | true =>
    obtain ⟨r, hr, -⟩ := exec_hostOp i s hi
    exact ⟨finish r, hr⟩
  | false => exact ⟨_, exec_command i s hi⟩

/-- Settles O14: whatever is fetched, executed or taken from OP leads to a next state. -/
theorem everyStepAnswers : Obligations.EveryStepAnswers := by
  unfold Obligations.EveryStepAnswers
  intro s
  cases hf : s.dn.fetch s.hs with
  | cmd i rest =>
    rw [step_of_fetch_cmd hf]
    exact exec_answers i _
  | unlisted op rest => exact ⟨_, step_of_fetch_unlisted hf⟩
  | undescribed => exact ⟨_, step_of_fetch_undescribed hf⟩
  | more =>
    cases hop : s.op with
    | nil => exact ⟨s, (step_of_fetch_more hf).trans (stepBlock_idle hop)⟩
    | cons frame fs =>
      obtain ⟨r, hstep, -⟩ := step_takes_frame hf hop
      exact ⟨finish r, hstep⟩

/-! ### Operations a Standard chip does not have (R297, R283) -/

theorem pulseHsOp_standard (pinstop stoplevel : Bool) (count : Word) {s : State}
    (hv : s.params.variant = .standard) :
    pulseHsOp pinstop stoplevel count s = .raise .operationNotSupported s :=
  if_pos (hiSpeed_of_standard hv)

theorem setDiv5Op_standard (on : Bool) {s : State} (hv : s.params.variant = .standard) :
    setDiv5Op on s = .raise .operationNotSupported s :=
  if_pos (hiSpeed_of_standard hv)

/-- Settles O43: both operations check the chip before anything else. -/
theorem standardChipRefusesHiSpeedOps : Obligations.StandardChipRefusesHiSpeedOps := by
  unfold Obligations.StandardChipRefusesHiSpeedOps
  intro s hv
  constructor
  case left =>
    intro pinstop stoplevel count
    rw [exec_pulseHs, pulseHsOp_standard pinstop stoplevel count hv, finish_raise]
  case right =>
    intro on
    rw [exec_setDiv5, setDiv5Op_standard on hv, finish_raise]

end Sys2Proof.Machine
end

section
/-! Proofs of the exceptions family, part 2: what the data commands do to the register in a shift state,
and the commands that clock nothing (60_exceptions.md R294 items 3 to 5, 7, 8, 10). -/

namespace Sys2Proof.Machine

/-! ### Clocking data in a shift state with TMS low (R294 item 3) -/

/-- Bits clocked out go through the register, and TDI keeps the last one. -/
theorem clockOut_shift {d : Downstream} (h : isShift d.tap = true) (ht : d.tms = false)
    (bits : List Bool) :
    clockOut bits d = ((d.reg ++ bits).take bits.length,
      { d with reg := (d.reg ++ bits).drop bits.length, tdi := bits.getLastD d.tdi }) := by
  rw [clockOut, clockData_shift h ht]

/-- Bits clocked in are the low ones of a register that has so many; free ones come in above the rest
(R154, log 9). -/
theorem clockIn_shift {d : Downstream} (h : isShift d.tap = true) (ht : d.tms = false) {n : Nat}
    (hn : n ≤ d.reg.length) :
    ∃ reg : List Bool, reg.length = d.reg.length ∧
      reg.take (d.reg.length - n) = d.reg.drop n ∧
      clockIn n d = (d.reg.take n, { d with reg := reg, draws := d.draws + n }) := by
  have hlen : (freeBits n d).1.length = n := freeBits_length n d
  have hreg : (d.reg ++ (freeBits n d).1).drop n = d.reg.drop n ++ (freeBits n d).1 :=
    List.drop_append_of_le_length hn
  refine ⟨(d.reg ++ (freeBits n d).1).drop n, ?_, ?_, ?_⟩
  · rw [List.length_drop, List.length_append, hlen, Nat.add_sub_cancel]
  · rw [hreg, ← List.length_drop, List.take_left]
  · have hclock := clockData_shift (d := (freeBits n d).2) h ht (freeBits n d).1
    rw [hlen] at hclock
    exact hclock.trans (Prod.ext (List.take_append_of_le_length hn) rfl)

/-- A bit command answers one byte, with its samples above bits that are free (R294 item 5, log 10). -/
theorem respondBits_eq (samples : List Bool) (d : Downstream) :
    ∃ low : List Bool, low.length = 8 - samples.length ∧
      respondBits samples d = { d with
        draws := d.draws + low.length, rsp := d.rsp ++ [byteOfBits (low ++ samples)] } := by
  refine ⟨(freeBits (8 - samples.length) d).1, freeBits_length _ d, ?_⟩
  rw [freeBits_length]
  rfl

theorem bitsOfBytes_getLastD {data : List Byte} (h : data ≠ []) (x : Bool) :
    (bitsOf data (8 * data.length)).getLastD x = bitAt data (8 * data.length - 1) :=
  bitsOf_getLastD data _ (Nat.mul_pos (by decide) (List.length_pos_iff.2 h)) x

theorem byteBits_succ_getLastD (n : Nat) (b : Byte) (x : Bool) :
    (byteBits (n + 1) b).getLastD x = b.getLsbD n := by
  simp [byteBits, List.range_succ]

/-! ### The data commands -/

/-- Settles O56: every form clocks its bits through the register, and the out-and-in forms answer with
what came out. -/
theorem dataOutCommandsShiftTheRegister : Obligations.DataOutCommandsShiftTheRegister := by
  unfold Obligations.DataOutCommandsShiftTheRegister
  intro s hshift htms
  constructor
  case left =>
    intro data hdata bits out d
    have hclock : clockOut (bitsOfBytes data) s.dn = (out.take bits.length, d) := by
      rw [bitsOfBytes_eq, clockOut_shift hshift htms, bitsOfBytes_getLastD hdata]
    constructor
    · rw [exec_command _ _ rfl, cmdEffect, clkBytesOut, hclock]
    · rw [exec_command _ _ rfl, cmdEffect, clkBytesOutIn, hclock]
      rfl
  case right =>
    intro n b bits out d
    have hclock : clockOut (byteBits (n.toNat + 1) b) s.dn = (out.take bits.length, d) := by
      rw [clockOut_shift hshift htms, byteBits_succ_getLastD]
    have hsamples : (out.take bits.length).length = n.toNat + 1 := by
      simp [out, bits]
    obtain ⟨low, hlow, hrespond⟩ := respondBits_eq (out.take bits.length) d
    refine ⟨?_, low, by omega, ?_⟩
    · rw [exec_command _ _ rfl, cmdEffect, clkBitsOut, hclock]
    · rw [exec_command _ _ rfl, cmdEffect, clkBitsOutIn, hclock]
      exact congrArg (fun e => Host.Outcome.next (s.setDn e)) hrespond

/-- Settles O57: both forms clock the register's low bits in and answer with them. -/
theorem dataInCommandsReadTheRegister : Obligations.DataInCommandsReadTheRegister := by
  unfold Obligations.DataInCommandsReadTheRegister
  intro s hshift htms
  constructor
  case left =>
    intro len hlen
    obtain ⟨reg, hreg, hrest, hclock⟩ := clockIn_shift hshift htms hlen
    refine ⟨reg, hreg, hrest, ?_⟩
    rw [exec_command _ _ rfl, cmdEffect, clkBytesIn, hclock]
    rfl
  case right =>
    intro n hn
    have hn8 := n.isLt
    obtain ⟨reg, hreg, hrest, hclock⟩ := clockIn_shift hshift htms hn
    obtain ⟨low, hlow, hrespond⟩ := respondBits_eq (s.dn.reg.take (n.toNat + 1))
      { s.dn with reg := reg, draws := s.dn.draws + (n.toNat + 1) }
    rw [List.length_take, Nat.min_eq_left hn] at hlow
    have hdraws : s.dn.draws + (n.toNat + 1) + low.length = s.dn.draws + 8 := by omega
    refine ⟨reg, low, hreg, by omega, hrest, ?_⟩
    rw [exec_command _ _ rfl, cmdEffect, clkBitsIn, hclock]
    simp only [hrespond, hdraws]

/-! ### The commands that clock nothing (R294 items 7, 8, 10) -/

/-- Settles O59: each command's effect on the downstream is the one update of its row; the prescaler's
are a high-speed chip's. -/
theorem configurationCommandsComplete : Obligations.ConfigurationCommandsComplete := by
  unfold Obligations.ConfigurationCommandsComplete
  intro s
  refine ⟨fun v d => exec_command (.setPinsLow v d) s rfl,
    fun div => exec_command (.setTckDivisor div) s rfl, exec_command .sendImmediate s rfl,
    exec_command .syncProbe1 s rfl, exec_command .syncProbe2 s rfl, fun hv => ?_⟩
  have hhs : s.params.variant.hiSpeed = true := hiSpeed_of_ne_standard hv
  constructor <;> rw [exec_command _ _ rfl, hhs] <;> rfl

end Sys2Proof.Machine
end

section
/-! Proofs of the reset family, part 1: the state right after reset, and that no step changes the
configuration (70_reset_and_hazards.md R320, R321). -/

namespace Sys2Proof.Machine

/-! ### The configuration is constant (R321) -/

theorem HostResult.params_finish {s : State} {r : Res (List Byte)} (h : HostResult s r) :
    (finish r).params = s.params := by
  rw [finish_eq_complete, State.complete_params, h.params]

theorem exec_params {i : Instr} {s t : State} (h : exec i s = .next t) : t.params = s.params := by
  cases hi : i.isHostOp with
  | true =>
    obtain ⟨r, rfl, hr, -⟩ := exec_hostOp_next hi h
    exact hr.params_finish
  | false =>
    rw [exec_command i s hi] at h
    cases h
    rfl

/-- A step executes a command, loses or rejects an opcode, takes a frame, or is idle; none of these
writes the configuration. -/
theorem step_params {s t : State} (h : step s = .next t) : t.params = s.params := by
  cases hf : s.dn.fetch s.hs with
  | cmd i rest =>
    rw [step_of_fetch_cmd hf] at h
    exact (exec_params h).trans (State.setDn_params _ _)
  | unlisted op rest =>
    rw [step_of_fetch_unlisted hf] at h
    cases h
    rfl
  | undescribed =>
    rw [step_of_fetch_undescribed hf] at h
    cases h
    rfl
  | more =>
    cases hop : s.op with
    | nil =>
      rw [step_of_fetch_more hf, stepBlock_idle hop] at h
      cases h
      rfl
    | cons frame fs =>
      obtain ⟨r, hstep, hr⟩ := step_takes_frame hf hop
      rw [hstep] at h
      cases h
      exact hr.params_finish

/-- Settles O11: each row of R321's table is the value the reset event writes, and every way a step can
go keeps the configuration. -/
theorem resetState : Obligations.ResetState := by
  unfold Obligations.ResetState
  constructor
  case left =>
    intro p
    exact ⟨rfl, rfl, rfl, rfl, rfl, rfl, rfl, rfl, rfl, rfl, rfl, rfl, rfl⟩
  case right => exact fun s t h => step_params h

/-! ### The invariant at reset -/

/-- Settles O12: at reset the buffers are empty, the pins untouched and no divisor was sent, and the
downstream holds no commands. -/
theorem resetMeetsInvariant : Obligations.ResetMeetsInvariant := fun _ =>
  { imm_empty := rfl
    seq_capped := Nat.zero_le _
    desc_inRange := List.forall_mem_nil _
    desc_bounded := Nat.le_refl 0
    pins_legal := .inl ⟨BitVec.zero_and, BitVec.zero_and⟩
    divisor_bounded := fun _ h => nomatch h
    no_result_on_error := fun _ => rfl
    inbox_only_mpsse := fun _ => rfl
    frame_is_status := .inl rfl }

end Sys2Proof.Machine
end

section
/-! Proofs of the reset family, part 2: after a successful INIT the target is in Run-Test/Idle and the
device is as the block believes (70_reset_and_hazards.md R322, 44_session_ops.md R260 to R264). -/

namespace Sys2Proof.Machine

/-! ### Operations that go on -/

theorem Res.bind_eq_ok {α β : Type} {r : Res α} {f : α → State → Res β} {b : β} {t : State} :
    r.bind f = .ok b t ↔ ∃ a s, r = .ok a s ∧ f a s = .ok b t := by
  cases r with
  | ok a s => simp
  | raise e s => simp

theorem Res.onRaise_eq_ok {α : Type} {r : Res α} {f : State → State} {a : α} {t : State} :
    r.onRaise f = .ok a t ↔ r = .ok a t := by
  cases r <;> simp

/-! ### A handshake that succeeds leaves no response (R260, R261) -/

theorem HasEcho.two_le_length {probe : Byte} {acc : List Byte} (h : HasEcho probe acc) :
    2 ≤ acc.length := by
  obtain ⟨i, -, hprobe⟩ := h
  have := (List.getElem?_eq_some_iff.1 hprobe).1
  omega

/-- A wait that succeeds has read some of the queue, with the echo in it, whatever its polls were. -/
theorem syncLoop_ok {probe : Byte} {deadline : Nat} {ps : List Poll} {acc : List Byte} {s t : State}
    (h : syncLoop probe deadline ps acc s = .ok () t) :
    ∃ n, HasEcho probe (acc ++ s.dn.rsp.take n) ∧
      t.dn = { s.dn with rsp := s.dn.rsp.drop n } := by
  have stops {acc : List Byte} {s : State} (hfound : echoFound probe acc = true) :
      ∃ n, HasEcho probe (acc ++ s.dn.rsp.take n) ∧
        s.dn = { s.dn with rsp := s.dn.rsp.drop n } :=
    ⟨0, ((echoFound_iff _ _).1 hfound).append, rfl⟩
  induction ps generalizing acc s with
  | nil =>
    unfold syncLoop at h
    split at h
    next hfound =>
      cases h
      exact stops hfound
    next => cases h
  | cons p ps ih =>
    simp only [syncLoop] at h
    split at h
    next hfound =>
      cases h
      exact stops hfound
    next =>
      split at h
      next => cases h
      next =>
        split at h
        next => cases h
        next =>
          split at h
          next => exact ih (s := s.setTime (s.time + p.dt)) h
          next =>
            split at h
            next => cases h
            next =>
              obtain ⟨n, hecho, hdn⟩ := ih h
              refine ⟨min p.visible s.dn.rsp.length + n, ?_, ?_⟩
              · rw [List.take_add, ← List.append_assoc]
                exact hecho
              · rw [hdn, ← List.drop_drop]
                rfl

theorem nextWait_dn (s : State) : (nextWait s).2.dn = s.dn := by
  unfold nextWait
  split <;> rfl

/-- A probe sent with no response left over: its echo is the whole answer, so a success has read it
all and leaves the downstream as it was. -/
theorem syncProbe_ok_dn {probe : Byte} (hp : probe = 0xAA#8 ∨ probe = 0xAB#8) {s t : State}
    (htakes : s.TakesProbe) (hrsp : s.dn.rsp = []) (h : syncProbe probe s = .ok () t) :
    t.dn = s.dn := by
  obtain ⟨himm, hmpsse, hinbox⟩ := htakes
  obtain ⟨_, s1, hsend, hwait⟩ := Res.bind_eq_ok.1 h
  have hsent := (emitFlush_ok hsend).1
  rw [himm] at hsent
  have hdn1 : s1.dn = deliver [probe] s.dn := (hsent.dn hmpsse).trans (deliver_mpsse hmpsse _).symm
  have hparams : s1.params = s.params := by
    have := (emitFlush_spec [[probe]] s).1.params
    rwa [hsend] at this
  obtain ⟨w, s2, hnext, ⟨_, t', hloop, hok⟩ | ⟨e, t', -, hraise⟩⟩ := awaiting_cases 1
    (fun polls t => syncLoop probe (t.time + t.params.syncTimeoutMs) polls [] t) s1
  case inr =>
    rw [hraise] at hwait
    cases hwait
  case inl =>
    rw [hok] at hwait
    cases hwait
    have hs2 : s2 = (nextWait s1).2 := by rw [hnext]
    have hparams2 : s2.params = s.params := by
      rw [hs2, (nextWait_transportOnly s1).params, hparams]
    have hanswer : s2.runDownstream.dn = { s.dn with rsp := [0xFA#8, probe] } := by
      rw [State.runDownstream, State.setDn_dn, hparams2, hs2, nextWait_dn, hdn1,
        run_probe hp hmpsse hinbox, State.probeRsp, hrsp, List.nil_append]
    obtain ⟨n, hecho, hdn⟩ := syncLoop_ok hloop
    rw [hanswer] at hecho hdn
    have hread : 2 ≤ n := by
      have := hecho.two_le_length
      simp only [List.nil_append, List.length_take] at this
      omega
    rw [hdn, List.drop_eq_nil_of_le (by exact hread), ← hrsp]

theorem handshake_ok_dn {s t : State} (htakes : s.TakesProbe) (hrsp : s.dn.rsp = [])
    (h : handshake s = .ok () t) : t.dn = s.dn := by
  obtain ⟨_, s1, hfirst, h⟩ := Res.bind_eq_ok.1 h
  obtain ⟨_, s2, hsecond, h⟩ := Res.bind_eq_ok.1 h
  cases h
  have hdn1 : s1.dn = s.dn := syncProbe_ok_dn (s := s.setSynced false) (.inl rfl) htakes hrsp hfirst
  have himm1 : s1.imm = [] := by
    have := (syncProbe_spec 0xAA#8 (s.setSynced false)).2.1
    rwa [hfirst] at this
  obtain ⟨-, hmpsse, hinbox⟩ := htakes
  have htakes1 : s1.TakesProbe := ⟨himm1, hdn1 ▸ hmpsse, hdn1 ▸ hinbox⟩
  exact (syncProbe_ok_dn (.inr rfl) htakes1 (hdn1 ▸ hrsp) hsecond).trans hdn1

/-! ### What a successful INIT has sent (R262, R263) -/

theorem nextCall_dn (s : State) : (nextCall s).2.dn = s.dn := by
  unfold nextCall
  split <;> rfl

theorem xportCall_ok_dn {c : XportCall} {s t : State} (h : xportCall c s = .ok () t) :
    t.dn = callEffect c s.dn := by
  simp only [xportCall] at h
  split at h
  next =>
    cases h
    rw [State.setDn_dn, State.note_dn, nextCall_dn]
  next => cases h

theorem xportCalls_ok_dn {cs : List XportCall} {s t : State} (h : xportCalls cs s = .ok () t) :
    t.dn = cs.foldl (fun d c => callEffect c d) s.dn := by
  induction cs generalizing s with
  | nil =>
    cases h
    rfl
  | cons c cs ih =>
    obtain ⟨_, s1, hcall, hcalls⟩ := Res.bind_eq_ok.1 h
    rw [ih hcalls, xportCall_ok_dn hcall, List.foldl_cons]

/-- The downstream after INIT's calls and handshake: in MPSSE mode, with nothing waiting (R263). -/
def Downstream.begun (d : Downstream) : Downstream :=
  { d with mpsse := true, inbox := [], rsp := [] }

theorem initCalls_dn (d : Downstream) : initCalls.foldl (fun d c => callEffect c d) d = d.begun :=
  rfl

theorem initBytes_congr {divisor : Half} {s t : State} (hparams : t.params = s.params)
    (hdiv5 : t.div5 = s.div5) (hval : t.pinVal = s.pinVal) (hdir : t.pinDir = s.pinDir) :
    initBytes divisor t = initBytes divisor s := by
  rw [initBytes, initBytes, hparams, hdiv5, hval, hdir]

theorem initConfigure_ok_dn {divisor : Half} {s t : State} (himm : s.imm = [])
    (hmpsse : s.dn.mpsse = true) (h : initConfigure divisor s = .ok () t) :
    t.dn = deliver (initBytes divisor s) s.dn := by
  have hsent := (emitFlush_ok h).1
  have himm' : (s.configured divisor).imm = [] := himm
  change SentOk ((s.configured divisor).imm ++ (initCommands divisor s).flatten)
    (s.configured divisor) t at hsent
  rw [himm', List.nil_append, initCommands_flatten] at hsent
  exact (hsent.dn hmpsse).trans (deliver_mpsse hmpsse _).symm

/-- INIT succeeds only past its divisor check. -/
theorem initOp_ok_legal {divisor : Half} {s t : State} {b : List Byte}
    (h : initOp divisor s = .ok b t) : divisor.toNat ≤ s.params.divisorMax := by
  by_contra hbad
  rw [initOp_badDivisor (Nat.not_le.1 hbad)] at h
  cases h

/-- The downstream when INIT ends with Success, whatever its calls, writes and polls were: the bytes of
the last flush wait, behind nothing. -/
theorem initOp_ok_dn {divisor : Half} {s t : State} {b : List Byte} (himm : s.imm = [])
    (h : initOp divisor s = .ok b t) : t.dn = deliver (initBytes divisor s) s.dn.begun := by
  rw [initOp_legal (initOp_ok_legal h), Res.onRaise_eq_ok] at h
  obtain ⟨_, s1, hcalls, h⟩ := Res.bind_eq_ok.1 h
  obtain ⟨_, s2, hhandshake, h⟩ := Res.bind_eq_ok.1 h
  obtain ⟨_, s3, hconfigure, h⟩ := Res.bind_eq_ok.1 h
  cases h
  obtain ⟨honly1, himm1, -⟩ := xportCalls_spec initCalls (initBegin s)
  obtain ⟨honly2, himm2, -⟩ := handshake_spec s1
  rw [hcalls, Res.state_ok] at honly1 himm1
  rw [hhandshake, Res.state_ok] at honly2 himm2
  have hdn1 : s1.dn = s.dn.begun := (xportCalls_ok_dn hcalls).trans (initCalls_dn _)
  have htakes1 : s1.TakesProbe := ⟨himm1.trans himm, by rw [hdn1]; rfl, by rw [hdn1]; rfl⟩
  have hdn2 : s2.dn = s.dn.begun :=
    (handshake_ok_dn htakes1 (by rw [hdn1]; rfl) hhandshake).trans hdn1
  have hbytes : initBytes divisor s2 = initBytes divisor s :=
    initBytes_congr (honly2.params.trans honly1.params) (honly2.div5.trans honly1.div5)
      (honly2.pinVal.trans honly1.pinVal) (honly2.pinDir.trans honly1.pinDir)
  rw [initConfigure_ok_dn himm2 (by rw [hdn2]; rfl) hconfigure, hbytes, hdn2]

/-! ### The commands of the last flush as instructions (R264) -/

/-- The prescaler command, on a high-speed chip. -/
def prescalerInstrs (s : State) : List Instr :=
  if s.hs then [if s.div5 then .div5On else .div5Off] else []

/-- The commands INIT sends after the handshake. -/
def initInstrs (divisor : Half) (s : State) : List Instr :=
  prescalerInstrs s ++
    [.setTckDivisor divisor, .setPinsLow (initPinVal s.pinVal) (initPinDir s.pinDir)] ++
    (entryInstrs .undefined ++ moveInstrs Cursor.undefined.origin .rti none false)

theorem prescalerInstrs_encode (s : State) :
    (prescalerInstrs s).map encode = if s.hs then [prescalerCommand s.div5] else [] := by
  rw [prescalerInstrs]
  split <;> rfl

theorem initInstrs_encode (divisor : Half) (s : State) :
    ((initInstrs divisor s).map encode).flatten = initBytes divisor s := by
  rw [← initCommands_flatten, initInstrs, List.map_append, List.map_append, prescalerInstrs_encode,
    (moveInstrs_entry_encode .undefined .rti).1]
  rfl

theorem decodes_setTckDivisor (divisor : Half) : Decodes (.setTckDivisor divisor) := by
  intro hs rest
  simp [encode, decodeCmd, cmdLen16, u16le]

theorem decodes_setPinsLow (val dir : Byte) : Decodes (.setPinsLow val dir) :=
  fun _ _ => rfl

theorem prescalerInstrs_decode {s : State} {i : Instr} (hi : i ∈ prescalerInstrs s)
    (rest : List Byte) : decodeCmd s.hs (encode i ++ rest) = .cmd i rest := by
  rw [prescalerInstrs] at hi
  split at hi
  next hhs =>
    obtain rfl := List.mem_singleton.1 hi
    rw [hhs]
    split <;> rfl
  next => cases hi

/-- The chip that INIT configures decodes each of its commands. -/
theorem initInstrs_decode {divisor : Half} {s : State} {i : Instr} (hi : i ∈ initInstrs divisor s)
    (rest : List Byte) : decodeCmd s.hs (encode i ++ rest) = .cmd i rest := by
  rcases List.mem_append.1 hi with hi | hmove
  · rcases List.mem_append.1 hi with hprescaler | hregister
    · exact prescalerInstrs_decode hprescaler rest
    · rcases List.mem_pair.1 hregister with rfl | rfl
      · exact decodes_setTckDivisor _ _ _
      · exact decodes_setPinsLow _ _ _ _
  · exact (moveInstrs_entry_encode .undefined .rti).2 i hmove _ _

/-! ### Their execution (R264, R124) -/

theorem prescalerInstrs_run (s : State) (d : Downstream) :
    (execCommands s.hs (prescalerInstrs s) d).rsp = d.rsp ∧
      (s.hs = true → (execCommands s.hs (prescalerInstrs s) d).div5 = s.div5) := by
  rw [prescalerInstrs]
  cases hhs : s.hs with
  | false => exact ⟨rfl, nofun⟩
  | true => cases s.div5 <;> exact ⟨rfl, fun _ => rfl⟩

/-- The bootstrap and the move to Run-Test/Idle are TMS commands, which write no register. -/
theorem bootstrapToIdle_registers (hs : Bool) (d : Downstream) :
    let e := execCommands hs
      (entryInstrs .undefined ++ moveInstrs Cursor.undefined.origin .rti none false) d
    e.divisor = d.divisor ∧ e.pinVal = d.pinVal ∧ e.pinDir = d.pinDir ∧ e.div5 = d.div5 := by
  have hbootstrap := clockTms_walked 6#3 0x7F#8 d
  have hmove := clockTms_walked 0#3 0x00#8 (clockTms 6#3 0x7F#8 d).2
  exact ⟨hmove.divisor.trans hbootstrap.divisor, hmove.pinVal.trans hbootstrap.pinVal,
    hmove.pinDir.trans hbootstrap.pinDir, hmove.div5.trans hbootstrap.div5⟩

/-- The target after INIT's commands is in Run-Test/Idle, held there by TMS, from whatever state; the
registers are as INIT sent them, and nothing was answered. -/
theorem initInstrs_run (divisor : Half) (s : State) (d : Downstream) :
    let e := execCommands s.hs (initInstrs divisor s) d
    e.tap = .runTestIdle ∧ tapNext e.tap e.tms = e.tap ∧ e.rsp = d.rsp ∧ e.divisor = divisor ∧
      e.pinVal = initPinVal s.pinVal ∧ e.pinDir = initPinDir s.pinDir ∧
      (s.hs = true → e.div5 = s.div5) := by
  let d1 := execCommands s.hs (prescalerInstrs s) d
  let d2 := setPinsLow (initPinVal s.pinVal) (initPinDir s.pinDir) (setTckDivisor divisor d1)
  have hrun : execCommands s.hs (initInstrs divisor s) d = execCommands s.hs
      (entryInstrs .undefined ++ moveInstrs Cursor.undefined.origin .rti none false) d2 :=
    (execCommands_append _ _ _ _).trans (congrArg _ (execCommands_append _ _ _ _))
  obtain ⟨hrsp, hdiv5⟩ := prescalerInstrs_run s d
  obtain ⟨htap, hheld, hquiet⟩ := move_run s.hs .undefined .rti d2 nofun
  obtain ⟨hdivisor, hval, hdir, hkept⟩ := bootstrapToIdle_registers s.hs d2
  rw [hrun]
  exact ⟨htap, hheld, hquiet.trans hrsp, hdivisor, hval, hdir, fun hhs => hkept.trans (hdiv5 hhs)⟩

/-! ### The target after a successful INIT -/

theorem initOp_success {divisor : Half} {s : State}
    (h : (finish (initOp divisor s)).status = .success) : ∃ b v, initOp divisor s = .ok b v := by
  by_cases hbad : s.params.divisorMax < divisor.toNat
  · rw [initOp_badDivisor hbad] at h
    cases h
  · obtain ⟨-, hraised, -⟩ := initOp_spec divisor s hbad
    cases hr : initOp divisor s with
    | ok b v => exact ⟨b, v, rfl⟩
    | raise e v =>
      obtain ⟨rfl | rfl, -⟩ := hraised e v hr <;> rw [hr] at h <;> cases h

/-- The downstream has executed INIT's commands when it has executed what it was sent. -/
theorem initOp_ok_run {divisor : Half} {s v : State} {b : List Byte} (himm : s.imm = [])
    (hparams : v.params = s.params) (h : initOp divisor s = .ok b v) :
    v.dn.run v.hs = execCommands s.hs (initInstrs divisor s) s.dn.begun := by
  rw [State.hs, hparams, initOp_ok_dn himm h, ← initInstrs_encode]
  exact run_encoded rfl rfl fun i hi => initInstrs_decode hi

/-- Settles O50: the bytes of the last flush wait behind nothing, so the downstream executes INIT's
commands from whatever state it was in. -/
theorem initBringsTheTargetToIdle : Obligations.InitBringsTheTargetToIdle := by
  unfold Obligations.InitBringsTheTargetToIdle
  intro s u divisor himm h hsuccess
  rw [exec_init] at h
  cases h
  obtain ⟨b, v, hv⟩ := initOp_success hsuccess
  obtain ⟨hkeeps, -, hok⟩ := initOp_spec divisor s (Nat.not_lt.2 (initOp_ok_legal hv))
  obtain ⟨-, hcursor, hsynced, hval, hdir, hdivisor⟩ := hok b v hv
  rw [hv, Res.state_ok] at hkeeps
  obtain ⟨htap, hheld, hrsp, hdivisor', hval', hdir', hdiv5⟩ :=
    initInstrs_run divisor s s.dn.begun
  obtain ⟨hmpsse, hinbox⟩ := execCommands_mpsse s.hs (initInstrs divisor s) s.dn.begun
  have hrun := initOp_ok_run himm hkeeps.params hv
  change (v.complete .success b).runDownstream.dn = _ at hrun
  have hstep : (v.complete .success b).runDownstream.InStep := by
    refine ⟨?_, ?_, fun a ha => ?_⟩ <;> rw [hrun]
    · exact hmpsse
    · exact hinbox
    · obtain rfl : DefState.rti = a := Cursor.known.inj (hcursor.symm.trans ha)
      exact ⟨htap, hheld⟩
  rw [hv, finish_ok, hrun]
  exact ⟨hcursor, hsynced, hstep, htap, hrsp, hdivisor, hdivisor', hval'.trans hval.symm,
    hdir'.trans hdir.symm, fun hhs =>
      (hdiv5 (hkeeps.params ▸ hhs : s.params.variant.hiSpeed = true)).trans hkeeps.div5.symm⟩

end Sys2Proof.Machine
end
